-- ==== Sys2Proof/Word.lean ====
section
/-! DEFINITION. The word types of the V810 (spec/00_scope.md R2). -/

namespace Sys2Proof

/-- A byte is 8 bits (R2). -/
abbrev Byte := BitVec 8

/-- A halfword is 16 bits (R2): one unit of an instruction, `hw0` or `hw1` (R4). -/
abbrev Half := BitVec 16

/-- A word is 32 bits: a general register, the pc, an address (R2). -/
abbrev Word := BitVec 32

/-- A 5-bit register field, `reg1` or `reg2` (R52). -/
abbrev RegIdx := BitVec 5

end Sys2Proof
end

