-- ==== Sys2Proof/Syntax.lean ====
section
/-! DEFINITION. The instructions of the V810: one constructor per row of spec/opcode_table.json, the
three rows of undefined primary opcodes among them. Operands stand in the order of the assembler
syntax (spec/30_encoding.md R66): source first, destination last. -/

namespace Sys2Proof

/-- An instruction as the decoder reads it; fields keep their encoded width. -/
inductive Instr where
  -- Format I (spec/40_reg_reg.md)
  | mov (reg1 reg2 : RegIdx)
  | add (reg1 reg2 : RegIdx)
  | sub (reg1 reg2 : RegIdx)
  | cmp (reg1 reg2 : RegIdx)
  | shl (reg1 reg2 : RegIdx)
  | shr (reg1 reg2 : RegIdx)
  | jmp (reg1 : RegIdx)
  | sar (reg1 reg2 : RegIdx)
  | mul (reg1 reg2 : RegIdx)
  | div (reg1 reg2 : RegIdx)
  | mulu (reg1 reg2 : RegIdx)
  | divu (reg1 reg2 : RegIdx)
  | or (reg1 reg2 : RegIdx)
  | and (reg1 reg2 : RegIdx)
  | xor (reg1 reg2 : RegIdx)
  | not (reg1 reg2 : RegIdx)
  -- Format II (spec/41_imm_reg.md); the imm5 forms of mov, add, cmp and the shifts end in `Imm`
  | movImm (imm5 : BitVec 5) (reg2 : RegIdx)
  | addImm (imm5 : BitVec 5) (reg2 : RegIdx)
  | setf (cond : BitVec 4) (reg2 : RegIdx)
  | cmpImm (imm5 : BitVec 5) (reg2 : RegIdx)
  | shlImm (imm5 : BitVec 5) (reg2 : RegIdx)
  | shrImm (imm5 : BitVec 5) (reg2 : RegIdx)
  | ei
  | sarImm (imm5 : BitVec 5) (reg2 : RegIdx)
  | trap (vector : BitVec 5)
  | reti
  | halt
  | udef1B
  | ldsr (reg2 : RegIdx) (sreg : BitVec 5)
  | stsr (sreg : BitVec 5) (reg2 : RegIdx)
  | di
  -- Opcode 0x1F (spec/45_bitstring.md); no operand field
  | sch0bsu
  | sch0bsd
  | sch1bsu
  | sch1bsd
  | orbsu
  | andbsu
  | xorbsu
  | movbsu
  | ornbsu
  | andnbsu
  | xornbsu
  | notbsu
  -- Format III (spec/42_branch.md)
  | bv (disp9 : BitVec 9)
  | bl (disp9 : BitVec 9)
  | be (disp9 : BitVec 9)
  | bnh (disp9 : BitVec 9)
  | bn (disp9 : BitVec 9)
  | br (disp9 : BitVec 9)
  | blt (disp9 : BitVec 9)
  | ble (disp9 : BitVec 9)
  | bnv (disp9 : BitVec 9)
  | bnl (disp9 : BitVec 9)
  | bne (disp9 : BitVec 9)
  | bh (disp9 : BitVec 9)
  | bp (disp9 : BitVec 9)
  | nop
  | bge (disp9 : BitVec 9)
  | bgt (disp9 : BitVec 9)
  -- Formats V and IV (spec/43_imm16_jump.md)
  | movea (imm16 : BitVec 16) (reg1 reg2 : RegIdx)
  | addi (imm16 : BitVec 16) (reg1 reg2 : RegIdx)
  | jr (disp26 : BitVec 26)
  | jal (disp26 : BitVec 26)
  | ori (imm16 : BitVec 16) (reg1 reg2 : RegIdx)
  | andi (imm16 : BitVec 16) (reg1 reg2 : RegIdx)
  | xori (imm16 : BitVec 16) (reg1 reg2 : RegIdx)
  | movhi (imm16 : BitVec 16) (reg1 reg2 : RegIdx)
  -- Format VI (spec/44_load_store.md)
  | ldB (disp16 : BitVec 16) (reg1 reg2 : RegIdx)
  | ldH (disp16 : BitVec 16) (reg1 reg2 : RegIdx)
  | udef32
  | ldW (disp16 : BitVec 16) (reg1 reg2 : RegIdx)
  | stB (reg2 : RegIdx) (disp16 : BitVec 16) (reg1 : RegIdx)
  | stH (reg2 : RegIdx) (disp16 : BitVec 16) (reg1 : RegIdx)
  | udef36
  | stW (reg2 : RegIdx) (disp16 : BitVec 16) (reg1 : RegIdx)
  | inB (disp16 : BitVec 16) (reg1 reg2 : RegIdx)
  | inH (disp16 : BitVec 16) (reg1 reg2 : RegIdx)
  | caxi (disp16 : BitVec 16) (reg1 reg2 : RegIdx)
  | inW (disp16 : BitVec 16) (reg1 reg2 : RegIdx)
  | outB (reg2 : RegIdx) (disp16 : BitVec 16) (reg1 : RegIdx)
  | outH (reg2 : RegIdx) (disp16 : BitVec 16) (reg1 : RegIdx)
  | outW (reg2 : RegIdx) (disp16 : BitVec 16) (reg1 : RegIdx)
  -- Format VII (spec/46_float.md)
  | cmpfS (reg1 reg2 : RegIdx)
  | cvtWS (reg1 reg2 : RegIdx)
  | cvtSW (reg1 reg2 : RegIdx)
  | addfS (reg1 reg2 : RegIdx)
  | subfS (reg1 reg2 : RegIdx)
  | mulfS (reg1 reg2 : RegIdx)
  | divfS (reg1 reg2 : RegIdx)
  | trncSW (reg1 reg2 : RegIdx)
  deriving DecidableEq, Repr

end Sys2Proof
end

