-- ==== Sys2Proof/WellFormed.lean ====
section
/-! DEFINITION. Which instruction terms stand for an encoding: the operands of a branch and of `jr`,
`jal` are even displacements (spec/30_encoding.md R54, R55, R61); every other field may hold any
value of its width. -/

namespace Sys2Proof

/-- A displacement is even: its bit 0 is the constant 0 of the format III figure, or the bit that
`jr` masks off (R54, R55). -/
def evenDisp {n : Nat} (d : BitVec n) : Bool := d.getLsbD 0 == false

/-- The check of an instruction term. -/
def Instr.wellFormed : Instr → Bool
  | .bv d | .bl d | .be d | .bnh d | .bn d | .br d | .blt d | .ble d => evenDisp d
  | .bnv d | .bnl d | .bne d | .bh d | .bp d | .bge d | .bgt d => evenDisp d
  | .jr d | .jal d => evenDisp d
  | .mov _ _ | .add _ _ | .sub _ _ | .cmp _ _ | .shl _ _ | .shr _ _ | .jmp _ | .sar _ _ => true
  | .mul _ _ | .div _ _ | .mulu _ _ | .divu _ _ | .or _ _ | .and _ _ | .xor _ _ | .not _ _ => true
  | .movImm _ _ | .addImm _ _ | .setf _ _ | .cmpImm _ _ | .shlImm _ _ | .shrImm _ _ => true
  | .ei | .sarImm _ _ | .trap _ | .reti | .halt | .udef1B | .ldsr _ _ | .stsr _ _ | .di => true
  | .sch0bsu | .sch0bsd | .sch1bsu | .sch1bsd | .orbsu | .andbsu | .xorbsu | .movbsu => true
  | .ornbsu | .andnbsu | .xornbsu | .notbsu | .nop => true
  | .movea _ _ _ | .addi _ _ _ | .ori _ _ _ | .andi _ _ _ | .xori _ _ _ | .movhi _ _ _ => true
  | .ldB _ _ _ | .ldH _ _ _ | .udef32 | .ldW _ _ _ | .stB _ _ _ | .stH _ _ _ | .udef36 => true
  | .stW _ _ _ | .inB _ _ _ | .inH _ _ _ | .caxi _ _ _ | .inW _ _ _ => true
  | .outB _ _ _ | .outH _ _ _ | .outW _ _ _ => true
  | .cmpfS _ _ | .cvtWS _ _ | .cvtSW _ _ | .addfS _ _ | .subfS _ _ | .mulfS _ _ => true
  | .divfS _ _ | .trncSW _ _ => true

end Sys2Proof
end

