-- ==== Sys2Proof/Decode.lean ====
section
/-! DEFINITION. Decoding and encoding (spec/30_encoding.md). An instruction is one or two halfwords,
`hw0` first; the decoder is total on every pair of halfwords (R65) and on every list of bytes. -/

namespace Sys2Proof

/-- Why the bytes are no instruction of the listing. An undefined sub-opcode is an undefined
instruction (R71, R72); the machine raises invalid opcode for it. -/
inductive DecodeError where
  /-- The list of bytes ends before the instruction does. -/
  | truncated
  /-- Opcode 0x1F with `imm5` in 0x04-0x07 or 0x10-0x1F (R71). -/
  | undefinedBitString (sub : BitVec 5)
  /-- Opcode 0x3E with a sub-opcode that is no row (R72). -/
  | undefinedFloat (sub : BitVec 6)
  /-- A primary opcode of no row: there is none (R73), so the decoder never answers it. -/
  | noRow (opcode : BitVec 6)
  deriving DecidableEq, Repr

/-- A field the instruction does not use (R76). -/
inductive UnusedField where
  | reg2
  | imm5
  | imm5Bit4
  | disp9
  | disp9Bit0
  | disp26Bit0
  | rfu
  deriving DecidableEq, Repr

/-! ## Fields (R51-R58) -/

/-- The 6-bit opcode `insn[15:10]` (R51). -/
def opcodeOf (hw0 : Half) : BitVec 6 := hw0.extractLsb' 10 6

/-- `reg2` = `insn[9:5]` (R52). -/
def reg2Of (hw0 : Half) : RegIdx := hw0.extractLsb' 5 5

/-- `reg1`, or `imm5`, = `insn[4:0]` (R52, R53). -/
def reg1Of (hw0 : Half) : RegIdx := hw0.extractLsb' 0 5

/-- `insn[15:13]` = 100: the opcode is 0x20-0x27 and the word is a format III word (R51). -/
def isBranch (hw0 : Half) : Bool := hw0.extractLsb' 13 3 == 0b100#3

/-- The condition number `insn[12:9]` of a format III word (R51, R120). -/
def condOf (hw0 : Half) : BitVec 4 := hw0.extractLsb' 9 4

/-- `disp9` with its bit 0 taken as the constant 0 of the figure: `insn[8:1] ++ 0b0` (R54). -/
def disp9Of (hw0 : Half) : BitVec 9 := hw0.extractLsb' 1 8 ++ 0#1

/-- `disp26` = `hw0[9:0] ++ hw1[15:0]`, its bit 0 masked off (R55, R61). -/
def disp26Of (hw0 hw1 : Half) : BitVec 26 := hw0.extractLsb' 0 10 ++ hw1.extractLsb' 1 15 ++ 0#1

/-- Opcodes 0x28-0x3F are 32 bits long, the others 16 (R50). -/
def isLong (hw0 : Half) : Bool := 0x28 ≤ (opcodeOf hw0).toNat

/-- The length in bytes that the first halfword gives (R50). -/
def lengthOf (hw0 : Half) : Nat := if isLong hw0 then 4 else 2

/-! ## Decoding (R62-R65) -/

/-- The bit-string group, sub-opcode in `imm5` (R63, R71). -/
def decodeBitString (sub : BitVec 5) : Except DecodeError Instr :=
  match sub with
  | 0x00#5 => .ok .sch0bsu
  | 0x01#5 => .ok .sch0bsd
  | 0x02#5 => .ok .sch1bsu
  | 0x03#5 => .ok .sch1bsd
  | 0x08#5 => .ok .orbsu
  | 0x09#5 => .ok .andbsu
  | 0x0A#5 => .ok .xorbsu
  | 0x0B#5 => .ok .movbsu
  | 0x0C#5 => .ok .ornbsu
  | 0x0D#5 => .ok .andnbsu
  | 0x0E#5 => .ok .xornbsu
  | 0x0F#5 => .ok .notbsu
  | _ => .error (.undefinedBitString sub)

/-- The floating-point group, sub-opcode in `insn[31:26]` (R64, R72). -/
def decodeFloat (sub : BitVec 6) (reg1 reg2 : RegIdx) : Except DecodeError Instr :=
  match sub with
  | 0x00#6 => .ok (.cmpfS reg1 reg2)
  | 0x02#6 => .ok (.cvtWS reg1 reg2)
  | 0x03#6 => .ok (.cvtSW reg1 reg2)
  | 0x04#6 => .ok (.addfS reg1 reg2)
  | 0x05#6 => .ok (.subfS reg1 reg2)
  | 0x06#6 => .ok (.mulfS reg1 reg2)
  | 0x07#6 => .ok (.divfS reg1 reg2)
  | 0x0B#6 => .ok (.trncSW reg1 reg2)
  | _ => .error (.undefinedFloat sub)

/-- The sixteen format III encodings by condition number; the last row is condition 15 (R62). -/
def decodeBranch (cond : BitVec 4) (d : BitVec 9) : Instr :=
  match cond with
  | 0x0#4 => .bv d
  | 0x1#4 => .bl d
  | 0x2#4 => .be d
  | 0x3#4 => .bnh d
  | 0x4#4 => .bn d
  | 0x5#4 => .br d
  | 0x6#4 => .blt d
  | 0x7#4 => .ble d
  | 0x8#4 => .bnv d
  | 0x9#4 => .bnl d
  | 0xA#4 => .bne d
  | 0xB#4 => .bh d
  | 0xC#4 => .bp d
  | 0xD#4 => .nop
  | 0xE#4 => .bge d
  | _ => .bgt d

/-- The rows of the primary opcodes other than 0x20-0x27 (R62). -/
def decodeRow (op : BitVec 6) (reg1 reg2 : RegIdx) (hw0 hw1 : Half) : Except DecodeError Instr :=
  match op with
  | 0x00#6 => .ok (.mov reg1 reg2)
  | 0x01#6 => .ok (.add reg1 reg2)
  | 0x02#6 => .ok (.sub reg1 reg2)
  | 0x03#6 => .ok (.cmp reg1 reg2)
  | 0x04#6 => .ok (.shl reg1 reg2)
  | 0x05#6 => .ok (.shr reg1 reg2)
  | 0x06#6 => .ok (.jmp reg1)
  | 0x07#6 => .ok (.sar reg1 reg2)
  | 0x08#6 => .ok (.mul reg1 reg2)
  | 0x09#6 => .ok (.div reg1 reg2)
  | 0x0A#6 => .ok (.mulu reg1 reg2)
  | 0x0B#6 => .ok (.divu reg1 reg2)
  | 0x0C#6 => .ok (.or reg1 reg2)
  | 0x0D#6 => .ok (.and reg1 reg2)
  | 0x0E#6 => .ok (.xor reg1 reg2)
  | 0x0F#6 => .ok (.not reg1 reg2)
  | 0x10#6 => .ok (.movImm reg1 reg2)
  | 0x11#6 => .ok (.addImm reg1 reg2)
  | 0x12#6 => .ok (.setf (reg1.extractLsb' 0 4) reg2)
  | 0x13#6 => .ok (.cmpImm reg1 reg2)
  | 0x14#6 => .ok (.shlImm reg1 reg2)
  | 0x15#6 => .ok (.shrImm reg1 reg2)
  | 0x16#6 => .ok .ei
  | 0x17#6 => .ok (.sarImm reg1 reg2)
  | 0x18#6 => .ok (.trap reg1)
  | 0x19#6 => .ok .reti
  | 0x1A#6 => .ok .halt
  | 0x1B#6 => .ok .udef1B
  | 0x1C#6 => .ok (.ldsr reg2 reg1)
  | 0x1D#6 => .ok (.stsr reg1 reg2)
  | 0x1E#6 => .ok .di
  | 0x1F#6 => decodeBitString reg1
  | 0x28#6 => .ok (.movea hw1 reg1 reg2)
  | 0x29#6 => .ok (.addi hw1 reg1 reg2)
  | 0x2A#6 => .ok (.jr (disp26Of hw0 hw1))
  | 0x2B#6 => .ok (.jal (disp26Of hw0 hw1))
  | 0x2C#6 => .ok (.ori hw1 reg1 reg2)
  | 0x2D#6 => .ok (.andi hw1 reg1 reg2)
  | 0x2E#6 => .ok (.xori hw1 reg1 reg2)
  | 0x2F#6 => .ok (.movhi hw1 reg1 reg2)
  | 0x30#6 => .ok (.ldB hw1 reg1 reg2)
  | 0x31#6 => .ok (.ldH hw1 reg1 reg2)
  | 0x32#6 => .ok .udef32
  | 0x33#6 => .ok (.ldW hw1 reg1 reg2)
  | 0x34#6 => .ok (.stB reg2 hw1 reg1)
  | 0x35#6 => .ok (.stH reg2 hw1 reg1)
  | 0x36#6 => .ok .udef36
  | 0x37#6 => .ok (.stW reg2 hw1 reg1)
  | 0x38#6 => .ok (.inB hw1 reg1 reg2)
  | 0x39#6 => .ok (.inH hw1 reg1 reg2)
  | 0x3A#6 => .ok (.caxi hw1 reg1 reg2)
  | 0x3B#6 => .ok (.inW hw1 reg1 reg2)
  | 0x3C#6 => .ok (.outB reg2 hw1 reg1)
  | 0x3D#6 => .ok (.outH reg2 hw1 reg1)
  | 0x3E#6 => decodeFloat (hw1.extractLsb' 10 6) reg1 reg2
  | 0x3F#6 => .ok (.outW reg2 hw1 reg1)
  | _ => .error (.noRow op)

/-- The decoder on the two halfwords; `hw1` counts only for a 32-bit instruction (R65). -/
def decodeWords (hw0 hw1 : Half) : Except DecodeError Instr :=
  if isBranch hw0 then .ok (decodeBranch (condOf hw0) (disp9Of hw0))
  else decodeRow (opcodeOf hw0) (reg1Of hw0) (reg2Of hw0) hw0 hw1

/-- Two bytes in address order as a little-endian halfword (spec/20_memory.md R31, R32). -/
def halfOfBytes (b0 b1 : Byte) : Half := b1 ++ b0

/-- The instruction at the head of a list of bytes, with the bytes after it. -/
def decode (bytes : List Byte) : Except DecodeError (Instr × List Byte) :=
  match bytes with
  | b0 :: b1 :: rest =>
    if isLong (halfOfBytes b0 b1) then
      match rest with
      | b2 :: b3 :: rest' =>
        match decodeWords (halfOfBytes b0 b1) (halfOfBytes b2 b3) with
        | .ok i => .ok (i, rest')
        | .error e => .error e
      | _ => .error .truncated
    else
      match decodeWords (halfOfBytes b0 b1) 0 with
      | .ok i => .ok (i, rest)
      | .error e => .error e
  | _ => .error .truncated

/-! ## Encoding (R52-R58) -/

/-- The first halfword of every format but III and IV: opcode, reg2, and reg1 or imm5. -/
def fmtI (op : BitVec 6) (reg2 lo : BitVec 5) : Half := op ++ reg2 ++ lo

/-- A format III word: the 7-bit opcode 0x40 + condition, then `disp9` (R54). -/
def fmtIII (cond : BitVec 4) (d : BitVec 9) : Half := 0b100#3 ++ cond ++ d

/-- The two halfwords of format IV: the high ten bits of `disp26` in `hw0` (R55). -/
def fmtIV (op : BitVec 6) (d : BitVec 26) : List Half :=
  [op ++ d.extractLsb' 16 10, d.extractLsb' 0 16]

/-- The second halfword of format VII: sub-opcode and ten RFU bits of 0 (R58). -/
def fmtSub (sub : BitVec 6) : Half := sub ++ 0#10

/-- The halfwords of an instruction, every unused field 0 (R76). -/
def encode (i : Instr) : List Half :=
  match i with
  | .mov reg1 reg2 => [fmtI 0x00#6 reg2 reg1]
  | .add reg1 reg2 => [fmtI 0x01#6 reg2 reg1]
  | .sub reg1 reg2 => [fmtI 0x02#6 reg2 reg1]
  | .cmp reg1 reg2 => [fmtI 0x03#6 reg2 reg1]
  | .shl reg1 reg2 => [fmtI 0x04#6 reg2 reg1]
  | .shr reg1 reg2 => [fmtI 0x05#6 reg2 reg1]
  | .jmp reg1 => [fmtI 0x06#6 0 reg1]
  | .sar reg1 reg2 => [fmtI 0x07#6 reg2 reg1]
  | .mul reg1 reg2 => [fmtI 0x08#6 reg2 reg1]
  | .div reg1 reg2 => [fmtI 0x09#6 reg2 reg1]
  | .mulu reg1 reg2 => [fmtI 0x0A#6 reg2 reg1]
  | .divu reg1 reg2 => [fmtI 0x0B#6 reg2 reg1]
  | .or reg1 reg2 => [fmtI 0x0C#6 reg2 reg1]
  | .and reg1 reg2 => [fmtI 0x0D#6 reg2 reg1]
  | .xor reg1 reg2 => [fmtI 0x0E#6 reg2 reg1]
  | .not reg1 reg2 => [fmtI 0x0F#6 reg2 reg1]
  | .movImm imm5 reg2 => [fmtI 0x10#6 reg2 imm5]
  | .addImm imm5 reg2 => [fmtI 0x11#6 reg2 imm5]
  | .setf cond reg2 => [fmtI 0x12#6 reg2 (0#1 ++ cond)]
  | .cmpImm imm5 reg2 => [fmtI 0x13#6 reg2 imm5]
  | .shlImm imm5 reg2 => [fmtI 0x14#6 reg2 imm5]
  | .shrImm imm5 reg2 => [fmtI 0x15#6 reg2 imm5]
  | .ei => [fmtI 0x16#6 0 0]
  | .sarImm imm5 reg2 => [fmtI 0x17#6 reg2 imm5]
  | .trap vector => [fmtI 0x18#6 0 vector]
  | .reti => [fmtI 0x19#6 0 0]
  | .halt => [fmtI 0x1A#6 0 0]
  | .udef1B => [fmtI 0x1B#6 0 0]
  | .ldsr reg2 sreg => [fmtI 0x1C#6 reg2 sreg]
  | .stsr sreg reg2 => [fmtI 0x1D#6 reg2 sreg]
  | .di => [fmtI 0x1E#6 0 0]
  | .sch0bsu => [fmtI 0x1F#6 0 0x00#5]
  | .sch0bsd => [fmtI 0x1F#6 0 0x01#5]
  | .sch1bsu => [fmtI 0x1F#6 0 0x02#5]
  | .sch1bsd => [fmtI 0x1F#6 0 0x03#5]
  | .orbsu => [fmtI 0x1F#6 0 0x08#5]
  | .andbsu => [fmtI 0x1F#6 0 0x09#5]
  | .xorbsu => [fmtI 0x1F#6 0 0x0A#5]
  | .movbsu => [fmtI 0x1F#6 0 0x0B#5]
  | .ornbsu => [fmtI 0x1F#6 0 0x0C#5]
  | .andnbsu => [fmtI 0x1F#6 0 0x0D#5]
  | .xornbsu => [fmtI 0x1F#6 0 0x0E#5]
  | .notbsu => [fmtI 0x1F#6 0 0x0F#5]
  | .bv d => [fmtIII 0x0#4 d]
  | .bl d => [fmtIII 0x1#4 d]
  | .be d => [fmtIII 0x2#4 d]
  | .bnh d => [fmtIII 0x3#4 d]
  | .bn d => [fmtIII 0x4#4 d]
  | .br d => [fmtIII 0x5#4 d]
  | .blt d => [fmtIII 0x6#4 d]
  | .ble d => [fmtIII 0x7#4 d]
  | .bnv d => [fmtIII 0x8#4 d]
  | .bnl d => [fmtIII 0x9#4 d]
  | .bne d => [fmtIII 0xA#4 d]
  | .bh d => [fmtIII 0xB#4 d]
  | .bp d => [fmtIII 0xC#4 d]
  | .nop => [fmtIII 0xD#4 0]
  | .bge d => [fmtIII 0xE#4 d]
  | .bgt d => [fmtIII 0xF#4 d]
  | .movea imm16 reg1 reg2 => [fmtI 0x28#6 reg2 reg1, imm16]
  | .addi imm16 reg1 reg2 => [fmtI 0x29#6 reg2 reg1, imm16]
  | .jr d => fmtIV 0x2A#6 d
  | .jal d => fmtIV 0x2B#6 d
  | .ori imm16 reg1 reg2 => [fmtI 0x2C#6 reg2 reg1, imm16]
  | .andi imm16 reg1 reg2 => [fmtI 0x2D#6 reg2 reg1, imm16]
  | .xori imm16 reg1 reg2 => [fmtI 0x2E#6 reg2 reg1, imm16]
  | .movhi imm16 reg1 reg2 => [fmtI 0x2F#6 reg2 reg1, imm16]
  | .ldB disp16 reg1 reg2 => [fmtI 0x30#6 reg2 reg1, disp16]
  | .ldH disp16 reg1 reg2 => [fmtI 0x31#6 reg2 reg1, disp16]
  | .udef32 => [fmtI 0x32#6 0 0, 0]
  | .ldW disp16 reg1 reg2 => [fmtI 0x33#6 reg2 reg1, disp16]
  | .stB reg2 disp16 reg1 => [fmtI 0x34#6 reg2 reg1, disp16]
  | .stH reg2 disp16 reg1 => [fmtI 0x35#6 reg2 reg1, disp16]
  | .udef36 => [fmtI 0x36#6 0 0, 0]
  | .stW reg2 disp16 reg1 => [fmtI 0x37#6 reg2 reg1, disp16]
  | .inB disp16 reg1 reg2 => [fmtI 0x38#6 reg2 reg1, disp16]
  | .inH disp16 reg1 reg2 => [fmtI 0x39#6 reg2 reg1, disp16]
  | .caxi disp16 reg1 reg2 => [fmtI 0x3A#6 reg2 reg1, disp16]
  | .inW disp16 reg1 reg2 => [fmtI 0x3B#6 reg2 reg1, disp16]
  | .outB reg2 disp16 reg1 => [fmtI 0x3C#6 reg2 reg1, disp16]
  | .outH reg2 disp16 reg1 => [fmtI 0x3D#6 reg2 reg1, disp16]
  | .outW reg2 disp16 reg1 => [fmtI 0x3F#6 reg2 reg1, disp16]
  | .cmpfS reg1 reg2 => [fmtI 0x3E#6 reg2 reg1, fmtSub 0x00#6]
  | .cvtWS reg1 reg2 => [fmtI 0x3E#6 reg2 reg1, fmtSub 0x02#6]
  | .cvtSW reg1 reg2 => [fmtI 0x3E#6 reg2 reg1, fmtSub 0x03#6]
  | .addfS reg1 reg2 => [fmtI 0x3E#6 reg2 reg1, fmtSub 0x04#6]
  | .subfS reg1 reg2 => [fmtI 0x3E#6 reg2 reg1, fmtSub 0x05#6]
  | .mulfS reg1 reg2 => [fmtI 0x3E#6 reg2 reg1, fmtSub 0x06#6]
  | .divfS reg1 reg2 => [fmtI 0x3E#6 reg2 reg1, fmtSub 0x07#6]
  | .trncSW reg1 reg2 => [fmtI 0x3E#6 reg2 reg1, fmtSub 0x0B#6]

/-- The bytes of a list of halfwords in address order, each halfword low byte first (R31). -/
def bytesOfHalves (hws : List Half) : List Byte :=
  match hws with
  | [] => []
  | h :: t => h.extractLsb' 0 8 :: h.extractLsb' 8 8 :: bytesOfHalves t

/-- The bytes of an instruction as they lie in memory. -/
def encodeBytes (i : Instr) : List Byte := bytesOfHalves (encode i)

/-- The length of an instruction in bytes. -/
def Instr.length (i : Instr) : Nat := 2 * (encode i).length

/-! ## Unused fields (R76) -/

/-- The name of the row in the opcode table. -/
def Instr.mnemonic (i : Instr) : String :=
  match i with
  | .mov _ _ => "mov"
  | .add _ _ => "add"
  | .sub _ _ => "sub"
  | .cmp _ _ => "cmp"
  | .shl _ _ => "shl"
  | .shr _ _ => "shr"
  | .jmp _ => "jmp"
  | .sar _ _ => "sar"
  | .mul _ _ => "mul"
  | .div _ _ => "div"
  | .mulu _ _ => "mulu"
  | .divu _ _ => "divu"
  | .or _ _ => "or"
  | .and _ _ => "and"
  | .xor _ _ => "xor"
  | .not _ _ => "not"
  | .movImm _ _ => "mov"
  | .addImm _ _ => "add"
  | .setf _ _ => "setf"
  | .cmpImm _ _ => "cmp"
  | .shlImm _ _ => "shl"
  | .shrImm _ _ => "shr"
  | .ei => "ei"
  | .sarImm _ _ => "sar"
  | .trap _ => "trap"
  | .reti => "reti"
  | .halt => "halt"
  | .udef1B => "udef.1b"
  | .ldsr _ _ => "ldsr"
  | .stsr _ _ => "stsr"
  | .di => "di"
  | .sch0bsu => "sch0bsu"
  | .sch0bsd => "sch0bsd"
  | .sch1bsu => "sch1bsu"
  | .sch1bsd => "sch1bsd"
  | .orbsu => "orbsu"
  | .andbsu => "andbsu"
  | .xorbsu => "xorbsu"
  | .movbsu => "movbsu"
  | .ornbsu => "ornbsu"
  | .andnbsu => "andnbsu"
  | .xornbsu => "xornbsu"
  | .notbsu => "notbsu"
  | .bv _ => "bv"
  | .bl _ => "bl"
  | .be _ => "be"
  | .bnh _ => "bnh"
  | .bn _ => "bn"
  | .br _ => "br"
  | .blt _ => "blt"
  | .ble _ => "ble"
  | .bnv _ => "bnv"
  | .bnl _ => "bnl"
  | .bne _ => "bne"
  | .bh _ => "bh"
  | .bp _ => "bp"
  | .nop => "nop"
  | .bge _ => "bge"
  | .bgt _ => "bgt"
  | .movea _ _ _ => "movea"
  | .addi _ _ _ => "addi"
  | .jr _ => "jr"
  | .jal _ => "jal"
  | .ori _ _ _ => "ori"
  | .andi _ _ _ => "andi"
  | .xori _ _ _ => "xori"
  | .movhi _ _ _ => "movhi"
  | .ldB _ _ _ => "ld.b"
  | .ldH _ _ _ => "ld.h"
  | .udef32 => "udef.32"
  | .ldW _ _ _ => "ld.w"
  | .stB _ _ _ => "st.b"
  | .stH _ _ _ => "st.h"
  | .udef36 => "udef.36"
  | .stW _ _ _ => "st.w"
  | .inB _ _ _ => "in.b"
  | .inH _ _ _ => "in.h"
  | .caxi _ _ _ => "caxi"
  | .inW _ _ _ => "in.w"
  | .outB _ _ _ => "out.b"
  | .outH _ _ _ => "out.h"
  | .outW _ _ _ => "out.w"
  | .cmpfS _ _ => "cmpf.s"
  | .cvtWS _ _ => "cvt.ws"
  | .cvtSW _ _ => "cvt.sw"
  | .addfS _ _ => "addf.s"
  | .subfS _ _ => "subf.s"
  | .mulfS _ _ => "mulf.s"
  | .divfS _ _ => "divf.s"
  | .trncSW _ _ => "trnc.sw"

/-- The field that the instruction read from `hw0`, `hw1` leaves unused and that is not 0 there;
`none` when every unused bit is 0 (the table of R76). Where both `reg2` and `imm5` are non-zero `reg2` is
named: DESIGN CHOICE, log entry 8, for R76 says only that the refusal names the field. -/
def unusedField (i : Instr) (hw0 hw1 : Half) : Option UnusedField :=
  match i with
  | .jmp _ | .trap _ => if reg2Of hw0 = 0 then none else some .reg2
  | .reti | .halt | .ei | .di =>
    if reg2Of hw0 ≠ 0 then some .reg2 else if reg1Of hw0 ≠ 0 then some .imm5 else none
  | .setf _ _ => if hw0.getLsbD 4 then some .imm5Bit4 else none
  | .sch0bsu | .sch0bsd | .sch1bsu | .sch1bsd | .orbsu | .andbsu | .xorbsu | .movbsu
  | .ornbsu | .andnbsu | .xornbsu | .notbsu => if reg2Of hw0 = 0 then none else some .reg2
  | .nop => if hw0.extractLsb' 0 9 = 0 then none else some .disp9
  | .bv _ | .bl _ | .be _ | .bnh _ | .bn _ | .br _ | .blt _ | .ble _ | .bnv _ | .bnl _ | .bne _
  | .bh _ | .bp _ | .bge _ | .bgt _ => if hw0.getLsbD 0 then some .disp9Bit0 else none
  | .jr _ | .jal _ => if hw1.getLsbD 0 then some .disp26Bit0 else none
  | .cmpfS _ _ | .cvtWS _ _ | .cvtSW _ _ | .addfS _ _ | .subfS _ _ | .mulfS _ _ | .divfS _ _
  | .trncSW _ _ => if hw1.extractLsb' 0 10 = 0 then none else some .rfu
  | .mov _ _ | .add _ _ | .sub _ _ | .cmp _ _ | .shl _ _ | .shr _ _ | .sar _ _ | .mul _ _
  | .div _ _ | .mulu _ _ | .divu _ _ | .or _ _ | .and _ _ | .xor _ _ | .not _ _ => none
  | .movImm _ _ | .addImm _ _ | .cmpImm _ _ | .shlImm _ _ | .shrImm _ _ | .sarImm _ _
  | .ldsr _ _ | .stsr _ _ | .udef1B | .udef32 | .udef36 => none
  | .movea _ _ _ | .addi _ _ _ | .ori _ _ _ | .andi _ _ _ | .xori _ _ _ | .movhi _ _ _ => none
  | .ldB _ _ _ | .ldH _ _ _ | .ldW _ _ _ | .stB _ _ _ | .stH _ _ _ | .stW _ _ _ | .inB _ _ _
  | .inH _ _ _ | .caxi _ _ _ | .inW _ _ _ | .outB _ _ _ | .outH _ _ _ | .outW _ _ _ => none

/-! ## The host's probe -/

/-- The four bytes of an instruction whose low `nbits` bits are `w`, numbered as the opcode table
numbers them; the bits above are 0. -/
def tableBytes (nbits w : Nat) : List Byte :=
  (List.range 4).map fun k => if 8 * k < nbits then BitVec.ofNat 8 (w / 2 ^ (8 * k)) else 0

/-- The instruction the decoder reads from those bytes. -/
def decodeTableWord (nbits w : Nat) : Option Instr :=
  match decode (tableBytes nbits w) with
  | .ok (i, _) => some i
  | .error _ => none

end Sys2Proof
end

