-- ==== Sys2Proof/Config.lean ====
section
/-! DEFINITION. What the spec leaves to an implementation or a platform: the parameters of
spec/00_scope.md R3 as plain data (the structure `Config`, carried unchanged in State, so that a
statement over every state holds for every value of every parameter), and the free values, constants
with no body of which nothing can be proved. -/

namespace Sys2Proof

/-- `LOGIC_IMM16_EXT`: how `ori`, `andi`, `xori` extend `imm16` (R144). -/
inductive ImmExt where
  | sign
  | zero
  deriving DecidableEq, Repr, Inhabited

/-- `TRNC_SW_RESULT`: the range of `trnc.sw` (R200). -/
inductive TrncResult where
  | unsigned
  | signed
  deriving DecidableEq, Repr, Inhabited

/-- `SCH_FOUND_POINTER`: where a search that hits leaves its pointer (R174). -/
inductive FoundPointer where
  | atFound
  | afterFound
  | beforeFound
  deriving DecidableEq, Repr, Inhabited

/-- `UNDEFINED_OPCODE` (R70). -/
inductive UndefinedOpcode where
  | exception
  | refuse
  deriving DecidableEq, Repr, Inhabited

/-- `FATAL_ACTION` (R219). -/
inductive FatalAction where
  | stop
  | stopWithDump
  deriving DecidableEq, Repr, Inhabited

/-- `ICACHE` (R46). -/
inductive ICacheKind where
  | none
  | coherent
  | explicitClear
  deriving DecidableEq, Repr, Inhabited

/-- `FP_UNDERFLOW_ZERO` (R191). -/
inductive UnderflowZero where
  | positive
  | signed
  deriving DecidableEq, Repr, Inhabited

/-- What `MEM_MAP` says of a memory address (R41). -/
inductive MemKind where
  | ram
  | rom
  | device
  | none
  deriving DecidableEq, Repr, Inhabited

/-- What `IO_MAP` says of a port (R33): a device, plain storage (the port space of R10), the memory
space at the same address, or nothing (R48). -/
inductive IoKind where
  | device
  | storage
  | aliasMemory
  | none
  deriving DecidableEq, Repr, Inhabited

/-- The bytes `first`..`last` of memory, of one kind. -/
structure MemRegion where
  first : Nat
  last : Nat
  kind : MemKind
  deriving DecidableEq, Repr

/-- The port bytes `first`..`last`, of one kind. -/
structure IoRegion where
  first : Nat
  last : Nat
  kind : IoKind
  deriving DecidableEq, Repr

/-- The outcome of a floating-point operation: a result with the sticky bits FUD and FPR it sets, or the
condition that raises an exception and sets its own sticky bit (R191). -/
inductive FloatOutcome where
  | value (r : Word) (fud fpr : Bool)
  | reserved
  | invalid
  | zeroDivision
  | overflow
  deriving DecidableEq, Repr, Inhabited

/-- What a function of the record `FP` answers (R3): an outcome, and the sticky bits it sets besides those
of the outcome, FPR in bit 0, then FUD, FOV, FZD, FIV, FRO (the order of PSW bits 4 to 9, R20). -/
structure FpAnswer where
  outcome : FloatOutcome
  sticky : BitVec 6
  deriving DecidableEq, Repr, Inhabited

/-- The record `FP` of R3 (D34): the binary32 arithmetic the spec suggests (Machine/FloatFormat.lean,
under the two `fp` fields of `Config`), or total functions of which nothing is known (`Config.fpAdd`
and its companions). -/
inductive FpUnit where
  | binary32
  | platform
  deriving DecidableEq, Repr, Inhabited

/-- The parameters of R3 that choose among behaviours. `PIR_VALUE` and `TKCW_VALUE` are the contents
of two registers of State; `IRQ_SOURCES` is State's list of input samples. The maps are functions of
the byte address, given by ranges; the first range that holds an address decides. -/
structure Config where
  logicImm16Ext : ImmExt
  trncSwResult : TrncResult
  hasEiDi : Bool
  strictUnusedFields : Bool
  undefinedOpcode : UndefinedOpcode
  memMap : List MemRegion
  ioMap : List IoRegion
  icache : ICacheKind
  fatalAction : FatalAction
  schFoundPointer : FoundPointer
  fp : FpUnit
  fpReservedInf : Bool
  fpUnderflowZero : UnderflowZero
  deriving DecidableEq, Repr

/-- The two address spaces (R30, R33). -/
inductive Space where
  | memory
  | io
  deriving DecidableEq, Repr, Inhabited

/-! ## Free values: nothing constrains them -/

/-- `LOGIC_IMM16_EXT` of this machine: the spec does not choose (D15, C7). Log entry 2. -/
opaque Config.logicImm16ExtValue : ImmExt

/-- `TRNC_SW_RESULT` of this machine: the spec does not choose (D35, C9). Log entry 3. -/
opaque Config.trncSwResultValue : TrncResult

/-- `SCH_FOUND_POINTER` of this machine: the spec does not choose (D33). Log entry 4. -/
opaque Config.schFoundPointerValue : FoundPointer

/-- `PIR_VALUE`: any value (D9, U26). Log entry 5. -/
opaque Config.pirValue : Word

/-- What a device answers to the read numbered `draw`, of `bytes` bytes at `address` (R39). Log
entry 23. -/
opaque Config.deviceAnswer (draw : Nat) (space : Space) (address bytes : Nat) : Word

/-- What the register numbered `index` holds after the reset event numbered `draw`: any value (R240).
Log entry 19. -/
opaque Config.resetWord (draw index : Nat) : Word

/-- Which of the halfwords a cached fetch may return it does return (R46). Log entry 11. -/
opaque Config.icacheChoice (draw address : Nat) : Nat

/-- The number of the instruction-cache entry an address lies in, the number CHCW's CEN counts; the
cache's organisation is out of scope (R8, R47). Log entry 11. -/
opaque Config.cacheEntry (address : Nat) : BitVec 12

/-! The record `FP` of a platform whose floating-point unit is not the suggested one: eight total
functions with no body (R3, D34). Log entry 35. -/

/-- `FP.add`, of `x[reg2]` and `x[reg1]`. -/
opaque Config.fpAdd (a b : Word) : FpAnswer

/-- `FP.sub`, of `x[reg2]` and `x[reg1]`. -/
opaque Config.fpSub (a b : Word) : FpAnswer

/-- `FP.mul`, of `x[reg2]` and `x[reg1]`. -/
opaque Config.fpMul (a b : Word) : FpAnswer

/-- `FP.div`, of `x[reg2]` and `x[reg1]`. -/
opaque Config.fpDiv (a b : Word) : FpAnswer

/-- `FP.cmp`, of `x[reg2]` and `x[reg1]`: a word with the sign and the zeroness of the comparison
(R192). -/
opaque Config.fpCmp (a b : Word) : FpAnswer

/-- `FP.cvt_ws`, of `x[reg1]`. -/
opaque Config.fpCvtWs (b : Word) : FpAnswer

/-- `FP.cvt_sw`, of `x[reg1]`. -/
opaque Config.fpCvtSw (b : Word) : FpAnswer

/-- `FP.trnc_sw`, of `x[reg1]`. -/
opaque Config.fpTrncSw (b : Word) : FpAnswer

end Sys2Proof
end

