-- ==== Sys2Proof/Machine/Parameters.lean ====
section
/-! DEFINITION. The values the parameters of spec/00_scope.md R3 have in `State.reset`. Where R3
suggests a value it stands here; where it suggests none the value is a free constant of Config. No
statement rests on them: `Config` is a field of State and statements hold for every value of it. -/

namespace Sys2Proof.Machine

/-- The parameters of the machine at reset. DESIGN CHOICE, log entries 1 to 4, 7 to 14 and 35: every
memory address is ram, every port a device, unused bits are ignored, an undefined opcode raises its
exception, and no form is refused that a value of a parameter lets run. -/
def chosenConfig : Config where
  logicImm16Ext := Config.logicImm16ExtValue
  trncSwResult := Config.trncSwResultValue
  hasEiDi := true
  strictUnusedFields := false
  undefinedOpcode := .exception
  memMap := [⟨0, 0xFFFFFFFF, .ram⟩]
  ioMap := [⟨0, 0xFFFFFFFF, .device⟩]
  icache := .explicitClear
  fatalAction := .stop
  schFoundPointer := Config.schFoundPointerValue
  fp := .binary32
  fpReservedInf := true
  fpUnderflowZero := .signed

/-- `TKCW_VALUE` as R24 suggests it: to nearest, traps on overflow, zero division and invalid
operation. DESIGN CHOICE, log entry 6. -/
def tkcwValue : Word := 0x000000E0

end Sys2Proof.Machine
end

