-- ==== Sys2Proof/Machine/State.lean ====
section
/-! DEFINITION. The state of the machine (spec/10_state.md R10, R28), as plain data, the reasons a step
can stop, and the state after reset (R29, spec/70_reset_and_hazards.md R240). -/

namespace Sys2Proof.Machine

/-- A space of 2^32 bytes: the bytes that differ from what an unlisted address reads as, addresses
strictly rising (`Memory.wf`). -/
abbrev Memory := List Host.Cell

/-- What the environment drives at one step boundary (spec/60_exceptions.md R222): `reset_req`,
`nmi_req` and `irq_level` (none or 0..15). `breakAfter` is the model's: a bit-string instruction that
runs under this sample is broken off after that many elements if the NEXT sample's interrupt is one
the machine accepts (spec/45_bitstring.md R176; log entry 21). -/
structure Inputs where
  resetReq : Bool
  nmiReq : Bool
  irqLevel : Option (BitVec 4)
  breakAfter : Option Nat
  deriving DecidableEq, Repr

/-- Nothing requested. -/
def Inputs.quiet : Inputs := ⟨false, false, none, none⟩

/-- One access to a device address or a port (spec/20_memory.md R39). -/
structure DeviceAccess where
  space : Space
  isWrite : Bool
  address : Nat
  bytes : Nat
  value : Word
  deriving DecidableEq, Repr

/-- The machine. -/
structure State where
  /-- `x[1]`..`x[31]`, `x[i]` at index i - 1 (R11); read and written by `readReg`, `writeReg`. -/
  regs : Vector Word 31
  /-- The program counter (R14). -/
  pc : Word
  /-- `sr[0]` (R18). -/
  eipc : Word
  /-- `sr[1]` (R18). -/
  eipsw : Word
  /-- `sr[2]` (R19). -/
  fepc : Word
  /-- `sr[3]` (R19). -/
  fepsw : Word
  /-- `sr[4]`: FECC 31:16, EICC 15:0 (R22). -/
  ecr : Word
  /-- `sr[5]`, the program status word (R20). -/
  psw : Word
  /-- `sr[6]` (R23). -/
  pir : Word
  /-- `sr[7]` (R24). -/
  tkcw : Word
  /-- `sr[24]`, of which only ICE, bit 1, is stored (R25). -/
  chcw : Word
  /-- `sr[25]` (R26). -/
  adtre : Word
  /-- The memory space (R30). -/
  mem : Memory
  /-- The I/O port space, for the ports that are plain storage (R33). -/
  io : Memory
  /-- Set by `halt` (R28). -/
  halted : Bool
  /-- Set by a fatal exception (R28). -/
  stopped : Bool
  /-- The input samples of the coming steps, the next one first; when the list is empty nothing is
  requested (R28, R222). -/
  inputs : List Inputs
  /-- The instruction cache: (address, halfword) pairs a fetch may use (R28, R46). -/
  icache : List (Nat × Half)
  /-- The model's: the device and port accesses made, newest first (R39). -/
  deviceLog : List DeviceAccess
  /-- The model's: how many free values have been drawn. -/
  draws : Nat
  /-- The model's: the parameters of R3. No step changes them. -/
  config : Config
  deriving DecidableEq, Repr

/-- Why the machine has no step. -/
inductive Fault where
  /-- An access or a fetch at a memory address MEM_MAP gives as `none` (R48). Raised by the memory
  primitives. Safe: no step is claimed. -/
  | unmappedAddress (address : Nat)
  /-- A write to a `rom` address (R48). Raised by the memory primitives. Safe. -/
  | romWrite (address : Nat)
  /-- A port access IO_MAP does not map (R48). Raised by the port primitives. Safe. -/
  | unmappedPort (address : Nat)
  /-- The machine is stopped by a fatal exception and no reset is requested (R28, R219). Raised by
  `step`. Safe: the spec gives no step here. -/
  | stopped
  deriving DecidableEq, Repr

/-- What the spec has a model refuse, by name. -/
inductive Refusal where
  /-- An instruction that has no meaning yet. Raised by `exec`'s refused arms (none). Safe. -/
  | notModelled (mnemonic : String)
  /-- An undefined opcode or sub-opcode while `UNDEFINED_OPCODE` is `refuse` (R70). Safe. -/
  | undefinedOpcode (name : String)
  /-- A non-zero unused field while `STRICT_UNUSED_FIELDS` is true (R76). Raised by `step`. Safe. -/
  | unusedField (mnemonic : String) (field : UnusedField)
  /-- `ldsr` or `stsr` of a system-register number that is not in R17 (D37). Safe. -/
  | reservedSystemRegister (number : BitVec 5)
  /-- A write of CHCW with ICD or ICR set (R25). Safe. -/
  | cacheDumpRestore
  /-- A bit-string instruction that touches a device address (R173). Safe. -/
  | bitStringDevice (address : Nat)
  /-- A string-to-string operation on overlapping strings whose destination starts above the source, by
  their linear bit numbers (R175). Safe. -/
  | destructiveOverlap (source destination : Nat)
  /-- An instruction fetch from a device address (R39). Raised by the fetch. Safe. -/
  | deviceFetch (address : Nat)
  deriving DecidableEq, Repr

/-- What a step, or a meaning, answers. -/
abbrev Result := Host.Outcome State Fault Refusal

/-- The machine right after reset (R29). The registers for which R29 gives no value hold 0 and the
spaces read as zeros (DESIGN CHOICE, log entries 16 to 18); PIR holds a free constant (log entry 5). -/
def State.reset : State where
  regs := Vector.replicate 31 0
  pc := 0xFFFFFFF0
  eipc := 0
  eipsw := 0
  fepc := 0
  fepsw := 0
  ecr := 0x0000FFF0
  psw := 0x00008000
  pir := Config.pirValue
  tkcw := tkcwValue
  chcw := 0
  adtre := 0
  mem := []
  io := []
  halted := false
  stopped := false
  inputs := []
  icache := []
  deviceLog := []
  draws := 0
  config := chosenConfig

end Sys2Proof.Machine
end

