-- ==== Sys2Proof/Machine/Flags.lean ====
section
/-! DEFINITION. The bits of the PSW (spec/10_state.md R20) and every flag computation the spec gives
(spec/40_reg_reg.md R96, spec/46_float.md R192). -/

namespace Sys2Proof.Machine

/-! ## Bits of a word -/

/-- Bit `n` of `v` made `b`. -/
def setBit (v : Word) (n : Nat) (b : Bool) : Word :=
  if b then v ||| (1#32 <<< n) else v &&& ~~~(1#32 <<< n)

/-! ## Positions in the PSW (R20) -/

/-- Zero. -/
abbrev bitZ : Nat := 0
/-- Sign. -/
abbrev bitS : Nat := 1
/-- Overflow. -/
abbrev bitOV : Nat := 2
/-- Carry. -/
abbrev bitCY : Nat := 3
/-- Floating-point precision degradation, sticky. -/
abbrev bitFPR : Nat := 4
/-- Floating-point underflow, sticky. -/
abbrev bitFUD : Nat := 5
/-- Floating-point overflow, sticky. -/
abbrev bitFOV : Nat := 6
/-- Floating-point zero division, sticky. -/
abbrev bitFZD : Nat := 7
/-- Floating-point invalid operation, sticky. -/
abbrev bitFIV : Nat := 8
/-- Floating-point reserved operand, sticky. -/
abbrev bitFRO : Nat := 9
/-- Interrupt disable. -/
abbrev bitID : Nat := 12
/-- Address-trap enable. -/
abbrev bitAE : Nat := 13
/-- Exception pending. -/
abbrev bitEP : Nat := 14
/-- NMI pending. -/
abbrev bitNP : Nat := 15

/-- The PSW bits that exist: 19:12 and 9:0 (R20). -/
def pswMask : Word := 0x000FF3FF

/-- The interrupt mask level `I`, bits 19:16 (R20). -/
def levelOf (psw : Word) : BitVec 4 := psw.extractLsb' 16 4

/-- The PSW with its level `I` replaced. -/
def withLevel (psw : Word) (n : BitVec 4) : Word :=
  (psw &&& 0xFFF0FFFF) ||| (n.zeroExtend 32 <<< 16)

/-! ## The four condition flags (R21) -/

/-- Z, S, OV, CY. -/
structure Flags where
  z : Bool
  s : Bool
  ov : Bool
  cy : Bool
  deriving DecidableEq, Repr

/-- The condition flags of a PSW. -/
def flagsOf (psw : Word) : Flags :=
  ⟨psw.getLsbD bitZ, psw.getLsbD bitS, psw.getLsbD bitOV, psw.getLsbD bitCY⟩

/-- The PSW with its condition flags replaced and every other bit kept. -/
def withFlags (psw : Word) (f : Flags) : Word :=
  setBit (setBit (setBit (setBit psw bitZ f.z) bitS f.s) bitOV f.ov) bitCY f.cy

/-- The flags of `AddFlags(a, b)` (R96): CY the carry out of bit 31, OV the signed overflow. -/
def addFlags (a b : Word) : Flags :=
  let r := a + b
  { z := r == 0
    s := r.msb
    cy := decide (2 ^ 32 ≤ a.toNat + b.toNat)
    ov := (a.msb == b.msb) && (r.msb != a.msb) }

/-- The flags of `SubFlags(a, b)` (R96): CY the unsigned borrow, OV the signed overflow. -/
def subFlags (a b : Word) : Flags :=
  let r := a - b
  { z := r == 0
    s := r.msb
    cy := decide (a.toNat < b.toNat)
    ov := (a.msb != b.msb) && (r.msb != a.msb) }

/-- The flags of `LogicFlags(r)` (R96): OV cleared, CY as it was. -/
def logicFlags (r : Word) (cy : Bool) : Flags := ⟨r == 0, r.msb, false, cy⟩

/-- The flags of `ShiftFlags(r, c)` (R96): OV cleared, CY the last bit shifted out. -/
def shiftFlags (r : Word) (c : Bool) : Flags := ⟨r == 0, r.msb, false, c⟩

/-- The flags of `mul` (R88): Z and S of the low word, OV when the exact product `p` is not the signed
low word, CY as it was. -/
def mulFlags (low : Word) (p : Int) (cy : Bool) : Flags := ⟨low == 0, low.msb, p != low.toInt, cy⟩

/-- The flags of `mulu` (R90): OV when the product needs more than 32 bits. -/
def muluFlags (low high : Word) (cy : Bool) : Flags := ⟨low == 0, low.msb, high != 0, cy⟩

/-- The flags of `div` and `divu` (R89, R91): Z and S of the quotient. -/
def divFlags (q : Word) (ov cy : Bool) : Flags := ⟨q == 0, q.msb, ov, cy⟩

/-- `FloatFlags(r)` (spec/46_float.md R192): both zeros give Z = 1 and S = 0; CY is a copy of S. -/
def floatFlags (r : Word) : Flags :=
  let z := r.extractLsb' 0 31 == 0
  let s := !z && r.msb
  ⟨z, s, false, s⟩

/-- The flags of an integer result of `cvt.sw`, `trnc.sw` (R192): CY as it was. -/
def floatIntFlags (n : Word) (cy : Bool) : Flags := ⟨n == 0, n.msb, false, cy⟩

/-- The flags of `cmpf.s` (R193), from the two comparisons. -/
def compareFlags (eq lt : Bool) : Flags := ⟨eq, lt, false, lt⟩

end Sys2Proof.Machine
end

