-- ==== Sys2Proof/Machine/Operands.lean ====
section
/-! DEFINITION. The operand forms: immediates (spec/30_encoding.md R59, R60), displacements (R61), the
condition table (spec/42_branch.md R120), access widths and alignment (spec/20_memory.md R36, R37),
effective addresses (spec/44_load_store.md R150), shifts (spec/40_reg_reg.md R84, R85, R87). -/

namespace Sys2Proof.Machine

/-! ## Immediates -/

/-- `sext_5(imm5)` (R59). -/
def imm5Signed (imm5 : BitVec 5) : Word := imm5.signExtend 32

/-- `sext_16(imm16)` of `movea`, `addi` and of a displacement `disp16` (R60, R61). -/
def imm16Signed (imm16 : BitVec 16) : Word := imm16.signExtend 32

/-- `zext_16(imm16) << 16` of `movhi` (R60). -/
def imm16High (imm16 : BitVec 16) : Word := imm16 ++ 0#16

/-- The immediate of `ori`, `andi`, `xori` under `LOGIC_IMM16_EXT` (R144): the two readings differ
exactly when `imm16[15]` = 1. -/
def logicImm (ext : ImmExt) (imm16 : BitVec 16) : Word :=
  if imm16.msb = false then imm16.zeroExtend 32
  else match ext with
    | .sign => imm16.signExtend 32
    | .zero => imm16.zeroExtend 32

/-! ## Displacements (R61) -/

/-- `sext_9(insn[8:1] ++ 0b0)` (R54). -/
def disp9Signed (d : BitVec 9) : Word := (d &&& 0x1FE).signExtend 32

/-- `sext_26(disp26) & 0xFFFFFFFE` (R55). -/
def disp26Signed (d : BitVec 26) : Word := d.signExtend 32 &&& 0xFFFFFFFE

/-! ## Conditions (R120) -/

/-- `cond(c)` for c = 0..7; conditions 8..15 are their negations. -/
def baseCond (c : BitVec 3) (f : Flags) : Bool :=
  match c with
  | 0#3 => f.ov
  | 1#3 => f.cy
  | 2#3 => f.z
  | 3#3 => f.cy || f.z
  | 4#3 => f.s
  | 5#3 => true
  | 6#3 => f.s ^^ f.ov
  | _ => (f.s ^^ f.ov) || f.z

/-- `cond(c)`, c = 0..15: bit 3 negates. -/
def condHolds (c : BitVec 4) (f : Flags) : Bool := baseCond (c.extractLsb' 0 3) f ^^ c.getLsbD 3

/-! ## Accesses -/

/-- The three access widths (R37). -/
inductive Width where
  | byte
  | half
  | word
  deriving DecidableEq, Repr

/-- The number of bytes an access moves. -/
def Width.bytes : Width → Nat
  | .byte => 1
  | .half => 2
  | .word => 4

/-- An address forced to the access size: the dropped low bits are ignored (R36). -/
def alignTo (w : Width) (ea : Word) : Word :=
  match w with
  | .byte => ea
  | .half => ea &&& 0xFFFFFFFE
  | .word => ea &&& 0xFFFFFFFC

/-- The low `8n` bits of a value, which are all that a store of n bytes uses (R35). -/
def truncTo (w : Width) (v : Word) : Word :=
  match w with
  | .byte => v &&& 0x000000FF
  | .half => v &&& 0x0000FFFF
  | .word => v

/-- The value of a memory load in its register: bytes and halfwords sign-extended (R37). -/
def extendLoad (w : Width) (v : Word) : Word :=
  match w with
  | .byte => (v.extractLsb' 0 8).signExtend 32
  | .half => (v.extractLsb' 0 16).signExtend 32
  | .word => v

/-- The effective address `x[reg1] + sext_16(disp16)`, modulo 2^32 (R150). -/
def effAddr (base : Word) (disp16 : BitVec 16) : Word := base + imm16Signed disp16

/-! ## Shifts: result and last bit shifted out, which is 0 for a count of 0 -/

/-- `shl` (R84). -/
def shiftLeft (a : Word) (n : BitVec 5) : Word × Bool :=
  (a <<< n.toNat, if n = 0 then false else a.getLsbD (32 - n.toNat))

/-- `shr` (R85). -/
def shiftRight (a : Word) (n : BitVec 5) : Word × Bool :=
  (a >>> n.toNat, if n = 0 then false else a.getLsbD (n.toNat - 1))

/-- `sar` (R87). -/
def shiftArith (a : Word) (n : BitVec 5) : Word × Bool :=
  (a.sshiftRight n.toNat, if n = 0 then false else a.getLsbD (n.toNat - 1))

/-- The count of a register-form shift: the low 5 bits of `x[reg1]` (R84, D11). -/
def shiftCount (b : Word) : BitVec 5 := b.extractLsb' 0 5

end Sys2Proof.Machine
end

