-- ==== Sys2Proof/Machine/Ops.lean ====
section
/-! DEFINITION. The named operations of the machine: registers and pc (spec/10_state.md R11, R14),
memory and port accesses (spec/20_memory.md R30-R41, R48), taking an exception or an interrupt and
returning from one (spec/60_exceptions.md R210-R219), reset (spec/70_reset_and_hazards.md R240). -/

namespace Sys2Proof.Machine

/-! ## Outcomes -/

/-- Go on with what the first part answers; stop where it stops. -/
def bindOutcome {α β : Type} (o : Host.Outcome α Fault Refusal)
    (k : α → Host.Outcome β Fault Refusal) : Host.Outcome β Fault Refusal :=
  match o with
  | .next a => k a
  | .fault r => .fault r
  | .refused r => .refused r

/-! ## Registers and pc -/

/-- `x[i]`: `x[0]` reads 0 (R11). -/
def State.readReg (s : State) (i : RegIdx) : Word :=
  if i = 0#5 then 0 else s.regs[i.toNat - 1]'(by have := i.isLt; omega)

/-- `x[i] <- v`: a write to `x[0]` is discarded (R11). -/
def State.writeReg (s : State) (i : RegIdx) (v : Word) : State :=
  if i = 0#5 then s
  else { s with regs := s.regs.set (i.toNat - 1) v (by have := i.isLt; omega) }

/-- `pc <- t`: bit 0 is hardwired to 0 (R14). -/
def State.setPc (s : State) (t : Word) : State := { s with pc := t &&& 0xFFFFFFFE }

/-- `pc <- pc + len` (R15, R16). -/
def State.advance (s : State) (len : Word) : State := s.setPc (s.pc + len)

/-- The condition flags (R21). -/
def State.flags (s : State) : Flags := flagsOf s.psw

/-- Write the four condition flags and no other bit. -/
def State.setFlags (s : State) (f : Flags) : State := { s with psw := withFlags s.psw f }

/-- Write one bit of the PSW. -/
def State.setPswBit (s : State) (n : Nat) (b : Bool) : State := { s with psw := setBit s.psw n b }

/-- `PSW <- v`: the reserved bits ignore writes (R20). -/
def State.setPsw (s : State) (v : Word) : State := { s with psw := v &&& pswMask }

/-- The most common ending: a result and its flags, then the next instruction. -/
def finishFlagged (reg2 : RegIdx) (r : Word) (f : Flags) (len : Word) (s : State) : Result :=
  .next (((s.writeReg reg2 r).setFlags f).advance len)

/-- A result without flags, then the next instruction. -/
def finishPlain (reg2 : RegIdx) (r : Word) (len : Word) (s : State) : Result :=
  .next ((s.writeReg reg2 r).advance len)

/-! ## Bytes of a space -/

/-- What a byte that nothing has written reads as. DESIGN CHOICE, log entry 18. -/
def unlistedByte : Byte := 0

/-- The byte at an address. -/
def readByte (m : Memory) (a : Nat) : Byte :=
  match m with
  | [] => unlistedByte
  | (x, b) :: t => if x = a then b else readByte t a

/-- A cell put in its place in a list of rising addresses. -/
def insertCell (m : Memory) (a : Nat) (b : Byte) : Memory :=
  match m with
  | [] => [(a, b)]
  | (x, c) :: t => if a < x then (a, b) :: (x, c) :: t else (x, c) :: insertCell t a b

/-- The space after a byte is written; the unlisted value removes the entry. -/
def writeByte (m : Memory) (a : Nat) (b : Byte) : Memory :=
  if b = unlistedByte then m.filter (fun c => c.1 != a)
  else insertCell (m.filter (fun c => c.1 != a)) a b

/-- The canonical form: addresses of the space, strictly rising, and no entry equal to what an
unlisted address reads as. -/
abbrev Memory.wf (m : Memory) : Prop :=
  m.Pairwise (fun c d => c.1 < d.1) ∧ ∀ c ∈ m, c.2 ≠ unlistedByte ∧ c.1 < 2 ^ 32

/-- The word made of the bytes `f 0`, `f 1`, ..., `f (n-1)`, low byte first, zero-extended (R32). -/
def gatherBytes (f : Nat → Byte) (n : Nat) : Word :=
  match n with
  | 0 => 0
  | n + 1 => (f 0).zeroExtend 32 ||| (gatherBytes (fun k => f (k + 1)) n <<< 8)

/-- `M[a+n-1] ++ ... ++ M[a]`, zero-extended: little-endian (R32, R34). -/
def readBytes (m : Memory) (a n : Nat) : Word :=
  match n with
  | 0 => 0
  | n + 1 => (readByte m a).zeroExtend 32 ||| (readBytes m (a + 1) n <<< 8)

/-- `M[a+k] <- v[8k+7:8k]` for k in 0..n-1 (R35). -/
def writeBytes (m : Memory) (a n : Nat) (v : Word) : Memory :=
  match n with
  | 0 => m
  | n + 1 => writeBytes (writeByte m a (v.extractLsb' 0 8)) (a + 1) n (v >>> 8)

/-- The bytes of a write that go to the addresses where `p` holds; the others are left alone. -/
def writeBytesWhere (p : Nat → Bool) (m : Memory) (a n : Nat) (v : Word) : Memory :=
  match n with
  | 0 => m
  | n + 1 =>
    writeBytesWhere p (if p a then writeByte m a (v.extractLsb' 0 8) else m) (a + 1) n (v >>> 8)

/-! ## The maps (R33, R41): functions of the byte address -/

/-- The kind of a byte of memory: that of the first region that holds it, `none` in no region. -/
def memKindOf (map : List MemRegion) (a : Nat) : MemKind :=
  match map with
  | [] => .none
  | r :: t => if r.first ≤ a ∧ a ≤ r.last then r.kind else memKindOf t a

/-- The kind of a byte of the port space. -/
def ioKindOf (map : List IoRegion) (a : Nat) : IoKind :=
  match map with
  | [] => .none
  | r :: t => if r.first ≤ a ∧ a ≤ r.last then r.kind else ioKindOf t a

/-- `MEM_MAP` at an address (R41). -/
def State.memKind (s : State) (a : Nat) : MemKind := memKindOf s.config.memMap a

/-- `IO_MAP` at a port (R33). -/
def State.ioKind (s : State) (a : Nat) : IoKind := ioKindOf s.config.ioMap a

/-- What answers for one byte of an access, the maps read: bytes of the memory space, bytes of the port
space, a device, or nothing. -/
inductive Place where
  | ram
  | rom
  | storage
  | device (space : Space)
  | unmapped (space : Space)
  deriving DecidableEq, Repr

/-- What answers at a memory address (R39, R41, R48). -/
def State.memPlace (s : State) (a : Nat) : Place :=
  match s.memKind a with
  | .ram => .ram
  | .rom => .rom
  | .device => .device .memory
  | .none => .unmapped .memory

/-- What answers at a port; where the ports are memory, what answers at that address (R33). -/
def State.portPlace (s : State) (a : Nat) : Place :=
  match s.ioKind a with
  | .device => .device .io
  | .storage => .storage
  | .aliasMemory => s.memPlace a
  | .none => .unmapped .io

/-- Whether some byte of the `n` bytes from `a` up lies at the place `p`. -/
def touches (place : Nat → Place) (a n : Nat) (p : Place) : Bool :=
  (List.range n).any fun k => place (a + k) == p

/-! ## Access primitives: `a` is aligned to the width by the caller (R34, R35) -/

/-- A device answers a read: performed once, at the width named, its value the environment's (R39). -/
def deviceRead (space : Space) (w : Width) (a : Word) (s : State) : Word × State :=
  let v := truncTo w (Config.deviceAnswer s.draws space a.toNat w.bytes)
  (v, { s with
        draws := s.draws + 1
        deviceLog := ⟨space, false, a.toNat, w.bytes, v⟩ :: s.deviceLog })

/-- A write to a device: performed once, at the width named (R39). -/
def deviceWrite (space : Space) (w : Width) (a v : Word) (s : State) : State :=
  { s with deviceLog := ⟨space, true, a.toNat, w.bytes, truncTo w v⟩ :: s.deviceLog }

/-- The device of a space read if the access touches it. -/
def deviceReadIf (b : Bool) (space : Space) (w : Width) (a : Word) (s : State) : Word × State :=
  if b then deviceRead space w a s else (0, s)

/-- The device of a space written if the access touches it. -/
def deviceWriteIf (b : Bool) (space : Space) (w : Width) (a v : Word) (s : State) : State :=
  if b then deviceWrite space w a v s else s

/-- The byte at `x` of a read, from what answers there; `m` and `p` are what the devices of memory and
ports answered to the access at `a` (R43). -/
def placeByte (place : Nat → Place) (s : State) (a : Nat) (m p : Word) (x : Nat) : Byte :=
  match place x with
  | .ram => readByte s.mem x
  | .rom => readByte s.mem x
  | .storage => readByte s.io x
  | .device .memory => m.extractLsb' (8 * (x - a)) 8
  | .device .io => p.extractLsb' (8 * (x - a)) 8
  | .unmapped _ => 0

/-- A read of the bytes from `a` up, each from what answers there: no step where nothing answers
(R48); a device that holds any of the bytes is read once, at the width of the access (R39, R43).
DESIGN CHOICE, log entry 12: how an access over bytes of different kinds is composed, and that where it
touches both a memory device and a port device the memory device is read first. -/
def readAccess (place : Nat → Place) (w : Width) (a : Word) (s : State) :
    Host.Outcome (Word × State) Fault Refusal :=
  let x := a.toNat
  if touches place x w.bytes (.unmapped .io) then .fault (.unmappedPort x)
  else if touches place x w.bytes (.unmapped .memory) then .fault (.unmappedAddress x)
  else
    let m := deviceReadIf (touches place x w.bytes (.device .memory)) .memory w a s
    let p := deviceReadIf (touches place x w.bytes (.device .io)) .io w a m.2
    .next (gatherBytes (fun k => placeByte place s x m.1 p.1 (x + k)) w.bytes, p.2)

/-- A write of the bytes from `a` up, each to what answers there: no step where nothing answers or a
byte is rom (R48); a device that holds any of the bytes is written once, at the width of the access
(R39). DESIGN CHOICE, log entry 12: how an access over bytes of different kinds is composed, and that
where it touches both a memory device and a port device the memory device is written first. -/
def writeAccess (place : Nat → Place) (w : Width) (a v : Word) (s : State) : Result :=
  let x := a.toNat
  if touches place x w.bytes (.unmapped .io) then .fault (.unmappedPort x)
  else if touches place x w.bytes (.unmapped .memory) then .fault (.unmappedAddress x)
  else if touches place x w.bytes .rom then .fault (.romWrite x)
  else
    let t := { s with
      mem := writeBytesWhere (fun c => place c == .ram) s.mem x w.bytes v
      io := writeBytesWhere (fun c => place c == .storage) s.io x w.bytes v }
    .next
      (deviceWriteIf (touches place x w.bytes (.device .io)) .io w a v
        (deviceWriteIf (touches place x w.bytes (.device .memory)) .memory w a v t))

/-- `MemRead(a, n)` (R34), by the kinds of the addresses (R39, R48). -/
def memRead (w : Width) (a : Word) (s : State) : Host.Outcome (Word × State) Fault Refusal :=
  readAccess s.memPlace w a s

/-- `MemWrite(a, n, v)` (R35), by the kinds of the addresses (R39, R48). -/
def memWrite (w : Width) (a v : Word) (s : State) : Result := writeAccess s.memPlace w a v s

/-- `IoRead(a, n)` (R33). -/
def ioRead (w : Width) (a : Word) (s : State) : Host.Outcome (Word × State) Fault Refusal :=
  readAccess s.portPlace w a s

/-- `IoWrite(a, n, v)` (R33). -/
def ioWrite (w : Width) (a v : Word) (s : State) : Result := writeAccess s.portPlace w a v s

/-! ## Exceptions (R210-R212) -/

/-- The causes of R211 that an instruction, or the fetch of one, raises. -/
inductive Exc where
  | addressTrap
  | trap (vector : BitVec 5)
  | invalidOpcode
  | zeroDivision
  | floatInvalid
  | floatZeroDivision
  | floatOverflow
  | floatReserved
  deriving DecidableEq, Repr

/-- The 16-bit exception code (R211). -/
def Exc.code : Exc → BitVec 16
  | .addressTrap => 0xFFC0
  | .trap v => 0xFFA0 + v.zeroExtend 16
  | .invalidOpcode => 0xFF90
  | .zeroDivision => 0xFF80
  | .floatInvalid => 0xFF70
  | .floatZeroDivision => 0xFF68
  | .floatOverflow => 0xFF64
  | .floatReserved => 0xFF60

/-- The handler address (R211). -/
def Exc.handler : Exc → Word
  | .addressTrap => 0xFFFFFFC0
  | .trap v => if v.toNat < 16 then 0xFFFFFFA0 else 0xFFFFFFB0
  | .invalidOpcode => 0xFFFFFF90
  | .zeroDivision => 0xFFFFFF80
  | .floatInvalid => 0xFFFFFF60
  | .floatZeroDivision => 0xFFFFFF60
  | .floatOverflow => 0xFFFFFF60
  | .floatReserved => 0xFFFFFF60

/-- The handler of an NMI and of a duplexed exception (R211). -/
def nmiHandler : Word := 0xFFFFFFD0

/-- ECR with EICC, bits 15:0, replaced (R22). -/
def withEicc (ecr : Word) (code : BitVec 16) : Word := ecr.extractLsb' 16 16 ++ code

/-- ECR with FECC, bits 31:16, replaced (R22). -/
def withFecc (ecr : Word) (code : BitVec 16) : Word := code ++ ecr.extractLsb' 0 16

/-- Regular entry: EIPC, EIPSW, EICC, then EP, ID set and AE cleared, then the handler (R214). -/
def enterRegular (code : BitVec 16) (handler restore : Word) (s : State) : State :=
  { s with
    eipc := restore &&& 0xFFFFFFFE
    eipsw := s.psw
    ecr := withEicc s.ecr code
    psw := setBit (setBit (setBit s.psw bitEP true) bitID true) bitAE false
    pc := handler &&& 0xFFFFFFFE }

/-- Entry through the FE pair, of an NMI (R216) or a duplexed exception (R217). -/
def enterFatalPair (code : BitVec 16) (restore : Word) (s : State) : State :=
  { s with
    fepc := restore &&& 0xFFFFFFFE
    fepsw := s.psw
    ecr := withFecc s.ecr code
    psw := setBit (setBit (setBit s.psw bitNP true) bitID true) bitAE false
    pc := nmiHandler }

/-- The three words of a fatal dump at 0, 4 and 8, then stopped (R219). -/
def fatalDump (code : BitVec 16) (restore : Word) (s : State) : Result :=
  bindOutcome (memWrite .word 0 (0xFFFF#16 ++ code) s) fun s1 =>
  bindOutcome (memWrite .word 4 s.psw s1) fun s2 =>
  bindOutcome (memWrite .word 8 restore s2) fun s3 =>
  .next { s3 with stopped := true }

/-- Taking an exception, with the restore PC of R212: fatal while NP = 1 (R219), duplexed while EP = 1
(R217), regular otherwise (R214). -/
def raise (e : Exc) (restore : Word) (s : State) : Result :=
  if s.psw.getLsbD bitNP then
    match s.config.fatalAction with
    | .stop => .next { s with stopped := true }
    | .stopWithDump => fatalDump e.code restore s
  else if s.psw.getLsbD bitEP then .next (enterFatalPair e.code restore s)
  else .next (enterRegular e.code e.handler restore s)

/-- `reti`: the FE pair while NP = 1, the EI pair otherwise; the whole PSW is replaced (R109, R220). -/
def returnFromException (s : State) : State :=
  if s.psw.getLsbD bitNP then (s.setPsw s.fepsw).setPc s.fepc
  else (s.setPsw s.eipsw).setPc s.eipc

/-- An undefined opcode or sub-opcode (R70-R72). -/
def undefinedInstruction (name : String) (s : State) : Result :=
  match s.config.undefinedOpcode with
  | .exception => raise .invalidOpcode s.pc s
  | .refuse => .refused (.undefinedOpcode name)

/-! ## Interrupts (R215, R216, R222, R223) -/

/-- An asynchronous event the machine accepts. -/
inductive Event where
  | nmi
  | irq (level : BitVec 4)
  deriving DecidableEq, Repr

/-- The event accepted under a PSW and an input sample (R223): NMI before a maskable interrupt, which
needs NP = EP = ID = 0 and a level not below `PSW.I`. -/
def acceptedEvent (psw : Word) (i : Inputs) : Option Event :=
  if psw.getLsbD bitNP then none
  else if i.nmiReq then some .nmi
  else match i.irqLevel with
    | none => none
    | some n =>
      if psw.getLsbD bitEP || psw.getLsbD bitID then none
      else if (levelOf psw).toNat ≤ n.toNat then some (.irq n) else none

/-- `min(n + 1, 15)` (R215). -/
def raisedLevel (n : BitVec 4) : BitVec 4 := if n = 15 then 15 else n + 1

/-- The code of a maskable interrupt, `0xFE00 + 0x10 x n` (R211). -/
def irqCode (n : BitVec 4) : BitVec 16 := 0xFE00 + (n.zeroExtend 16 <<< 4)

/-- Entry of an accepted event; the restore PC is the pc at the boundary (R212, R215, R216). -/
def enterEvent (e : Event) (s : State) : State :=
  match e with
  | .nmi => { enterFatalPair 0xFFD0 s.pc s with halted := false }
  | .irq n =>
    let t := enterRegular (irqCode n) (0xFFFF#16 ++ irqCode n) s.pc s
    { t with psw := withLevel t.psw (raisedLevel n), halted := false }

/-- The sample in force at this step: the first of the list, nothing when it is empty. -/
def State.sample (s : State) : Inputs := s.inputs.headD Inputs.quiet

/-- The sample has been used. -/
def State.dropSample (s : State) : State := { s with inputs := s.inputs.tail }

/-- After how many elements a bit-string instruction is broken off in this step: the next sample's
interrupt must be one that R223 accepts (R176). -/
def State.breakPoint (s : State) : Option Nat :=
  match s.inputs with
  | i :: j :: _ => if (acceptedEvent s.psw j).isSome then i.breakAfter else none
  | _ => none

/-! ## Reset (R240) -/

/-- The reset event. The registers it leaves unspecified take free values (bit 0 of EIPC, FEPC, ADTRE
and the reserved bits of EIPSW, FEPSW stay 0); memory and ports are unchanged. -/
def performReset (s : State) : State :=
  let any := Config.resetWord s.draws
  { s with
    regs := Vector.ofFn fun i : Fin 31 => any (i.val + 1)
    pc := 0xFFFFFFF0
    psw := 0x00008000
    ecr := 0x0000FFF0
    chcw := 0
    halted := false
    stopped := false
    eipc := any 32 &&& 0xFFFFFFFE
    eipsw := any 33 &&& pswMask
    fepc := any 34 &&& 0xFFFFFFFE
    fepsw := any 35 &&& pswMask
    adtre := any 36 &&& 0xFFFFFFFE
    draws := s.draws + 1 }

end Sys2Proof.Machine
end

