-- ==== Sys2Proof/Machine/BitString.lean ====
section
/-! DEFINITION. Bit-string instructions, opcode 0x1F (spec/45_bitstring.md). The loops of R173 and R174
run bit by bit; a run is broken off at a marked point only where R176 says (`State.breakPoint`), and
then the pc stays on the instruction, which goes on from the registers when it is executed again. -/

namespace Sys2Proof.Machine

/-! ## Bit pointers (R172) -/

/-- `StepUp` (R172): the next bit, then the next word. -/
def stepUp (p : Word × Word) : Word × Word :=
  if p.2 = 31 then (p.1 + 4, 0) else (p.1, p.2 + 1)

/-- `StepDown` (R172). -/
def stepDown (p : Word × Word) : Word × Word :=
  if p.2 = 0 then (p.1 - 4, 31) else (p.1, p.2 - 1)

/-- The direction of a search. -/
inductive Direction where
  | up
  | down
  deriving DecidableEq, Repr

/-- One bit on in a direction. -/
def Direction.step (d : Direction) (p : Word × Word) : Word × Word :=
  match d with
  | .up => stepUp p
  | .down => stepDown p

/-- One bit back against a direction. -/
def Direction.back (d : Direction) (p : Word × Word) : Word × Word :=
  match d with
  | .up => stepDown p
  | .down => stepUp p

/-- The source pointer (`x[30]`, `x[27]`) (R171). -/
def State.sourcePtr (s : State) : Word × Word := (s.readReg 30, s.readReg 27)

/-- The destination pointer (`x[29]`, `x[26]`) (R171). -/
def State.destPtr (s : State) : Word × Word := (s.readReg 29, s.readReg 26)

/-- Write the source pointer. -/
def State.setSourcePtr (s : State) (p : Word × Word) : State := (s.writeReg 30 p.1).writeReg 27 p.2

/-- Write the destination pointer. -/
def State.setDestPtr (s : State) (p : Word × Word) : State := (s.writeReg 29 p.1).writeReg 26 p.2

/-- A pointer with the ignored bits cleared: bits 1:0 of the address, bits 31:5 of the offset (R171). -/
def maskPtr (p : Word × Word) : Word × Word := (p.1 &&& 0xFFFFFFFC, p.2 &&& 0x1F)

/-! ## Accesses: only ram, or rom to read, else a refusal or no step (R173) -/

/-- A word read by a bit-string instruction. -/
def bsRead (a : Word) (s : State) : Host.Outcome Word Fault Refusal :=
  if touches s.memPlace a.toNat 4 (.unmapped .memory) then .fault (.unmappedAddress a.toNat)
  else if touches s.memPlace a.toNat 4 (.device .memory) then .refused (.bitStringDevice a.toNat)
  else .next (readBytes s.mem a.toNat 4)

/-- A word written by a bit-string instruction. -/
def bsWrite (a v : Word) (s : State) : Result :=
  if touches s.memPlace a.toNat 4 (.unmapped .memory) then .fault (.unmappedAddress a.toNat)
  else if touches s.memPlace a.toNat 4 (.device .memory) then .refused (.bitStringDevice a.toNat)
  else if touches s.memPlace a.toNat 4 .rom then .fault (.romWrite a.toNat)
  else .next { s with mem := writeBytes s.mem a.toNat 4 v }

/-- How many elements this run processes: all that are left, or fewer where it is broken off. -/
def elementsToRun (s : State) : Nat :=
  match s.breakPoint with
  | some k => min k (s.readReg 28).toNat
  | none => (s.readReg 28).toNat

/-! ## String-to-string operations (R173) -/

/-- The linear bit number of a pointer (R172). -/
def linearBit (p : Word × Word) : Nat := 8 * p.1.toNat + p.2.toNat

/-- The overlap for which R175 defines no result: the strings share a bit, and the destination's first
linear bit number is above the source's. The destination's start lies inside the source, or the
destination wraps past the top of the space (R171) onto the source's start. -/
def destructiveOverlap (s : State) : Bool :=
  let src := linearBit s.sourcePtr
  let dst := linearBit s.destPtr
  let n := (s.readReg 28).toNat
  decide (src < dst ∧ (dst - src < n ∨ src + 2 ^ 35 - dst < n))

/-- One element: read the source bit and the destination word, write the destination bit, advance
both pointers, count down. -/
def stringElement (f : Bool → Bool → Bool) (s : State) : Result :=
  bindOutcome (bsRead s.sourcePtr.1 s) fun sw =>
  bindOutcome (bsRead s.destPtr.1 s) fun dw =>
  let k := s.destPtr.2.toNat
  let bit := f (dw.getLsbD k) (sw.getLsbD s.sourcePtr.2.toNat)
  bindOutcome (bsWrite s.destPtr.1 (setBit dw k bit) s) fun t =>
  .next (((t.setSourcePtr (stepUp s.sourcePtr)).setDestPtr (stepUp s.destPtr)).writeReg 28
    (s.readReg 28 - 1))

/-- `n` elements one after the other. -/
def stringLoop (f : Bool → Bool → Bool) (n : Nat) (s : State) : Result :=
  match n with
  | 0 => .next s
  | n + 1 => bindOutcome (stringElement f s) (stringLoop f n)

/-- The registers masked before the loop (R173). -/
def maskStringRegs (s : State) : State :=
  (s.setSourcePtr (maskPtr s.sourcePtr)).setDestPtr (maskPtr s.destPtr)

/-- A string-to-string operation with bit function `f(d, s)` (R173, R176). A destructive overlap is
refused (R175, R251); that it is tested before any access, and on what is left of the strings when the
instruction is executed again, is DEDUCED, log entry 22. -/
def stringOp (f : Bool → Bool → Bool) (s : State) : Result :=
  let s0 := maskStringRegs s
  if destructiveOverlap s0 then
    .refused (.destructiveOverlap (linearBit s0.sourcePtr) (linearBit s0.destPtr))
  else bindOutcome (stringLoop f (elementsToRun s0) s0) fun t =>
  .next (if t.readReg 28 = 0 then t.advance 2 else t)

/-! ## Searches (R174) -/

/-- At most `n` bits tested; the answer says whether one matched. -/
def searchLoop (target : Bool) (d : Direction) (n : Nat) (s : State) :
    Host.Outcome (Bool × State) Fault Refusal :=
  match n with
  | 0 => .next (false, s)
  | n + 1 =>
    bindOutcome (bsRead s.sourcePtr.1 s) fun w =>
    if w.getLsbD s.sourcePtr.2.toNat = target then .next (true, s)
    else
      searchLoop target d n
        (((s.setSourcePtr (d.step s.sourcePtr)).writeReg 28 (s.readReg 28 - 1)).writeReg 29
          (s.readReg 29 + 1))

/-- The pointer after a hit, under `SCH_FOUND_POINTER` (R174). -/
def foundPtr (m : FoundPointer) (d : Direction) (p : Word × Word) : Word × Word :=
  match m with
  | .atFound => p
  | .afterFound => d.step p
  | .beforeFound => d.back p

/-- `x[28]` after a hit, from `L - n` (R174). -/
def foundCount (m : FoundPointer) (left : Word) : Word :=
  match m with
  | .atFound => left
  | .afterFound => left - 1
  | .beforeFound => left

/-- The registers after a hit (R174). -/
def searchHit (d : Direction) (s : State) : State :=
  (s.setSourcePtr (foundPtr s.config.schFoundPointer d s.sourcePtr)).writeReg 28
    (foundCount s.config.schFoundPointer (s.readReg 28))

/-- A search for a bit equal to `target` (R174): Z is written when the run ends, not when it is
broken off (R176). -/
def searchOp (target : Bool) (d : Direction) (s : State) : Result :=
  let s0 := s.setSourcePtr (maskPtr s.sourcePtr)
  bindOutcome (searchLoop target d (elementsToRun s0) s0) fun r =>
  .next (
    if r.1 then ((searchHit d r.2).setPswBit bitZ false).advance 2
    else if r.2.readReg 28 = 0 then (r.2.setPswBit bitZ true).advance 2
    else r.2)

/-! ## The instructions -/

/-- R177. -/
def execSch0bsu (s : State) : Result := searchOp false .up s
/-- R178. -/
def execSch0bsd (s : State) : Result := searchOp false .down s
/-- R179. -/
def execSch1bsu (s : State) : Result := searchOp true .up s
/-- R180. -/
def execSch1bsd (s : State) : Result := searchOp true .down s
/-- R181. -/
def execOrbsu (s : State) : Result := stringOp (fun d b => d || b) s
/-- R182. -/
def execAndbsu (s : State) : Result := stringOp (fun d b => d && b) s
/-- R183. -/
def execXorbsu (s : State) : Result := stringOp (fun d b => d ^^ b) s
/-- R184. -/
def execMovbsu (s : State) : Result := stringOp (fun _ b => b) s
/-- R185. -/
def execOrnbsu (s : State) : Result := stringOp (fun d b => d || !b) s
/-- R186. -/
def execAndnbsu (s : State) : Result := stringOp (fun d b => d && !b) s
/-- R187. -/
def execXornbsu (s : State) : Result := stringOp (fun d b => d ^^ !b) s
/-- R188. -/
def execNotbsu (s : State) : Result := stringOp (fun _ b => !b) s

end Sys2Proof.Machine
end

