-- ==== Sys2Proof/Machine/Branch.lean ====
section
/-! DEFINITION. Conditional branches and nop, format III (spec/42_branch.md). -/

namespace Sys2Proof.Machine

/-- The common behaviour (R121): the displacement is added to the branch's own address. -/
def branchOn (cond : BitVec 4) (disp9 : BitVec 9) (s : State) : Result :=
  .next (if condHolds cond s.flags then s.setPc (s.pc + disp9Signed disp9) else s.advance 2)

/-- R122. -/
def execBv (disp9 : BitVec 9) (s : State) : Result := branchOn 0x0 disp9 s
/-- R123. -/
def execBl (disp9 : BitVec 9) (s : State) : Result := branchOn 0x1 disp9 s
/-- R124. -/
def execBe (disp9 : BitVec 9) (s : State) : Result := branchOn 0x2 disp9 s
/-- R125. -/
def execBnh (disp9 : BitVec 9) (s : State) : Result := branchOn 0x3 disp9 s
/-- R126. -/
def execBn (disp9 : BitVec 9) (s : State) : Result := branchOn 0x4 disp9 s
/-- R127. -/
def execBr (disp9 : BitVec 9) (s : State) : Result := branchOn 0x5 disp9 s
/-- R128. -/
def execBlt (disp9 : BitVec 9) (s : State) : Result := branchOn 0x6 disp9 s
/-- R129. -/
def execBle (disp9 : BitVec 9) (s : State) : Result := branchOn 0x7 disp9 s
/-- R130. -/
def execBnv (disp9 : BitVec 9) (s : State) : Result := branchOn 0x8 disp9 s
/-- R131. -/
def execBnl (disp9 : BitVec 9) (s : State) : Result := branchOn 0x9 disp9 s
/-- R132. -/
def execBne (disp9 : BitVec 9) (s : State) : Result := branchOn 0xA disp9 s
/-- R133. -/
def execBh (disp9 : BitVec 9) (s : State) : Result := branchOn 0xB disp9 s
/-- R134. -/
def execBp (disp9 : BitVec 9) (s : State) : Result := branchOn 0xC disp9 s
/-- R135: condition 13 never holds; the field has no effect. -/
def execNop (s : State) : Result := branchOn 0xD 0 s
/-- R136. -/
def execBge (disp9 : BitVec 9) (s : State) : Result := branchOn 0xE disp9 s
/-- R137. -/
def execBgt (disp9 : BitVec 9) (s : State) : Result := branchOn 0xF disp9 s

end Sys2Proof.Machine
end

