-- ==== Sys2Proof/Machine/FloatFormat.lean ====
section
/-! DEFINITION. Floating-point arithmetic (spec/46_float.md R189-R200) as total functions on words: the
value of the record `FP` that spec/00_scope.md R3 suggests, IEEE 754 binary32 rounded to nearest even. A
finite operand is an integer multiple of 2^-149, so sums, products and quotients are exact fractions of
integers until the one rounding of `roundFraction`. -/

namespace Sys2Proof.Machine

/-- The classes of R190. -/
inductive FloatClass where
  | zero
  | normal
  | denormal
  | infinity
  | nan
  deriving DecidableEq, Repr

/-- Bits 30:23, the biased exponent (R190). -/
def floatExp (v : Word) : Nat := (v.extractLsb' 23 8).toNat

/-- Bits 22:0, the fraction (R190). -/
def floatFrac (v : Word) : Nat := (v.extractLsb' 0 23).toNat

/-- The class of an operand (R190). -/
def floatClass (v : Word) : FloatClass :=
  if floatExp v = 0 then (if floatFrac v = 0 then .zero else .denormal)
  else if floatExp v = 255 then (if floatFrac v = 0 then .infinity else .nan)
  else .normal

/-- A reserved operand: a denormal, a NaN, and an infinity when `FP_RESERVED_INF` is true (R190). -/
def isReserved (reservedInf : Bool) (v : Word) : Bool :=
  match floatClass v with
  | .zero => false
  | .normal => false
  | .denormal => true
  | .infinity => reservedInf
  | .nan => true

/-- Whether the operand is a zero of either sign. -/
def isFloatZero (v : Word) : Bool := floatClass v == .zero

/-- Whether the operand is an infinity. -/
def isFloatInf (v : Word) : Bool := floatClass v == .infinity

/-- The value of a zero or normal operand times 2^149, an integer (R190). An infinity is given the
value 2^128 x 2^149 of its bit pattern, above every finite operand. -/
def floatScaled (v : Word) : Int :=
  if isFloatZero v then 0
  else
    let m : Int := ((2 ^ 23 + floatFrac v) * 2 ^ (floatExp v - 1) : Nat)
    if v.msb then -m else m

/-- The denominator that goes with `floatScaled`. -/
def floatUnit : Nat := 2 ^ 149

/-- `a / b` rounded to an integer, to nearest, ties to even. -/
def roundHalfEven (a b : Nat) : Nat :=
  let q := a / b
  let r := a % b
  if b < 2 * r ∨ (2 * r = b ∧ q % 2 = 1) then q + 1 else q

/-- The exponent `E` with 2^E <= n / d < 2^(E+1), for n and d not 0. -/
def floorLog (n d : Nat) : Int :=
  let k : Int := (Nat.log2 n : Int) - (Nat.log2 d : Int)
  if 2 ^ k.toNat * d ≤ n * 2 ^ (-k).toNat then k else k - 1

/-- The word of sign `neg`, exponent `E` in -126..127 and 24-bit significand `m` (R189). -/
def packFloat (neg : Bool) (e : Int) (m : Nat) : Word :=
  BitVec.ofBool neg ++ BitVec.ofNat 8 (e + 127).toNat ++ BitVec.ofNat 23 (m - 2 ^ 23)

/-- A zero of the given sign. -/
def floatZero (neg : Bool) : Word := if neg then 0x80000000 else 0x00000000

/-- The zero an underflow delivers (R191, `FP_UNDERFLOW_ZERO`). -/
def underflowZero (u : UnderflowZero) (neg : Bool) : Word :=
  match u with
  | .signed => floatZero neg
  | .positive => floatZero false

/-- `Round(q, z)` of R189 for q = num / den: the exact fraction rounded to 24 significant bits. -/
def roundFraction (u : UnderflowZero) (num : Int) (den : Nat) (z : Bool) : FloatOutcome :=
  if num = 0 then .value (floatZero z) false false
  else
    let n := num.natAbs
    let neg := decide (num < 0)
    let e := floorLog n den
    let a := n * 2 ^ (23 - e).toNat
    let b := den * 2 ^ (e - 23).toNat
    let inexact := a % b != 0
    let m := roundHalfEven a b
    let e' := if m = 2 ^ 24 then e + 1 else e
    let m' := if m = 2 ^ 24 then 2 ^ 23 else m
    if 127 < e' then .overflow
    else if e' < -126 then .value (underflowZero u neg) true true
    else .value (packFloat neg e' m') false inexact

/-- The sum of operands that are not reserved; an exact zero is +0 unless both operands are -0 (R189).
With an infinity the IEEE result would be an infinity or a NaN, which this hardware never produces
(R190): DEDUCED overflow or invalid, log entry 15. -/
def floatSum (u : UnderflowZero) (a b : Word) : FloatOutcome :=
  if isFloatInf a || isFloatInf b then
    if isFloatInf a && isFloatInf b && (a.msb != b.msb) then .invalid else .overflow
  else roundFraction u (floatScaled a + floatScaled b) floatUnit (a.msb && b.msb)

/-- `addf.s` (R196): reserved operands first. -/
def floatAdd (c : Config) (a b : Word) : FloatOutcome :=
  if isReserved c.fpReservedInf a || isReserved c.fpReservedInf b then .reserved
  else floatSum c.fpUnderflowZero a b

/-- `subf.s` (R197): the sum with the sign of the second operand inverted. -/
def floatSub (c : Config) (a b : Word) : FloatOutcome :=
  if isReserved c.fpReservedInf a || isReserved c.fpReservedInf b then .reserved
  else floatSum c.fpUnderflowZero a (b ^^^ 0x80000000)

/-- `mulf.s` (R198). The cases of an infinity are DEDUCED, log entry 15. -/
def floatMul (c : Config) (a b : Word) : FloatOutcome :=
  if isReserved c.fpReservedInf a || isReserved c.fpReservedInf b then .reserved
  else if isFloatInf a || isFloatInf b then
    if isFloatZero a || isFloatZero b then .invalid else .overflow
  else roundFraction c.fpUnderflowZero (floatScaled a * floatScaled b) (floatUnit * floatUnit)
    (a.msb ^^ b.msb)

/-- `divf.s`, `a` the dividend (R199). The cases of an infinity are DEDUCED, log entry 15. -/
def floatDiv (c : Config) (a b : Word) : FloatOutcome :=
  if isReserved c.fpReservedInf a || isReserved c.fpReservedInf b then .reserved
  else if isFloatZero b then (if isFloatZero a then .invalid else .zeroDivision)
  else if isFloatInf a then (if isFloatInf b then .invalid else .overflow)
  else if isFloatInf b then .value (floatZero (a.msb ^^ b.msb)) false false
  else roundFraction c.fpUnderflowZero (if b.msb then -floatScaled a else floatScaled a)
    (floatScaled b).natAbs (a.msb ^^ b.msb)

/-- `cvt.ws` (R194): a signed integer, rounded. -/
def floatOfInt (c : Config) (b : Word) : FloatOutcome :=
  roundFraction c.fpUnderflowZero b.toInt 1 false

/-- The integer nearest to `val(b)`, ties to even (R195). -/
def nearestInt (b : Word) : Int :=
  let m : Int := roundHalfEven (floatScaled b).natAbs floatUnit
  if floatScaled b < 0 then -m else m

/-- `val(b)` truncated toward zero (R200). -/
def truncatedInt (b : Word) : Int :=
  let m : Int := (floatScaled b).natAbs / floatUnit
  if floatScaled b < 0 then -m else m

/-- Whether `val(b)` is not an integer (R195, R200). -/
def hasFraction (b : Word) : Bool := (floatScaled b).natAbs % floatUnit != 0

/-- `cvt.sw` (R195). -/
def intOfFloat (c : Config) (b : Word) : FloatOutcome :=
  if isReserved c.fpReservedInf b then .reserved
  else
    let n := nearestInt b
    if n < -2 ^ 31 ∨ 2 ^ 31 - 1 < n then .invalid
    else .value (BitVec.ofInt 32 n) false (hasFraction b)

/-- The range of `trnc.sw` under `TRNC_SW_RESULT`; the readings agree for 0 <= n < 2^31 (R200). -/
def trncInRange (t : TrncResult) (n : Int) : Bool :=
  if 0 ≤ n ∧ n < 2 ^ 31 then true
  else match t with
    | .signed => decide (-2 ^ 31 ≤ n ∧ n ≤ 2 ^ 31 - 1)
    | .unsigned => decide (0 ≤ n ∧ n ≤ 2 ^ 32 - 1)

/-- `trnc.sw` (R200). -/
def truncOfFloat (c : Config) (b : Word) : FloatOutcome :=
  if isReserved c.fpReservedInf b then .reserved
  else
    let n := truncatedInt b
    if trncInRange c.trncSwResult n then .value (BitVec.ofInt 32 n) false (hasFraction b)
    else .invalid

/-- `val(a) = val(b)` (R193). -/
def floatEq (a b : Word) : Bool := decide (floatScaled a = floatScaled b)

/-- `val(a) < val(b)` (R193). -/
def floatLt (a b : Word) : Bool := decide (floatScaled a < floatScaled b)

end Sys2Proof.Machine
end

