-- ==== Sys2Proof/Machine/Float.lean ====
section
/-! DEFINITION. Floating-point instructions, opcode 0x3E (spec/46_float.md). `a` = `x[reg2]` and
`b` = `x[reg1]`; the arithmetic is the record `FP` of spec/00_scope.md R3: Machine/FloatFormat.lean's,
or the functions with no body of Config. -/

namespace Sys2Proof.Machine

/-- A condition that raises an exception: its sticky bit is set first, so that the saved PSW has it;
nothing else is written; the restore PC is the instruction itself (R191, R212). -/
def floatTrap (bit : Nat) (e : Exc) (s : State) : Result := raise e s.pc (s.setPswBit bit true)

/-- A sticky bit is set where `b` holds, and never cleared (R191). -/
def State.stick (s : State) (bit : Nat) (b : Bool) : State :=
  if b then s.setPswBit bit true else s

/-- The completion of an arithmetic instruction whose flags are `f` of its result (R191, R192). -/
def finishFloat (reg2 : RegIdx) (o : FloatOutcome) (f : Word → Flags) (s : State) : Result :=
  match o with
  | .value r fud fpr => finishFlagged reg2 r (f r) 4 ((s.stick bitFUD fud).stick bitFPR fpr)
  | .reserved => floatTrap bitFRO .floatReserved s
  | .invalid => floatTrap bitFIV .floatInvalid s
  | .zeroDivision => floatTrap bitFZD .floatZeroDivision s
  | .overflow => floatTrap bitFOV .floatOverflow s

/-- Sticky bits are set, none is cleared (R191). -/
def State.stickAll (s : State) (bits : BitVec 6) : State :=
  { s with psw := s.psw ||| (bits.setWidth 32 <<< 4) }

/-- The completion with the answer of a platform's own function: its further sticky bits first (R3). -/
def finishPlatform (reg2 : RegIdx) (p : FpAnswer) (f : Word → Flags) (s : State) : Result :=
  finishFloat reg2 p.outcome f (s.stickAll p.sticky)

/-- The completion under the record `FP` of this machine (R3): the suggested arithmetic, or the
platform's own function. -/
def completeFloat (reg2 : RegIdx) (suggested : FloatOutcome) (platform : FpAnswer) (f : Word → Flags)
    (s : State) : Result :=
  match s.config.fp with
  | .binary32 => finishFloat reg2 suggested f s
  | .platform => finishPlatform reg2 platform f s

/-- R193: an exact comparison, no register written. The platform's own comparison answers a word whose
sign and zeroness are the comparison's (R192); `x[0]` as the destination discards it. -/
def execCmpfS (reg1 reg2 : RegIdx) (s : State) : Result :=
  let a := s.readReg reg2
  let b := s.readReg reg1
  match s.config.fp with
  | .platform => finishPlatform 0 (Config.fpCmp a b) floatFlags s
  | .binary32 =>
    if isReserved s.config.fpReservedInf a || isReserved s.config.fpReservedInf b then
      floatTrap bitFRO .floatReserved s
    else .next ((s.setFlags (compareFlags (floatEq a b) (floatLt a b))).advance 4)

/-- R194. -/
def execCvtWS (reg1 reg2 : RegIdx) (s : State) : Result :=
  let b := s.readReg reg1
  completeFloat reg2 (floatOfInt s.config b) (Config.fpCvtWs b) floatFlags s

/-- R195: CY is kept. -/
def execCvtSW (reg1 reg2 : RegIdx) (s : State) : Result :=
  let b := s.readReg reg1
  completeFloat reg2 (intOfFloat s.config b) (Config.fpCvtSw b)
    (fun n => floatIntFlags n s.flags.cy) s

/-- R196. -/
def execAddfS (reg1 reg2 : RegIdx) (s : State) : Result :=
  let a := s.readReg reg2
  let b := s.readReg reg1
  completeFloat reg2 (floatAdd s.config a b) (Config.fpAdd a b) floatFlags s

/-- R197. -/
def execSubfS (reg1 reg2 : RegIdx) (s : State) : Result :=
  let a := s.readReg reg2
  let b := s.readReg reg1
  completeFloat reg2 (floatSub s.config a b) (Config.fpSub a b) floatFlags s

/-- R198. -/
def execMulfS (reg1 reg2 : RegIdx) (s : State) : Result :=
  let a := s.readReg reg2
  let b := s.readReg reg1
  completeFloat reg2 (floatMul s.config a b) (Config.fpMul a b) floatFlags s

/-- R199. -/
def execDivfS (reg1 reg2 : RegIdx) (s : State) : Result :=
  let a := s.readReg reg2
  let b := s.readReg reg1
  completeFloat reg2 (floatDiv s.config a b) (Config.fpDiv a b) floatFlags s

/-- R200: CY is kept. -/
def execTrncSW (reg1 reg2 : RegIdx) (s : State) : Result :=
  let b := s.readReg reg1
  completeFloat reg2 (truncOfFloat s.config b) (Config.fpTrncSw b)
    (fun n => floatIntFlags n s.flags.cy) s

end Sys2Proof.Machine
end

