-- ==== Sys2Proof/Machine/ImmJump.lean ====
section
/-! DEFINITION. 32-bit immediate and jump instructions, formats V and IV (spec/43_imm16_jump.md). The
source register is `reg1`, the destination `reg2`. -/

namespace Sys2Proof.Machine

/-- The three logic operations with `imm16` (R144-R146). -/
def immLogic (reg2 : RegIdx) (r : Word) (s : State) : Result :=
  finishFlagged reg2 r (logicFlags r s.flags.cy) 4 s

/-- R140: no flags. -/
def execMovea (imm16 : BitVec 16) (reg1 reg2 : RegIdx) (s : State) : Result :=
  finishPlain reg2 (s.readReg reg1 + imm16Signed imm16) 4 s

/-- R141. -/
def execAddi (imm16 : BitVec 16) (reg1 reg2 : RegIdx) (s : State) : Result :=
  let b := s.readReg reg1
  finishFlagged reg2 (b + imm16Signed imm16) (addFlags b (imm16Signed imm16)) 4 s

/-- R142: relative to the address of the `jr` itself. -/
def execJr (disp26 : BitVec 26) (s : State) : Result := .next (s.setPc (s.pc + disp26Signed disp26))

/-- R143: the link is the address after the `jal`. -/
def execJal (disp26 : BitVec 26) (s : State) : Result :=
  .next ((s.writeReg 31 (s.pc + 4)).setPc (s.pc + disp26Signed disp26))

/-- R144. -/
def execOri (imm16 : BitVec 16) (reg1 reg2 : RegIdx) (s : State) : Result :=
  immLogic reg2 (s.readReg reg1 ||| logicImm s.config.logicImm16Ext imm16) s

/-- R145. -/
def execAndi (imm16 : BitVec 16) (reg1 reg2 : RegIdx) (s : State) : Result :=
  immLogic reg2 (s.readReg reg1 &&& logicImm s.config.logicImm16Ext imm16) s

/-- R146. -/
def execXori (imm16 : BitVec 16) (reg1 reg2 : RegIdx) (s : State) : Result :=
  immLogic reg2 (s.readReg reg1 ^^^ logicImm s.config.logicImm16Ext imm16) s

/-- R147: no flags. -/
def execMovhi (imm16 : BitVec 16) (reg1 reg2 : RegIdx) (s : State) : Result :=
  finishPlain reg2 (s.readReg reg1 + imm16High imm16) 4 s

end Sys2Proof.Machine
end

