-- ==== Sys2Proof/Machine/RegReg.lean ====
section
/-! DEFINITION. Register-to-register instructions, format I, opcodes 0x00-0x0F (spec/40_reg_reg.md). In
each, `a` = `x[reg2]` and `b` = `x[reg1]` are read before anything is written (R98). -/

namespace Sys2Proof.Machine

/-! ## Shared shapes -/

/-- A two-operand logic operation (R96 `LogicFlags`). -/
def regLogic (reg2 : RegIdx) (r : Word) (s : State) : Result :=
  finishFlagged reg2 r (logicFlags r s.flags.cy) 2 s

/-- A shift with the last bit shifted out (R96 `ShiftFlags`). -/
def regShift (reg2 : RegIdx) (r : Word × Bool) (s : State) : Result :=
  finishFlagged reg2 r.1 (shiftFlags r.1 r.2) 2 s

/-- A result pair: `x[30]` first, then `x[reg2]`, which wins when `reg2` is 30 (R88-R91). -/
def finishPair (reg2 : RegIdx) (high low : Word) (f : Flags) (s : State) : Result :=
  .next ((((s.writeReg 30 high).writeReg reg2 low).setFlags f).advance 2)

/-! ## The instructions -/

/-- R80. -/
def execMov (reg1 reg2 : RegIdx) (s : State) : Result := finishPlain reg2 (s.readReg reg1) 2 s

/-- R81. -/
def execAdd (reg1 reg2 : RegIdx) (s : State) : Result :=
  let a := s.readReg reg2
  let b := s.readReg reg1
  finishFlagged reg2 (a + b) (addFlags a b) 2 s

/-- R82. -/
def execSub (reg1 reg2 : RegIdx) (s : State) : Result :=
  let a := s.readReg reg2
  let b := s.readReg reg1
  finishFlagged reg2 (a - b) (subFlags a b) 2 s

/-- R83: the difference is discarded. -/
def execCmp (reg1 reg2 : RegIdx) (s : State) : Result :=
  .next ((s.setFlags (subFlags (s.readReg reg2) (s.readReg reg1))).advance 2)

/-- R84. -/
def execShl (reg1 reg2 : RegIdx) (s : State) : Result :=
  regShift reg2 (shiftLeft (s.readReg reg2) (shiftCount (s.readReg reg1))) s

/-- R85. -/
def execShr (reg1 reg2 : RegIdx) (s : State) : Result :=
  regShift reg2 (shiftRight (s.readReg reg2) (shiftCount (s.readReg reg1))) s

/-- R86: no link, bit 0 of the target dropped. -/
def execJmp (reg1 : RegIdx) (s : State) : Result := .next (s.setPc (s.readReg reg1))

/-- R87. -/
def execSar (reg1 reg2 : RegIdx) (s : State) : Result :=
  regShift reg2 (shiftArith (s.readReg reg2) (shiftCount (s.readReg reg1))) s

/-- R88: the signed 64-bit product. -/
def execMul (reg1 reg2 : RegIdx) (s : State) : Result :=
  let p := (s.readReg reg2).toInt * (s.readReg reg1).toInt
  let w := BitVec.ofInt 64 p
  let low := w.extractLsb' 0 32
  finishPair reg2 (w.extractLsb' 32 32) low (mulFlags low p s.flags.cy) s

/-- R89: division truncates toward zero; a zero divisor raises zero division; 80000000 / FFFFFFFF
overflows. -/
def execDiv (reg1 reg2 : RegIdx) (s : State) : Result :=
  let a := s.readReg reg2
  let b := s.readReg reg1
  if b = 0 then raise .zeroDivision s.pc s
  else if a = 0x80000000 ∧ b = 0xFFFFFFFF then
    finishPair reg2 0 0x80000000 (divFlags 0x80000000 true s.flags.cy) s
  else
    let q := BitVec.ofInt 32 (a.toInt.tdiv b.toInt)
    finishPair reg2 (BitVec.ofInt 32 (a.toInt.tmod b.toInt)) q (divFlags q false s.flags.cy) s

/-- R90: the unsigned 64-bit product. -/
def execMulu (reg1 reg2 : RegIdx) (s : State) : Result :=
  let w := BitVec.ofNat 64 ((s.readReg reg2).toNat * (s.readReg reg1).toNat)
  let low := w.extractLsb' 0 32
  let high := w.extractLsb' 32 32
  finishPair reg2 high low (muluFlags low high s.flags.cy) s

/-- R91. -/
def execDivu (reg1 reg2 : RegIdx) (s : State) : Result :=
  let a := s.readReg reg2
  let b := s.readReg reg1
  if b = 0 then raise .zeroDivision s.pc s
  else finishPair reg2 (a % b) (a / b) (divFlags (a / b) false s.flags.cy) s

/-- R92. -/
def execOr (reg1 reg2 : RegIdx) (s : State) : Result :=
  regLogic reg2 (s.readReg reg2 ||| s.readReg reg1) s

/-- R93. -/
def execAnd (reg1 reg2 : RegIdx) (s : State) : Result :=
  regLogic reg2 (s.readReg reg2 &&& s.readReg reg1) s

/-- R94. -/
def execXor (reg1 reg2 : RegIdx) (s : State) : Result :=
  regLogic reg2 (s.readReg reg2 ^^^ s.readReg reg1) s

/-- R95. -/
def execNot (reg1 reg2 : RegIdx) (s : State) : Result := regLogic reg2 (~~~s.readReg reg1) s

end Sys2Proof.Machine
end

