-- ==== Sys2Proof/Machine/ImmReg.lean ====
section
/-! DEFINITION. Immediate-to-register instructions of format II that compute (spec/41_imm_reg.md
R100-R106). -/

namespace Sys2Proof.Machine

/-- R100. -/
def execMovImm (imm5 : BitVec 5) (reg2 : RegIdx) (s : State) : Result :=
  finishPlain reg2 (imm5Signed imm5) 2 s

/-- R101: the sign-extended immediate is the second operand. -/
def execAddImm (imm5 : BitVec 5) (reg2 : RegIdx) (s : State) : Result :=
  let a := s.readReg reg2
  finishFlagged reg2 (a + imm5Signed imm5) (addFlags a (imm5Signed imm5)) 2 s

/-- R102: 1 or 0 in the whole register. -/
def execSetf (cond : BitVec 4) (reg2 : RegIdx) (s : State) : Result :=
  finishPlain reg2 (if condHolds cond s.flags then 1 else 0) 2 s

/-- R103. -/
def execCmpImm (imm5 : BitVec 5) (reg2 : RegIdx) (s : State) : Result :=
  .next ((s.setFlags (subFlags (s.readReg reg2) (imm5Signed imm5))).advance 2)

/-- R104: the count is the unsigned field. -/
def execShlImm (imm5 : BitVec 5) (reg2 : RegIdx) (s : State) : Result :=
  regShift reg2 (shiftLeft (s.readReg reg2) imm5) s

/-- R105. -/
def execShrImm (imm5 : BitVec 5) (reg2 : RegIdx) (s : State) : Result :=
  regShift reg2 (shiftRight (s.readReg reg2) imm5) s

/-- R106. -/
def execSarImm (imm5 : BitVec 5) (reg2 : RegIdx) (s : State) : Result :=
  regShift reg2 (shiftArith (s.readReg reg2) imm5) s

end Sys2Proof.Machine
end

