-- ==== Sys2Proof/Machine/LoadStore.lean ====
section
/-! DEFINITION. Loads, stores, port input and output, and `caxi`, format VI (spec/44_load_store.md). -/

namespace Sys2Proof.Machine

/-! ## Shared shapes: the address is R150's sum, aligned to the width (R36) -/

/-- The address an instruction of this family uses. -/
def accessAddr (w : Width) (disp16 : BitVec 16) (reg1 : RegIdx) (s : State) : Word :=
  alignTo w (effAddr (s.readReg reg1) disp16)

/-- A load from memory; the read is made also when `reg2` is r0 (R151). -/
def loadMem (w : Width) (disp16 : BitVec 16) (reg1 reg2 : RegIdx) (s : State) : Result :=
  bindOutcome (memRead w (accessAddr w disp16 reg1 s) s) fun r =>
  finishPlain reg2 (extendLoad w r.1) 4 r.2

/-- A store to memory (R154-R156). -/
def storeMem (w : Width) (reg2 : RegIdx) (disp16 : BitVec 16) (reg1 : RegIdx) (s : State) : Result :=
  bindOutcome (memWrite w (accessAddr w disp16 reg1 s) (s.readReg reg2) s) fun t =>
  .next (t.advance 4)

/-- A port input: the narrow forms zero-extend (R157-R159). -/
def inputPort (w : Width) (disp16 : BitVec 16) (reg1 reg2 : RegIdx) (s : State) : Result :=
  bindOutcome (ioRead w (accessAddr w disp16 reg1 s) s) fun r =>
  finishPlain reg2 r.1 4 r.2

/-- A port output (R161-R163). -/
def outputPort (w : Width) (reg2 : RegIdx) (disp16 : BitVec 16) (reg1 : RegIdx) (s : State) :
    Result :=
  bindOutcome (ioWrite w (accessAddr w disp16 reg1 s) (s.readReg reg2) s) fun t =>
  .next (t.advance 4)

/-! ## The instructions -/

/-- R151. -/
def execLdB (disp16 : BitVec 16) (reg1 reg2 : RegIdx) (s : State) : Result :=
  loadMem .byte disp16 reg1 reg2 s

/-- R152. -/
def execLdH (disp16 : BitVec 16) (reg1 reg2 : RegIdx) (s : State) : Result :=
  loadMem .half disp16 reg1 reg2 s

/-- R153. -/
def execLdW (disp16 : BitVec 16) (reg1 reg2 : RegIdx) (s : State) : Result :=
  loadMem .word disp16 reg1 reg2 s

/-- R154. -/
def execStB (reg2 : RegIdx) (disp16 : BitVec 16) (reg1 : RegIdx) (s : State) : Result :=
  storeMem .byte reg2 disp16 reg1 s

/-- R155. -/
def execStH (reg2 : RegIdx) (disp16 : BitVec 16) (reg1 : RegIdx) (s : State) : Result :=
  storeMem .half reg2 disp16 reg1 s

/-- R156. -/
def execStW (reg2 : RegIdx) (disp16 : BitVec 16) (reg1 : RegIdx) (s : State) : Result :=
  storeMem .word reg2 disp16 reg1 s

/-- R157. -/
def execInB (disp16 : BitVec 16) (reg1 reg2 : RegIdx) (s : State) : Result :=
  inputPort .byte disp16 reg1 reg2 s

/-- R158. -/
def execInH (disp16 : BitVec 16) (reg1 reg2 : RegIdx) (s : State) : Result :=
  inputPort .half disp16 reg1 reg2 s

/-- R159. -/
def execInW (disp16 : BitVec 16) (reg1 reg2 : RegIdx) (s : State) : Result :=
  inputPort .word disp16 reg1 reg2 s

/-- R161. -/
def execOutB (reg2 : RegIdx) (disp16 : BitVec 16) (reg1 : RegIdx) (s : State) : Result :=
  outputPort .byte reg2 disp16 reg1 s

/-- R162. -/
def execOutH (reg2 : RegIdx) (disp16 : BitVec 16) (reg1 : RegIdx) (s : State) : Result :=
  outputPort .half reg2 disp16 reg1 s

/-- R163. -/
def execOutW (reg2 : RegIdx) (disp16 : BitVec 16) (reg1 : RegIdx) (s : State) : Result :=
  outputPort .word reg2 disp16 reg1 s

/-- R160: compare `x[reg2]` with the word, write `x[30]` or the old word back, load the old word. The
read and the write are one step, so no other access comes between them. -/
def execCaxi (disp16 : BitVec 16) (reg1 reg2 : RegIdx) (s : State) : Result :=
  let a := accessAddr .word disp16 reg1 s
  let cmpv := s.readReg reg2
  bindOutcome (memRead .word a s) fun r =>
  bindOutcome (memWrite .word a (if cmpv = r.1 then s.readReg 30 else r.1) r.2) fun t =>
  finishFlagged reg2 r.1 (subFlags cmpv r.1) 4 t

end Sys2Proof.Machine
end

