-- ==== Sys2Proof/Machine/System.lean ====
section
/-! DEFINITION. The system instructions of format II (spec/41_imm_reg.md R107-R113), the system
registers they move (spec/10_state.md R17, R25), and the undefined primary opcodes
(spec/30_encoding.md R70). -/

namespace Sys2Proof.Machine

/-! ## System registers (R17) -/

/-- What `stsr` reads of system register `n`; `none` for a reserved number (D37). -/
def readSystem (n : BitVec 5) (s : State) : Option Word :=
  match n with
  | 0#5 => some s.eipc
  | 1#5 => some s.eipsw
  | 2#5 => some s.fepc
  | 3#5 => some s.fepsw
  | 4#5 => some s.ecr
  | 5#5 => some s.psw
  | 6#5 => some s.pir
  | 7#5 => some s.tkcw
  | 24#5 => some s.chcw
  | 25#5 => some s.adtre
  | _ => none

/-- The cached pairs that stay when the entries CEN .. CEN+CEC-1 are cleared (R25, R47). -/
def clearEntries (cen cec : Nat) (cache : List (Nat × Half)) : List (Nat × Half) :=
  cache.filter fun c =>
    !(decide (cen ≤ (Config.cacheEntry c.1).toNat ∧ (Config.cacheEntry c.1).toNat < cen + cec))

/-- A write of CHCW (R25): ICD and ICR are refused; ICC clears cache entries where there is a cache
to clear; only ICE, bit 1, is stored. -/
def writeChcw (v : Word) (s : State) : Result :=
  if v.getLsbD 4 || v.getLsbD 5 then .refused .cacheDumpRestore
  else
    let cache :=
      if v.getLsbD 0 && s.config.icache == .explicitClear then
        clearEntries (v.extractLsb' 20 12).toNat (v.extractLsb' 8 12).toNat s.icache
      else s.icache
    .next { s with chcw := v &&& 0x00000002, icache := cache }

/-- What `ldsr` does to system register `n` (R111). -/
def writeSystem (n : BitVec 5) (v : Word) (s : State) : Result :=
  match n with
  | 0#5 => .next { s with eipc := v &&& 0xFFFFFFFE }
  | 1#5 => .next { s with eipsw := v &&& pswMask }
  | 2#5 => .next { s with fepc := v &&& 0xFFFFFFFE }
  | 3#5 => .next { s with fepsw := v &&& pswMask }
  | 4#5 => .next s
  | 5#5 => .next (s.setPsw v)
  | 6#5 => .next s
  | 7#5 => .next s
  | 24#5 => writeChcw v s
  | 25#5 => .next { s with adtre := v &&& 0xFFFFFFFE }
  | _ => .refused (.reservedSystemRegister n)

/-! ## The instructions -/

/-- R107: maskable interrupts enabled; an undefined opcode when `HAS_EI_DI` is false (R74). -/
def execEi (s : State) : Result :=
  if s.config.hasEiDi then .next ((s.setPswBit bitID false).advance 2)
  else undefinedInstruction "ei" s

/-- R113: maskable interrupts disabled; an undefined opcode when `HAS_EI_DI` is false (R74). -/
def execDi (s : State) : Result :=
  if s.config.hasEiDi then .next ((s.setPswBit bitID true).advance 2)
  else undefinedInstruction "di" s

/-- R108: the restore PC is the instruction after the trap. -/
def execTrap (vector : BitVec 5) (s : State) : Result := raise (.trap vector) (s.pc + 2) s

/-- R109. -/
def execReti (s : State) : Result := .next (returnFromException s)

/-- R110. -/
def execHalt (s : State) : Result := .next { s.advance 2 with halted := true }

/-- R111. -/
def execLdsr (reg2 : RegIdx) (sreg : BitVec 5) (s : State) : Result :=
  bindOutcome (writeSystem sreg (s.readReg reg2) s) fun t => .next (t.advance 2)

/-- R112. -/
def execStsr (sreg : BitVec 5) (reg2 : RegIdx) (s : State) : Result :=
  match readSystem sreg s with
  | some v => finishPlain reg2 v 2 s
  | none => .refused (.reservedSystemRegister sreg)

/-- Opcode 0x1B (R70). -/
def execUdef1B (s : State) : Result := undefinedInstruction "udef.1b" s

/-- Opcode 0x32 (R70). -/
def execUdef32 (s : State) : Result := undefinedInstruction "udef.32" s

/-- Opcode 0x36 (R70). -/
def execUdef36 (s : State) : Result := undefinedInstruction "udef.36" s

end Sys2Proof.Machine
end

