-- ==== Sys2Proof/Machine/Dispatch.lean ====
section
/-! DEFINITION. The meaning of every instruction: one arm per constructor. -/

namespace Sys2Proof.Machine

/-- The effect of one instruction at the address in `pc`, the pc's advance included. -/
def exec (i : Instr) (s : State) : Host.Outcome State Fault Refusal :=
  match i with
  | .mov reg1 reg2 => Sys2Proof.Machine.execMov reg1 reg2 s
  | .add reg1 reg2 => Sys2Proof.Machine.execAdd reg1 reg2 s
  | .sub reg1 reg2 => Sys2Proof.Machine.execSub reg1 reg2 s
  | .cmp reg1 reg2 => Sys2Proof.Machine.execCmp reg1 reg2 s
  | .shl reg1 reg2 => Sys2Proof.Machine.execShl reg1 reg2 s
  | .shr reg1 reg2 => Sys2Proof.Machine.execShr reg1 reg2 s
  | .jmp reg1 => Sys2Proof.Machine.execJmp reg1 s
  | .sar reg1 reg2 => Sys2Proof.Machine.execSar reg1 reg2 s
  | .mul reg1 reg2 => Sys2Proof.Machine.execMul reg1 reg2 s
  | .div reg1 reg2 => Sys2Proof.Machine.execDiv reg1 reg2 s
  | .mulu reg1 reg2 => Sys2Proof.Machine.execMulu reg1 reg2 s
  | .divu reg1 reg2 => Sys2Proof.Machine.execDivu reg1 reg2 s
  | .or reg1 reg2 => Sys2Proof.Machine.execOr reg1 reg2 s
  | .and reg1 reg2 => Sys2Proof.Machine.execAnd reg1 reg2 s
  | .xor reg1 reg2 => Sys2Proof.Machine.execXor reg1 reg2 s
  | .not reg1 reg2 => Sys2Proof.Machine.execNot reg1 reg2 s
  | .movImm imm5 reg2 => Sys2Proof.Machine.execMovImm imm5 reg2 s
  | .addImm imm5 reg2 => Sys2Proof.Machine.execAddImm imm5 reg2 s
  | .setf cond reg2 => Sys2Proof.Machine.execSetf cond reg2 s
  | .cmpImm imm5 reg2 => Sys2Proof.Machine.execCmpImm imm5 reg2 s
  | .shlImm imm5 reg2 => Sys2Proof.Machine.execShlImm imm5 reg2 s
  | .shrImm imm5 reg2 => Sys2Proof.Machine.execShrImm imm5 reg2 s
  | .ei => Sys2Proof.Machine.execEi s
  | .sarImm imm5 reg2 => Sys2Proof.Machine.execSarImm imm5 reg2 s
  | .trap vector => Sys2Proof.Machine.execTrap vector s
  | .reti => Sys2Proof.Machine.execReti s
  | .halt => Sys2Proof.Machine.execHalt s
  | .udef1B => Sys2Proof.Machine.execUdef1B s
  | .ldsr reg2 sreg => Sys2Proof.Machine.execLdsr reg2 sreg s
  | .stsr sreg reg2 => Sys2Proof.Machine.execStsr sreg reg2 s
  | .di => Sys2Proof.Machine.execDi s
  | .sch0bsu => Sys2Proof.Machine.execSch0bsu s
  | .sch0bsd => Sys2Proof.Machine.execSch0bsd s
  | .sch1bsu => Sys2Proof.Machine.execSch1bsu s
  | .sch1bsd => Sys2Proof.Machine.execSch1bsd s
  | .orbsu => Sys2Proof.Machine.execOrbsu s
  | .andbsu => Sys2Proof.Machine.execAndbsu s
  | .xorbsu => Sys2Proof.Machine.execXorbsu s
  | .movbsu => Sys2Proof.Machine.execMovbsu s
  | .ornbsu => Sys2Proof.Machine.execOrnbsu s
  | .andnbsu => Sys2Proof.Machine.execAndnbsu s
  | .xornbsu => Sys2Proof.Machine.execXornbsu s
  | .notbsu => Sys2Proof.Machine.execNotbsu s
  | .bv disp9 => Sys2Proof.Machine.execBv disp9 s
  | .bl disp9 => Sys2Proof.Machine.execBl disp9 s
  | .be disp9 => Sys2Proof.Machine.execBe disp9 s
  | .bnh disp9 => Sys2Proof.Machine.execBnh disp9 s
  | .bn disp9 => Sys2Proof.Machine.execBn disp9 s
  | .br disp9 => Sys2Proof.Machine.execBr disp9 s
  | .blt disp9 => Sys2Proof.Machine.execBlt disp9 s
  | .ble disp9 => Sys2Proof.Machine.execBle disp9 s
  | .bnv disp9 => Sys2Proof.Machine.execBnv disp9 s
  | .bnl disp9 => Sys2Proof.Machine.execBnl disp9 s
  | .bne disp9 => Sys2Proof.Machine.execBne disp9 s
  | .bh disp9 => Sys2Proof.Machine.execBh disp9 s
  | .bp disp9 => Sys2Proof.Machine.execBp disp9 s
  | .nop => Sys2Proof.Machine.execNop s
  | .bge disp9 => Sys2Proof.Machine.execBge disp9 s
  | .bgt disp9 => Sys2Proof.Machine.execBgt disp9 s
  | .movea imm16 reg1 reg2 => Sys2Proof.Machine.execMovea imm16 reg1 reg2 s
  | .addi imm16 reg1 reg2 => Sys2Proof.Machine.execAddi imm16 reg1 reg2 s
  | .jr disp26 => Sys2Proof.Machine.execJr disp26 s
  | .jal disp26 => Sys2Proof.Machine.execJal disp26 s
  | .ori imm16 reg1 reg2 => Sys2Proof.Machine.execOri imm16 reg1 reg2 s
  | .andi imm16 reg1 reg2 => Sys2Proof.Machine.execAndi imm16 reg1 reg2 s
  | .xori imm16 reg1 reg2 => Sys2Proof.Machine.execXori imm16 reg1 reg2 s
  | .movhi imm16 reg1 reg2 => Sys2Proof.Machine.execMovhi imm16 reg1 reg2 s
  | .ldB disp16 reg1 reg2 => Sys2Proof.Machine.execLdB disp16 reg1 reg2 s
  | .ldH disp16 reg1 reg2 => Sys2Proof.Machine.execLdH disp16 reg1 reg2 s
  | .udef32 => Sys2Proof.Machine.execUdef32 s
  | .ldW disp16 reg1 reg2 => Sys2Proof.Machine.execLdW disp16 reg1 reg2 s
  | .stB reg2 disp16 reg1 => Sys2Proof.Machine.execStB reg2 disp16 reg1 s
  | .stH reg2 disp16 reg1 => Sys2Proof.Machine.execStH reg2 disp16 reg1 s
  | .udef36 => Sys2Proof.Machine.execUdef36 s
  | .stW reg2 disp16 reg1 => Sys2Proof.Machine.execStW reg2 disp16 reg1 s
  | .inB disp16 reg1 reg2 => Sys2Proof.Machine.execInB disp16 reg1 reg2 s
  | .inH disp16 reg1 reg2 => Sys2Proof.Machine.execInH disp16 reg1 reg2 s
  | .caxi disp16 reg1 reg2 => Sys2Proof.Machine.execCaxi disp16 reg1 reg2 s
  | .inW disp16 reg1 reg2 => Sys2Proof.Machine.execInW disp16 reg1 reg2 s
  | .outB reg2 disp16 reg1 => Sys2Proof.Machine.execOutB reg2 disp16 reg1 s
  | .outH reg2 disp16 reg1 => Sys2Proof.Machine.execOutH reg2 disp16 reg1 s
  | .outW reg2 disp16 reg1 => Sys2Proof.Machine.execOutW reg2 disp16 reg1 s
  | .cmpfS reg1 reg2 => Sys2Proof.Machine.execCmpfS reg1 reg2 s
  | .cvtWS reg1 reg2 => Sys2Proof.Machine.execCvtWS reg1 reg2 s
  | .cvtSW reg1 reg2 => Sys2Proof.Machine.execCvtSW reg1 reg2 s
  | .addfS reg1 reg2 => Sys2Proof.Machine.execAddfS reg1 reg2 s
  | .subfS reg1 reg2 => Sys2Proof.Machine.execSubfS reg1 reg2 s
  | .mulfS reg1 reg2 => Sys2Proof.Machine.execMulfS reg1 reg2 s
  | .divfS reg1 reg2 => Sys2Proof.Machine.execDivfS reg1 reg2 s
  | .trncSW reg1 reg2 => Sys2Proof.Machine.execTrncSW reg1 reg2 s

end Sys2Proof.Machine
end

