-- ==== Sys2Proof/Machine/Fetch.lean ====
section
/-! DEFINITION. Fetching an instruction's halfwords (spec/20_memory.md R31, R39, R46), what a step does
with words that are no instruction, and the address trap before the fetch (spec/60_exceptions.md
R213). -/

namespace Sys2Proof.Machine

/-- The cached halfwords at an address that differ from what memory holds now (R46). -/
def staleHalves (cache : List (Nat × Half)) (a : Nat) (now : Half) : List Half :=
  (cache.filter fun c => c.1 == a && c.2 != now).map (·.2)

/-- Whether a fetch may answer an old value: `ICACHE` = `explicit_clear` and CHCW.ICE = 1 (R46). -/
def State.cacheOn (s : State) : Bool := s.config.icache == .explicitClear && s.chcw.getLsbD 1

/-- A fetch of a halfword is remembered, under every value of CHCW.ICE, for R46 lets a later fetch
answer any value held at an earlier fetch since the last clear; without `explicit_clear` nothing is. -/
def State.remember (s : State) (a : Word) (now : Half) : State :=
  if s.config.icache = .explicitClear ∧ (a.toNat, now) ∉ s.icache then
    { s with icache := (a.toNat, now) :: s.icache }
  else s

/-- What a fetch of an address that memory holds `now` at answers: that, or, with the cache on, a free
choice among that and the other values remembered for the address (R46, log entry 11). -/
def cachedFetch (a : Word) (now : Half) (s : State) : Half × State :=
  match if s.cacheOn then staleHalves s.icache a.toNat now else [] with
  | [] => (now, s.remember a now)
  | stale =>
    let all := now :: stale
    (all.getD (Config.icacheChoice s.draws a.toNat % all.length) now,
      { s.remember a now with draws := s.draws + 1 })

/-- `fetch16(a)` (R31), by the kinds of its two bytes (R39, R48). -/
def fetch16 (a : Word) (s : State) : Host.Outcome (Half × State) Fault Refusal :=
  if touches s.memPlace a.toNat 2 (.unmapped .memory) then .fault (.unmappedAddress a.toNat)
  else if touches s.memPlace a.toNat 2 (.device .memory) then .refused (.deviceFetch a.toNat)
  else .next (cachedFetch a ((readBytes s.mem a.toNat 2).extractLsb' 0 16) s)

/-- The halfwords of the instruction at the pc; the second is 0 for a 16-bit instruction (R15, R50). -/
def fetchWords (s : State) : Host.Outcome ((Half × Half) × State) Fault Refusal :=
  bindOutcome (fetch16 (s.pc &&& 0xFFFFFFFE) s) fun r =>
  if isLong r.1 then
    bindOutcome (fetch16 ((s.pc &&& 0xFFFFFFFE) + 2) r.2) fun q => .next ((r.1, q.1), q.2)
  else .next ((r.1, 0), r.2)

/-- The non-zero unused field for which a word is refused under `STRICT_UNUSED_FIELDS` (R76). Whether a
word is undefined is tested first (R65), and without `HAS_EI_DI` every word of opcode 0x16 or 0x1E is
(R74). -/
def strictField (c : Config) (i : Instr) (w : Half × Half) : Option UnusedField :=
  if !c.strictUnusedFields || (!c.hasEiDi && (i == .ei || i == .di)) then none
  else unusedField i w.1 w.2

/-- What the decoder makes of the fetched words: an undefined sub-opcode is an undefined instruction
(R71, R72), then a non-zero unused field is refused (R76). `run` is the meaning of an instruction. -/
def runWords (run : Instr → State → Result) (w : Half × Half) (s : State) : Result :=
  match decodeWords w.1 w.2 with
  | .error .truncated => undefinedInstruction "truncated" s
  | .error (.undefinedBitString _) => undefinedInstruction "bit-string sub-opcode" s
  | .error (.undefinedFloat _) => undefinedInstruction "floating-point sub-opcode" s
  | .error (.noRow _) => undefinedInstruction "opcode" s
  | .ok i =>
    match strictField s.config i w with
    | some field => .refused (.unusedField i.mnemonic field)
    | none => run i s

/-- Whether the address trap is due at this boundary (R213). -/
def State.addressTrapDue (s : State) : Bool := s.psw.getLsbD bitAE && s.pc == s.adtre

/-- The part of a step that executes: the address trap before the instruction (R213, R224), else
fetch, decode and run. -/
def runInstruction (run : Instr → State → Result) (s : State) : Result :=
  if s.addressTrapDue then raise .addressTrap s.pc s
  else bindOutcome (fetchWords s) fun r => runWords run r.1 r.2

/-- One step (R15, R224): reset, then an accepted event, then nothing while halted, else the
instruction; the input sample of this step is used up. A stopped machine has no step but a reset
(R28). -/
def stepWith (run : Instr → State → Result) (s : State) : Result :=
  if s.sample.resetReq then .next (performReset s).dropSample
  else if s.stopped then .fault .stopped
  else match acceptedEvent s.psw s.sample with
    | some e => .next (enterEvent e s).dropSample
    | none =>
      if s.halted then .next s.dropSample
      else bindOutcome (runInstruction run s) fun t => .next t.dropSample

/-- The bytes of an instruction stored at consecutive addresses from the pc. -/
def storeBytesAt (a : Word) (bytes : List Byte) (m : Memory) : Memory :=
  match bytes with
  | [] => m
  | b :: t => storeBytesAt (a + 1) t (writeByte m a.toNat b)

/-- The state with the four bytes of an instruction at the pc, and no other cached value of the two
halfwords. -/
def placeInstruction (bytes : List Byte) (s : State) : State :=
  let a := s.pc &&& 0xFFFFFFFE
  { s with
    mem := storeBytesAt a bytes s.mem
    icache := s.icache.filter fun c => c.1 != a.toNat && c.1 != (a + 2).toNat }

end Sys2Proof.Machine
end

