-- ==== Sys2Proof/Machine/Step.lean ====
section
/-! DEFINITION. One step of the machine (spec/10_state.md R15), and the host's probe. -/

namespace Sys2Proof.Machine

/-- One step: next, fault or refusal (R15). -/
def step (s : State) : Host.Outcome State Fault Refusal := stepWith exec s

/-- The state with the instruction whose low `nbits` bits are `w` stored where the next step fetches:
its four bytes at the pc, the bits above `nbits` 0. -/
def State.withFetchWord (s : State) (nbits w : Nat) : State := placeInstruction (tableBytes nbits w) s

end Sys2Proof.Machine
end

