-- ==== Sys2Proof/Safety.lean ====
section
/-! DEFINITION. The terms statements are made of: the invariant of the machine, what a step leaves
alone (frames), the entry of an exception as spec/60_exceptions.md R214, R217 word it, the values of
floating-point operands as rationals (spec/46_float.md R190), the bits of a bit string
(spec/45_bitstring.md R172), and what counts as a safe run. -/

namespace Sys2Proof.Machine

/-! ## The invariant -/

/-- What holds in every state a step reaches from a state where it holds: the spaces keep their
canonical form, bit 0 of the pc, EIPC, FEPC and ADTRE is 0 (spec/10_state.md R14, R17), the reserved
bits of the PSW and of its saved copies are 0 (R20), and of CHCW only ICE is stored (R25). -/
structure State.Inv (s : State) : Prop where
  memory : Memory.wf s.mem
  ports : Memory.wf s.io
  pcEven : s.pc.getLsbD 0 = false
  eipcEven : s.eipc.getLsbD 0 = false
  fepcEven : s.fepc.getLsbD 0 = false
  adtreEven : s.adtre.getLsbD 0 = false
  pswReserved : s.psw &&& pswMask = s.psw
  eipswReserved : s.eipsw &&& pswMask = s.eipsw
  fepswReserved : s.fepsw &&& pswMask = s.fepsw
  chcwReserved : s.chcw &&& 0x00000002 = s.chcw

/-! ## Safe runs -/

/-- `n` steps, none of which ends in a fault or a refusal, and no fatal exception on the way. -/
def safeFor (n : Nat) (s : State) : Prop :=
  match n with
  | 0 => s.stopped = false
  | n + 1 => s.stopped = false ∧ ∃ t, step s = .next t ∧ safeFor n t

/-! ## Frames -/

/-- The value of register `j` after writes in order, the last one winning. -/
def valueAfter (old : Word) (j : RegIdx) (writes : List (RegIdx × Word)) : Word :=
  match writes with
  | [] => old
  | (i, v) :: rest => valueAfter (if i = j then v else old) j rest

/-- `x[0]` reads 0, and every other register holds the last value written to it, or its old one
(spec/10_state.md R11). -/
def RegsAfter (s t : State) (writes : List (RegIdx × Word)) : Prop :=
  ∀ j : RegIdx, t.readReg j = if j = 0 then 0 else valueAfter (s.readReg j) j writes

/-- Every PSW bit but the listed ones is as it was. -/
def PswKeeps (s t : State) (bits : List Nat) : Prop :=
  ∀ n : Nat, n ∉ bits → t.psw.getLsbD n = s.psw.getLsbD n

/-- The four condition flags. -/
def FlagsAre (t : State) (z s ov cy : Prop) : Prop :=
  (t.psw.getLsbD bitZ = true ↔ z) ∧ (t.psw.getLsbD bitS = true ↔ s) ∧
  (t.psw.getLsbD bitOV = true ↔ ov) ∧ (t.psw.getLsbD bitCY = true ↔ cy)

/-- The system registers that an exception or `ldsr` writes, other than the PSW. -/
def SameSystem (s t : State) : Prop :=
  t.eipc = s.eipc ∧ t.eipsw = s.eipsw ∧ t.fepc = s.fepc ∧ t.fepsw = s.fepsw ∧ t.ecr = s.ecr ∧
  t.pir = s.pir ∧ t.tkcw = s.tkcw ∧ t.chcw = s.chcw ∧ t.adtre = s.adtre

/-- The two machine flags, the inputs, the cache and the parameters. -/
def SameControl (s t : State) : Prop :=
  t.halted = s.halted ∧ t.stopped = s.stopped ∧ t.inputs = s.inputs ∧ t.icache = s.icache ∧
  t.config = s.config

/-- Every byte of memory reads as before. -/
def SameMemory (s t : State) : Prop := ∀ a : Nat, readByte t.mem a = readByte s.mem a

/-- Every byte of the port space reads as before. -/
def SamePorts (s t : State) : Prop := ∀ a : Nat, readByte t.io a = readByte s.io a

/-- No device was accessed and no free value drawn. -/
def NoDevice (s t : State) : Prop := t.deviceLog = s.deviceLog ∧ t.draws = s.draws

/-- The effect of an instruction on everything but memory, ports and devices: the registers written,
the PSW bits that may change, and where the pc goes (bit 0 of it is always 0, R14). -/
structure CoreEffect (s t : State) (writes : List (RegIdx × Word)) (bits : List Nat) (next : Word) :
    Prop where
  regs : RegsAfter s t writes
  psw : PswKeeps s t bits
  pc : t.pc = next &&& 0xFFFFFFFE
  system : SameSystem s t
  control : SameControl s t

/-- The effect of an instruction that stores nothing and touches no device. -/
structure Effect (s t : State) (writes : List (RegIdx × Word)) (bits : List Nat) (next : Word) :
    Prop where
  core : CoreEffect s t writes bits next
  memory : SameMemory s t
  ports : SamePorts s t
  devices : NoDevice s t

/-- Memory after `n` bytes of `v` are stored at `a`, low byte first; every other byte is as it was
(spec/20_memory.md R35). -/
def StoredAt (s t : State) (a : Nat) (n : Nat) (v : Word) : Prop :=
  (∀ k, k < n → readByte t.mem (a + k) = v.extractLsb' (8 * k) 8) ∧
  ∀ c, c < a ∨ a + n ≤ c → readByte t.mem c = readByte s.mem c

/-- The same for the port space. -/
def StoredAtPort (s t : State) (a : Nat) (n : Nat) (v : Word) : Prop :=
  (∀ k, k < n → readByte t.io (a + k) = v.extractLsb' (8 * k) 8) ∧
  ∀ c, c < a ∨ a + n ≤ c → readByte t.io c = readByte s.io c

/-- The bytes of a space from `a` up as a number, low byte first (spec/20_memory.md R32). -/
def littleEndian (m : Memory) (a : Nat) (n : Nat) : Nat :=
  match n with
  | 0 => 0
  | n + 1 => (readByte m a).toNat + 256 * littleEndian m (a + 1) n

/-- The bytes `f 0`, ..., `f (n-1)` as a number, low byte first (R32). -/
def bytesValue (f : Nat → Byte) (n : Nat) : Nat :=
  match n with
  | 0 => 0
  | n + 1 => (f 0).toNat + 256 * bytesValue (fun k => f (k + 1)) n

/-- One read of `n` bytes at `a` was made of a device, and it answered `v`: a free value of which only
the low `8n` bits count (R39). -/
def DeviceWasRead (s t : State) (space : Space) (a : Word) (n : Nat) (v : Word) : Prop :=
  v = ((Config.deviceAnswer s.draws space a.toNat n).extractLsb' 0 (8 * n)).setWidth 32 ∧
  t.deviceLog = ⟨space, false, a.toNat, n, v⟩ :: s.deviceLog ∧ t.draws = s.draws + 1

/-- One write of the low `8n` bits of `v` at `a` was made to a device (R39). -/
def DeviceWasWritten (s t : State) (space : Space) (a : Word) (n : Nat) (v : Word) : Prop :=
  t.deviceLog = ⟨space, true, a.toNat, n, (v.extractLsb' 0 (8 * n)).setWidth 32⟩ :: s.deviceLog ∧
  t.draws = s.draws

/-! ## Flags as the rules word them -/

/-- The flags of a sum (R96): OV when the signed sum leaves 32 bits, CY the carry out of bit 31. -/
def AddFlagsAre (t : State) (a b : Word) : Prop :=
  FlagsAre t (a + b = 0) ((a + b).msb = true)
    (a.toInt + b.toInt < -2 ^ 31 ∨ 2 ^ 31 ≤ a.toInt + b.toInt) (2 ^ 32 ≤ a.toNat + b.toNat)

/-- The flags of a difference (R96): OV when the signed difference leaves 32 bits, CY the borrow. -/
def SubFlagsAre (t : State) (a b : Word) : Prop :=
  FlagsAre t (a = b) ((a - b).msb = true)
    (a.toInt - b.toInt < -2 ^ 31 ∨ 2 ^ 31 ≤ a.toInt - b.toInt) (a.toNat < b.toNat)

/-- Z and S of a word, OV as given; CY is left to the frame (R96 `LogicFlags`, R88-R91). -/
def ResultFlagsAre (t : State) (r : Word) (ov : Prop) : Prop :=
  (t.psw.getLsbD bitZ = true ↔ r = 0) ∧ (t.psw.getLsbD bitS = true ↔ r.msb = true) ∧
  (t.psw.getLsbD bitOV = true ↔ ov)

/-! ## Control flow -/

/-- Where a conditional branch goes: its own address plus the even displacement, or the next
instruction (R121). -/
def branchTarget (s : State) (d : BitVec 9) (taken : Bool) : Word :=
  if taken then s.pc + (d.extractLsb' 1 8 ++ 0#1).signExtend 32 else s.pc + 2

/-- The instruction completes with the pc at a target. -/
def Goes (i : Instr) (s : State) (target : Word) : Prop :=
  ∃ t, exec i s = .next t ∧ t.pc = target &&& 0xFFFFFFFE

/-! ## Exceptions (R214, R217) -/

/-- What the entries of an exception leave alone. -/
structure EntryKeeps (s t : State) : Prop where
  regs : t.regs = s.regs
  mem : t.mem = s.mem
  io : t.io = s.io
  pir : t.pir = s.pir
  tkcw : t.tkcw = s.tkcw
  chcw : t.chcw = s.chcw
  adtre : t.adtre = s.adtre
  stopped : t.stopped = s.stopped
  icache : t.icache = s.icache
  devices : NoDevice s t
  config : t.config = s.config

/-- Regular entry (R214): EIPC, EIPSW, EICC, then EP and ID set and AE cleared. -/
structure RegularEntry (s t : State) (code : BitVec 16) (handler restore : Word) : Prop where
  keeps : EntryKeeps s t
  eipc : t.eipc = restore &&& 0xFFFFFFFE
  eipsw : t.eipsw = s.psw
  eicc : t.ecr.extractLsb' 0 16 = code
  fecc : t.ecr.extractLsb' 16 16 = s.ecr.extractLsb' 16 16
  ep : t.psw.getLsbD bitEP = true
  id : t.psw.getLsbD bitID = true
  ae : t.psw.getLsbD bitAE = false
  psw : PswKeeps s t [bitEP, bitID, bitAE]
  pc : t.pc = handler
  fepc : t.fepc = s.fepc
  fepsw : t.fepsw = s.fepsw
  halted : t.halted = s.halted
  inputs : t.inputs = s.inputs

/-- Entry of a duplexed exception (R217): FEPC, FEPSW, FECC, then NP and ID set and AE cleared. -/
structure DuplexedEntry (s t : State) (code : BitVec 16) (restore : Word) : Prop where
  keeps : EntryKeeps s t
  fepc : t.fepc = restore &&& 0xFFFFFFFE
  fepsw : t.fepsw = s.psw
  fecc : t.ecr.extractLsb' 16 16 = code
  eicc : t.ecr.extractLsb' 0 16 = s.ecr.extractLsb' 0 16
  np : t.psw.getLsbD bitNP = true
  id : t.psw.getLsbD bitID = true
  ae : t.psw.getLsbD bitAE = false
  psw : PswKeeps s t [bitNP, bitID, bitAE]
  pc : t.pc = 0xFFFFFFD0
  eipc : t.eipc = s.eipc
  eipsw : t.eipsw = s.eipsw
  halted : t.halted = s.halted
  inputs : t.inputs = s.inputs

/-- Taking an exception while `PSW.NP` = 0: regular while EP = 0 (R214), duplexed while EP = 1
(R217). -/
def Enters (s t : State) (code : BitVec 16) (handler restore : Word) : Prop :=
  (s.psw.getLsbD bitEP = false → RegularEntry s t code handler restore) ∧
  (s.psw.getLsbD bitEP = true → DuplexedEntry s t code restore)

/-- Taking an exception while `PSW.NP` = 1 (R219), in the state `u`: `stopped` is set and, under
`stop_with_dump`, the three words are written first (here to ram); nothing else changes. -/
def StopsFatally (o : Result) (u : State) (code : BitVec 16) (restore : Word) : Prop :=
  (u.config.fatalAction = .stop → o = .next { u with stopped := true }) ∧
  (u.config.fatalAction = .stopWithDump → (∀ k, k < 12 → u.memKind k = .ram) →
    ∃ t, o = .next t ∧ t = { u with mem := t.mem, stopped := true } ∧
      readBytes t.mem 0 4 = 0xFFFF#16 ++ code ∧ readBytes t.mem 4 4 = u.psw ∧
      readBytes t.mem 8 4 = restore ∧ ∀ c, 12 ≤ c → readByte t.mem c = readByte u.mem c)

/-! ## The boundary of an instruction -/

/-- No reset and no event that R223 accepts is requested at this boundary. -/
def State.NoEvent (s : State) : Prop :=
  s.sample.resetReq = false ∧
  ¬(s.sample.nmiReq = true ∧ s.psw.getLsbD bitNP = false) ∧
  ∀ n, s.sample.irqLevel = some n →
    ¬(s.psw.getLsbD bitNP = false ∧ s.psw.getLsbD bitEP = false ∧ s.psw.getLsbD bitID = false ∧
      (levelOf s.psw).toNat ≤ n.toNat)

/-- The machine is about to execute the instruction at the pc: no event, not halted, not stopped, no
address trap (R15, R213). -/
structure State.Executes (s : State) : Prop where
  noEvent : s.NoEvent
  running : s.halted = false
  notStopped : s.stopped = false
  noTrap : ¬(s.psw.getLsbD bitAE = true ∧ s.pc = s.adtre)

/-- Fetches answer what memory holds (spec/20_memory.md R46). -/
def State.Uncached (s : State) : Prop := s.config.icache ≠ .explicitClear ∨ s.chcw.getLsbD 1 = false

/-! ## The kinds of the bytes of an access (R33, R41) -/

/-- Every one of the `n` bytes of memory from `a` up is of a kind. -/
abbrev State.MemAll (s : State) (kind : MemKind) (a n : Nat) : Prop :=
  ∀ k, k < n → s.memKind (a + k) = kind

/-- Some byte of the `n` bytes of memory from `a` up is of a kind. -/
abbrev State.MemSome (s : State) (kind : MemKind) (a n : Nat) : Prop :=
  ∃ k, k < n ∧ s.memKind (a + k) = kind

/-- Every one of the `n` bytes of memory from `a` up is ram or rom. -/
abbrev State.MemPlain (s : State) (a n : Nat) : Prop :=
  ∀ k, k < n → s.memKind (a + k) = .ram ∨ s.memKind (a + k) = .rom

/-- Every one of the `n` bytes of memory from `a` up is there, that is not of kind `none` (R48). -/
abbrev State.MemMapped (s : State) (a n : Nat) : Prop := ∀ k, k < n → s.memKind (a + k) ≠ .none

/-- Every one of the `n` ports from `a` up is of a kind. -/
abbrev State.PortAll (s : State) (kind : IoKind) (a n : Nat) : Prop :=
  ∀ k, k < n → s.ioKind (a + k) = kind

/-- An address an instruction's halfword may be fetched from: ram or rom (R39, R48). -/
abbrev State.Executable (s : State) (a : Word) : Prop := s.MemPlain a.toNat 2

/-- The four bytes in memory from the pc up, addresses modulo 2^32 (R16, R31). -/
def State.bytesAtPc (s : State) : List Byte :=
  [readByte s.mem s.pc.toNat, readByte s.mem (s.pc + 1).toNat, readByte s.mem (s.pc + 2).toNat,
    readByte s.mem (s.pc + 3).toNat]

/-- The two halfwords in memory from the pc up. -/
def State.halvesAtPc (s : State) : Half × Half :=
  (halfOfBytes (readByte s.mem s.pc.toNat) (readByte s.mem (s.pc + 1).toNat),
    halfOfBytes (readByte s.mem (s.pc + 2).toNat) (readByte s.mem (s.pc + 3).toNat))

/-- The state once the instruction at the pc is fetched: under `ICACHE` = `explicit_clear` its halfwords
are remembered, and nothing else differs (R46). -/
def State.fetched (s : State) : State :=
  let u := s.remember s.pc s.halvesAtPc.1
  if isLong s.halvesAtPc.1 then u.remember (s.pc + 2) s.halvesAtPc.2 else u

/-! ## Values of floating-point words (R190) -/

/-- The value of a zero or a normal number: (-1)^s x 2^(e-127) x (1 + m / 2^23). -/
def floatVal (v : Word) : ℚ :=
  if v.extractLsb' 0 31 = 0 then 0
  else (if v.msb then -1 else 1) * (2 : ℚ) ^ (((v.extractLsb' 23 8).toNat : ℤ) - 127) *
    (1 + ((v.extractLsb' 0 23).toNat : ℚ) / 2 ^ 23)

/-- An operand that is neither reserved nor an infinity. -/
def FiniteFloat (v : Word) : Prop := floatClass v = .zero ∨ floatClass v = .normal

/-- `r` is the normal number nearest to `q`; of two equally near ones, the one whose last bit is 0
(R189, R190). -/
def NearestFloat (q : ℚ) (r : Word) : Prop :=
  floatClass r = .normal ∧
  ∀ x : Word, floatClass x = .normal →
    |floatVal r - q| < |floatVal x - q| ∨ x = r ∨
    (|floatVal r - q| = |floatVal x - q| ∧ r.getLsbD 0 = false)

/-- The smallest magnitude that rounds to a normal number: 2^-126 - 2^-151 (R189, R191). -/
def floatLow : ℚ := (2 ^ 25 - 1) / 2 ^ 151

/-- The smallest magnitude whose rounding is 2^128 or more: 2^128 - 2^103 (R191). -/
def floatHigh : ℚ := (2 ^ 25 - 1) * 2 ^ 103

/-- `n` is the integer nearest to `q`, of two equally near ones the even one (R195). -/
def NearestInt (q : ℚ) (n : ℤ) : Prop :=
  |q - n| < 1 / 2 ∨ (|q - n| = 1 / 2 ∧ n % 2 = 0)

/-- `n` is `q` with its fraction dropped (R200). -/
def TruncatedInt (q : ℚ) (n : ℤ) : Prop :=
  |(n : ℚ)| ≤ |q| ∧ |q - n| < 1 ∧ 0 ≤ q * n

/-- The exact result of a floating-point operation on the values of `a` = `x[reg2]` and
`b` = `x[reg1]` (R196-R199). -/
def FloatArith (reg1 reg2 : RegIdx) (s : State) (i : Instr) (q : ℚ) : Prop :=
  let a := floatVal (s.readReg reg2)
  let b := floatVal (s.readReg reg1)
  (i = .addfS reg1 reg2 ∧ q = a + b) ∨ (i = .subfS reg1 reg2 ∧ q = a - b) ∨
  (i = .mulfS reg1 reg2 ∧ q = a * b) ∨ (i = .divfS reg1 reg2 ∧ b ≠ 0 ∧ q = a / b)

/-- The instruction raises a floating-point exception in the state `u`, which has the sticky bits already
(R191): the entry of R214 or R217, or the stop of R219. -/
def FloatTrapsIn (i : Instr) (s u : State) (code : BitVec 16) : Prop :=
  (s.psw.getLsbD bitNP = false → ∃ t, exec i s = .next t ∧ Enters u t code 0xFFFFFF60 s.pc) ∧
  (s.psw.getLsbD bitNP = true → StopsFatally (exec i s) u code s.pc)

/-- The exception of a floating-point condition, whose one sticky bit is set first, so that the saved PSW
has it (R191). -/
def FloatTraps (i : Instr) (s : State) (sticky : Nat) (code : BitVec 16) : Prop :=
  FloatTrapsIn i s (s.setPswBit sticky true) code

/-! ## Bits of a bit string (R172) -/

/-- The memory bit of linear number `p`, modulo the 2^35 bits of the space. -/
def memoryBit (m : Memory) (p : Nat) : Bool :=
  (readByte m (p % 2 ^ 35 / 8)).getLsbD (p % 8)

/-- The linear bit number that a pointer register pair names: the address without its bits 1:0, the
offset's low 5 bits (R171). -/
def startBit (address offset : Word) : Nat := 32 * (address.toNat / 4) + offset.toNat % 32

/-- The address half of the pointer to linear bit `p`. -/
def bitAddress (p : Nat) : Word := BitVec.ofNat 32 (4 * (p / 32))

/-- The offset half of the pointer to linear bit `p`. -/
def bitOffset (p : Nat) : Word := BitVec.ofNat 32 (p % 32)

/-- `j` bits on from `p` in a direction, modulo the space. -/
def bitFrom (d : Direction) (p j : Nat) : Nat :=
  match d with
  | .up => (p + j) % 2 ^ 35
  | .down => (p + 2 ^ 35 - j % 2 ^ 35) % 2 ^ 35

/-- The bit function `f(d, s)` of a string-to-string operation (R181-R188). -/
def stringFunction (i : Instr) : Option (Bool → Bool → Bool) :=
  if i = .orbsu then some fun d b => d || b
  else if i = .andbsu then some fun d b => d && b
  else if i = .xorbsu then some fun d b => d != b
  else if i = .movbsu then some fun _ b => b
  else if i = .ornbsu then some fun d b => d || !b
  else if i = .andnbsu then some fun d b => d && !b
  else if i = .xornbsu then some fun d b => d == b
  else if i = .notbsu then some fun _ b => !b
  else none

/-- The overlap of R175: the two strings that the registers name share a bit, and the destination's first
linear bit number is above the source's. -/
def State.OverlapsAbove (s : State) : Prop :=
  let src := startBit (s.readReg 30) (s.readReg 27)
  let dst := startBit (s.readReg 29) (s.readReg 26)
  let n := (s.readReg 28).toNat
  src < dst ∧ ∃ j l, j < n ∧ l < n ∧ bitFrom .up src j = bitFrom .up dst l

/-- What the first `k` elements of a string-to-string operation do to the spaces (R173): every bit but the
first `k` of the destination is as it was, and each of those is `f` of what it was and of its source bit,
as that was or, where an element before had written it, as that element left it. -/
def StringBits (f : Bool → Bool → Bool) (s t : State) (src dst k : Nat) : Prop :=
  SamePorts s t ∧ NoDevice s t ∧
  (∀ p, p < 2 ^ 35 → (∀ j, j < k → bitFrom .up dst j ≠ p) →
    memoryBit t.mem p = memoryBit s.mem p) ∧
  (∀ j, j < k → (∀ l, l < j → bitFrom .up dst l ≠ bitFrom .up src j) →
    memoryBit t.mem (bitFrom .up dst j) =
      f (memoryBit s.mem (bitFrom .up dst j)) (memoryBit s.mem (bitFrom .up src j))) ∧
  (∀ l j, l < j → j < k → bitFrom .up dst l = bitFrom .up src j →
    memoryBit t.mem (bitFrom .up dst j) =
      f (memoryBit s.mem (bitFrom .up dst j)) (memoryBit t.mem (bitFrom .up dst l)))

/-- The target bit and the direction of a search (R177-R180). -/
def searchFunction (i : Instr) : Option (Bool × Direction) :=
  if i = .sch0bsu then some (false, .up)
  else if i = .sch0bsd then some (false, .down)
  else if i = .sch1bsu then some (true, .up)
  else if i = .sch1bsd then some (true, .down)
  else none

end Sys2Proof.Machine
end

