-- ==== Sys2Proof/Certificates/Slice0/Obligations.lean ====
section
/-! DEFINITION. The statements for the provers. Each says which rule of spec/ it formalises. They hold
for every state, every operand and every value of the parameters of spec/00_scope.md R3 unless a
hypothesis says otherwise. -/

open Sys2Proof Sys2Proof.Machine

/-! ## Encoding (spec/30_encoding.md) -/

/-- Derived from R50-R64: every field of every well-formed instruction survives encoding and decoding,
whatever bytes follow. -/
def Obligations.DecodeEncodeRoundTrip : Prop :=
  ∀ (i : Instr) (rest : List Byte), i.wellFormed = true →
    decode (encodeBytes i ++ rest) = .ok (i, rest)

/-- Derived from R65, R76: a word whose unused fields are 0 is the encoding of what it decodes to. The
fields of the three undefined primary opcodes mean nothing, so those are left out. -/
def Obligations.EncodeDecodeCanonical : Prop :=
  ∀ (hw0 hw1 : Half) (i : Instr), decodeWords hw0 hw1 = .ok i → unusedField i hw0 hw1 = none →
    i ≠ .udef1B → i ≠ .udef32 → i ≠ .udef36 →
    encode i = if isLong hw0 then [hw0, hw1] else [hw0]

/-- Derived from R50, R65: what the decoder answers is well-formed, and it takes exactly the bytes of
the instruction: 4 for opcodes 0x28-0x3F, 2 for the others. -/
def Obligations.DecodedIsWellFormed : Prop :=
  ∀ (b0 b1 : Byte) (bytes rest : List Byte) (i : Instr), decode (b0 :: b1 :: bytes) = .ok (i, rest) →
    i.wellFormed = true ∧ rest = (b0 :: b1 :: bytes).drop i.length ∧
    i.length = if 0x28 ≤ (opcodeOf (halfOfBytes b0 b1)).toNat then 4 else 2

/-- R71, R72, R73: the undefined encodings are exactly the listed sub-opcodes and the three primary
opcodes 0x1B, 0x32, 0x36 (R70). -/
def Obligations.UndefinedEncodingsExact : Prop :=
  ∀ hw0 hw1 : Half,
    ((∃ e, decodeWords hw0 hw1 = .error e) ↔
      (opcodeOf hw0 = 0x1F ∧
        ((4 ≤ (reg1Of hw0).toNat ∧ (reg1Of hw0).toNat ≤ 7) ∨ 0x10 ≤ (reg1Of hw0).toNat)) ∨
      (opcodeOf hw0 = 0x3E ∧
        ((hw1.extractLsb' 10 6).toNat = 1 ∨
          (8 ≤ (hw1.extractLsb' 10 6).toNat ∧ (hw1.extractLsb' 10 6).toNat ≤ 0xA) ∨
          0xC ≤ (hw1.extractLsb' 10 6).toNat))) ∧
    (decodeWords hw0 hw1 = .ok .udef1B ↔ opcodeOf hw0 = 0x1B) ∧
    (decodeWords hw0 hw1 = .ok .udef32 ↔ opcodeOf hw0 = 0x32) ∧
    (decodeWords hw0 hw1 = .ok .udef36 ↔ opcodeOf hw0 = 0x36)

/-- A sanity statement: words written out in the spec's own examples decode to their instructions. -/
def Obligations.KnownWordsDecode : Prop :=
  decode [0xE6, 0x04] = .ok (.add 6 7, []) ∧
  decode [0xFF, 0x44] = .ok (.addImm 0x1F 7, []) ∧
  decode [0xFA, 0x95] = .ok (.bne 0x1FA, []) ∧
  decode [0xE6, 0xA0, 0x34, 0x12] = .ok (.movea 0x1234 6 7, []) ∧
  decode [0xE6, 0xDC, 0x10, 0x00] = .ok (.stW 7 0x0010 6, []) ∧
  decode [0x0B, 0x7C] = .ok (.movbsu, []) ∧
  decode [0xE6, 0xF8, 0x00, 0x1C] = .ok (.divfS 6 7, [])

/-! ## Reset and the invariant -/

/-- R29, the values the spec gives: pc, PSW, ECR, ICE, the two machine flags, `x[0]`. -/
def Obligations.ResetValues : Prop :=
  State.reset.pc = 0xFFFFFFF0 ∧ State.reset.psw = 0x00008000 ∧ State.reset.ecr = 0x0000FFF0 ∧
  State.reset.chcw.getLsbD 1 = false ∧ State.reset.halted = false ∧ State.reset.stopped = false ∧
  State.reset.readReg 0 = 0

/-- Derived from R29: the invariant holds right after reset. The zeros of the registers R29 leaves open
and the empty spaces are the model's choice, log entries 16 to 18. -/
def Obligations.ResetMeetsInvariant : Prop := State.reset.Inv

/-- Derived from R14, R17, R20, R25: every step keeps the invariant, from every state where it holds. The
canonical form of memory and ports is the model's own. -/
def Obligations.StepKeepsInvariant : Prop :=
  ∀ s t : State, s.Inv → step s = .next t → t.Inv

/-- R23, R24, R3, R39: no step changes PIR, TKCW or a parameter; the device log only grows. -/
def Obligations.StepKeepsConstants : Prop :=
  ∀ s t : State, step s = .next t →
    t.pir = s.pir ∧ t.tkcw = s.tkcw ∧ t.config = s.config ∧ s.draws ≤ t.draws ∧
    ∃ new, t.deviceLog = new ++ s.deviceLog

/-- Derived from R240: a reset request is served in every state, halted and stopped ones too, and uses up
one input sample (the model's choice, log entry 20). The registers the rule leaves unspecified are free
values (log entry 19) and nothing is said of them. -/
def Obligations.ResetEventServed : Prop :=
  ∀ s : State, s.sample.resetReq = true → ∃ t, step s = .next t ∧
    t.pc = 0xFFFFFFF0 ∧ t.psw = 0x00008000 ∧ t.ecr = 0x0000FFF0 ∧ t.chcw.getLsbD 1 = false ∧
    t.halted = false ∧ t.stopped = false ∧ SameMemory s t ∧ SamePorts s t ∧
    t.deviceLog = s.deviceLog ∧ t.pir = s.pir ∧ t.tkcw = s.tkcw ∧ t.inputs = s.inputs.tail

/-! ## One step -/

/-- R15, R31: when the bytes at the pc decode to an instruction, the step is `exec` of it, after the
fetch (which the cache remembers, R46), and the input sample of the step is used up (one sample a step is
the model's choice, log entry 20). -/
def Obligations.StepRunsDecodedInstruction : Prop :=
  ∀ (s : State) (i : Instr) (rest : List Byte),
    s.Executes → s.Uncached → s.pc.getLsbD 0 = false → s.Executable s.pc →
    (i.length = 4 → s.Executable (s.pc + 2)) → decode s.bytesAtPc = .ok (i, rest) →
    (s.config.strictUnusedFields = false ∨
      unusedField i s.halvesAtPc.1 s.halvesAtPc.2 = none ∨
      (s.config.hasEiDi = false ∧ (i = .ei ∨ i = .di))) →
    step s = bindOutcome (exec i s.fetched) fun t => .next t.dropSample

/-- R65, R71, R72, R74, R76: an undefined sub-opcode at the pc, or `ei` or `di` without `HAS_EI_DI`
whatever its unused fields hold, raises invalid opcode (code 0xFF90), or is refused when
`UNDEFINED_OPCODE` is `refuse`; any other non-zero unused field is refused when `STRICT_UNUSED_FIELDS` is
true. -/
def Obligations.StepUndefinedOrStrict : Prop :=
  ∀ s : State, s.Executes → s.Uncached → s.pc.getLsbD 0 = false → s.Executable s.pc →
    (isLong s.halvesAtPc.1 = true → s.Executable (s.pc + 2)) →
    ((∃ e, decode s.bytesAtPc = .error e) ∨
        (s.config.hasEiDi = false ∧
          ∃ i rest, decode s.bytesAtPc = .ok (i, rest) ∧ (i = .ei ∨ i = .di)) →
      (s.config.undefinedOpcode = .exception → s.psw.getLsbD bitNP = false →
        ∃ t, step s = .next t ∧ Enters s.fetched.dropSample t 0xFF90 0xFFFFFF90 s.pc) ∧
      (s.config.undefinedOpcode = .refuse →
        ∃ name, step s = .refused (.undefinedOpcode name))) ∧
    (∀ i rest field, decode s.bytesAtPc = .ok (i, rest) → s.config.strictUnusedFields = true →
      unusedField i s.halvesAtPc.1 s.halvesAtPc.2 = some field →
      (s.config.hasEiDi = true ∨ (i ≠ .ei ∧ i ≠ .di)) →
      step s = .refused (.unusedField i.mnemonic field))

/-- Derived from R213, R214, R217: with `PSW.AE` = 1 and pc = ADTRE the instruction is not executed and
the address trap, code 0xFFC0, is raised with the pc itself as restore PC. That nothing is fetched
first, so that it is raised also at an address that cannot be fetched from and no cached halfword is
remembered, is the model's choice, log entry 32. -/
def Obligations.AddressTrapTaken : Prop :=
  ∀ s : State, s.NoEvent → s.halted = false → s.stopped = false →
    s.psw.getLsbD bitAE = true → s.pc = s.adtre → s.psw.getLsbD bitNP = false →
    ∃ t, step s = .next t ∧ Enters s.dropSample t 0xFFC0 0xFFFFFFC0 s.pc

/-- Derived from R215, under R223's condition: entry of a maskable interrupt of level n. That it is
accepted at the very boundary where its sample stands is the model's choice, log entry 20. -/
def Obligations.MaskableInterruptEntry : Prop :=
  ∀ (s : State) (n : BitVec 4), s.sample.resetReq = false → s.stopped = false →
    s.sample.nmiReq = false → s.sample.irqLevel = some n →
    s.psw.getLsbD bitNP = false → s.psw.getLsbD bitEP = false → s.psw.getLsbD bitID = false →
    (levelOf s.psw).toNat ≤ n.toNat →
    ∃ t, step s = .next t ∧ EntryKeeps s t ∧
      t.eipc = s.pc &&& 0xFFFFFFFE ∧ t.eipsw = s.psw ∧
      (t.ecr.extractLsb' 0 16).toNat = 0xFE00 + 0x10 * n.toNat ∧
      t.ecr.extractLsb' 16 16 = s.ecr.extractLsb' 16 16 ∧
      t.psw.getLsbD bitEP = true ∧ t.psw.getLsbD bitID = true ∧ t.psw.getLsbD bitAE = false ∧
      (levelOf t.psw).toNat = min (n.toNat + 1) 15 ∧
      PswKeeps s t [bitEP, bitID, bitAE, 16, 17, 18, 19] ∧
      t.pc.toNat = 0xFFFFFE00 + 0x10 * n.toNat ∧ t.fepc = s.fepc ∧ t.fepsw = s.fepsw ∧
      t.halted = false ∧ t.inputs = s.inputs.tail

/-- Derived from R216, R224, under R223's condition: entry of the NMI, before any maskable interrupt.
That it is accepted at the very boundary where its sample stands is the model's choice, log entry
20. -/
def Obligations.NmiEntry : Prop :=
  ∀ s : State, s.sample.resetReq = false → s.stopped = false →
    s.sample.nmiReq = true → s.psw.getLsbD bitNP = false →
    ∃ t, step s = .next t ∧ EntryKeeps s t ∧
      t.fepc = s.pc &&& 0xFFFFFFFE ∧ t.fepsw = s.psw ∧
      t.ecr.extractLsb' 16 16 = 0xFFD0 ∧ t.ecr.extractLsb' 0 16 = s.ecr.extractLsb' 0 16 ∧
      t.psw.getLsbD bitNP = true ∧ t.psw.getLsbD bitID = true ∧ t.psw.getLsbD bitAE = false ∧
      PswKeeps s t [bitNP, bitID, bitAE] ∧
      t.pc = 0xFFFFFFD0 ∧ t.eipc = s.eipc ∧ t.eipsw = s.eipsw ∧
      t.halted = false ∧ t.inputs = s.inputs.tail

/-- Derived from R110, R223, R235: a halt that nothing can end lasts. With NP = 1 and no reset
requested, any number of steps changes nothing but the list of input samples, of which each step uses up
one (the model's choice, log entry 20). -/
def Obligations.HaltHangsWhileMasked : Prop :=
  ∀ (n : Nat) (s : State), s.halted = true → s.stopped = false → s.psw.getLsbD bitNP = true →
    (∀ i ∈ s.inputs, i.resetReq = false) →
    Host.Core.run Sys2Proof.core n s = .next { s with inputs := s.inputs.drop n }

/-- R46: a fetch answers what memory holds, or, with the cache on (`ICACHE` = `explicit_clear` and
CHCW.ICE = 1), a value the address held at an earlier fetch since the last clear; every fetch under
`explicit_clear` is such a fetch, also with ICE = 0, and without `explicit_clear` nothing changes. -/
def Obligations.FetchCoherence : Prop :=
  ∀ (a : Word) (s t : State) (h : Half), fetch16 a s = .next (h, t) →
    let now := halfOfBytes (readByte s.mem a.toNat) (readByte s.mem (a.toNat + 1))
    (s.Uncached → h = now ∧ t.draws = s.draws) ∧
    (h = now ∨ (a.toNat, h) ∈ s.icache) ∧
    (∀ c ∈ t.icache, c ∈ s.icache ∨ c = (a.toNat, now)) ∧ (∀ c ∈ s.icache, c ∈ t.icache) ∧
    (s.config.icache = .explicitClear → (a.toNat, now) ∈ t.icache) ∧
    (s.config.icache ≠ .explicitClear → t = s) ∧
    t = { s with icache := t.icache, draws := t.draws }

/-! ## Exceptions (spec/60_exceptions.md) -/

/-- R211: the code and the handler of every exception an instruction raises; every handler but the
floating-point one is 0xFFFF0000 with the code's bits 15:4. -/
def Obligations.ExceptionTable : Prop :=
  Exc.addressTrap.code = 0xFFC0 ∧ Exc.invalidOpcode.code = 0xFF90 ∧ Exc.zeroDivision.code = 0xFF80 ∧
  Exc.floatInvalid.code = 0xFF70 ∧ Exc.floatZeroDivision.code = 0xFF68 ∧
  Exc.floatOverflow.code = 0xFF64 ∧ Exc.floatReserved.code = 0xFF60 ∧
  (∀ v : BitVec 5, (Exc.trap v).code.toNat = 0xFFA0 + v.toNat) ∧
  Exc.floatInvalid.handler = 0xFFFFFF60 ∧ Exc.floatZeroDivision.handler = 0xFFFFFF60 ∧
  Exc.floatOverflow.handler = 0xFFFFFF60 ∧
  ∀ e : Exc, e ≠ .floatInvalid → e ≠ .floatZeroDivision → e ≠ .floatOverflow →
    e.handler = 0xFFFF#16 ++ (e.code &&& 0xFFF0)

/-- R214: regular entry, with everything it leaves alone. -/
def Obligations.RegularEntryTaken : Prop :=
  ∀ (e : Exc) (restore : Word) (s : State), s.psw.getLsbD bitEP = false →
    s.psw.getLsbD bitNP = false →
    ∃ t, raise e restore s = .next t ∧ RegularEntry s t e.code e.handler restore

/-- R217: an exception while EP = 1 goes through the FE pair to 0xFFFFFFD0, whatever its own handler;
EIPC and EIPSW survive. -/
def Obligations.DuplexedEntryTaken : Prop :=
  ∀ (e : Exc) (restore : Word) (s : State), s.psw.getLsbD bitEP = true →
    s.psw.getLsbD bitNP = false →
    ∃ t, raise e restore s = .next t ∧ DuplexedEntry s t e.code restore

/-- Derived from R219: an exception while NP = 1 stops the machine; under `stop_with_dump` the three words are
written first (here to ram), and nothing else changes; a stopped machine has no step until a reset. -/
def Obligations.FatalExceptionStops : Prop :=
  ∀ (e : Exc) (restore : Word) (s : State), s.psw.getLsbD bitNP = true →
    StopsFatally (raise e restore s) s e.code restore ∧
    (s.stopped = true → s.sample.resetReq = false → step s = .fault .stopped)

/-- R108: `trap` enters with code 0xFFA0 + vector, one of two handlers, and the address after it as
restore PC; while NP = 1 it is fatal like any exception. -/
def Obligations.TrapTaken : Prop :=
  ∀ (v : BitVec 5) (s : State),
    (s.psw.getLsbD bitNP = false → ∃ t, exec (.trap v) s = .next t ∧
      Enters s t (BitVec.ofNat 16 (0xFFA0 + v.toNat))
        (if v.toNat < 16 then 0xFFFFFFA0 else 0xFFFFFFB0) (s.pc + 2)) ∧
    exec (.trap v) s = raise (.trap v) (s.pc + 2) s

/-- R109: `reti` restores pc and the whole PSW from the FE pair while NP = 1, from the EI pair
otherwise, and changes nothing else. -/
def Obligations.RetiRestores : Prop :=
  ∀ s : State, s.Inv → ∃ t, exec .reti s = .next t ∧
    (s.psw.getLsbD bitNP = true → t.pc = s.fepc &&& 0xFFFFFFFE ∧ t.psw = s.fepsw) ∧
    (s.psw.getLsbD bitNP = false → t.pc = s.eipc &&& 0xFFFFFFFE ∧ t.psw = s.eipsw) ∧
    Effect s { t with psw := s.psw } [] [] t.pc

/-- R70: the three undefined primary opcodes raise invalid opcode, code 0xFF90, handler 0xFFFFFF90,
with their own address as restore PC, or are refused when `UNDEFINED_OPCODE` is `refuse`; never a
no-op. -/
def Obligations.UndefinedPrimaryOpcodes : Prop :=
  ∀ (i : Instr) (s : State), i = .udef1B ∨ i = .udef32 ∨ i = .udef36 →
    (s.config.undefinedOpcode = .exception → s.psw.getLsbD bitNP = false →
      ∃ t, exec i s = .next t ∧ Enters s t 0xFF90 0xFFFFFF90 s.pc) ∧
    (s.config.undefinedOpcode = .exception → exec i s = raise .invalidOpcode s.pc s) ∧
    (s.config.undefinedOpcode = .refuse → exec i s = .refused (.undefinedOpcode i.mnemonic))

/-! ## System instructions (spec/41_imm_reg.md) -/

/-- R107, R113, R74: `ei` clears and `di` sets `PSW.ID` and nothing else; without `HAS_EI_DI` they are
undefined opcodes. -/
def Obligations.EiDiWriteId : Prop :=
  ∀ s : State,
    (s.config.hasEiDi = true →
      (∃ t, exec .ei s = .next t ∧ Effect s t [] [bitID] (s.pc + 2) ∧
        t.psw.getLsbD bitID = false) ∧
      (∃ t, exec .di s = .next t ∧ Effect s t [] [bitID] (s.pc + 2) ∧
        t.psw.getLsbD bitID = true)) ∧
    (s.config.hasEiDi = false → s.config.undefinedOpcode = .exception →
      exec .ei s = raise .invalidOpcode s.pc s ∧ exec .di s = raise .invalidOpcode s.pc s) ∧
    (s.config.hasEiDi = false → s.config.undefinedOpcode = .refuse →
      exec .ei s = .refused (.undefinedOpcode "ei") ∧
      exec .di s = .refused (.undefinedOpcode "di"))

/-- Derived from R110, R15: `halt` sets `halted` and advances; a halted machine executes nothing until an
event (and uses up one input sample a step, the model's choice, log entry 20). -/
def Obligations.HaltWaits : Prop :=
  ∀ s : State,
    (∃ t, exec .halt s = .next t ∧ t.halted = true ∧
      Effect s { t with halted := s.halted } [] [] (s.pc + 2)) ∧
    (s.halted = true → s.stopped = false → s.NoEvent → step s = .next s.dropSample)

/-- Derived from R111, R17, R25: what `ldsr` writes, register by register. Reserved numbers, and a CHCW
write with ICD or ICR, are refused. The clause on what a clear (ICC = 1) removes is the model's choice,
log entry 11: a set of remembered halfwords, each in the entry that the free value `Config.cacheEntry`
gives its address. -/
def Obligations.LdsrWrites : Prop :=
  ∀ (r : RegIdx) (s : State),
    let a := s.readReg r
    (∃ t, exec (.ldsr r 0) s = .next t ∧ t.eipc = a &&& 0xFFFFFFFE ∧
      Effect s { t with eipc := s.eipc } [] [] (s.pc + 2)) ∧
    (∃ t, exec (.ldsr r 1) s = .next t ∧ t.eipsw = a &&& 0x000FF3FF ∧
      Effect s { t with eipsw := s.eipsw } [] [] (s.pc + 2)) ∧
    (∃ t, exec (.ldsr r 2) s = .next t ∧ t.fepc = a &&& 0xFFFFFFFE ∧
      Effect s { t with fepc := s.fepc } [] [] (s.pc + 2)) ∧
    (∃ t, exec (.ldsr r 3) s = .next t ∧ t.fepsw = a &&& 0x000FF3FF ∧
      Effect s { t with fepsw := s.fepsw } [] [] (s.pc + 2)) ∧
    (∀ n : BitVec 5, n = 4 ∨ n = 6 ∨ n = 7 →
      ∃ t, exec (.ldsr r n) s = .next t ∧ Effect s t [] [] (s.pc + 2)) ∧
    (∃ t, exec (.ldsr r 5) s = .next t ∧ t.psw = a &&& 0x000FF3FF ∧
      Effect s { t with psw := s.psw } [] [] (s.pc + 2)) ∧
    (∃ t, exec (.ldsr r 25) s = .next t ∧ t.adtre = a &&& 0xFFFFFFFE ∧
      Effect s { t with adtre := s.adtre } [] [] (s.pc + 2)) ∧
    (a.getLsbD 4 = false → a.getLsbD 5 = false →
      ∃ t, exec (.ldsr r 24) s = .next t ∧ t.chcw = a &&& 0x00000002 ∧
        Effect s { t with chcw := s.chcw, icache := s.icache } [] [] (s.pc + 2) ∧
        ((a.getLsbD 0 = false ∨ s.config.icache ≠ .explicitClear) → t.icache = s.icache) ∧
        (a.getLsbD 0 = true → s.config.icache = .explicitClear →
          ∀ c, c ∈ t.icache ↔ c ∈ s.icache ∧
            ¬((a.extractLsb' 20 12).toNat ≤ (Config.cacheEntry c.1).toNat ∧
              (Config.cacheEntry c.1).toNat <
                (a.extractLsb' 20 12).toNat + (a.extractLsb' 8 12).toNat))) ∧
    (a.getLsbD 4 = true ∨ a.getLsbD 5 = true →
      exec (.ldsr r 24) s = .refused .cacheDumpRestore) ∧
    (∀ n : BitVec 5, (8 ≤ n.toNat ∧ n.toNat ≤ 23) ∨ 26 ≤ n.toNat →
      exec (.ldsr r n) s = .refused (.reservedSystemRegister n))

/-- R112: what `stsr` reads, register by register; reserved numbers are refused. -/
def Obligations.StsrReads : Prop :=
  ∀ (r : RegIdx) (s : State),
    (∀ p ∈ [(0#5, s.eipc), (1#5, s.eipsw), (2#5, s.fepc), (3#5, s.fepsw), (4#5, s.ecr), (5#5, s.psw),
        (6#5, s.pir), (7#5, s.tkcw), (24#5, s.chcw), (25#5, s.adtre)],
      ∃ t, exec (.stsr p.1 r) s = .next t ∧ Effect s t [(r, p.2)] [] (s.pc + 2)) ∧
    (∀ n : BitVec 5, (8 ≤ n.toNat ∧ n.toNat ≤ 23) ∨ 26 ≤ n.toNat →
      exec (.stsr n r) s = .refused (.reservedSystemRegister n))

/-- R17: which instructions write which system register. No instruction writes PIR or TKCW; CHCW and
ADTRE are written by `ldsr` alone; the EI pair and EICC, the FE pair and FECC, by `ldsr` (the ECR
excepted) or by the entry of an exception; ID, AE, EP, NP and I by `ldsr`, `reti`, `ei`, `di` or such
an entry. -/
def Obligations.SystemRegistersProtected : Prop :=
  ∀ (i : Instr) (s t : State), exec i s = .next t →
    t.pir = s.pir ∧ t.tkcw = s.tkcw ∧
    ((∃ r n, i = .ldsr r n) ∨ (t.chcw = s.chcw ∧ t.adtre = s.adtre)) ∧
    ((∃ r n, i = .ldsr r n) ∨ (t.eipc = s.eipc ∧ t.eipsw = s.eipsw) ∨
      (s.psw.getLsbD bitNP = false ∧ s.psw.getLsbD bitEP = false ∧
        t.psw.getLsbD bitEP = true)) ∧
    ((∃ r n, i = .ldsr r n) ∨ (t.fepc = s.fepc ∧ t.fepsw = s.fepsw) ∨
      (s.psw.getLsbD bitNP = false ∧ s.psw.getLsbD bitEP = true ∧
        t.psw.getLsbD bitNP = true)) ∧
    (t.ecr.extractLsb' 0 16 = s.ecr.extractLsb' 0 16 ∨
      (s.psw.getLsbD bitNP = false ∧ s.psw.getLsbD bitEP = false ∧
        t.psw.getLsbD bitEP = true)) ∧
    (t.ecr.extractLsb' 16 16 = s.ecr.extractLsb' 16 16 ∨
      (s.psw.getLsbD bitNP = false ∧ s.psw.getLsbD bitEP = true ∧
        t.psw.getLsbD bitNP = true)) ∧
    ((∃ r, i = .ldsr r 5) ∨ i = .reti ∨ i = .ei ∨ i = .di ∨
      (∀ n, 12 ≤ n → n ≤ 19 → t.psw.getLsbD n = s.psw.getLsbD n) ∨
      (s.psw.getLsbD bitNP = false ∧
        (s.psw.getLsbD bitEP = false → t.psw.getLsbD bitEP = true ∧ t.psw.getLsbD bitNP = false) ∧
        (s.psw.getLsbD bitEP = true → t.psw.getLsbD bitEP = true ∧ t.psw.getLsbD bitNP = true) ∧
        t.psw.getLsbD bitID = true ∧ t.psw.getLsbD bitAE = false ∧
        levelOf t.psw = levelOf s.psw))

/-- Derived from R30, R33, R214, R219: only a store, `caxi` or a string-to-string operation writes
memory (and an `out` where the ports are memory), only an `out` writes the port space; every other
instruction leaves both alone, unless a fatal exception dumps its three words at 0, 4 and 8 and stops
the machine. -/
def Obligations.OnlyStoresWrite : Prop :=
  ∀ (i : Instr) (s t : State), exec i s = .next t →
    (SamePorts s t ∨ ∃ r d b, i = .outB r d b ∨ i = .outH r d b ∨ i = .outW r d b) ∧
    (SameMemory s t ∨
      (s.psw.getLsbD bitNP = true ∧ s.config.fatalAction = .stopWithDump ∧ t.stopped = true ∧
        ∀ c, 12 ≤ c → readByte t.mem c = readByte s.mem c) ∨
      (∃ r d b, i = .stB r d b ∨ i = .stH r d b ∨ i = .stW r d b ∨ i = .caxi d b r ∨
        i = .outB r d b ∨ i = .outH r d b ∨ i = .outW r d b) ∨
      (stringFunction i).isSome)

/-! ## Register and immediate instructions -/

/-- R80, R100, R140, R147: the moves and additions that write no flag. -/
def Obligations.MovesWriteNoFlags : Prop :=
  ∀ (r1 r2 : RegIdx) (imm5 : BitVec 5) (imm16 : BitVec 16) (s : State),
    (∃ t, exec (.mov r1 r2) s = .next t ∧ Effect s t [(r2, s.readReg r1)] [] (s.pc + 2)) ∧
    (∃ t, exec (.movImm imm5 r2) s = .next t ∧
      Effect s t [(r2, BitVec.ofInt 32 imm5.toInt)] [] (s.pc + 2)) ∧
    (∃ t, exec (.movea imm16 r1 r2) s = .next t ∧
      Effect s t [(r2, s.readReg r1 + BitVec.ofInt 32 imm16.toInt)] [] (s.pc + 4)) ∧
    (∃ t, exec (.movhi imm16 r1 r2) s = .next t ∧
      Effect s t [(r2, s.readReg r1 + BitVec.ofNat 32 (imm16.toNat * 2 ^ 16))] [] (s.pc + 4))

/-- R81, R101: the sum of the two forms of `add`, with OV the signed and CY the unsigned overflow. -/
def Obligations.AddSumAndFlags : Prop :=
  ∀ (r1 r2 : RegIdx) (imm5 : BitVec 5) (s : State),
    (∃ t, exec (.add r1 r2) s = .next t ∧
      Effect s t [(r2, s.readReg r2 + s.readReg r1)] [bitZ, bitS, bitOV, bitCY] (s.pc + 2) ∧
      AddFlagsAre t (s.readReg r2) (s.readReg r1)) ∧
    (∃ t, exec (.addImm imm5 r2) s = .next t ∧
      Effect s t [(r2, s.readReg r2 + imm5.signExtend 32)] [bitZ, bitS, bitOV, bitCY] (s.pc + 2) ∧
      AddFlagsAre t (s.readReg r2) (imm5.signExtend 32))

/-- Derived from R141 (its flags are the spec's inference) and R144-R146: `addi`, and the logic
operations with `imm16`, whose extension is the sign's or zero's by `LOGIC_IMM16_EXT`. -/
def Obligations.ImmediateArithmetic : Prop :=
  ∀ (r1 r2 : RegIdx) (imm : BitVec 16) (s : State),
    let b := s.readReg r1
    let k := match s.config.logicImm16Ext with
      | .sign => imm.signExtend 32
      | .zero => imm.zeroExtend 32
    (∃ t, exec (.addi imm r1 r2) s = .next t ∧
      Effect s t [(r2, b + imm.signExtend 32)] [bitZ, bitS, bitOV, bitCY] (s.pc + 4) ∧
      AddFlagsAre t b (imm.signExtend 32)) ∧
    (∃ t, exec (.ori imm r1 r2) s = .next t ∧
      Effect s t [(r2, b ||| k)] [bitZ, bitS, bitOV] (s.pc + 4) ∧
      ResultFlagsAre t (b ||| k) False) ∧
    (∃ t, exec (.andi imm r1 r2) s = .next t ∧
      Effect s t [(r2, b &&& k)] [bitZ, bitS, bitOV] (s.pc + 4) ∧
      ResultFlagsAre t (b &&& k) False) ∧
    (∃ t, exec (.xori imm r1 r2) s = .next t ∧
      Effect s t [(r2, b ^^^ k)] [bitZ, bitS, bitOV] (s.pc + 4) ∧
      ResultFlagsAre t (b ^^^ k) False)

/-- R82, R103: the difference of `sub`, and the two forms of `cmp` (R83), which write no register. -/
def Obligations.SubtractAndCompare : Prop :=
  ∀ (r1 r2 : RegIdx) (imm5 : BitVec 5) (s : State),
    (∃ t, exec (.sub r1 r2) s = .next t ∧
      Effect s t [(r2, s.readReg r2 - s.readReg r1)] [bitZ, bitS, bitOV, bitCY] (s.pc + 2) ∧
      SubFlagsAre t (s.readReg r2) (s.readReg r1)) ∧
    (∃ t, exec (.cmp r1 r2) s = .next t ∧
      Effect s t [] [bitZ, bitS, bitOV, bitCY] (s.pc + 2) ∧
      SubFlagsAre t (s.readReg r2) (s.readReg r1)) ∧
    (∃ t, exec (.cmpImm imm5 r2) s = .next t ∧
      Effect s t [] [bitZ, bitS, bitOV, bitCY] (s.pc + 2) ∧
      SubFlagsAre t (s.readReg r2) (imm5.signExtend 32))

/-- Derived from R83, R96, R120, R121: after `cmp`, each branch compares `x[reg2]` with `x[reg1]`,
unsigned or signed. -/
def Obligations.CompareThenBranch : Prop :=
  ∀ (r1 r2 : RegIdx) (d : BitVec 9) (s : State),
    let a := s.readReg r2
    let b := s.readReg r1
    ∃ t, exec (.cmp r1 r2) s = .next t ∧
      Goes (.be d) t (branchTarget t d (decide (a = b))) ∧
      Goes (.bne d) t (branchTarget t d (decide (a ≠ b))) ∧
      Goes (.bl d) t (branchTarget t d (decide (a.toNat < b.toNat))) ∧
      Goes (.bnl d) t (branchTarget t d (decide (b.toNat ≤ a.toNat))) ∧
      Goes (.bnh d) t (branchTarget t d (decide (a.toNat ≤ b.toNat))) ∧
      Goes (.bh d) t (branchTarget t d (decide (b.toNat < a.toNat))) ∧
      Goes (.blt d) t (branchTarget t d (decide (a.toInt < b.toInt))) ∧
      Goes (.bge d) t (branchTarget t d (decide (b.toInt ≤ a.toInt))) ∧
      Goes (.ble d) t (branchTarget t d (decide (a.toInt ≤ b.toInt))) ∧
      Goes (.bgt d) t (branchTarget t d (decide (b.toInt < a.toInt)))

/-- R92-R95: the logic operations; OV is cleared and CY is as it was. -/
def Obligations.LogicResultAndFlags : Prop :=
  ∀ (r1 r2 : RegIdx) (s : State),
    let a := s.readReg r2
    let b := s.readReg r1
    (∃ t, exec (.or r1 r2) s = .next t ∧
      Effect s t [(r2, a ||| b)] [bitZ, bitS, bitOV] (s.pc + 2) ∧
      ResultFlagsAre t (a ||| b) False) ∧
    (∃ t, exec (.and r1 r2) s = .next t ∧
      Effect s t [(r2, a &&& b)] [bitZ, bitS, bitOV] (s.pc + 2) ∧
      ResultFlagsAre t (a &&& b) False) ∧
    (∃ t, exec (.xor r1 r2) s = .next t ∧
      Effect s t [(r2, a ^^^ b)] [bitZ, bitS, bitOV] (s.pc + 2) ∧
      ResultFlagsAre t (a ^^^ b) False) ∧
    (∃ t, exec (.not r1 r2) s = .next t ∧
      Effect s t [(r2, ~~~b)] [bitZ, bitS, bitOV] (s.pc + 2) ∧
      ResultFlagsAre t (~~~b) False)

/-- Derived from R84, R85, R87, R104-R106 (the operand order of `shl` and the whole of `sar imm5` are
the spec's inferences): the shifts as arithmetic on the value, the count modulo 32, CY the last bit
shifted out and 0 for a count of 0. -/
def Obligations.ShiftResultAndFlags : Prop :=
  ∀ (r1 r2 : RegIdx) (imm5 : BitVec 5) (s : State),
    let a := s.readReg r2
    ∀ p ∈ [(Instr.shl r1 r2, Instr.shr r1 r2, Instr.sar r1 r2, (s.readReg r1).toNat % 32),
        (Instr.shlImm imm5 r2, Instr.shrImm imm5 r2, Instr.sarImm imm5 r2, imm5.toNat)],
      let n := p.2.2.2
      (∃ t r, exec p.1 s = .next t ∧ r = BitVec.ofNat 32 (a.toNat * 2 ^ n) ∧
        Effect s t [(r2, r)] [bitZ, bitS, bitOV, bitCY] (s.pc + 2) ∧
        FlagsAre t (r = 0) (r.msb = true) False (n ≠ 0 ∧ a.toNat / 2 ^ (32 - n) % 2 = 1)) ∧
      (∃ t r, exec p.2.1 s = .next t ∧ r = BitVec.ofNat 32 (a.toNat / 2 ^ n) ∧
        Effect s t [(r2, r)] [bitZ, bitS, bitOV, bitCY] (s.pc + 2) ∧
        FlagsAre t (r = 0) (r.msb = true) False (n ≠ 0 ∧ a.toNat / 2 ^ (n - 1) % 2 = 1)) ∧
      (∃ t r, exec p.2.2.1 s = .next t ∧ r = BitVec.ofInt 32 (a.toInt / 2 ^ n) ∧
        Effect s t [(r2, r)] [bitZ, bitS, bitOV, bitCY] (s.pc + 2) ∧
        FlagsAre t (r = 0) (r.msb = true) False (n ≠ 0 ∧ a.toNat / 2 ^ (n - 1) % 2 = 1))

/-- R88, R90: the 64-bit products: the high word in `x[30]`, then the low word in `x[reg2]`; OV when
the product does not fit 32 bits; CY as it was. -/
def Obligations.MultiplyProducts : Prop :=
  ∀ (r1 r2 : RegIdx) (s : State),
    let a := s.readReg r2
    let b := s.readReg r1
    (∃ t low, exec (.mul r1 r2) s = .next t ∧ low = BitVec.ofInt 32 (a.toInt * b.toInt) ∧
      Effect s t [(30, BitVec.ofInt 32 (a.toInt * b.toInt / 2 ^ 32)), (r2, low)]
        [bitZ, bitS, bitOV] (s.pc + 2) ∧
      ResultFlagsAre t low (a.toInt * b.toInt < -2 ^ 31 ∨ 2 ^ 31 ≤ a.toInt * b.toInt)) ∧
    (∃ t low, exec (.mulu r1 r2) s = .next t ∧ low = BitVec.ofNat 32 (a.toNat * b.toNat) ∧
      Effect s t [(30, BitVec.ofNat 32 (a.toNat * b.toNat / 2 ^ 32)), (r2, low)]
        [bitZ, bitS, bitOV] (s.pc + 2) ∧
      ResultFlagsAre t low (2 ^ 32 ≤ a.toNat * b.toNat))

/-- R89, R91: signed and unsigned division: quotient in `x[reg2]`, remainder in `x[30]`, the signed
overflow case, and the zero-division exception with nothing written. -/
def Obligations.DivideResults : Prop :=
  ∀ (r1 r2 : RegIdx) (s : State),
    let a := s.readReg r2
    let b := s.readReg r1
    (b ≠ 0 → ¬(a = 0x80000000 ∧ b = 0xFFFFFFFF) →
      ∃ (t : State) (q r : Int), exec (.div r1 r2) s = .next t ∧ a.toInt = q * b.toInt + r ∧
        |r| < |b.toInt| ∧ 0 ≤ r * a.toInt ∧
        Effect s t [(30, BitVec.ofInt 32 r), (r2, BitVec.ofInt 32 q)] [bitZ, bitS, bitOV]
          (s.pc + 2) ∧
        (t.psw.getLsbD bitZ = true ↔ q = 0) ∧ (t.psw.getLsbD bitS = true ↔ q < 0) ∧
        t.psw.getLsbD bitOV = false) ∧
    (a = 0x80000000 → b = 0xFFFFFFFF →
      ∃ t, exec (.div r1 r2) s = .next t ∧
        Effect s t [(30, 0), (r2, 0x80000000)] [bitZ, bitS, bitOV] (s.pc + 2) ∧
        ResultFlagsAre t 0x80000000 True) ∧
    (b ≠ 0 → ∃ t q, exec (.divu r1 r2) s = .next t ∧ q = BitVec.ofNat 32 (a.toNat / b.toNat) ∧
      Effect s t [(30, BitVec.ofNat 32 (a.toNat % b.toNat)), (r2, q)] [bitZ, bitS, bitOV]
        (s.pc + 2) ∧
      ResultFlagsAre t q False) ∧
    (b = 0 → exec (.div r1 r2) s = raise .zeroDivision s.pc s ∧
      exec (.divu r1 r2) s = raise .zeroDivision s.pc s)

/-! ## Control flow -/

/-- R86, R142, R143: `jmp` to a register, `jr` and `jal` relative to their own address, the link of
`jal`; no flag changes. -/
def Obligations.JumpTargets : Prop :=
  ∀ (r1 : RegIdx) (d : BitVec 26) (s : State),
    (∃ t, exec (.jmp r1) s = .next t ∧ Effect s t [] [] (s.readReg r1)) ∧
    (∃ t, exec (.jr d) s = .next t ∧
      Effect s t [] [] (s.pc + (d.signExtend 32 &&& 0xFFFFFFFE))) ∧
    (∃ t, exec (.jal d) s = .next t ∧
      Effect s t [(31, s.pc + 4)] [] (s.pc + (d.signExtend 32 &&& 0xFFFFFFFE)))

/-- R122-R129: the branches that test a condition, by R121. -/
def Obligations.BranchesOnCondition : Prop :=
  ∀ (d : BitVec 9) (s : State),
    let z := s.psw.getLsbD bitZ
    let n := s.psw.getLsbD bitS
    let v := s.psw.getLsbD bitOV
    let c := s.psw.getLsbD bitCY
    ∀ p ∈ [(Instr.bv d, v), (Instr.bl d, c), (Instr.be d, z), (Instr.bnh d, c || z),
        (Instr.bn d, n), (Instr.br d, true), (Instr.blt d, n != v), (Instr.ble d, (n != v) || z)],
      ∃ t, exec p.1 s = .next t ∧ Effect s t [] [] (branchTarget s d p.2)

/-- R130-R137: the branches that test the negation of a condition, and `nop`, by R121. -/
def Obligations.BranchesOnNegation : Prop :=
  ∀ (d : BitVec 9) (s : State),
    let z := s.psw.getLsbD bitZ
    let n := s.psw.getLsbD bitS
    let v := s.psw.getLsbD bitOV
    let c := s.psw.getLsbD bitCY
    ∀ p ∈ [(Instr.bnv d, !v), (Instr.bnl d, !c), (Instr.bne d, !z), (Instr.bh d, !c && !z),
        (Instr.bp d, !n), (Instr.nop, false), (Instr.bge d, n == v), (Instr.bgt d, (n == v) && !z)],
      ∃ t, exec p.1 s = .next t ∧ Effect s t [] [] (branchTarget s d p.2)

/-- R102: `setf` writes 1 or 0 by the sixteen conditions of the branches, and no flag. -/
def Obligations.SetfConditions : Prop :=
  ∀ (r2 : RegIdx) (s : State),
    let z := s.psw.getLsbD bitZ
    let n := s.psw.getLsbD bitS
    let v := s.psw.getLsbD bitOV
    let c := s.psw.getLsbD bitCY
    ∀ p ∈ [(0#4, v), (1#4, c), (2#4, z), (3#4, c || z), (4#4, n), (5#4, true), (6#4, n != v),
        (7#4, (n != v) || z), (8#4, !v), (9#4, !c), (10#4, !z), (11#4, !c && !z), (12#4, !n),
        (13#4, false), (14#4, n == v), (15#4, (n == v) && !z)],
      ∃ t, exec (.setf p.1 r2) s = .next t ∧
        Effect s t [(r2, if p.2 then 1 else 0)] [] (s.pc + 2)

/-! ## Memory and ports (spec/44_load_store.md) -/

/-- R151-R153 (with R150, R36, R39): the loads from ram or rom, sign-extended, and from a device, which
is read once at the width named, also when `reg2` is r0. -/
def Obligations.LoadsRead : Prop :=
  ∀ (d : BitVec 16) (r1 r2 : RegIdx) (s : State),
    let ea := s.readReg r1 + d.signExtend 32
    ∀ p ∈ [(Instr.ldB d r1 r2, ea, 1), (Instr.ldH d r1 r2, ea &&& 0xFFFFFFFE, 2),
        (Instr.ldW d r1 r2, ea &&& 0xFFFFFFFC, 4)],
      (s.MemPlain p.2.1.toNat p.2.2 →
        ∃ t, exec p.1 s = .next t ∧
          Effect s t
            [(r2, (BitVec.ofNat (8 * p.2.2) (littleEndian s.mem p.2.1.toNat p.2.2)).signExtend 32)]
            [] (s.pc + 4)) ∧
      (s.MemAll .device p.2.1.toNat p.2.2 →
        ∃ t v, exec p.1 s = .next t ∧ DeviceWasRead s t .memory p.2.1 p.2.2 v ∧
          CoreEffect s t [(r2, (v.extractLsb' 0 (8 * p.2.2)).signExtend 32)] [] (s.pc + 4) ∧
          SameMemory s t ∧ SamePorts s t)

/-- R154-R156 (with R150, R36, R39): the stores to ram: the low bytes of `x[reg2]` at the address forced
to the width, every other byte as it was; and to a device. -/
def Obligations.StoresWrite : Prop :=
  ∀ (d : BitVec 16) (r1 r2 : RegIdx) (s : State),
    let ea := s.readReg r1 + d.signExtend 32
    ∀ p ∈ [(Instr.stB r2 d r1, ea, 1), (Instr.stH r2 d r1, ea &&& 0xFFFFFFFE, 2),
        (Instr.stW r2 d r1, ea &&& 0xFFFFFFFC, 4)],
      (s.MemAll .ram p.2.1.toNat p.2.2 →
        ∃ t, exec p.1 s = .next t ∧ CoreEffect s t [] [] (s.pc + 4) ∧
          StoredAt s t p.2.1.toNat p.2.2 (s.readReg r2) ∧ SamePorts s t ∧ NoDevice s t) ∧
      (s.MemAll .device p.2.1.toNat p.2.2 →
        ∃ t, exec p.1 s = .next t ∧ CoreEffect s t [] [] (s.pc + 4) ∧
          DeviceWasWritten s t .memory p.2.1 p.2.2 (s.readReg r2) ∧ SameMemory s t ∧
          SamePorts s t)

/-- Derived from R32, R40, R43: after a word store to ram, loads of any width inside the word read its
bytes, low byte first. And an access some of whose bytes are a device's and some memory's: each byte is
read from, or stored to, what answers at its own address, and the device is accessed once, at the width
named (the model's choice, log entry 12). -/
def Obligations.StoreThenLoadAnyWidth : Prop :=
  (∀ (d d' : BitVec 16) (r1 r2 r1' r2' : RegIdx) (s t : State),
    let ea := s.readReg r1 + d.signExtend 32
    let v := s.readReg r2
    s.MemAll .ram (ea &&& 0xFFFFFFFC).toNat 4 → exec (.stW r2 d r1) s = .next t → r2' ≠ 0 →
    let ea' := t.readReg r1' + d'.signExtend 32
    ea' &&& 0xFFFFFFFC = ea &&& 0xFFFFFFFC →
    (∃ u, exec (.ldB d' r1' r2') t = .next u ∧
      u.readReg r2' = (v.extractLsb' (8 * (ea'.toNat % 4)) 8).signExtend 32) ∧
    (∃ u, exec (.ldH d' r1' r2') t = .next u ∧
      u.readReg r2' = (v.extractLsb' (16 * (ea'.toNat % 4 / 2)) 16).signExtend 32) ∧
    (∃ u, exec (.ldW d' r1' r2') t = .next u ∧ u.readReg r2' = v)) ∧
  (∀ (d : BitVec 16) (r1 r2 : RegIdx) (s : State),
    let ea := s.readReg r1 + d.signExtend 32
    ∀ p ∈ [(Instr.ldB d r1 r2, Instr.stB r2 d r1, ea, 1),
        (Instr.ldH d r1 r2, Instr.stH r2 d r1, ea &&& 0xFFFFFFFE, 2),
        (Instr.ldW d r1 r2, Instr.stW r2 d r1, ea &&& 0xFFFFFFFC, 4)],
      let a := p.2.2.1.toNat
      let n := p.2.2.2
      s.MemMapped a n → s.MemSome .device a n →
      (∃ t v, exec p.1 s = .next t ∧ DeviceWasRead s t .memory p.2.2.1 n v ∧
        CoreEffect s t
          [(r2, (BitVec.ofNat (8 * n) (bytesValue (fun k =>
            if s.memKind (a + k) = .device then v.extractLsb' (8 * k) 8
            else readByte s.mem (a + k)) n)).signExtend 32)] [] (s.pc + 4) ∧
        SameMemory s t ∧ SamePorts s t) ∧
      ((∀ k, k < n → s.memKind (a + k) ≠ .rom) →
        ∃ t, exec p.2.1 s = .next t ∧ CoreEffect s t [] [] (s.pc + 4) ∧
          DeviceWasWritten s t .memory p.2.2.1 n (s.readReg r2) ∧ SamePorts s t ∧
          ∀ c, readByte t.mem c =
            if a ≤ c ∧ c < a + n ∧ s.memKind c = .ram then
              (s.readReg r2).extractLsb' (8 * (c - a)) 8
            else readByte s.mem c))

/-- Derived from R39, R48, R173: where the spec gives an access no result the model has no step: an
address of kind `none` (also under `alias_memory`), a write to rom, an unmapped port, and a fetch from
an address of kind `none`; and a bit string that touches a device, and a fetch from one, are refused (the
overlap that R175 refuses is left to `StringOperationResult`). An access stops when any of its bytes does,
and of several reasons the one tested first is named: the model's choice, log entries 12 and 28. -/
def Obligations.AccessesThatStop : Prop :=
  (∀ (d : BitVec 16) (r1 r2 : RegIdx) (s : State),
    let ea := s.readReg r1 + d.signExtend 32
    ∀ p ∈ [(Instr.ldB d r1 r2, Instr.stB r2 d r1, Instr.inB d r1 r2, Instr.outB r2 d r1, ea, 1),
        (Instr.ldH d r1 r2, Instr.stH r2 d r1, Instr.inH d r1 r2, Instr.outH r2 d r1,
          ea &&& 0xFFFFFFFE, 2),
        (Instr.ldW d r1 r2, Instr.stW r2 d r1, Instr.inW d r1 r2, Instr.outW r2 d r1,
          ea &&& 0xFFFFFFFC, 4)],
      let a := p.2.2.2.2.1.toNat
      let n := p.2.2.2.2.2
      (s.MemSome .none a n → exec p.1 s = .fault (.unmappedAddress a) ∧
        exec p.2.1 s = .fault (.unmappedAddress a)) ∧
      (s.MemMapped a n → s.MemSome .rom a n → exec p.2.1 s = .fault (.romWrite a)) ∧
      ((∃ k, k < n ∧ s.ioKind (a + k) = .none) → exec p.2.2.1 s = .fault (.unmappedPort a) ∧
        exec p.2.2.2.1 s = .fault (.unmappedPort a)) ∧
      (s.PortAll .aliasMemory a n → s.MemSome .none a n →
        exec p.2.2.1 s = .fault (.unmappedAddress a) ∧
        exec p.2.2.2.1 s = .fault (.unmappedAddress a)) ∧
      (s.PortAll .aliasMemory a n → s.MemMapped a n → s.MemSome .rom a n →
        exec p.2.2.2.1 s = .fault (.romWrite a))) ∧
  (∀ (d : BitVec 16) (r1 r2 : RegIdx) (s : State),
    let a := ((s.readReg r1 + d.signExtend 32) &&& 0xFFFFFFFC).toNat
    (s.MemSome .none a 4 → exec (.caxi d r1 r2) s = .fault (.unmappedAddress a)) ∧
    (s.MemMapped a 4 → s.MemSome .rom a 4 → exec (.caxi d r1 r2) s = .fault (.romWrite a))) ∧
  (∀ (i : Instr) (s : State), s.breakPoint ≠ some 0 → s.readReg 28 ≠ 0 →
    ((stringFunction i).isSome → ¬s.OverlapsAbove) →
    let src := (s.readReg 30 &&& 0xFFFFFFFC).toNat
    let dst := (s.readReg 29 &&& 0xFFFFFFFC).toNat
    ((stringFunction i).isSome ∨ (searchFunction i).isSome →
      (s.MemSome .none src 4 → exec i s = .fault (.unmappedAddress src)) ∧
      (s.MemMapped src 4 → s.MemSome .device src 4 →
        exec i s = .refused (.bitStringDevice src))) ∧
    ((stringFunction i).isSome → s.MemPlain src 4 →
      (s.MemSome .none dst 4 → exec i s = .fault (.unmappedAddress dst)) ∧
      (s.MemMapped dst 4 → s.MemSome .device dst 4 →
        exec i s = .refused (.bitStringDevice dst)) ∧
      (s.MemPlain dst 4 → s.MemSome .rom dst 4 → exec i s = .fault (.romWrite dst)))) ∧
  (∀ (i : Instr) (s t : State), (stringFunction i).isSome → exec i s = .next t →
    ∀ j, j < (s.readReg 28).toNat → (∀ b, s.breakPoint = some b → j < b) →
      s.MemPlain (bitAddress (bitFrom .up (startBit (s.readReg 30) (s.readReg 27)) j)).toNat 4 ∧
      s.MemAll .ram (bitAddress (bitFrom .up (startBit (s.readReg 29) (s.readReg 26)) j)).toNat
        4) ∧
  (∀ s : State, s.Executes → s.pc.getLsbD 0 = false →
    (s.MemSome .none s.pc.toNat 2 → step s = .fault (.unmappedAddress s.pc.toNat)) ∧
    (s.MemMapped s.pc.toNat 2 → s.MemSome .device s.pc.toNat 2 →
      step s = .refused (.deviceFetch s.pc.toNat)) ∧
    (s.Uncached → s.Executable s.pc → isLong s.halvesAtPc.1 = true →
      (s.MemSome .none (s.pc + 2).toNat 2 →
        step s = .fault (.unmappedAddress (s.pc + 2).toNat)) ∧
      (s.MemMapped (s.pc + 2).toNat 2 → s.MemSome .device (s.pc + 2).toNat 2 →
        step s = .refused (.deviceFetch (s.pc + 2).toNat))))

/-- Derived from R157-R159, R33, R39: the port inputs, zero-extended: from a device, from plain storage (a
kind of port that is the model's choice, log entry 13), or from memory where IO_MAP is `alias_memory`;
where the ports of one access differ, each byte from what answers at its own port (log entry 12). -/
def Obligations.PortInputs : Prop :=
  ∀ (d : BitVec 16) (r1 r2 : RegIdx) (s : State),
    let ea := s.readReg r1 + d.signExtend 32
    ∀ p ∈ [(Instr.inB d r1 r2, ea, 1), (Instr.inH d r1 r2, ea &&& 0xFFFFFFFE, 2),
        (Instr.inW d r1 r2, ea &&& 0xFFFFFFFC, 4)],
      let a := p.2.1.toNat
      let n := p.2.2
      (∀ space, (s.PortAll .device a n ∧ space = .io) ∨
          (s.PortAll .aliasMemory a n ∧ s.MemAll .device a n ∧ space = .memory) →
        ∃ t v, exec p.1 s = .next t ∧ DeviceWasRead s t space p.2.1 n v ∧
          CoreEffect s t [(r2, v)] [] (s.pc + 4) ∧ SameMemory s t ∧ SamePorts s t) ∧
      (s.PortAll .storage a n →
        ∃ t, exec p.1 s = .next t ∧
          Effect s t [(r2, BitVec.ofNat 32 (littleEndian s.io a n))] [] (s.pc + 4)) ∧
      (s.PortAll .aliasMemory a n → s.MemPlain a n →
        ∃ t, exec p.1 s = .next t ∧
          Effect s t [(r2, BitVec.ofNat 32 (littleEndian s.mem a n))] [] (s.pc + 4)) ∧
      ((∀ k, k < n → s.ioKind (a + k) = .storage ∨ (s.ioKind (a + k) = .aliasMemory ∧
          (s.memKind (a + k) = .ram ∨ s.memKind (a + k) = .rom))) →
        ∃ t, exec p.1 s = .next t ∧
          Effect s t
            [(r2, BitVec.ofNat 32 (bytesValue (fun k =>
              if s.ioKind (a + k) = .storage then readByte s.io (a + k)
              else readByte s.mem (a + k)) n))] [] (s.pc + 4))

/-- Derived from R161-R163, R33, R39: the port outputs: to a device, to plain storage (a kind of port that
is the model's choice, log entry 13), or to memory where IO_MAP is `alias_memory`; where the ports of one
access differ, each byte to what answers at its own port (log entry 12). -/
def Obligations.PortOutputs : Prop :=
  ∀ (d : BitVec 16) (r1 r2 : RegIdx) (s : State),
    let ea := s.readReg r1 + d.signExtend 32
    ∀ p ∈ [(Instr.outB r2 d r1, ea, 1), (Instr.outH r2 d r1, ea &&& 0xFFFFFFFE, 2),
        (Instr.outW r2 d r1, ea &&& 0xFFFFFFFC, 4)],
      let a := p.2.1.toNat
      let n := p.2.2
      (∀ space, (s.PortAll .device a n ∧ space = .io) ∨
          (s.PortAll .aliasMemory a n ∧ s.MemAll .device a n ∧ space = .memory) →
        ∃ t, exec p.1 s = .next t ∧ DeviceWasWritten s t space p.2.1 n (s.readReg r2) ∧
          CoreEffect s t [] [] (s.pc + 4) ∧ SameMemory s t ∧ SamePorts s t) ∧
      (s.PortAll .storage a n →
        ∃ t, exec p.1 s = .next t ∧ CoreEffect s t [] [] (s.pc + 4) ∧
          StoredAtPort s t a n (s.readReg r2) ∧ SameMemory s t ∧ NoDevice s t) ∧
      (s.PortAll .aliasMemory a n → s.MemAll .ram a n →
        ∃ t, exec p.1 s = .next t ∧ CoreEffect s t [] [] (s.pc + 4) ∧
          StoredAt s t a n (s.readReg r2) ∧ SamePorts s t ∧ NoDevice s t) ∧
      ((∀ k, k < n → s.ioKind (a + k) = .storage ∨
          (s.ioKind (a + k) = .aliasMemory ∧ s.memKind (a + k) = .ram)) →
        ∃ t, exec p.1 s = .next t ∧ CoreEffect s t [] [] (s.pc + 4) ∧ NoDevice s t ∧
          (∀ c, readByte t.io c =
            if a ≤ c ∧ c < a + n ∧ s.ioKind c = .storage then
              (s.readReg r2).extractLsb' (8 * (c - a)) 8
            else readByte s.io c) ∧
          (∀ c, readByte t.mem c =
            if a ≤ c ∧ c < a + n ∧ s.ioKind c = .aliasMemory then
              (s.readReg r2).extractLsb' (8 * (c - a)) 8
            else readByte s.mem c))

/-- R160: `caxi` compares `x[reg2]` with the word, writes `x[30]` or the old word back, and loads the
old word; on a device the read and the write are made in that order. -/
def Obligations.CaxiExchanges : Prop :=
  ∀ (d : BitVec 16) (r1 r2 : RegIdx) (s : State),
    let ea := s.readReg r1 + d.signExtend 32
    let a := ea &&& 0xFFFFFFFC
    let c := s.readReg r2
    (s.MemAll .ram a.toNat 4 →
      ∃ t w, exec (.caxi d r1 r2) s = .next t ∧
        w = BitVec.ofNat 32 (littleEndian s.mem a.toNat 4) ∧
        CoreEffect s t [(r2, w)] [bitZ, bitS, bitOV, bitCY] (s.pc + 4) ∧ SubFlagsAre t c w ∧
        StoredAt s t a.toNat 4 (if c = w then s.readReg 30 else w) ∧ SamePorts s t ∧
        NoDevice s t) ∧
    (s.MemAll .device a.toNat 4 →
      ∃ t w, exec (.caxi d r1 r2) s = .next t ∧
        w = Config.deviceAnswer s.draws .memory a.toNat 4 ∧
        CoreEffect s t [(r2, w)] [bitZ, bitS, bitOV, bitCY] (s.pc + 4) ∧ SubFlagsAre t c w ∧
        t.deviceLog = ⟨.memory, true, a.toNat, 4, if c = w then s.readReg 30 else w⟩ ::
          ⟨.memory, false, a.toNat, 4, w⟩ :: s.deviceLog ∧
        t.draws = s.draws + 1 ∧ SameMemory s t ∧ SamePorts s t)

/-! ## Floating point (spec/46_float.md)

The rules are those of the value of `FP` that R3 suggests; `FloatExceptionsTaken` says what an
instruction does under any other. -/

/-- R193: an exact comparison of the values; a reserved operand traps; no register is written. -/
def Obligations.CmpfComparesValues : Prop :=
  ∀ (r1 r2 : RegIdx) (s : State), s.config.fp = .binary32 →
    let a := s.readReg r2
    let b := s.readReg r1
    (isReserved s.config.fpReservedInf a = false → isReserved s.config.fpReservedInf b = false →
      ∃ t, exec (.cmpfS r1 r2) s = .next t ∧
        Effect s t [] [bitZ, bitS, bitOV, bitCY] (s.pc + 4) ∧
        FlagsAre t (floatVal a = floatVal b) (floatVal a < floatVal b) False
          (floatVal a < floatVal b)) ∧
    (isReserved s.config.fpReservedInf a = true ∨ isReserved s.config.fpReservedInf b = true →
      FloatTraps (.cmpfS r1 r2) s bitFRO 0xFF60)

/-- R189, R191, R192, R196-R199: a sum, difference, product or quotient whose exact value is in range is
delivered rounded to nearest, ties to even; FPR is set when it is inexact. -/
def Obligations.FloatRoundsToNearestEven : Prop :=
  ∀ (r1 r2 : RegIdx) (s : State) (i : Instr) (q : ℚ), s.config.fp = .binary32 →
    FiniteFloat (s.readReg r2) → FiniteFloat (s.readReg r1) → FloatArith r1 r2 s i q →
    floatLow ≤ |q| → |q| < floatHigh →
    ∃ t r, exec i s = .next t ∧ NearestFloat q r ∧
      Effect s t [(r2, r)] [bitZ, bitS, bitOV, bitCY, bitFPR] (s.pc + 4) ∧
      FlagsAre t False (q < 0) False (q < 0) ∧
      (t.psw.getLsbD bitFPR = true ↔ s.psw.getLsbD bitFPR = true ∨ floatVal r ≠ q)

/-- R189, R191: an exact zero has the sign IEEE 754 gives it; a non-zero result below the range becomes
a zero by `FP_UNDERFLOW_ZERO`, with FUD and FPR set and no exception. -/
def Obligations.FloatZeroAndUnderflow : Prop :=
  ∀ (r1 r2 : RegIdx) (s : State) (i : Instr) (q : ℚ), s.config.fp = .binary32 →
    FiniteFloat (s.readReg r2) → FiniteFloat (s.readReg r1) → FloatArith r1 r2 s i q →
    let sa := (s.readReg r2).msb
    let sb := (s.readReg r1).msb
    (q = 0 → ∃ t, exec i s = .next t ∧
      Effect s t
        [(r2, if (i = .addfS r1 r2 ∧ sa = true ∧ sb = true) ∨
              (i = .subfS r1 r2 ∧ sa = true ∧ sb = false) ∨
              ((i = .mulfS r1 r2 ∨ i = .divfS r1 r2) ∧ sa ≠ sb)
            then 0x80000000 else 0)]
        [bitZ, bitS, bitOV, bitCY] (s.pc + 4) ∧
      FlagsAre t True False False False) ∧
    (q ≠ 0 → |q| < floatLow → ∃ t, exec i s = .next t ∧
      Effect s t
        [(r2, if s.config.fpUnderflowZero = .signed ∧ q < 0 then 0x80000000 else 0)]
        [bitZ, bitS, bitOV, bitCY, bitFPR, bitFUD] (s.pc + 4) ∧
      FlagsAre t True False False False ∧ t.psw.getLsbD bitFPR = true ∧
      t.psw.getLsbD bitFUD = true)

/-- Derived from R189-R191, R196-R199, R219, R3. The conditions that raise an exception, with their sticky
bits and codes: a reserved operand before everything else, zero divided by zero, division by zero, and a
rounded magnitude of 2^128 or more; also while NP = 1, where the sticky bit is set and the exception is
fatal. With `FP_RESERVED_INF` false, what an infinity does: where IEEE 754 gives an infinity, overflow,
and where it gives a NaN, invalid operation (the model's inference, log entry 15). And under an `FP` of
the platform's own, what becomes of its answer: the result, the sticky bits, the exception (the model's
reading of the record, log entry 35). -/
def Obligations.FloatExceptionsTaken : Prop :=
  (∀ (r1 r2 : RegIdx) (s : State), s.config.fp = .binary32 →
    let a := s.readReg r2
    let b := s.readReg r1
    (isReserved s.config.fpReservedInf a = true ∨ isReserved s.config.fpReservedInf b = true →
      FloatTraps (.addfS r1 r2) s bitFRO 0xFF60 ∧ FloatTraps (.subfS r1 r2) s bitFRO 0xFF60 ∧
      FloatTraps (.mulfS r1 r2) s bitFRO 0xFF60 ∧ FloatTraps (.divfS r1 r2) s bitFRO 0xFF60) ∧
    (floatClass a = .zero → floatClass b = .zero →
      FloatTraps (.divfS r1 r2) s bitFIV 0xFF70) ∧
    (floatClass a = .normal → floatClass b = .zero →
      FloatTraps (.divfS r1 r2) s bitFZD 0xFF68) ∧
    (∀ i q, FiniteFloat a → FiniteFloat b → FloatArith r1 r2 s i q → floatHigh ≤ |q| →
      FloatTraps i s bitFOV 0xFF64)) ∧
  (∀ (r1 r2 : RegIdx) (s : State), s.config.fp = .binary32 → s.config.fpReservedInf = false →
    let a := s.readReg r2
    let b := s.readReg r1
    (floatClass a = .infinity ∧ FiniteFloat b ∨ FiniteFloat a ∧ floatClass b = .infinity →
      FloatTraps (.addfS r1 r2) s bitFOV 0xFF64 ∧ FloatTraps (.subfS r1 r2) s bitFOV 0xFF64) ∧
    (floatClass a = .infinity → floatClass b = .infinity →
      (a.msb = b.msb → FloatTraps (.addfS r1 r2) s bitFOV 0xFF64 ∧
        FloatTraps (.subfS r1 r2) s bitFIV 0xFF70) ∧
      (a.msb ≠ b.msb → FloatTraps (.addfS r1 r2) s bitFIV 0xFF70 ∧
        FloatTraps (.subfS r1 r2) s bitFOV 0xFF64) ∧
      FloatTraps (.mulfS r1 r2) s bitFOV 0xFF64 ∧ FloatTraps (.divfS r1 r2) s bitFIV 0xFF70) ∧
    (floatClass a = .infinity ∧ floatClass b = .zero ∨
        floatClass a = .zero ∧ floatClass b = .infinity →
      FloatTraps (.mulfS r1 r2) s bitFIV 0xFF70) ∧
    (floatClass a = .infinity ∧ floatClass b = .normal ∨
        floatClass a = .normal ∧ floatClass b = .infinity →
      FloatTraps (.mulfS r1 r2) s bitFOV 0xFF64) ∧
    (floatClass a = .infinity → floatClass b = .zero →
      FloatTraps (.divfS r1 r2) s bitFZD 0xFF68) ∧
    (floatClass a = .infinity → floatClass b = .normal →
      FloatTraps (.divfS r1 r2) s bitFOV 0xFF64) ∧
    (FiniteFloat a → floatClass b = .infinity →
      ∃ t, exec (.divfS r1 r2) s = .next t ∧
        Effect s t [(r2, if a.msb = b.msb then 0 else 0x80000000)] [bitZ, bitS, bitOV, bitCY]
          (s.pc + 4) ∧
        FlagsAre t True False False False)) ∧
  (∀ (r1 r2 : RegIdx) (s : State), s.config.fp = .platform →
    let a := s.readReg r2
    let b := s.readReg r1
    ∀ p ∈ [(Instr.cmpfS r1 r2, Config.fpCmp a b, 0#5, true),
        (Instr.addfS r1 r2, Config.fpAdd a b, r2, true),
        (Instr.subfS r1 r2, Config.fpSub a b, r2, true),
        (Instr.mulfS r1 r2, Config.fpMul a b, r2, true),
        (Instr.divfS r1 r2, Config.fpDiv a b, r2, true),
        (Instr.cvtWS r1 r2, Config.fpCvtWs b, r2, true),
        (Instr.cvtSW r1 r2, Config.fpCvtSw b, r2, false),
        (Instr.trncSW r1 r2, Config.fpTrncSw b, r2, false)],
      let u := s.stickAll p.2.1.sticky
      match p.2.1.outcome with
      | .value r fud fpr => ∃ t, exec p.1 s = .next t ∧
          Effect s t [(p.2.2.1, r)]
            [bitZ, bitS, bitOV, bitCY, bitFPR, bitFUD, bitFOV, bitFZD, bitFIV, bitFRO] (s.pc + 4) ∧
          (∀ n, bitFPR ≤ n → n ≤ bitFRO → (t.psw.getLsbD n = true ↔
            s.psw.getLsbD n = true ∨ p.2.1.sticky.getLsbD (n - bitFPR) = true ∨
            (n = bitFUD ∧ fud = true) ∨ (n = bitFPR ∧ fpr = true))) ∧
          (p.2.2.2 = true → FlagsAre t (r.extractLsb' 0 31 = 0)
            (r.extractLsb' 0 31 ≠ 0 ∧ r.msb = true) False
            (r.extractLsb' 0 31 ≠ 0 ∧ r.msb = true)) ∧
          (p.2.2.2 = false → ResultFlagsAre t r False ∧
            t.psw.getLsbD bitCY = s.psw.getLsbD bitCY)
      | .reserved => FloatTrapsIn p.1 s (u.setPswBit bitFRO true) 0xFF60
      | .invalid => FloatTrapsIn p.1 s (u.setPswBit bitFIV true) 0xFF70
      | .zeroDivision => FloatTrapsIn p.1 s (u.setPswBit bitFZD true) 0xFF68
      | .overflow => FloatTrapsIn p.1 s (u.setPswBit bitFOV true) 0xFF64)

/-- R194: `cvt.ws` rounds a signed integer to nearest, ties to even; it never traps. -/
def Obligations.CvtWsRounds : Prop :=
  ∀ (r1 r2 : RegIdx) (s : State), s.config.fp = .binary32 →
    let q : ℚ := (s.readReg r1).toInt
    ∃ t r, exec (.cvtWS r1 r2) s = .next t ∧ (q = 0 → r = 0) ∧ (q ≠ 0 → NearestFloat q r) ∧
      Effect s t [(r2, r)] [bitZ, bitS, bitOV, bitCY, bitFPR] (s.pc + 4) ∧
      FlagsAre t (q = 0) (q < 0) False (q < 0) ∧
      (t.psw.getLsbD bitFPR = true ↔ s.psw.getLsbD bitFPR = true ∨ floatVal r ≠ q)

/-- R195: `cvt.sw` rounds to the nearest integer, ties to even; CY is kept; an integer out of range is
an invalid operation, a reserved operand traps. -/
def Obligations.CvtSwRounds : Prop :=
  ∀ (r1 r2 : RegIdx) (s : State), s.config.fp = .binary32 →
    let b := s.readReg r1
    (isReserved s.config.fpReservedInf b = false →
      ∃ n : Int, NearestInt (floatVal b) n ∧
        (-2 ^ 31 ≤ n → n ≤ 2 ^ 31 - 1 →
          ∃ t, exec (.cvtSW r1 r2) s = .next t ∧
            Effect s t [(r2, BitVec.ofInt 32 n)] [bitZ, bitS, bitOV, bitFPR] (s.pc + 4) ∧
            ResultFlagsAre t (BitVec.ofInt 32 n) False ∧
            (t.psw.getLsbD bitFPR = true ↔
              s.psw.getLsbD bitFPR = true ∨ floatVal b ≠ n)) ∧
        (n < -2 ^ 31 ∨ 2 ^ 31 - 1 < n →
          FloatTraps (.cvtSW r1 r2) s bitFIV 0xFF70)) ∧
    (isReserved s.config.fpReservedInf b = true →
      FloatTraps (.cvtSW r1 r2) s bitFRO 0xFF60)

/-- R200: `trnc.sw` drops the fraction; the range is that of `TRNC_SW_RESULT`; CY is kept. -/
def Obligations.TrncSwTruncates : Prop :=
  ∀ (r1 r2 : RegIdx) (s : State), s.config.fp = .binary32 →
    let b := s.readReg r1
    (isReserved s.config.fpReservedInf b = false →
      ∃ n : Int, TruncatedInt (floatVal b) n ∧
        let ok := match s.config.trncSwResult with
          | .signed => -2 ^ 31 ≤ n ∧ n ≤ 2 ^ 31 - 1
          | .unsigned => 0 ≤ n ∧ n ≤ 2 ^ 32 - 1
        (ok →
          ∃ t, exec (.trncSW r1 r2) s = .next t ∧
            Effect s t [(r2, BitVec.ofInt 32 n)] [bitZ, bitS, bitOV, bitFPR] (s.pc + 4) ∧
            ResultFlagsAre t (BitVec.ofInt 32 n) False ∧
            (t.psw.getLsbD bitFPR = true ↔
              s.psw.getLsbD bitFPR = true ∨ floatVal b ≠ n)) ∧
        (¬ok →
          FloatTraps (.trncSW r1 r2) s bitFIV 0xFF70)) ∧
    (isReserved s.config.fpReservedInf b = true →
      FloatTraps (.trncSW r1 r2) s bitFRO 0xFF60)

/-! ## Bit strings (spec/45_bitstring.md) -/

/-- Derived from R173, R175, R181-R188: a string-to-string operation that is not broken off ends with both
pointers just past the strings, `x[28]` = 0, the bits outside the destination as they were, and destination
bit j `f` of what it was and of source bit j, as that was or as an element before had written it. Strings
that overlap with the destination's first linear bit number above the source's are refused, as R175 and
R251 say; that they are tested before any access, and what is left of them again when a broken-off
instruction is executed again, is the model's inference, log entry 22. -/
def Obligations.StringOperationResult : Prop :=
  ∀ (i : Instr) (f : Bool → Bool → Bool) (s : State),
    stringFunction i = some f →
    let n := (s.readReg 28).toNat
    let src := startBit (s.readReg 30) (s.readReg 27)
    let dst := startBit (s.readReg 29) (s.readReg 26)
    (s.OverlapsAbove → exec i s = .refused (.destructiveOverlap src dst)) ∧
    (¬s.OverlapsAbove → (∀ b, s.breakPoint = some b → n ≤ b) →
      (∀ j, j < n → s.MemPlain (bitAddress (bitFrom .up src j)).toNat 4 ∧
        s.MemAll .ram (bitAddress (bitFrom .up dst j)).toNat 4) →
      ∃ t, exec i s = .next t ∧
        CoreEffect s t
          [(30, bitAddress (bitFrom .up src n)), (27, bitOffset (bitFrom .up src n)),
            (29, bitAddress (bitFrom .up dst n)), (26, bitOffset (bitFrom .up dst n)), (28, 0)]
          [] (s.pc + 2) ∧
        StringBits f s t src dst n)

/-- R174, R177-R180: a search that ends before any break-off, by a hit or at the end of its string. On a
hit after k other bits Z = 0, `x[29]` has grown by k and the pointer stands where `SCH_FOUND_POINTER`
says; on a miss Z = 1, `x[29]` has grown by the whole length, `x[28]` = 0 and the pointer is just past the
string. Nothing else changes. -/
def Obligations.SearchResult : Prop :=
  ∀ (i : Instr) (target : Bool) (dir : Direction) (s : State),
    searchFunction i = some (target, dir) →
    let n := (s.readReg 28).toNat
    let src := startBit (s.readReg 30) (s.readReg 27)
    let at' := fun j => bitFrom dir src j
    (∀ j, j < n → (∀ l, l < j → memoryBit s.mem (at' l) ≠ target) →
      s.MemPlain (bitAddress (at' j)).toNat 4) →
    (∀ k, k < n → (∀ b, s.breakPoint = some b → k < b) → memoryBit s.mem (at' k) = target →
      (∀ l, l < k → memoryBit s.mem (at' l) ≠ target) →
      let stand := match s.config.schFoundPointer with
        | .atFound => (k, n - k)
        | .afterFound => (k + 1, n - k - 1)
        | .beforeFound => (k + (2 ^ 35 - 1), n - k)
      ∃ t, exec i s = .next t ∧ t.psw.getLsbD bitZ = false ∧
        Effect s t
          [(30, bitAddress (at' stand.1)), (27, bitOffset (at' stand.1)),
            (28, BitVec.ofNat 32 stand.2), (29, s.readReg 29 + BitVec.ofNat 32 k)]
          [bitZ] (s.pc + 2)) ∧
    ((∀ b, s.breakPoint = some b → n ≤ b) → (∀ l, l < n → memoryBit s.mem (at' l) ≠ target) →
      ∃ t, exec i s = .next t ∧ t.psw.getLsbD bitZ = true ∧
        Effect s t
          [(30, bitAddress (at' n)), (27, bitOffset (at' n)), (28, 0),
            (29, s.readReg 29 + BitVec.ofNat 32 n)]
          [bitZ] (s.pc + 2))

/-- Derived from R176. A bit-string instruction broken off after k of n elements leaves the pc on itself,
every PSW bit as it was, and in the registers and in memory the progress of k elements. One whose pc has
not moved and which is executed again ends exactly as an uninterrupted run does, unless what is left of its
strings is a destructive overlap (R175; wrapping strings can become one, log entry 22). After how many
elements it is broken off is a free choice of the environment, log entry 21. -/
def Obligations.BrokenOffRunResumes : Prop :=
  (∀ (i : Instr) (f : Bool → Bool → Bool) (s : State) (k : Nat),
    stringFunction i = some f → s.breakPoint = some k → s.pc.getLsbD 0 = false →
    let n := (s.readReg 28).toNat
    let src := startBit (s.readReg 30) (s.readReg 27)
    let dst := startBit (s.readReg 29) (s.readReg 26)
    k < n → ¬s.OverlapsAbove →
    (∀ j, j < k → s.MemPlain (bitAddress (bitFrom .up src j)).toNat 4 ∧
      s.MemAll .ram (bitAddress (bitFrom .up dst j)).toNat 4) →
    ∃ t, exec i s = .next t ∧
      CoreEffect s t
        [(30, bitAddress (bitFrom .up src k)), (27, bitOffset (bitFrom .up src k)),
          (29, bitAddress (bitFrom .up dst k)), (26, bitOffset (bitFrom .up dst k)),
          (28, BitVec.ofNat 32 (n - k))]
        [] s.pc ∧
      StringBits f s t src dst k) ∧
  (∀ (i : Instr) (target : Bool) (dir : Direction) (s : State) (k : Nat),
    searchFunction i = some (target, dir) → s.breakPoint = some k → s.pc.getLsbD 0 = false →
    let n := (s.readReg 28).toNat
    let src := startBit (s.readReg 30) (s.readReg 27)
    k < n → (∀ l, l < k → memoryBit s.mem (bitFrom dir src l) ≠ target) →
    (∀ j, j < k → s.MemPlain (bitAddress (bitFrom dir src j)).toNat 4) →
    ∃ t, exec i s = .next t ∧
      Effect s t
        [(30, bitAddress (bitFrom dir src k)), (27, bitOffset (bitFrom dir src k)),
          (28, BitVec.ofNat 32 (n - k)), (29, s.readReg 29 + BitVec.ofNat 32 k)]
        [] s.pc) ∧
  (∀ (i : Instr) (s t : State), (stringFunction i).isSome ∨ (searchFunction i).isSome →
    ((stringFunction i).isSome → ¬t.OverlapsAbove) →
    exec i s = .next t → t.pc = s.pc →
    t.inputs = s.inputs ∧
    exec i { t with inputs := [] } = exec i { s with inputs := [] })
end

