-- ==== Sys2Proof/Laws/Bits.lean ====
section
/-! SUPPORT. The bits of a PSW after the updates of Machine/Flags.lean, one lemma per update that says
every bit of the result. -/

namespace Sys2Proof.Machine

/-- Bit `m` after bit `n` is made `b`. -/
theorem getLsbD_setBit (v : Word) (n m : Nat) (b : Bool) :
    (setBit v n b).getLsbD m = if m = n ∧ m < 32 then b else v.getLsbD m := by
  unfold setBit
  by_cases hm : m < 32
  · by_cases hn : m = n
    · subst hn
      cases b <;> simp [hm]
    · have hs : (1#32 <<< n).getLsbD m = false := by
        simp only [BitVec.getLsbD_shiftLeft, BitVec.getLsbD_one]
        by_cases hlt : m < n
        · simp [hlt]
        · have : m - n ≠ 0 := by omega
          simp [this]
      cases b <;> simp [-BitVec.getLsbD_eq_getElem, -BitVec.getLsbD_shiftLeft, hm, hn, hs]
  · have h1 : ∀ w : Word, w.getLsbD m = false := fun w => BitVec.getLsbD_of_ge w m (by omega)
    simp [-BitVec.getLsbD_eq_getElem, h1, hm]

/-- The same, for a bit below 32. -/
theorem getElem_setBit (v : Word) (n m : Nat) (b : Bool) (h : m < 32) :
    (setBit v n b)[m] = if m = n then b else v[m] := by
  have := getLsbD_setBit v n m b
  simpa only [BitVec.getLsbD_eq_getElem h, h, and_true] using this

/-- The written bit itself. -/
@[simp] theorem getElem_setBit_same (v : Word) (n : Nat) (b : Bool) (h : n < 32) :
    (setBit v n b)[n] = b := by
  simp [getElem_setBit]

/-- Every other bit. -/
theorem getLsbD_setBit_other (v : Word) (n m : Nat) (b : Bool) (h : m ≠ n) :
    (setBit v n b).getLsbD m = v.getLsbD m := by
  rw [getLsbD_setBit, if_neg (fun c => h c.1)]

/-- Every bit after the four flags are replaced. -/
theorem getLsbD_withFlags (psw : Word) (f : Flags) (m : Nat) :
    (withFlags psw f).getLsbD m =
      if m = 0 then f.z else if m = 1 then f.s else if m = 2 then f.ov else if m = 3 then f.cy
      else psw.getLsbD m := by
  simp only [withFlags, getLsbD_setBit, bitZ, bitS, bitOV, bitCY]
  rcases m with _ | _ | _ | _ | m <;> simp [-BitVec.getLsbD_eq_getElem]

/-- Flag Z. -/
@[simp] theorem getElem_withFlags_z (psw : Word) (f : Flags) : (withFlags psw f)[0] = f.z :=
  getLsbD_withFlags psw f 0

/-- Flag S. -/
@[simp] theorem getElem_withFlags_s (psw : Word) (f : Flags) : (withFlags psw f)[1] = f.s :=
  getLsbD_withFlags psw f 1

/-- Flag OV. -/
@[simp] theorem getElem_withFlags_ov (psw : Word) (f : Flags) : (withFlags psw f)[2] = f.ov :=
  getLsbD_withFlags psw f 2

/-- Flag CY. -/
@[simp] theorem getElem_withFlags_cy (psw : Word) (f : Flags) : (withFlags psw f)[3] = f.cy :=
  getLsbD_withFlags psw f 3

/-- A bit that is no condition flag. -/
theorem getLsbD_withFlags_other (psw : Word) (f : Flags) (m : Nat) (h : 4 ≤ m) :
    (withFlags psw f).getLsbD m = psw.getLsbD m := by
  rw [getLsbD_withFlags, if_neg (by omega), if_neg (by omega), if_neg (by omega), if_neg (by omega)]

/-- The four flags read back. -/
@[simp] theorem flagsOf_withFlags (psw : Word) (f : Flags) : flagsOf (withFlags psw f) = f := by
  simp [flagsOf, bitZ, bitS, bitOV, bitCY]

/-- The level read back. -/
@[simp] theorem levelOf_withLevel (psw : Word) (n : BitVec 4) : levelOf (withLevel psw n) = n := by
  apply BitVec.eq_of_getLsbD_eq
  intro i hi
  have h : i = 0 ∨ i = 1 ∨ i = 2 ∨ i = 3 := by omega
  unfold levelOf withLevel
  rcases h with rfl | rfl | rfl | rfl <;> simp

/-- Every bit outside the level is kept. -/
theorem getLsbD_withLevel_other (psw : Word) (n : BitVec 4) (m : Nat) (h : m < 16 ∨ 20 ≤ m) :
    (withLevel psw n).getLsbD m = psw.getLsbD m := by
  by_cases hm : m < 32
  · unfold withLevel
    have h' : m ∈ (List.range 16 ++ (List.range 12).map (· + 20)) := by
      simp only [List.mem_append, List.mem_range, List.mem_map]
      rcases h with h | h
      · exact .inl h
      · exact .inr ⟨m - 20, by omega, by omega⟩
    simp only [List.range, List.range.loop, List.map, List.cons_append, List.nil_append,
      List.mem_cons, List.not_mem_nil, or_false] at h'
    rcases h' with rfl | rfl | rfl | rfl | rfl | rfl | rfl | rfl | rfl | rfl | rfl | rfl | rfl |
      rfl | rfl | rfl | rfl | rfl | rfl | rfl | rfl | rfl | rfl | rfl | rfl | rfl | rfl | rfl <;> simp
  · simp [BitVec.getLsbD_of_ge _ m (by omega : 32 ≤ m)]

/-- Bit 0 of an address forced to be even. -/
@[simp] theorem getLsbD_even (v : Word) : (v &&& 0xFFFFFFFE#32).getLsbD 0 = false := by
  simp

/-- Forcing twice is forcing once. -/
@[simp] theorem even_even (v : Word) : v &&& 0xFFFFFFFE#32 &&& 0xFFFFFFFE#32 = v &&& 0xFFFFFFFE#32 := by
  rw [BitVec.and_assoc]; rfl

/-- A value under the PSW mask keeps to it. -/
@[simp] theorem pswMask_pswMask (v : Word) : v &&& pswMask &&& pswMask = v &&& pswMask := by
  rw [BitVec.and_assoc]; rfl

/-! ## The PSW mask (R20) -/

/-- A value keeps to the PSW mask when its reserved bits, 10, 11 and 20-31, are 0. -/
theorem pswMask_iff (v : Word) : v &&& pswMask = v ↔
    ∀ n, (n = 10 ∨ n = 11 ∨ 20 ≤ n) → v.getLsbD n = false := by
  have key : ∀ j : Fin 32, pswMask.getLsbD j.val =
      !(decide (j.val = 10 ∨ j.val = 11 ∨ 20 ≤ j.val)) := by decide
  constructor
  · intro h n hn
    rw [← h, BitVec.getLsbD_and]
    by_cases hm : n < 32
    · rw [key ⟨n, hm⟩]; simp [hn]
    · simp [BitVec.getLsbD_of_ge _ _ (Nat.le_of_not_lt hm)]
  · intro h
    apply BitVec.eq_of_getLsbD_eq
    intro i hi
    rw [BitVec.getLsbD_and, key ⟨i, hi⟩]
    by_cases c : i = 10 ∨ i = 11 ∨ 20 ≤ i
    · simp only [h i c, Bool.false_and]
    · simp [c]

/-- Writing a bit that is not reserved keeps to the mask. -/
theorem pswMask_setBit {v : Word} {n : Nat} {b : Bool} (h : v &&& pswMask = v)
    (hn : n ≠ 10 ∧ n ≠ 11 ∧ n < 20) : setBit v n b &&& pswMask = setBit v n b :=
  (pswMask_iff _).mpr fun m hm => by
    rw [getLsbD_setBit_other _ _ _ _ (by omega)]
    exact (pswMask_iff _).mp h m hm

end Sys2Proof.Machine
end

