-- ==== Sys2Proof/Laws/Memory.lean ====
section
/-! SUPPORT. The laws of a space of bytes: what a byte reads as after a write, that every write keeps
the canonical form, and what several bytes read as. -/

namespace Sys2Proof.Machine

/-! ## One byte -/

@[simp] theorem readByte_nil (a : Nat) : readByte [] a = unlistedByte := rfl

theorem readByte_cons (x : Nat) (b : Byte) (t : Memory) (a : Nat) :
    readByte ((x, b) :: t) a = if x = a then b else readByte t a := rfl

/-- An address with no entry reads as an unlisted one. -/
theorem readByte_of_not_mem (m : Memory) (a : Nat) (h : ∀ c ∈ m, c.1 ≠ a) :
    readByte m a = unlistedByte := by
  induction m with
  | nil => rfl
  | cons c t ih =>
    rw [readByte_cons, if_neg (h c (by simp)), ih fun d hd => h d (by simp [hd])]

/-- The byte at an address after the entries of another address are removed. -/
theorem readByte_filter (m : Memory) (a c : Nat) :
    readByte (m.filter fun d => d.1 != a) c = if c = a then unlistedByte else readByte m c := by
  induction m with
  | nil => simp
  | cons d t ih =>
    obtain ⟨x, b⟩ := d
    by_cases hx : x = a
    · rw [List.filter_cons_of_neg (by simp [hx]), ih, readByte_cons]
      by_cases hc : c = a
      · simp [hc]
      · simp [hc, show x ≠ c by omega]
    · rw [List.filter_cons_of_pos (by simp [hx]), readByte_cons, ih, readByte_cons]
      by_cases hc : c = a
      · simp [hc, hx]
      · simp [hc]

/-- The byte at an address after a cell is put into a list that has none of its address. -/
theorem readByte_insertCell (m : Memory) (a : Nat) (b : Byte) (c : Nat) (h : ∀ d ∈ m, d.1 ≠ a) :
    readByte (insertCell m a b) c = if c = a then b else readByte m c := by
  induction m with
  | nil => simp [insertCell, readByte_cons, eq_comm]
  | cons d t ih =>
    obtain ⟨x, e⟩ := d
    have hx : x ≠ a := h (x, e) (by simp)
    unfold insertCell
    split
    · simp only [readByte_cons, eq_comm]
    · rw [readByte_cons, ih fun d hd => h d (by simp [hd]), readByte_cons]
      by_cases hc : c = a
      · simp [hc, hx]
      · simp [hc]

/-- Read after write: the byte written there, every other byte as it was. -/
theorem readByte_writeByte (m : Memory) (a : Nat) (b : Byte) (c : Nat) :
    readByte (writeByte m a b) c = if c = a then b else readByte m c := by
  unfold writeByte
  split
  · rename_i hb
    rw [readByte_filter, hb]
  · rw [readByte_insertCell _ _ _ _ (by simp), readByte_filter]
    split <;> rfl

/-! ## The canonical form -/

theorem wf_nil : Memory.wf [] := by simp [Memory.wf]

theorem wf_filter (m : Memory) (p : Host.Cell → Bool) (h : Memory.wf m) : Memory.wf (m.filter p) :=
  ⟨h.1.filter p, fun c hc => h.2 c (List.mem_of_mem_filter hc)⟩

theorem mem_insertCell (m : Memory) (a : Nat) (b : Byte) (c : Host.Cell) :
    c ∈ insertCell m a b ↔ c = (a, b) ∨ c ∈ m := by
  induction m with
  | nil => simp [insertCell]
  | cons d t ih =>
    obtain ⟨x, e⟩ := d
    unfold insertCell
    split
    · simp
    · simp only [List.mem_cons, ih]
      tauto

theorem wf_insertCell (m : Memory) (a : Nat) (b : Byte) (h : Memory.wf m) (ha : a < 2 ^ 32)
    (hb : b ≠ unlistedByte) (hn : ∀ c ∈ m, c.1 ≠ a) : Memory.wf (insertCell m a b) := by
  refine ⟨?_, fun c hc => ?_⟩
  · have h1 := h.1
    clear h
    induction m with
    | nil => simp [insertCell]
    | cons d t ih =>
      obtain ⟨x, e⟩ := d
      have hx : x ≠ a := hn (x, e) (by simp)
      have h2 := List.pairwise_cons.mp h1
      unfold insertCell
      split
      · rename_i hlt
        refine List.pairwise_cons.mpr ⟨fun c hc => ?_, h1⟩
        rcases List.mem_cons.mp hc with rfl | hc
        · exact hlt
        · exact Nat.lt_trans hlt (h2.1 c hc)
      · rename_i hge
        refine List.pairwise_cons.mpr ⟨fun c hc => ?_, ih (fun c hc => hn c (by simp [hc])) h2.2⟩
        rcases (mem_insertCell t a b c).mp hc with rfl | hc
        · show x < a
          omega
        · exact h2.1 c hc
  · rcases (mem_insertCell m a b c).mp hc with rfl | hc
    · exact ⟨hb, ha⟩
    · exact h.2 c hc

/-- A write at an address of the space keeps the canonical form. -/
theorem wf_writeByte (m : Memory) (a : Nat) (b : Byte) (h : Memory.wf m) (ha : a < 2 ^ 32) :
    Memory.wf (writeByte m a b) := by
  unfold writeByte
  split
  · exact wf_filter m _ h
  · rename_i hb
    exact wf_insertCell _ a b (wf_filter m _ h) ha hb (by simp)

/-- Canonical spaces that read alike are equal. -/
theorem ext_of_wf (m n : Memory) (hm : Memory.wf m) (hn : Memory.wf n)
    (h : ∀ a, readByte m a = readByte n a) : m = n := by
  have low : ∀ (x : Nat) (b : Byte) (t : Memory), Memory.wf ((x, b) :: t) →
      ∀ a, a ≤ x → ∀ c ∈ t, c.1 ≠ a := fun x b t hw a ha c hc => by
    have := (List.pairwise_cons.mp hw.1).1 c hc
    have h2 : x < c.1 := this
    omega
  have tail : ∀ (c : Host.Cell) (t : Memory), Memory.wf (c :: t) → Memory.wf t := fun c t hw =>
    ⟨(List.pairwise_cons.mp hw.1).2, fun d hd => hw.2 d (by simp [hd])⟩
  induction m generalizing n with
  | nil =>
    cases n with
    | nil => rfl
    | cons d t =>
      obtain ⟨y, e⟩ := d
      have := h y
      rw [readByte_cons, if_pos rfl, readByte_nil] at this
      exact absurd this.symm (hn.2 (y, e) (by simp)).1
  | cons c m ih =>
    obtain ⟨x, b⟩ := c
    have hb : b ≠ unlistedByte := (hm.2 (x, b) (by simp)).1
    cases n with
    | nil =>
      have := h x
      rw [readByte_cons, if_pos rfl, readByte_nil] at this
      exact absurd this hb
    | cons d t =>
      obtain ⟨y, e⟩ := d
      have he : e ≠ unlistedByte := (hn.2 (y, e) (by simp)).1
      have hxy : x = y := by
        rcases Nat.lt_trichotomy x y with hlt | heq | hgt
        · have := h x
          rw [readByte_cons, if_pos rfl, readByte_cons, if_neg (by omega),
            readByte_of_not_mem t x (low y e t hn x (by omega))] at this
          exact absurd this hb
        · exact heq
        · have := h y
          rw [readByte_cons, if_neg (by omega), readByte_of_not_mem m y (low x b m hm y (by omega)),
            readByte_cons, if_pos rfl] at this
          exact absurd this.symm he
      subst hxy
      have hbe : b = e := by
        have := h x
        rwa [readByte_cons, if_pos rfl, readByte_cons, if_pos rfl] at this
      have hrest : m = t := by
        refine ih t (tail _ _ hm) (tail _ _ hn) fun a => ?_
        by_cases ha : a = x
        · rw [readByte_of_not_mem m a (low x b m hm a (by omega)),
            readByte_of_not_mem t a (low x e t hn a (by omega))]
        · have := h a
          rwa [readByte_cons, if_neg (by omega), readByte_cons, if_neg (by omega)] at this
      rw [hbe, hrest]

/-! ## Several bytes (R34, R35) -/

/-- Every bit of a wide read. -/
theorem getLsbD_readBytes (m : Memory) (n a k : Nat) :
    (readBytes m a n).getLsbD k =
      (decide (k < 8 * n ∧ k < 32) && (readByte m (a + k / 8)).getLsbD (k % 8)) := by
  induction n generalizing a k with
  | zero => simp [readBytes]
  | succ n ih =>
    simp only [readBytes, BitVec.getLsbD_or, BitVec.getLsbD_shiftLeft, BitVec.truncate_eq_setWidth,
      BitVec.getLsbD_setWidth, ih]
    by_cases h32 : k < 32
    · by_cases h8 : k < 8
      · have e1 : k / 8 = 0 := by omega
        have e2 : k % 8 = k := by omega
        simp [-BitVec.getLsbD_eq_getElem, h32, h8, e1, e2]
        intro
        omega
      · have e1 : a + 1 + (k - 8) / 8 = a + k / 8 := by omega
        have e2 : (k - 8) % 8 = k % 8 := by omega
        have e3 : (readByte m a).getLsbD k = false := BitVec.getLsbD_of_ge _ _ (by omega)
        have e4 : k - 8 < 8 * n ↔ k < 8 * (n + 1) := by omega
        have e5 : k - 8 < 32 := by omega
        simp [-BitVec.getLsbD_eq_getElem, h32, h8, e1, e2, e3, e4, e5]
    · simp [-BitVec.getLsbD_eq_getElem, h32]

/-- A wide read depends only on its bytes. -/
theorem readBytes_congr (m m' : Memory) (a n : Nat)
    (h : ∀ k, k < n → readByte m' (a + k) = readByte m (a + k)) :
    readBytes m' a n = readBytes m a n := by
  induction n generalizing a with
  | zero => rfl
  | succ n ih =>
    simp only [readBytes]
    have hrest : ∀ k, k < n → readByte m' (a + 1 + k) = readByte m (a + 1 + k) := fun k hk => by
      have e : a + 1 + k = a + (k + 1) := by omega
      rw [e]
      exact h (k + 1) (by omega)
    rw [ih (a + 1) hrest]
    have := h 0 (by omega)
    rw [Nat.add_zero] at this
    rw [this]

/-- Every byte after a wide write: byte `k` of the value at `a + k`, the rest as it was. -/
theorem readByte_writeBytes (m : Memory) (n a : Nat) (v : Word) (c : Nat) :
    readByte (writeBytes m a n v) c =
      if a ≤ c ∧ c < a + n then v.extractLsb' (8 * (c - a)) 8 else readByte m c := by
  induction n generalizing m a v with
  | zero => simp [writeBytes]
  | succ n ih =>
    simp only [writeBytes]
    rw [ih, readByte_writeByte]
    by_cases h1 : c = a
    · subst h1
      simp
    · by_cases h2 : a ≤ c ∧ c < a + (n + 1)
      · rw [if_pos (by omega), if_pos h2]
        apply BitVec.eq_of_getLsbD_eq
        intro i hi
        have e : 8 + (8 * (c - (a + 1)) + i) = 8 * (c - a) + i := by omega
        simp [-BitVec.getLsbD_eq_getElem, hi, e]
      · rw [if_neg (by omega), if_neg h1, if_neg h2]

/-- A wide write inside the space keeps the canonical form. -/
theorem wf_writeBytes (m : Memory) (n a : Nat) (v : Word) (h : Memory.wf m) (ha : a + n ≤ 2 ^ 32) :
    Memory.wf (writeBytes m a n v) := by
  induction n generalizing m a v with
  | zero => exact h
  | succ n ih => exact ih _ _ _ (wf_writeByte m a _ h (by omega)) (by omega)

/-- The word just written reads back. -/
theorem readBytes_writeBytes_word (m : Memory) (a : Nat) (v : Word) :
    readBytes (writeBytes m a 4 v) a 4 = v := by
  apply BitVec.eq_of_getLsbD_eq
  intro i hi
  have h1 : a ≤ a + i / 8 ∧ a + i / 8 < a + 4 := by omega
  have h2 : 8 * (a + i / 8 - a) + i % 8 = i := by omega
  have h3 : i % 8 < 8 := by omega
  rw [getLsbD_readBytes, readByte_writeBytes, if_pos h1]
  simp only [BitVec.getLsbD_extractLsb', h2, h3]
  simp [-BitVec.getLsbD_eq_getElem, hi]

/-- A wide read away from a wide write reads what it read before. -/
theorem readBytes_writeBytes_other (m : Memory) (a n c k : Nat) (v : Word)
    (h : c + k ≤ a ∨ a + n ≤ c) : readBytes (writeBytes m a n v) c k = readBytes m c k := by
  refine readBytes_congr _ _ _ _ fun j hj => ?_
  rw [readByte_writeBytes, if_neg (by omega)]

/-- Writing back the word that is there changes no byte. -/
theorem readByte_writeBytes_same (m : Memory) (a c : Nat) :
    readByte (writeBytes m a 4 (readBytes m a 4)) c = readByte m c := by
  rw [readByte_writeBytes]
  split
  · rename_i h
    apply BitVec.eq_of_getLsbD_eq
    intro i hi
    have h1 : (8 * (c - a) + i) / 8 = c - a := by omega
    have h2 : (8 * (c - a) + i) % 8 = i := by omega
    have h3 : a + (c - a) = c := by omega
    rw [BitVec.getLsbD_extractLsb', getLsbD_readBytes, h1, h2, h3]
    have h4 : 8 * (c - a) + i < 32 := by omega
    simp [-BitVec.getLsbD_eq_getElem, hi, h4]
  · rfl

/-! ## Bytes from several places (R43) -/

theorem gatherBytes_congr {f g : Nat → Byte} {n : Nat} (h : ∀ k, k < n → f k = g k) :
    gatherBytes f n = gatherBytes g n := by
  induction n generalizing f g with
  | zero => rfl
  | succ n ih =>
    rw [gatherBytes, gatherBytes, h 0 (by omega), ih fun k hk => h (k + 1) (by omega)]

/-- The bytes of one space gathered are a wide read. -/
theorem gatherBytes_readByte (m : Memory) (a n : Nat) :
    gatherBytes (fun k => readByte m (a + k)) n = readBytes m a n := by
  induction n generalizing a with
  | zero => rfl
  | succ n ih =>
    rw [gatherBytes, readBytes, ← ih (a + 1), Nat.add_zero]
    congr 2
    exact gatherBytes_congr fun k _ => by rw [Nat.add_assoc, Nat.add_comm 1 k]

/-- Every bit of gathered bytes. -/
theorem getLsbD_gatherBytes (f : Nat → Byte) (n k : Nat) :
    (gatherBytes f n).getLsbD k = (decide (k < 8 * n ∧ k < 32) && (f (k / 8)).getLsbD (k % 8)) := by
  induction n generalizing f k with
  | zero => simp [gatherBytes]
  | succ n ih =>
    simp only [gatherBytes, BitVec.getLsbD_or, BitVec.getLsbD_shiftLeft, BitVec.truncate_eq_setWidth,
      BitVec.getLsbD_setWidth, ih]
    by_cases h32 : k < 32
    · by_cases h8 : k < 8
      · have e1 : k / 8 = 0 := by omega
        have e2 : k % 8 = k := by omega
        simp [-BitVec.getLsbD_eq_getElem, h32, h8, e1, e2]
        intro
        omega
      · have e1 : (k - 8) / 8 + 1 = k / 8 := by omega
        have e2 : (k - 8) % 8 = k % 8 := by omega
        have e3 : (f 0).getLsbD k = false := BitVec.getLsbD_of_ge _ _ (by omega)
        have e4 : k - 8 < 8 * n ↔ k < 8 * (n + 1) := by omega
        have e5 : k - 8 < 32 := by omega
        simp [-BitVec.getLsbD_eq_getElem, h32, h8, e1, e2, e3, e4, e5]
    · simp [-BitVec.getLsbD_eq_getElem, h32]

/-- The bytes of one word gathered are the low bytes of the word. -/
theorem gatherBytes_extract (v : Word) (n : Nat) :
    gatherBytes (fun k => v.extractLsb' (8 * k) 8) n = (v.extractLsb' 0 (8 * n)).setWidth 32 := by
  apply BitVec.eq_of_getLsbD_eq
  intro i hi
  have e : 8 * (i / 8) + i % 8 = i := by omega
  rw [getLsbD_gatherBytes, BitVec.getLsbD_setWidth, BitVec.getLsbD_extractLsb',
    BitVec.getLsbD_extractLsb', e, decide_eq_true (show i % 8 < 8 by omega)]
  simp [-BitVec.getLsbD_eq_getElem, hi]

/-- Every byte after a write to some of the addresses. -/
theorem readByte_writeBytesWhere (p : Nat → Bool) (m : Memory) (n a : Nat) (v : Word) (c : Nat) :
    readByte (writeBytesWhere p m a n v) c =
      if a ≤ c ∧ c < a + n ∧ p c = true then v.extractLsb' (8 * (c - a)) 8 else readByte m c := by
  induction n generalizing m a v with
  | zero =>
    rw [if_neg (by omega)]
    rfl
  | succ n ih =>
    simp only [writeBytesWhere]
    rw [ih]
    by_cases h1 : c = a
    · subst h1
      rw [if_neg (by omega)]
      by_cases hp : p c = true
      · rw [if_pos hp, readByte_writeByte, if_pos rfl, if_pos ⟨by omega, by omega, hp⟩]
        simp
      · rw [if_neg hp, if_neg fun h => hp h.2.2]
    · by_cases h2 : a ≤ c ∧ c < a + (n + 1) ∧ p c = true
      · rw [if_pos ⟨by omega, by omega, h2.2.2⟩, if_pos h2]
        apply BitVec.eq_of_getLsbD_eq
        intro i hi
        have e : 8 + (8 * (c - (a + 1)) + i) = 8 * (c - a) + i := by omega
        simp [-BitVec.getLsbD_eq_getElem, hi, e]
      · rw [if_neg fun h => h2 ⟨by omega, by omega, h.2.2⟩, if_neg h2]
        split
        · rw [readByte_writeByte, if_neg h1]
        · rfl

/-- A write to some of the addresses keeps the canonical form. -/
theorem wf_writeBytesWhere (p : Nat → Bool) (m : Memory) (n a : Nat) (v : Word) (h : Memory.wf m)
    (ha : a + n ≤ 2 ^ 32) : Memory.wf (writeBytesWhere p m a n v) := by
  induction n generalizing m a v with
  | zero => exact h
  | succ n ih =>
    refine ih _ _ _ ?_ (by omega)
    split
    · exact wf_writeByte m a _ h (by omega)
    · exact h

/-- A write to all of the addresses is a wide write. -/
theorem writeBytesWhere_all {p : Nat → Bool} {a n : Nat} (h : ∀ k, k < n → p (a + k) = true)
    (m : Memory) (v : Word) : writeBytesWhere p m a n v = writeBytes m a n v := by
  induction n generalizing m a v with
  | zero => rfl
  | succ n ih =>
    have h0 := h 0 (by omega)
    rw [Nat.add_zero] at h0
    rw [writeBytesWhere, writeBytes, if_pos h0, ih fun k hk => by
      rw [Nat.add_assoc, Nat.add_comm 1 k]
      exact h (k + 1) (by omega)]

/-- A write to none of the addresses is no write. -/
theorem writeBytesWhere_none {p : Nat → Bool} {a n : Nat} (h : ∀ k, k < n → p (a + k) = false)
    (m : Memory) (v : Word) : writeBytesWhere p m a n v = m := by
  induction n generalizing m a v with
  | zero => rfl
  | succ n ih =>
    have h0 := h 0 (by omega)
    rw [Nat.add_zero] at h0
    rw [writeBytesWhere, if_neg (by simp [h0]), ih fun k hk => by
      rw [Nat.add_assoc, Nat.add_comm 1 k]
      exact h (k + 1) (by omega)]

end Sys2Proof.Machine
end

