-- ==== Sys2Proof/Laws/State.lean ====
section
/-! SUPPORT. What each update of the state leaves alone and what it sets: one lemma per field per
update, so that no later proof unfolds a record update. -/

namespace Sys2Proof.Machine

/-! ## writeReg -/

@[simp] theorem writeReg_pc (s : State) (i : RegIdx) (v : Word) : (s.writeReg i v).pc = s.pc := by
  unfold State.writeReg; split <;> rfl
@[simp] theorem writeReg_eipc (s : State) (i : RegIdx) (v : Word) : (s.writeReg i v).eipc = s.eipc := by
  unfold State.writeReg; split <;> rfl
@[simp] theorem writeReg_eipsw (s : State) (i : RegIdx) (v : Word) : (s.writeReg i v).eipsw = s.eipsw := by
  unfold State.writeReg; split <;> rfl
@[simp] theorem writeReg_fepc (s : State) (i : RegIdx) (v : Word) : (s.writeReg i v).fepc = s.fepc := by
  unfold State.writeReg; split <;> rfl
@[simp] theorem writeReg_fepsw (s : State) (i : RegIdx) (v : Word) : (s.writeReg i v).fepsw = s.fepsw := by
  unfold State.writeReg; split <;> rfl
@[simp] theorem writeReg_ecr (s : State) (i : RegIdx) (v : Word) : (s.writeReg i v).ecr = s.ecr := by
  unfold State.writeReg; split <;> rfl
@[simp] theorem writeReg_psw (s : State) (i : RegIdx) (v : Word) : (s.writeReg i v).psw = s.psw := by
  unfold State.writeReg; split <;> rfl
@[simp] theorem writeReg_pir (s : State) (i : RegIdx) (v : Word) : (s.writeReg i v).pir = s.pir := by
  unfold State.writeReg; split <;> rfl
@[simp] theorem writeReg_tkcw (s : State) (i : RegIdx) (v : Word) : (s.writeReg i v).tkcw = s.tkcw := by
  unfold State.writeReg; split <;> rfl
@[simp] theorem writeReg_chcw (s : State) (i : RegIdx) (v : Word) : (s.writeReg i v).chcw = s.chcw := by
  unfold State.writeReg; split <;> rfl
@[simp] theorem writeReg_adtre (s : State) (i : RegIdx) (v : Word) : (s.writeReg i v).adtre = s.adtre := by
  unfold State.writeReg; split <;> rfl
@[simp] theorem writeReg_mem (s : State) (i : RegIdx) (v : Word) : (s.writeReg i v).mem = s.mem := by
  unfold State.writeReg; split <;> rfl
@[simp] theorem writeReg_io (s : State) (i : RegIdx) (v : Word) : (s.writeReg i v).io = s.io := by
  unfold State.writeReg; split <;> rfl
@[simp] theorem writeReg_halted (s : State) (i : RegIdx) (v : Word) : (s.writeReg i v).halted = s.halted := by
  unfold State.writeReg; split <;> rfl
@[simp] theorem writeReg_stopped (s : State) (i : RegIdx) (v :
    Word) : (s.writeReg i v).stopped = s.stopped := by
  unfold State.writeReg; split <;> rfl
@[simp] theorem writeReg_inputs (s : State) (i : RegIdx) (v : Word) : (s.writeReg i v).inputs = s.inputs := by
  unfold State.writeReg; split <;> rfl
@[simp] theorem writeReg_icache (s : State) (i : RegIdx) (v : Word) : (s.writeReg i v).icache = s.icache := by
  unfold State.writeReg; split <;> rfl
@[simp] theorem writeReg_deviceLog (s : State) (i : RegIdx) (v :
    Word) : (s.writeReg i v).deviceLog = s.deviceLog := by
  unfold State.writeReg; split <;> rfl
@[simp] theorem writeReg_draws (s : State) (i : RegIdx) (v : Word) : (s.writeReg i v).draws = s.draws := by
  unfold State.writeReg; split <;> rfl
@[simp] theorem writeReg_config (s : State) (i : RegIdx) (v : Word) : (s.writeReg i v).config = s.config := by
  unfold State.writeReg; split <;> rfl

/-! ## setPc -/

@[simp] theorem setPc_regs (s : State) (t : Word) : (s.setPc t).regs = s.regs := rfl
@[simp] theorem setPc_eipc (s : State) (t : Word) : (s.setPc t).eipc = s.eipc := rfl
@[simp] theorem setPc_eipsw (s : State) (t : Word) : (s.setPc t).eipsw = s.eipsw := rfl
@[simp] theorem setPc_fepc (s : State) (t : Word) : (s.setPc t).fepc = s.fepc := rfl
@[simp] theorem setPc_fepsw (s : State) (t : Word) : (s.setPc t).fepsw = s.fepsw := rfl
@[simp] theorem setPc_ecr (s : State) (t : Word) : (s.setPc t).ecr = s.ecr := rfl
@[simp] theorem setPc_psw (s : State) (t : Word) : (s.setPc t).psw = s.psw := rfl
@[simp] theorem setPc_pir (s : State) (t : Word) : (s.setPc t).pir = s.pir := rfl
@[simp] theorem setPc_tkcw (s : State) (t : Word) : (s.setPc t).tkcw = s.tkcw := rfl
@[simp] theorem setPc_chcw (s : State) (t : Word) : (s.setPc t).chcw = s.chcw := rfl
@[simp] theorem setPc_adtre (s : State) (t : Word) : (s.setPc t).adtre = s.adtre := rfl
@[simp] theorem setPc_mem (s : State) (t : Word) : (s.setPc t).mem = s.mem := rfl
@[simp] theorem setPc_io (s : State) (t : Word) : (s.setPc t).io = s.io := rfl
@[simp] theorem setPc_halted (s : State) (t : Word) : (s.setPc t).halted = s.halted := rfl
@[simp] theorem setPc_stopped (s : State) (t : Word) : (s.setPc t).stopped = s.stopped := rfl
@[simp] theorem setPc_inputs (s : State) (t : Word) : (s.setPc t).inputs = s.inputs := rfl
@[simp] theorem setPc_icache (s : State) (t : Word) : (s.setPc t).icache = s.icache := rfl
@[simp] theorem setPc_deviceLog (s : State) (t : Word) : (s.setPc t).deviceLog = s.deviceLog := rfl
@[simp] theorem setPc_draws (s : State) (t : Word) : (s.setPc t).draws = s.draws := rfl
@[simp] theorem setPc_config (s : State) (t : Word) : (s.setPc t).config = s.config := rfl

/-! ## advance -/

@[simp] theorem advance_regs (s : State) (n : Word) : (s.advance n).regs = s.regs := rfl
@[simp] theorem advance_eipc (s : State) (n : Word) : (s.advance n).eipc = s.eipc := rfl
@[simp] theorem advance_eipsw (s : State) (n : Word) : (s.advance n).eipsw = s.eipsw := rfl
@[simp] theorem advance_fepc (s : State) (n : Word) : (s.advance n).fepc = s.fepc := rfl
@[simp] theorem advance_fepsw (s : State) (n : Word) : (s.advance n).fepsw = s.fepsw := rfl
@[simp] theorem advance_ecr (s : State) (n : Word) : (s.advance n).ecr = s.ecr := rfl
@[simp] theorem advance_psw (s : State) (n : Word) : (s.advance n).psw = s.psw := rfl
@[simp] theorem advance_pir (s : State) (n : Word) : (s.advance n).pir = s.pir := rfl
@[simp] theorem advance_tkcw (s : State) (n : Word) : (s.advance n).tkcw = s.tkcw := rfl
@[simp] theorem advance_chcw (s : State) (n : Word) : (s.advance n).chcw = s.chcw := rfl
@[simp] theorem advance_adtre (s : State) (n : Word) : (s.advance n).adtre = s.adtre := rfl
@[simp] theorem advance_mem (s : State) (n : Word) : (s.advance n).mem = s.mem := rfl
@[simp] theorem advance_io (s : State) (n : Word) : (s.advance n).io = s.io := rfl
@[simp] theorem advance_halted (s : State) (n : Word) : (s.advance n).halted = s.halted := rfl
@[simp] theorem advance_stopped (s : State) (n : Word) : (s.advance n).stopped = s.stopped := rfl
@[simp] theorem advance_inputs (s : State) (n : Word) : (s.advance n).inputs = s.inputs := rfl
@[simp] theorem advance_icache (s : State) (n : Word) : (s.advance n).icache = s.icache := rfl
@[simp] theorem advance_deviceLog (s : State) (n : Word) : (s.advance n).deviceLog = s.deviceLog := rfl
@[simp] theorem advance_draws (s : State) (n : Word) : (s.advance n).draws = s.draws := rfl
@[simp] theorem advance_config (s : State) (n : Word) : (s.advance n).config = s.config := rfl

/-! ## setFlags -/

@[simp] theorem setFlags_regs (s : State) (f : Flags) : (s.setFlags f).regs = s.regs := rfl
@[simp] theorem setFlags_pc (s : State) (f : Flags) : (s.setFlags f).pc = s.pc := rfl
@[simp] theorem setFlags_eipc (s : State) (f : Flags) : (s.setFlags f).eipc = s.eipc := rfl
@[simp] theorem setFlags_eipsw (s : State) (f : Flags) : (s.setFlags f).eipsw = s.eipsw := rfl
@[simp] theorem setFlags_fepc (s : State) (f : Flags) : (s.setFlags f).fepc = s.fepc := rfl
@[simp] theorem setFlags_fepsw (s : State) (f : Flags) : (s.setFlags f).fepsw = s.fepsw := rfl
@[simp] theorem setFlags_ecr (s : State) (f : Flags) : (s.setFlags f).ecr = s.ecr := rfl
@[simp] theorem setFlags_pir (s : State) (f : Flags) : (s.setFlags f).pir = s.pir := rfl
@[simp] theorem setFlags_tkcw (s : State) (f : Flags) : (s.setFlags f).tkcw = s.tkcw := rfl
@[simp] theorem setFlags_chcw (s : State) (f : Flags) : (s.setFlags f).chcw = s.chcw := rfl
@[simp] theorem setFlags_adtre (s : State) (f : Flags) : (s.setFlags f).adtre = s.adtre := rfl
@[simp] theorem setFlags_mem (s : State) (f : Flags) : (s.setFlags f).mem = s.mem := rfl
@[simp] theorem setFlags_io (s : State) (f : Flags) : (s.setFlags f).io = s.io := rfl
@[simp] theorem setFlags_halted (s : State) (f : Flags) : (s.setFlags f).halted = s.halted := rfl
@[simp] theorem setFlags_stopped (s : State) (f : Flags) : (s.setFlags f).stopped = s.stopped := rfl
@[simp] theorem setFlags_inputs (s : State) (f : Flags) : (s.setFlags f).inputs = s.inputs := rfl
@[simp] theorem setFlags_icache (s : State) (f : Flags) : (s.setFlags f).icache = s.icache := rfl
@[simp] theorem setFlags_deviceLog (s : State) (f : Flags) : (s.setFlags f).deviceLog = s.deviceLog := rfl
@[simp] theorem setFlags_draws (s : State) (f : Flags) : (s.setFlags f).draws = s.draws := rfl
@[simp] theorem setFlags_config (s : State) (f : Flags) : (s.setFlags f).config = s.config := rfl

/-! ## setPswBit -/

@[simp] theorem setPswBit_regs (s : State) (n : Nat) (b : Bool) : (s.setPswBit n b).regs = s.regs := rfl
@[simp] theorem setPswBit_pc (s : State) (n : Nat) (b : Bool) : (s.setPswBit n b).pc = s.pc := rfl
@[simp] theorem setPswBit_eipc (s : State) (n : Nat) (b : Bool) : (s.setPswBit n b).eipc = s.eipc := rfl
@[simp] theorem setPswBit_eipsw (s : State) (n : Nat) (b : Bool) : (s.setPswBit n b).eipsw = s.eipsw := rfl
@[simp] theorem setPswBit_fepc (s : State) (n : Nat) (b : Bool) : (s.setPswBit n b).fepc = s.fepc := rfl
@[simp] theorem setPswBit_fepsw (s : State) (n : Nat) (b : Bool) : (s.setPswBit n b).fepsw = s.fepsw := rfl
@[simp] theorem setPswBit_ecr (s : State) (n : Nat) (b : Bool) : (s.setPswBit n b).ecr = s.ecr := rfl
@[simp] theorem setPswBit_pir (s : State) (n : Nat) (b : Bool) : (s.setPswBit n b).pir = s.pir := rfl
@[simp] theorem setPswBit_tkcw (s : State) (n : Nat) (b : Bool) : (s.setPswBit n b).tkcw = s.tkcw := rfl
@[simp] theorem setPswBit_chcw (s : State) (n : Nat) (b : Bool) : (s.setPswBit n b).chcw = s.chcw := rfl
@[simp] theorem setPswBit_adtre (s : State) (n : Nat) (b : Bool) : (s.setPswBit n b).adtre = s.adtre := rfl
@[simp] theorem setPswBit_mem (s : State) (n : Nat) (b : Bool) : (s.setPswBit n b).mem = s.mem := rfl
@[simp] theorem setPswBit_io (s : State) (n : Nat) (b : Bool) : (s.setPswBit n b).io = s.io := rfl
@[simp] theorem setPswBit_halted (s : State) (n : Nat) (b : Bool) : (s.setPswBit n b).halted = s.halted := rfl
@[simp] theorem setPswBit_stopped (s : State) (n : Nat) (b :
    Bool) : (s.setPswBit n b).stopped = s.stopped := rfl
@[simp] theorem setPswBit_inputs (s : State) (n : Nat) (b : Bool) : (s.setPswBit n b).inputs = s.inputs := rfl
@[simp] theorem setPswBit_icache (s : State) (n : Nat) (b : Bool) : (s.setPswBit n b).icache = s.icache := rfl
@[simp] theorem setPswBit_deviceLog (s : State) (n : Nat) (b :
    Bool) : (s.setPswBit n b).deviceLog = s.deviceLog := rfl
@[simp] theorem setPswBit_draws (s : State) (n : Nat) (b : Bool) : (s.setPswBit n b).draws = s.draws := rfl
@[simp] theorem setPswBit_config (s : State) (n : Nat) (b : Bool) : (s.setPswBit n b).config = s.config := rfl

/-! ## setPsw -/

@[simp] theorem setPsw_regs (s : State) (v : Word) : (s.setPsw v).regs = s.regs := rfl
@[simp] theorem setPsw_pc (s : State) (v : Word) : (s.setPsw v).pc = s.pc := rfl
@[simp] theorem setPsw_eipc (s : State) (v : Word) : (s.setPsw v).eipc = s.eipc := rfl
@[simp] theorem setPsw_eipsw (s : State) (v : Word) : (s.setPsw v).eipsw = s.eipsw := rfl
@[simp] theorem setPsw_fepc (s : State) (v : Word) : (s.setPsw v).fepc = s.fepc := rfl
@[simp] theorem setPsw_fepsw (s : State) (v : Word) : (s.setPsw v).fepsw = s.fepsw := rfl
@[simp] theorem setPsw_ecr (s : State) (v : Word) : (s.setPsw v).ecr = s.ecr := rfl
@[simp] theorem setPsw_pir (s : State) (v : Word) : (s.setPsw v).pir = s.pir := rfl
@[simp] theorem setPsw_tkcw (s : State) (v : Word) : (s.setPsw v).tkcw = s.tkcw := rfl
@[simp] theorem setPsw_chcw (s : State) (v : Word) : (s.setPsw v).chcw = s.chcw := rfl
@[simp] theorem setPsw_adtre (s : State) (v : Word) : (s.setPsw v).adtre = s.adtre := rfl
@[simp] theorem setPsw_mem (s : State) (v : Word) : (s.setPsw v).mem = s.mem := rfl
@[simp] theorem setPsw_io (s : State) (v : Word) : (s.setPsw v).io = s.io := rfl
@[simp] theorem setPsw_halted (s : State) (v : Word) : (s.setPsw v).halted = s.halted := rfl
@[simp] theorem setPsw_stopped (s : State) (v : Word) : (s.setPsw v).stopped = s.stopped := rfl
@[simp] theorem setPsw_inputs (s : State) (v : Word) : (s.setPsw v).inputs = s.inputs := rfl
@[simp] theorem setPsw_icache (s : State) (v : Word) : (s.setPsw v).icache = s.icache := rfl
@[simp] theorem setPsw_deviceLog (s : State) (v : Word) : (s.setPsw v).deviceLog = s.deviceLog := rfl
@[simp] theorem setPsw_draws (s : State) (v : Word) : (s.setPsw v).draws = s.draws := rfl
@[simp] theorem setPsw_config (s : State) (v : Word) : (s.setPsw v).config = s.config := rfl

/-! ## dropSample -/

@[simp] theorem dropSample_regs (s : State) : (s.dropSample).regs = s.regs := rfl
@[simp] theorem dropSample_pc (s : State) : (s.dropSample).pc = s.pc := rfl
@[simp] theorem dropSample_eipc (s : State) : (s.dropSample).eipc = s.eipc := rfl
@[simp] theorem dropSample_eipsw (s : State) : (s.dropSample).eipsw = s.eipsw := rfl
@[simp] theorem dropSample_fepc (s : State) : (s.dropSample).fepc = s.fepc := rfl
@[simp] theorem dropSample_fepsw (s : State) : (s.dropSample).fepsw = s.fepsw := rfl
@[simp] theorem dropSample_ecr (s : State) : (s.dropSample).ecr = s.ecr := rfl
@[simp] theorem dropSample_psw (s : State) : (s.dropSample).psw = s.psw := rfl
@[simp] theorem dropSample_pir (s : State) : (s.dropSample).pir = s.pir := rfl
@[simp] theorem dropSample_tkcw (s : State) : (s.dropSample).tkcw = s.tkcw := rfl
@[simp] theorem dropSample_chcw (s : State) : (s.dropSample).chcw = s.chcw := rfl
@[simp] theorem dropSample_adtre (s : State) : (s.dropSample).adtre = s.adtre := rfl
@[simp] theorem dropSample_mem (s : State) : (s.dropSample).mem = s.mem := rfl
@[simp] theorem dropSample_io (s : State) : (s.dropSample).io = s.io := rfl
@[simp] theorem dropSample_halted (s : State) : (s.dropSample).halted = s.halted := rfl
@[simp] theorem dropSample_stopped (s : State) : (s.dropSample).stopped = s.stopped := rfl
@[simp] theorem dropSample_icache (s : State) : (s.dropSample).icache = s.icache := rfl
@[simp] theorem dropSample_deviceLog (s : State) : (s.dropSample).deviceLog = s.deviceLog := rfl
@[simp] theorem dropSample_draws (s : State) : (s.dropSample).draws = s.draws := rfl
@[simp] theorem dropSample_config (s : State) : (s.dropSample).config = s.config := rfl

/-! ## stickAll -/

@[simp] theorem stickAll_regs (s : State) (b : BitVec 6) : (s.stickAll b).regs = s.regs := rfl
@[simp] theorem stickAll_pc (s : State) (b : BitVec 6) : (s.stickAll b).pc = s.pc := rfl
@[simp] theorem stickAll_eipc (s : State) (b : BitVec 6) : (s.stickAll b).eipc = s.eipc := rfl
@[simp] theorem stickAll_eipsw (s : State) (b : BitVec 6) : (s.stickAll b).eipsw = s.eipsw := rfl
@[simp] theorem stickAll_fepc (s : State) (b : BitVec 6) : (s.stickAll b).fepc = s.fepc := rfl
@[simp] theorem stickAll_fepsw (s : State) (b : BitVec 6) : (s.stickAll b).fepsw = s.fepsw := rfl
@[simp] theorem stickAll_ecr (s : State) (b : BitVec 6) : (s.stickAll b).ecr = s.ecr := rfl
@[simp] theorem stickAll_pir (s : State) (b : BitVec 6) : (s.stickAll b).pir = s.pir := rfl
@[simp] theorem stickAll_tkcw (s : State) (b : BitVec 6) : (s.stickAll b).tkcw = s.tkcw := rfl
@[simp] theorem stickAll_chcw (s : State) (b : BitVec 6) : (s.stickAll b).chcw = s.chcw := rfl
@[simp] theorem stickAll_adtre (s : State) (b : BitVec 6) : (s.stickAll b).adtre = s.adtre := rfl
@[simp] theorem stickAll_mem (s : State) (b : BitVec 6) : (s.stickAll b).mem = s.mem := rfl
@[simp] theorem stickAll_io (s : State) (b : BitVec 6) : (s.stickAll b).io = s.io := rfl
@[simp] theorem stickAll_halted (s : State) (b : BitVec 6) : (s.stickAll b).halted = s.halted := rfl
@[simp] theorem stickAll_stopped (s : State) (b : BitVec 6) : (s.stickAll b).stopped = s.stopped := rfl
@[simp] theorem stickAll_inputs (s : State) (b : BitVec 6) : (s.stickAll b).inputs = s.inputs := rfl
@[simp] theorem stickAll_icache (s : State) (b : BitVec 6) : (s.stickAll b).icache = s.icache := rfl
@[simp] theorem stickAll_deviceLog (s : State) (b : BitVec 6) : (s.stickAll b).deviceLog = s.deviceLog := rfl
@[simp] theorem stickAll_draws (s : State) (b : BitVec 6) : (s.stickAll b).draws = s.draws := rfl
@[simp] theorem stickAll_config (s : State) (b : BitVec 6) : (s.stickAll b).config = s.config := rfl
@[simp] theorem stickAll_psw (s : State) (b : BitVec 6) :
    (s.stickAll b).psw = s.psw ||| (b.setWidth 32 <<< 4) := rfl

/-- Only the sticky bits, 4 to 9, can be set (R20, R191). -/
theorem getLsbD_stickAll (s : State) (b : BitVec 6) (n : Nat) :
    (s.stickAll b).psw.getLsbD n =
      (s.psw.getLsbD n || (decide (4 ≤ n ∧ n < 10) && b.getLsbD (n - 4))) := by
  rw [stickAll_psw, BitVec.getLsbD_or, BitVec.getLsbD_shiftLeft, BitVec.getLsbD_setWidth]
  by_cases h : 4 ≤ n ∧ n < 10
  · simp [-BitVec.getLsbD_eq_getElem, h, show ¬n < 4 by omega, show n < 32 by omega,
      show n - 4 < 32 by omega]
  · by_cases h4 : n < 4
    · simp [-BitVec.getLsbD_eq_getElem, h4, h]
    · rw [BitVec.getLsbD_of_ge b (n - 4) (by omega)]
      simp

/-! ## stick -/

@[simp] theorem stick_regs (s : State) (n : Nat) (b : Bool) : (s.stick n b).regs = s.regs := by
  unfold State.stick; split <;> rfl
@[simp] theorem stick_pc (s : State) (n : Nat) (b : Bool) : (s.stick n b).pc = s.pc := by
  unfold State.stick; split <;> rfl
@[simp] theorem stick_eipc (s : State) (n : Nat) (b : Bool) : (s.stick n b).eipc = s.eipc := by
  unfold State.stick; split <;> rfl
@[simp] theorem stick_eipsw (s : State) (n : Nat) (b : Bool) : (s.stick n b).eipsw = s.eipsw := by
  unfold State.stick; split <;> rfl
@[simp] theorem stick_fepc (s : State) (n : Nat) (b : Bool) : (s.stick n b).fepc = s.fepc := by
  unfold State.stick; split <;> rfl
@[simp] theorem stick_fepsw (s : State) (n : Nat) (b : Bool) : (s.stick n b).fepsw = s.fepsw := by
  unfold State.stick; split <;> rfl
@[simp] theorem stick_ecr (s : State) (n : Nat) (b : Bool) : (s.stick n b).ecr = s.ecr := by
  unfold State.stick; split <;> rfl
@[simp] theorem stick_pir (s : State) (n : Nat) (b : Bool) : (s.stick n b).pir = s.pir := by
  unfold State.stick; split <;> rfl
@[simp] theorem stick_tkcw (s : State) (n : Nat) (b : Bool) : (s.stick n b).tkcw = s.tkcw := by
  unfold State.stick; split <;> rfl
@[simp] theorem stick_chcw (s : State) (n : Nat) (b : Bool) : (s.stick n b).chcw = s.chcw := by
  unfold State.stick; split <;> rfl
@[simp] theorem stick_adtre (s : State) (n : Nat) (b : Bool) : (s.stick n b).adtre = s.adtre := by
  unfold State.stick; split <;> rfl
@[simp] theorem stick_mem (s : State) (n : Nat) (b : Bool) : (s.stick n b).mem = s.mem := by
  unfold State.stick; split <;> rfl
@[simp] theorem stick_io (s : State) (n : Nat) (b : Bool) : (s.stick n b).io = s.io := by
  unfold State.stick; split <;> rfl
@[simp] theorem stick_halted (s : State) (n : Nat) (b : Bool) : (s.stick n b).halted = s.halted := by
  unfold State.stick; split <;> rfl
@[simp] theorem stick_stopped (s : State) (n : Nat) (b : Bool) : (s.stick n b).stopped = s.stopped := by
  unfold State.stick; split <;> rfl
@[simp] theorem stick_inputs (s : State) (n : Nat) (b : Bool) : (s.stick n b).inputs = s.inputs := by
  unfold State.stick; split <;> rfl
@[simp] theorem stick_icache (s : State) (n : Nat) (b : Bool) : (s.stick n b).icache = s.icache := by
  unfold State.stick; split <;> rfl
@[simp] theorem stick_deviceLog (s : State) (n : Nat) (b : Bool) : (s.stick n b).deviceLog = s.deviceLog := by
  unfold State.stick; split <;> rfl
@[simp] theorem stick_draws (s : State) (n : Nat) (b : Bool) : (s.stick n b).draws = s.draws := by
  unfold State.stick; split <;> rfl
@[simp] theorem stick_config (s : State) (n : Nat) (b : Bool) : (s.stick n b).config = s.config := by
  unfold State.stick; split <;> rfl

/-! ## The fields that are set -/

@[simp] theorem setPc_pc (s : State) (t : Word) : (s.setPc t).pc = t &&& 0xFFFFFFFE := rfl
@[simp] theorem advance_pc (s : State) (n : Word) : (s.advance n).pc = (s.pc + n) &&& 0xFFFFFFFE := rfl
@[simp] theorem setFlags_psw (s : State) (f : Flags) : (s.setFlags f).psw = withFlags s.psw f := rfl
@[simp] theorem setPswBit_psw (s : State) (n : Nat) (b : Bool) :
    (s.setPswBit n b).psw = setBit s.psw n b := rfl
@[simp] theorem setPsw_psw (s : State) (v : Word) : (s.setPsw v).psw = v &&& pswMask := rfl
@[simp] theorem dropSample_inputs (s : State) : s.dropSample.inputs = s.inputs.tail := rfl
theorem stick_psw (s : State) (n : Nat) (b : Bool) :
    (s.stick n b).psw = if b then setBit s.psw n true else s.psw := by
  unfold State.stick; split <;> rfl

/-! ## Registers read back (R11) -/

@[simp] theorem readReg_zero (s : State) : s.readReg 0#5 = 0 := rfl

/-- A write to `x[0]` is discarded. -/
@[simp] theorem writeReg_zero (s : State) (v : Word) : s.writeReg 0#5 v = s := rfl

/-- Two states with the same register file read alike. -/
theorem readReg_congr {s t : State} (h : t.regs = s.regs) (i : RegIdx) :
    t.readReg i = s.readReg i := by
  unfold State.readReg; split
  · rfl
  · simp only [h]

/-- Writing back what a register holds changes nothing. -/
theorem writeReg_self (s : State) (i : RegIdx) : s.writeReg i (s.readReg i) = s := by
  unfold State.writeReg State.readReg
  split
  · rfl
  · have : s.regs.set (i.toNat - 1) (s.regs[i.toNat - 1]'(by have := i.isLt; omega))
        (by have := i.isLt; omega) = s.regs := by
      apply Vector.ext
      intro j hj
      rw [Vector.getElem_set]
      split
      · rename_i h; subst h; rfl
      · rfl
    rw [this]

theorem readReg_writeReg_same (s : State) (i : RegIdx) (v : Word) (h : i ≠ 0#5) :
    (s.writeReg i v).readReg i = v := by
  simp [State.readReg, State.writeReg, h]

theorem readReg_writeReg_other (s : State) (i j : RegIdx) (v : Word) (h : j ≠ i) :
    (s.writeReg i v).readReg j = s.readReg j := by
  unfold State.readReg State.writeReg
  by_cases hi : i = 0#5
  · simp [hi]
  · by_cases hj : j = 0#5
    · simp [hj]
    · have h1 : i.toNat ≠ 0 := fun c => hi (BitVec.eq_of_toNat_eq (by simpa using c))
      have h2 : j.toNat ≠ 0 := fun c => hj (BitVec.eq_of_toNat_eq (by simpa using c))
      have h3 : j.toNat ≠ i.toNat := fun c => h (BitVec.eq_of_toNat_eq c)
      have h4 : i.toNat - 1 ≠ j.toNat - 1 := by omega
      simp [hi, hj, h4]

/-- Both cases at once: the one lemma a proof about registers cites. -/
theorem readReg_writeReg (s : State) (i j : RegIdx) (v : Word) :
    (s.writeReg i v).readReg j = if j = i ∧ i ≠ 0#5 then v else s.readReg j := by
  by_cases h : j = i
  · subst h
    by_cases hz : j = 0#5
    · subst hz; simp
    · simp [hz, readReg_writeReg_same s j v hz]
  · simp [h, readReg_writeReg_other s i j v h]

@[simp] theorem readReg_setPc (s : State) (t : Word) (i : RegIdx) : (s.setPc t).readReg i = s.readReg i :=
  readReg_congr (by simp) i
@[simp] theorem readReg_advance (s : State) (n : Word) (i : RegIdx) : (s.advance n).readReg i = s.readReg i :=
  readReg_congr (by simp) i
@[simp] theorem readReg_setFlags (s : State) (f : Flags) (i :
    RegIdx) : (s.setFlags f).readReg i = s.readReg i :=
  readReg_congr (by simp) i
@[simp] theorem readReg_setPswBit (s : State) (n : Nat) (b : Bool) (i :
    RegIdx) : (s.setPswBit n b).readReg i = s.readReg i :=
  readReg_congr (by simp) i
@[simp] theorem readReg_setPsw (s : State) (v : Word) (i : RegIdx) : (s.setPsw v).readReg i = s.readReg i :=
  readReg_congr (by simp) i
@[simp] theorem readReg_dropSample (s : State) (i : RegIdx) : (s.dropSample).readReg i = s.readReg i :=
  readReg_congr (by simp) i
@[simp] theorem readReg_stick (s : State) (n : Nat) (b : Bool) (i :
    RegIdx) : (s.stick n b).readReg i = s.readReg i :=
  readReg_congr (by simp) i

/-! ## Reset (R240) -/

@[simp] theorem performReset_pc (s : State) : (performReset s).pc = 0xFFFFFFF0 := rfl
@[simp] theorem performReset_psw (s : State) : (performReset s).psw = 0x00008000 := rfl
@[simp] theorem performReset_ecr (s : State) : (performReset s).ecr = 0x0000FFF0 := rfl
@[simp] theorem performReset_chcw (s : State) : (performReset s).chcw = 0 := rfl
@[simp] theorem performReset_halted (s : State) : (performReset s).halted = false := rfl
@[simp] theorem performReset_stopped (s : State) : (performReset s).stopped = false := rfl
@[simp] theorem performReset_eipc (s :
    State) : (performReset s).eipc = Config.resetWord s.draws 32 &&& 0xFFFFFFFE := rfl
@[simp] theorem performReset_eipsw (s :
    State) : (performReset s).eipsw = Config.resetWord s.draws 33 &&& pswMask := rfl
@[simp] theorem performReset_fepc (s :
    State) : (performReset s).fepc = Config.resetWord s.draws 34 &&& 0xFFFFFFFE := rfl
@[simp] theorem performReset_fepsw (s :
    State) : (performReset s).fepsw = Config.resetWord s.draws 35 &&& pswMask := rfl
@[simp] theorem performReset_adtre (s :
    State) : (performReset s).adtre = Config.resetWord s.draws 36 &&& 0xFFFFFFFE := rfl
@[simp] theorem performReset_draws (s : State) : (performReset s).draws = s.draws + 1 := rfl
@[simp] theorem performReset_pir (s : State) : (performReset s).pir = s.pir := by
  unfold performReset
  dsimp only
@[simp] theorem performReset_tkcw (s : State) : (performReset s).tkcw = s.tkcw := by
  unfold performReset
  dsimp only
@[simp] theorem performReset_mem (s : State) : (performReset s).mem = s.mem := by
  unfold performReset
  dsimp only
@[simp] theorem performReset_io (s : State) : (performReset s).io = s.io := by
  unfold performReset
  dsimp only
@[simp] theorem performReset_inputs (s : State) : (performReset s).inputs = s.inputs := by
  unfold performReset
  dsimp only
@[simp] theorem performReset_icache (s : State) : (performReset s).icache = s.icache := by
  unfold performReset
  dsimp only
@[simp] theorem performReset_deviceLog (s : State) : (performReset s).deviceLog = s.deviceLog := by
  unfold performReset
  dsimp only
@[simp] theorem performReset_config (s : State) : (performReset s).config = s.config := by
  unfold performReset
  dsimp only

end Sys2Proof.Machine
end

