-- ==== Sys2Proof/Laws/Ops.lean ====
section
/-! SUPPORT. What each shared operation can do, said once: the provers cite these and unfold nothing. -/

namespace Sys2Proof.Machine

/-! ## Outcomes -/

/-- A sequence answers a next state exactly when both parts do. -/
theorem bindOutcome_eq_next {α β : Type} (o : Host.Outcome α Fault Refusal)
    (k : α → Host.Outcome β Fault Refusal) (b : β) :
    bindOutcome o k = .next b ↔ ∃ a, o = .next a ∧ k a = .next b := by
  cases o <;> simp [bindOutcome]

@[simp] theorem bindOutcome_next {α β : Type} (a : α) (k : α → Host.Outcome β Fault Refusal) :
    bindOutcome (.next a) k = k a := rfl

@[simp] theorem bindOutcome_fault {α β : Type} (r : Fault) (k : α → Host.Outcome β Fault Refusal) :
    bindOutcome (.fault r) k = .fault r := rfl

@[simp] theorem bindOutcome_refused {α β : Type} (r : Refusal)
    (k : α → Host.Outcome β Fault Refusal) : bindOutcome (.refused r) k = .refused r := rfl

/-! ## Frames of the plain updates -/

theorem sameSystem_refl (s : State) : SameSystem s s := ⟨rfl, rfl, rfl, rfl, rfl, rfl, rfl, rfl, rfl⟩

theorem sameControl_refl (s : State) : SameControl s s := ⟨rfl, rfl, rfl, rfl, rfl⟩

/-- No register written. -/
theorem regsAfter_nil {s t : State} (h : t.regs = s.regs) : RegsAfter s t [] := by
  intro j
  rw [readReg_congr h j]
  split
  · rename_i hj
    subst hj
    rfl
  · rfl

theorem valueAfter_append (old : Word) (j : RegIdx) (ws vs : List (RegIdx × Word)) :
    valueAfter old j (ws ++ vs) = valueAfter (valueAfter old j ws) j vs := by
  induction ws generalizing old with
  | nil => rfl
  | cons w ws ih => exact ih _

/-- One more register written. -/
theorem regsAfter_snoc {s t u : State} {ws : List (RegIdx × Word)} (i : RegIdx) (v : Word)
    (hw : RegsAfter s t ws) (h : u.regs = (t.writeReg i v).regs) :
    RegsAfter s u (ws ++ [(i, v)]) := by
  intro j
  rw [readReg_congr h j, readReg_writeReg, hw j, valueAfter_append]
  by_cases hj : j = 0
  · have : ¬(j = i ∧ i ≠ 0#5) := fun c => c.2 (c.1.symm.trans hj)
    rw [if_neg this, if_pos hj, if_pos hj]
  · rw [if_neg hj, if_neg hj]
    by_cases hi : j = i
    · have : j = i ∧ i ≠ 0#5 := ⟨hi, fun c => hj (hi.trans c)⟩
      rw [if_pos this]
      simp [valueAfter, hi]
    · rw [if_neg fun c => hi c.1]
      have hi' : ¬i = j := fun c => hi c.symm
      simp [valueAfter, hi']

/-- One register written. -/
theorem regsAfter_one {s t : State} (i : RegIdx) (v : Word) (h : t.regs = (s.writeReg i v).regs) :
    RegsAfter s t [(i, v)] :=
  regsAfter_snoc (ws := []) i v (regsAfter_nil rfl) h

/-- Two registers written, the second write winning. -/
theorem regsAfter_two {s t : State} (i k : RegIdx) (v w : Word)
    (h : t.regs = ((s.writeReg i v).writeReg k w).regs) : RegsAfter s t [(i, v), (k, w)] :=
  regsAfter_snoc (ws := [(i, v)]) k w (regsAfter_one i v rfl) h

/-- Nothing but the registers, the PSW and the pc differs. -/
theorem effect_intro {s t : State} {writes : List (RegIdx × Word)} {bits : List Nat} {next : Word}
    (hr : RegsAfter s t writes) (hp : PswKeeps s t bits) (hpc : t.pc = next &&& 0xFFFFFFFE)
    (h : t = { s with regs := t.regs, psw := t.psw, pc := t.pc }) : Effect s t writes bits next := by
  have e : ∀ {α : Type} (f : State → α), f t = f { s with regs := t.regs, psw := t.psw, pc := t.pc } :=
    fun f => congrArg f h
  exact
    { core :=
        { regs := hr
          psw := hp
          pc := hpc
          system := ⟨e State.eipc, e State.eipsw, e State.fepc, e State.fepsw, e State.ecr,
            e State.pir, e State.tkcw, e State.chcw, e State.adtre⟩
          control := ⟨e State.halted, e State.stopped, e State.inputs, e State.icache,
            e State.config⟩ }
      memory := fun a => by rw [e State.mem]
      ports := fun a => by rw [e State.io]
      devices := ⟨e State.deviceLog, e State.draws⟩ }

theorem pswKeeps_refl {s t : State} (h : t.psw = s.psw) (bits : List Nat) : PswKeeps s t bits :=
  fun n _ => by rw [h]

/-- Replacing the flags keeps every other bit. -/
theorem pswKeeps_withFlags {s t : State} {f : Flags} (h : t.psw = withFlags s.psw f) :
    PswKeeps s t [bitZ, bitS, bitOV, bitCY] := by
  intro n hn
  simp only [bitZ, bitS, bitOV, bitCY, List.mem_cons, List.not_mem_nil, or_false, not_or] at hn
  rw [h, getLsbD_withFlags_other _ _ _ (by omega)]

/-- Replacing the flags with CY as it was keeps every bit but Z, S and OV. -/
theorem pswKeeps_withFlags_cy {s t : State} {f : Flags} (h : t.psw = withFlags s.psw f)
    (hc : f.cy = s.flags.cy) : PswKeeps s t [bitZ, bitS, bitOV] := by
  intro n hn
  simp only [bitZ, bitS, bitOV, List.mem_cons, List.not_mem_nil, or_false, not_or] at hn
  rw [h]
  by_cases h3 : n = 3
  · subst h3
    rw [getLsbD_withFlags]
    simpa [State.flags, flagsOf, bitCY] using hc
  · rw [getLsbD_withFlags_other _ _ _ (by omega)]

/-- Writing one bit keeps every other. -/
theorem pswKeeps_setBit {s t : State} {n : Nat} {b : Bool} (h : t.psw = setBit s.psw n b) :
    PswKeeps s t [n] := by
  intro m hm
  rw [h, getLsbD_setBit_other _ _ _ _ (by simpa using hm)]

/-! ## Endings (Machine/Ops.lean) -/

/-- `finishPlain`: one register, no flag. -/
theorem finishPlain_effect (reg2 : RegIdx) (r len : Word) (s : State) :
    ∃ t, finishPlain reg2 r len s = .next t ∧ Effect s t [(reg2, r)] [] (s.pc + len) := by
  refine ⟨_, rfl, effect_intro (regsAfter_one reg2 r rfl) (pswKeeps_refl (by simp) _) (by simp) ?_⟩
  unfold State.writeReg
  split <;> rfl

/-- `finishFlagged`: one register and the four flags. -/
theorem finishFlagged_effect (reg2 : RegIdx) (r : Word) (f : Flags) (len : Word) (s : State) :
    ∃ t, finishFlagged reg2 r f len s = .next t ∧
      Effect s t [(reg2, r)] [bitZ, bitS, bitOV, bitCY] (s.pc + len) ∧
      t.psw = withFlags s.psw f := by
  refine ⟨_, rfl, effect_intro (regsAfter_one reg2 r rfl) (pswKeeps_withFlags (f := f) (by simp))
    (by simp) ?_, by simp⟩
  unfold State.writeReg
  split <;> rfl

/-- `finishFlagged` with CY as it was. -/
theorem finishFlagged_effect_cy (reg2 : RegIdx) (r : Word) (f : Flags) (len : Word) (s : State)
    (hc : f.cy = s.flags.cy) :
    ∃ t, finishFlagged reg2 r f len s = .next t ∧
      Effect s t [(reg2, r)] [bitZ, bitS, bitOV] (s.pc + len) ∧ t.psw = withFlags s.psw f := by
  refine ⟨_, rfl, effect_intro (regsAfter_one reg2 r rfl) (pswKeeps_withFlags_cy (f := f) (by simp) hc)
    (by simp) ?_, by simp⟩
  unfold State.writeReg
  split <;> rfl

/-- `finishPair`: `x[30]`, then `x[reg2]`, and the flags with CY as it was. -/
theorem finishPair_effect (reg2 : RegIdx) (high low : Word) (f : Flags) (s : State)
    (hc : f.cy = s.flags.cy) :
    ∃ t, finishPair reg2 high low f s = .next t ∧
      Effect s t [(30, high), (reg2, low)] [bitZ, bitS, bitOV] (s.pc + 2) ∧
      t.psw = withFlags s.psw f := by
  refine ⟨_, rfl, effect_intro (regsAfter_two 30 reg2 high low rfl)
    (pswKeeps_withFlags_cy (f := f) (by simp) hc) (by simp) ?_, by simp⟩
  unfold State.writeReg
  split <;> split <;> rfl

/-- The flags alone, then the next instruction. -/
theorem setFlags_advance_effect (f : Flags) (len : Word) (s : State) :
    Effect s ((s.setFlags f).advance len) [] [bitZ, bitS, bitOV, bitCY] (s.pc + len) :=
  effect_intro (regsAfter_nil rfl) (pswKeeps_withFlags (f := f) rfl) (by simp) rfl

/-- Only the pc moves. -/
theorem setPc_effect (target : Word) (s : State) : Effect s (s.setPc target) [] [] target :=
  effect_intro (regsAfter_nil rfl) (pswKeeps_refl rfl _) rfl rfl

/-- Only the pc moves on. -/
theorem advance_effect (len : Word) (s : State) : Effect s (s.advance len) [] [] (s.pc + len) :=
  setPc_effect _ s

/-! ## The flags read back -/

/-- The four flags of a PSW written by `withFlags`. -/
theorem flagsAre_withFlags {t : State} {psw : Word} {f : Flags} (h : t.psw = withFlags psw f) :
    FlagsAre t (f.z = true) (f.s = true) (f.ov = true) (f.cy = true) := by
  simp [FlagsAre, h, bitZ, bitS, bitOV, bitCY]

/-- OV of a sum is the signed overflow (R96). -/
theorem addFlags_ov (a b : Word) :
    (addFlags a b).ov = true ↔ a.toInt + b.toInt < -2 ^ 31 ∨ 2 ^ 31 ≤ a.toInt + b.toInt := by
  have h := BitVec.toInt_add a b
  simp only [addFlags, BitVec.msb_eq_toInt, Bool.and_eq_true, beq_iff_eq, bne_iff_ne, ne_eq,
    decide_eq_decide, h]
  have ha := BitVec.toInt_lt (x := a)
  have ha' := BitVec.le_toInt (x := a)
  have hb := BitVec.toInt_lt (x := b)
  have hb' := BitVec.le_toInt (x := b)
  norm_num at ha ha' hb hb'
  rw [Int.bmod_def]
  split <;> omega

/-- OV of a difference is the signed overflow (R96). -/
theorem subFlags_ov (a b : Word) :
    (subFlags a b).ov = true ↔ a.toInt - b.toInt < -2 ^ 31 ∨ 2 ^ 31 ≤ a.toInt - b.toInt := by
  have h := BitVec.toInt_sub (x := a) (y := b)
  simp only [subFlags, BitVec.msb_eq_toInt, Bool.and_eq_true, bne_iff_ne, ne_eq,
    decide_eq_decide, h]
  have ha := BitVec.toInt_lt (x := a)
  have ha' := BitVec.le_toInt (x := a)
  have hb := BitVec.toInt_lt (x := b)
  have hb' := BitVec.le_toInt (x := b)
  norm_num at ha ha' hb hb'
  rw [Int.bmod_def]
  split <;> omega

/-- S xor OV after a difference is the signed order (R120). -/
theorem subFlags_less (a b : Word) :
    ((subFlags a b).s ^^ (subFlags a b).ov) = decide (a.toInt < b.toInt) := by
  have h := BitVec.toInt_sub (x := a) (y := b)
  have hov := subFlags_ov a b
  have hs : (subFlags a b).s = decide ((a.toInt - b.toInt).bmod (2 ^ 32) < 0) := by
    simp only [subFlags, BitVec.msb_eq_toInt, h]
  have ha := BitVec.toInt_lt (x := a)
  have ha' := BitVec.le_toInt (x := a)
  have hb := BitVec.toInt_lt (x := b)
  have hb' := BitVec.le_toInt (x := b)
  norm_num at ha ha' hb hb'
  rw [hs, Int.bmod_def]
  cases hv : (subFlags a b).ov with
  | true =>
    have := hov.mp hv
    rw [Bool.xor_true, ← decide_not, decide_eq_decide]
    split <;> omega
  | false =>
    have hn : ¬(a.toInt - b.toInt < -2 ^ 31 ∨ 2 ^ 31 ≤ a.toInt - b.toInt) := fun c => by
      simp [hov.mpr c] at hv
    rw [Bool.xor_false, decide_eq_decide]
    split <;> omega

theorem flagsAre_congr {t : State} {a b c d a' b' c' d' : Prop} (h : FlagsAre t a b c d)
    (h1 : a ↔ a') (h2 : b ↔ b') (h3 : c ↔ c') (h4 : d ↔ d') : FlagsAre t a' b' c' d' :=
  ⟨h.1.trans h1, h.2.1.trans h2, h.2.2.1.trans h3, h.2.2.2.trans h4⟩

/-- `addFlags` are the flags of a sum. -/
theorem addFlagsAre_of_psw {t : State} {psw a b : Word} (h : t.psw = withFlags psw (addFlags a b)) :
    AddFlagsAre t a b :=
  flagsAre_congr (flagsAre_withFlags h) (by simp [addFlags]) (by simp [addFlags]) (addFlags_ov a b)
    (by simp [addFlags])

/-- `subFlags` are the flags of a difference. -/
theorem subFlagsAre_of_psw {t : State} {psw a b : Word} (h : t.psw = withFlags psw (subFlags a b)) :
    SubFlagsAre t a b :=
  flagsAre_congr (flagsAre_withFlags h) (by simp [subFlags, BitVec.sub_eq_iff_eq_add])
    (by simp [subFlags]) (subFlags_ov a b) (by simp [subFlags])

/-- Z and S of a result, OV as given. -/
theorem resultFlagsAre_of_psw {t : State} {psw r : Word} {f : Flags} {ov : Prop}
    (h : t.psw = withFlags psw f) (hz : f.z = (r == 0)) (hs : f.s = r.msb) (hv : f.ov = true ↔ ov) :
    ResultFlagsAre t r ov := by
  have hf := flagsAre_withFlags h
  exact ⟨hf.1.trans (by simp [hz]), hf.2.1.trans (by simp [hs]), hf.2.2.1.trans hv⟩

/-! ## Shared shapes of the families -/

/-- `regLogic` (R96 `LogicFlags`). -/
theorem regLogic_effect (reg2 : RegIdx) (r : Word) (s : State) :
    ∃ t, regLogic reg2 r s = .next t ∧ Effect s t [(reg2, r)] [bitZ, bitS, bitOV] (s.pc + 2) ∧
      ResultFlagsAre t r False := by
  obtain ⟨t, h1, h2, h3⟩ := finishFlagged_effect_cy reg2 r (logicFlags r s.flags.cy) 2 s rfl
  exact ⟨t, h1, h2, resultFlagsAre_of_psw h3 rfl rfl (by simp [logicFlags])⟩

/-- `immLogic` (R144-R146). -/
theorem immLogic_effect (reg2 : RegIdx) (r : Word) (s : State) :
    ∃ t, immLogic reg2 r s = .next t ∧ Effect s t [(reg2, r)] [bitZ, bitS, bitOV] (s.pc + 4) ∧
      ResultFlagsAre t r False := by
  obtain ⟨t, h1, h2, h3⟩ := finishFlagged_effect_cy reg2 r (logicFlags r s.flags.cy) 4 s rfl
  exact ⟨t, h1, h2, resultFlagsAre_of_psw h3 rfl rfl (by simp [logicFlags])⟩

/-- `regShift` (R96 `ShiftFlags`). -/
theorem regShift_effect (reg2 : RegIdx) (r : Word × Bool) (s : State) :
    ∃ t, regShift reg2 r s = .next t ∧
      Effect s t [(reg2, r.1)] [bitZ, bitS, bitOV, bitCY] (s.pc + 2) ∧
      FlagsAre t (r.1 = 0) (r.1.msb = true) False (r.2 = true) := by
  obtain ⟨t, h1, h2, h3⟩ := finishFlagged_effect reg2 r.1 (shiftFlags r.1 r.2) 2 s
  exact ⟨t, h1, h2, flagsAre_congr (flagsAre_withFlags h3) (by simp [shiftFlags])
    (by simp [shiftFlags]) (by simp [shiftFlags]) (by simp [shiftFlags])⟩

/-- The two readings of the immediate of `ori`, `andi`, `xori` (R144). -/
theorem logicImm_eq (ext : ImmExt) (imm : BitVec 16) :
    logicImm ext imm = match ext with
      | .sign => imm.signExtend 32
      | .zero => imm.zeroExtend 32 := by
  unfold logicImm
  split
  · rename_i h
    cases ext <;> simp [BitVec.signExtend_eq_setWidth_of_msb_false h]
  · rfl

/-- `disp9` is read with its bit 0 as 0 (R54, R61). -/
theorem disp9Signed_eq (d : BitVec 9) :
    disp9Signed d = (d.extractLsb' 1 8 ++ 0#1).signExtend 32 := by
  have h : d &&& 0x1FE = d.extractLsb' 1 8 ++ 0#1 := by
    revert d
    decide
  rw [disp9Signed, h]

/-- `branchOn` (R121). -/
theorem branchOn_effect (c : BitVec 4) (d : BitVec 9) (s : State) :
    ∃ t, branchOn c d s = .next t ∧ Effect s t [] [] (branchTarget s d (condHolds c s.flags)) := by
  unfold branchOn branchTarget
  rw [disp9Signed_eq]
  split
  · exact ⟨_, rfl, setPc_effect _ s⟩
  · exact ⟨_, rfl, advance_effect 2 s⟩

end Sys2Proof.Machine
end

