-- ==== Sys2Proof/Laws/Access.lean ====
section
/-! SUPPORT. Loads, stores and ports: what the access primitives of Machine/Ops.lean do at each kind of
address, and what the shared shapes of Machine/LoadStore.lean do with them. -/

namespace Sys2Proof.Machine

/-! ## Alignment (R36) -/

theorem toNat_and_even (a : Word) : (a &&& 0xFFFFFFFE).toNat = a.toNat / 2 * 2 := by
  have h : a &&& 0xFFFFFFFE#32 = (a >>> 1) <<< 1 := by
    apply BitVec.eq_of_getLsbD_eq
    intro i hi
    have : i = 0 ∨ 1 ≤ i := by omega
    rcases this with rfl | h1
    · simp
    · have hm : (0xFFFFFFFE#32).getLsbD i = true := by
        have key : ∀ j : Fin 32, 1 ≤ j.val → (0xFFFFFFFE#32).getLsbD j.val = true := by decide
        exact key ⟨i, hi⟩ h1
      have h2 : 1 + (i - 1) = i := by omega
      simp [-BitVec.getLsbD_eq_getElem, BitVec.getLsbD_and, hm, BitVec.getLsbD_shiftLeft,
        BitVec.getLsbD_ushiftRight, hi, h2]
      omega
  rw [show (a &&& 0xFFFFFFFE).toNat = _ from congrArg BitVec.toNat h, BitVec.toNat_shiftLeft,
    BitVec.toNat_ushiftRight, Nat.shiftRight_eq_div_pow, Nat.shiftLeft_eq]
  have := a.isLt
  omega

theorem toNat_and_word (a : Word) : (a &&& 0xFFFFFFFC).toNat = a.toNat / 4 * 4 := by
  have h : a &&& 0xFFFFFFFC#32 = (a >>> 2) <<< 2 := by
    apply BitVec.eq_of_getLsbD_eq
    intro i hi
    have : i = 0 ∨ i = 1 ∨ 2 ≤ i := by omega
    rcases this with rfl | rfl | h1
    · simp
    · simp
    · have hm : (0xFFFFFFFC#32).getLsbD i = true := by
        have key : ∀ j : Fin 32, 2 ≤ j.val → (0xFFFFFFFC#32).getLsbD j.val = true := by decide
        exact key ⟨i, hi⟩ h1
      have h2 : 2 + (i - 2) = i := by omega
      simp [-BitVec.getLsbD_eq_getElem, BitVec.getLsbD_and, hm, BitVec.getLsbD_shiftLeft,
        BitVec.getLsbD_ushiftRight, hi, h2]
      omega
  rw [show (a &&& 0xFFFFFFFC).toNat = _ from congrArg BitVec.toNat h, BitVec.toNat_shiftLeft,
    BitVec.toNat_ushiftRight, Nat.shiftRight_eq_div_pow, Nat.shiftLeft_eq]
  have := a.isLt
  omega

/-- Aligning stays inside the word of memory. -/
theorem alignTo_word (w : Width) (a : Word) : (alignTo w a).toNat / 4 = a.toNat / 4 := by
  cases w
  · rfl
  · simp only [alignTo, toNat_and_even]
    omega
  · simp only [alignTo, toNat_and_word]
    omega

/-- An aligned access ends inside the space. -/
theorem alignTo_bound (w : Width) (a : Word) : (alignTo w a).toNat + w.bytes ≤ 2 ^ 32 := by
  have := a.isLt
  cases w
  · simp only [alignTo, Width.bytes]
    omega
  · simp only [alignTo, toNat_and_even, Width.bytes]
    omega
  · simp only [alignTo, toNat_and_word, Width.bytes]
    omega

/-- The kind of an address depends on the parameters alone. -/
theorem memKind_congr {s t : State} (h : t.config = s.config) (a : Nat) :
    t.memKind a = s.memKind a := by
  simp only [State.memKind, h]

theorem memPlace_congr {s t : State} (h : t.config = s.config) : t.memPlace = s.memPlace := by
  funext a
  simp only [State.memPlace, memKind_congr h]

/-! ## What the bytes of an access touch (R33, R41) -/

theorem touches_eq_true {place : Nat → Place} {a n : Nat} {p : Place} :
    touches place a n p = true ↔ ∃ k, k < n ∧ place (a + k) = p := by
  simp [touches]

theorem touches_eq_false {place : Nat → Place} {a n : Nat} {p : Place} :
    touches place a n p = false ↔ ∀ k, k < n → place (a + k) ≠ p := by
  simp [touches]

/-- Bytes that all lie at one place touch no other. -/
theorem touches_all {place : Nat → Place} {a n : Nat} {q : Place} (h : ∀ k, k < n → place (a + k) = q)
    (hn : 0 < n) (p : Place) : touches place a n p = (q == p) := by
  by_cases c : q = p
  · rw [touches_eq_true.mpr ⟨0, hn, (h 0 hn).trans c⟩]
    simp [c]
  · rw [touches_eq_false.mpr fun k hk => by rw [h k hk]; exact c]
    simp [c]

theorem Width.bytes_pos (w : Width) : 0 < w.bytes := by cases w <;> decide

theorem memPlace_ram {s : State} {a : Nat} : s.memPlace a = .ram ↔ s.memKind a = .ram := by
  unfold State.memPlace; split <;> simp_all

theorem memPlace_rom {s : State} {a : Nat} : s.memPlace a = .rom ↔ s.memKind a = .rom := by
  unfold State.memPlace; split <;> simp_all

theorem memPlace_device {s : State} {a : Nat} :
    s.memPlace a = .device .memory ↔ s.memKind a = .device := by
  unfold State.memPlace; split <;> simp_all

theorem memPlace_unmapped {s : State} {a : Nat} :
    s.memPlace a = .unmapped .memory ↔ s.memKind a = .none := by
  unfold State.memPlace; split <;> simp_all

theorem memPlace_not_storage (s : State) (a : Nat) : s.memPlace a ≠ .storage := by
  unfold State.memPlace; split <;> simp

theorem memPlace_not_io (s : State) (a : Nat) :
    s.memPlace a ≠ .unmapped .io ∧ s.memPlace a ≠ .device .io := by
  unfold State.memPlace; split <;> simp

theorem portPlace_alias {s : State} {a : Nat} (h : s.ioKind a = .aliasMemory) :
    s.portPlace a = s.memPlace a := by
  simp [State.portPlace, h]

/-- What the bytes of a memory access touch, by their kinds. -/
theorem memTouches (s : State) (a n : Nat) :
    (touches s.memPlace a n (.unmapped .memory) = true ↔ s.MemSome .none a n) ∧
    (touches s.memPlace a n (.device .memory) = true ↔ s.MemSome .device a n) ∧
    (touches s.memPlace a n .rom = true ↔ s.MemSome .rom a n) ∧
    touches s.memPlace a n (.unmapped .io) = false ∧
    touches s.memPlace a n (.device .io) = false := by
  refine ⟨?_, ?_, ?_, touches_eq_false.mpr fun k _ => (memPlace_not_io s _).1,
    touches_eq_false.mpr fun k _ => (memPlace_not_io s _).2⟩
  · rw [touches_eq_true]
    simp only [memPlace_unmapped, State.MemSome]
  · rw [touches_eq_true]
    simp only [memPlace_device, State.MemSome]
  · rw [touches_eq_true]
    simp only [memPlace_rom, State.MemSome]

/-- Bytes of ram and rom touch nothing else. -/
theorem memPlain_touches {s : State} {a n : Nat} (h : s.MemPlain a n) :
    touches s.memPlace a n (.unmapped .memory) = false ∧
    touches s.memPlace a n (.device .memory) = false := by
  refine ⟨touches_eq_false.mpr fun k hk c => ?_, touches_eq_false.mpr fun k hk c => ?_⟩
  · rw [memPlace_unmapped] at c
    rcases h k hk with h | h <;> rw [h] at c <;> cases c
  · rw [memPlace_device] at c
    rcases h k hk with h | h <;> rw [h] at c <;> cases c

/-- Bytes that are mapped and no device are ram or rom. -/
theorem memPlain_of_touches {s : State} {a n : Nat}
    (h1 : ¬touches s.memPlace a n (.unmapped .memory) = true)
    (h2 : ¬touches s.memPlace a n (.device .memory) = true) : s.MemPlain a n := by
  rw [(memTouches s a n).1] at h1
  rw [(memTouches s a n).2.1] at h2
  intro k hk
  cases c : s.memKind (a + k)
  · exact .inl rfl
  · exact .inr rfl
  · exact absurd ⟨k, hk, c⟩ h2
  · exact absurd ⟨k, hk, c⟩ h1

theorem memPlain_of_ram {s : State} {a n : Nat} (h : s.MemAll .ram a n) : s.MemPlain a n :=
  fun k hk => .inl (h k hk)

theorem memAll_congr {s t : State} {kind : MemKind} {a n : Nat} (h : t.config = s.config) :
    t.MemAll kind a n ↔ s.MemAll kind a n := by
  simp only [State.MemAll, memKind_congr h]

theorem memPlain_congr {s t : State} {a n : Nat} (h : t.config = s.config) :
    t.MemPlain a n ↔ s.MemPlain a n := by
  simp only [State.MemPlain, memKind_congr h]

/-! ## Values -/

/-- `truncTo` keeps the bytes of the access. -/
theorem truncTo_eq (w : Width) (v : Word) : truncTo w v = (v.extractLsb' 0 (8 * w.bytes)).setWidth 32 := by
  cases w
  · apply BitVec.eq_of_getLsbD_eq
    intro i hi
    have key : ∀ j : Fin 32, (0x000000FF#32).getLsbD j.val = decide (j.val < 8) := by decide
    have hm := key ⟨i, hi⟩
    simp only [truncTo, BitVec.getLsbD_and, Width.bytes, BitVec.getLsbD_setWidth, hi,
      BitVec.getLsbD_extractLsb', Nat.zero_add, decide_true, Bool.true_and, Nat.mul_one]
    rw [Bool.and_comm]
    exact congrArg (· && v.getLsbD i) hm
  · apply BitVec.eq_of_getLsbD_eq
    intro i hi
    have key : ∀ j : Fin 32, (0x0000FFFF#32).getLsbD j.val = decide (j.val < 16) := by decide
    have hm := key ⟨i, hi⟩
    simp only [truncTo, BitVec.getLsbD_and, Width.bytes, BitVec.getLsbD_setWidth, hi,
      BitVec.getLsbD_extractLsb', Nat.zero_add, decide_true, Bool.true_and]
    rw [Bool.and_comm]
    exact congrArg (· && v.getLsbD i) hm
  · apply BitVec.eq_of_getLsbD_eq
    intro i hi
    simp [truncTo, Width.bytes, hi]

/-- Loading a truncated value and extending it is extending the value. -/
theorem extendLoad_truncTo (w : Width) (v : Word) : extendLoad w (truncTo w v) = extendLoad w v := by
  cases w
  · simp only [extendLoad]
    congr 1
    rw [truncTo_eq]
    apply BitVec.eq_of_getLsbD_eq
    intro i hi
    have : i < 32 := by omega
    simp [-BitVec.getLsbD_eq_getElem, Width.bytes, hi, this]
  · simp only [extendLoad]
    congr 1
    rw [truncTo_eq]
    apply BitVec.eq_of_getLsbD_eq
    intro i hi
    have : i < 32 := by omega
    simp [-BitVec.getLsbD_eq_getElem, Width.bytes, hi, this]
  · rfl

/-- Gathered bytes are the number they make, low byte first (R32). -/
theorem gatherBytes_eq_bytesValue (f : Nat → Byte) (n : Nat) :
    gatherBytes f n = BitVec.ofNat 32 (bytesValue f n) := by
  induction n generalizing f with
  | zero => rfl
  | succ n ih =>
    have hb := (f 0).isLt
    rw [gatherBytes, bytesValue, ih]
    apply BitVec.eq_of_toNat_eq
    have h0 : (f 0).zeroExtend 32 &&&
        (BitVec.ofNat 32 (bytesValue (fun k => f (k + 1)) n) <<< 8) = 0#32 := by
      apply BitVec.eq_of_getLsbD_eq
      intro i hi
      rw [BitVec.getLsbD_and, BitVec.getLsbD_shiftLeft]
      by_cases h8 : i < 8
      · simp [-BitVec.getLsbD_eq_getElem, h8]
      · have : (BitVec.zeroExtend 32 (f 0)).getLsbD i = false := by
          show ((f 0).setWidth 32).getLsbD i = false
          rw [BitVec.getLsbD_setWidth, BitVec.getLsbD_of_ge _ i (by omega), Bool.and_false]
        rw [this, Bool.false_and]
        simp
    rw [← BitVec.add_eq_or_of_and_eq_zero _ _ h0, BitVec.toNat_add, BitVec.toNat_shiftLeft]
    show (((f 0).setWidth 32).toNat + _) % _ = _
    rw [BitVec.toNat_setWidth, BitVec.toNat_ofNat, BitVec.toNat_ofNat, Nat.shiftLeft_eq]
    omega

theorem bytesValue_lt (f : Nat → Byte) (n : Nat) : bytesValue f n < 256 ^ n := by
  induction n generalizing f with
  | zero => simp [bytesValue]
  | succ n ih =>
    have h := ih (fun k => f (k + 1))
    have hb := (f 0).isLt
    rw [bytesValue, Nat.pow_succ]
    omega

theorem littleEndian_eq (m : Memory) (a n : Nat) :
    littleEndian m a n = bytesValue (fun k => readByte m (a + k)) n := by
  induction n generalizing a with
  | zero => rfl
  | succ n ih =>
    rw [littleEndian, bytesValue, ih, Nat.add_zero]
    congr 3
    funext k
    rw [Nat.add_assoc, Nat.add_comm 1 k]

theorem littleEndian_lt (m : Memory) (a n : Nat) : littleEndian m a n < 256 ^ n := by
  rw [littleEndian_eq]
  exact bytesValue_lt _ _

/-- A wide read is the number its bytes make, low byte first (R32). -/
theorem readBytes_eq_littleEndian (m : Memory) (a n : Nat) :
    readBytes m a n = BitVec.ofNat 32 (littleEndian m a n) := by
  rw [littleEndian_eq, ← gatherBytes_eq_bytesValue, gatherBytes_readByte]

/-- Extending a loaded number of the width's bytes. -/
theorem extendLoad_ofNat (w : Width) (x : Nat) :
    extendLoad w (BitVec.ofNat 32 x) = (BitVec.ofNat (8 * w.bytes) x).signExtend 32 := by
  cases w
  · simp only [extendLoad, Width.bytes]
    congr 1
    apply BitVec.eq_of_toNat_eq
    rw [BitVec.extractLsb'_toNat, BitVec.toNat_ofNat, BitVec.toNat_ofNat, Nat.shiftRight_zero]
    omega
  · simp only [extendLoad, Width.bytes]
    congr 1
    apply BitVec.eq_of_toNat_eq
    rw [BitVec.extractLsb'_toNat, BitVec.toNat_ofNat, BitVec.toNat_ofNat, Nat.shiftRight_zero]
    omega
  · exact (BitVec.signExtend_eq _).symm

/-- Extending a loaded word. -/
theorem extendLoad_extract (w : Width) (v : Word) :
    extendLoad w v = (v.extractLsb' 0 (8 * w.bytes)).signExtend 32 := by
  cases w
  · rfl
  · rfl
  · simp only [extendLoad, Width.bytes]
    apply BitVec.eq_of_getLsbD_eq
    intro i hi
    rw [BitVec.getLsbD_signExtend]
    simp [-BitVec.getLsbD_eq_getElem, hi]

/-! ## The primitives by what answers (R39, R43, R48) -/

/-- Everything a read can answer: the bytes from what answers, after at most one read of each space's
device. -/
theorem readAccess_next {place : Nat → Place} {w : Width} {a v : Word} {s t : State}
    (h : readAccess place w a s = .next (v, t)) :
    ∃ b c : Bool, t = (deviceReadIf c .io w a (deviceReadIf b .memory w a s).2).2 := by
  unfold readAccess at h
  dsimp only at h
  split at h
  · cases h
  · split at h
    · cases h
    · simp only [Host.Outcome.next.injEq, Prod.mk.injEq] at h
      exact ⟨_, _, h.2.symm⟩

/-- Everything a write can answer: the spaces written where the places say, and at most one write to each
space's device. -/
theorem writeAccess_next {place : Nat → Place} {w : Width} {a v : Word} {s t : State}
    (h : writeAccess place w a v s = .next t) :
    ∃ b c : Bool, t = deviceWriteIf c .io w a v (deviceWriteIf b .memory w a v
      { s with
        mem := writeBytesWhere (fun x => place x == .ram) s.mem a.toNat w.bytes v
        io := writeBytesWhere (fun x => place x == .storage) s.io a.toNat w.bytes v }) := by
  unfold writeAccess at h
  dsimp only at h
  split at h
  · cases h
  · split at h
    · cases h
    · split at h
      · cases h
      · simp only [Host.Outcome.next.injEq] at h
        exact ⟨_, _, h.symm⟩

/-- A read that touches no device and nothing unmapped gathers its bytes and changes nothing. -/
theorem readAccess_quiet {place : Nat → Place} {w : Width} {a : Word} {s : State}
    (hu : ∀ k, k < w.bytes → ∀ sp, place (a.toNat + k) ≠ .unmapped sp)
    (hd : ∀ k, k < w.bytes → ∀ sp, place (a.toNat + k) ≠ .device sp) :
    readAccess place w a s =
      .next (gatherBytes (fun k => placeByte place s a.toNat 0 0 (a.toNat + k)) w.bytes, s) := by
  unfold readAccess
  simp only [touches_eq_false.mpr fun k hk => hu k hk _, touches_eq_false.mpr fun k hk => hd k hk _,
    deviceReadIf, Bool.false_eq_true, if_false]

/-- A read of ram and rom. -/
theorem readAccess_plain {place : Nat → Place} {w : Width} {a : Word} {s : State}
    (h : ∀ k, k < w.bytes → place (a.toNat + k) = .ram ∨ place (a.toNat + k) = .rom) :
    readAccess place w a s = .next (readBytes s.mem a.toNat w.bytes, s) := by
  rw [readAccess_quiet (fun k hk sp c => by rcases h k hk with h | h <;> rw [h] at c <;> cases c)
    (fun k hk sp c => by rcases h k hk with h | h <;> rw [h] at c <;> cases c),
    ← gatherBytes_readByte]
  congr 2
  exact gatherBytes_congr fun k hk => by
    unfold placeByte
    rcases h k hk with h | h <;> rw [h]

/-- A read of plain storage. -/
theorem readAccess_storage {place : Nat → Place} {w : Width} {a : Word} {s : State}
    (h : ∀ k, k < w.bytes → place (a.toNat + k) = .storage) :
    readAccess place w a s = .next (readBytes s.io a.toNat w.bytes, s) := by
  rw [readAccess_quiet (fun k hk sp c => by rw [h k hk] at c; cases c)
    (fun k hk sp c => by rw [h k hk] at c; cases c), ← gatherBytes_readByte]
  congr 2
  exact gatherBytes_congr fun k hk => by
    unfold placeByte
    rw [h k hk]

/-- A read of a device. -/
theorem readAccess_device {place : Nat → Place} {w : Width} {a : Word} {s : State} {sp : Space}
    (h : ∀ k, k < w.bytes → place (a.toNat + k) = .device sp) :
    readAccess place w a s = .next (deviceRead sp w a s) := by
  have hv : ∀ v : Word, gatherBytes (fun k => (truncTo w v).extractLsb' (8 * k) 8) w.bytes =
      truncTo w v := fun v => by
    rw [gatherBytes_extract, truncTo_eq]
    apply BitVec.eq_of_getLsbD_eq
    intro i hi
    simp [-BitVec.getLsbD_eq_getElem, hi]
  unfold readAccess
  simp only [touches_all h w.bytes_pos]
  cases sp
  · simp only [deviceReadIf]
    refine congrArg Host.Outcome.next (Prod.ext ((gatherBytes_congr fun k hk => ?_).trans
      (hv (Config.deviceAnswer s.draws .memory a.toNat w.bytes))) rfl)
    unfold placeByte
    rw [h k hk]
    simp [deviceRead]
  · simp only [deviceReadIf]
    refine congrArg Host.Outcome.next (Prod.ext ((gatherBytes_congr fun k hk => ?_).trans
      (hv (Config.deviceAnswer s.draws .io a.toNat w.bytes))) rfl)
    unfold placeByte
    rw [h k hk]
    simp [deviceRead]

/-- A write that touches no device, no rom and nothing unmapped. -/
theorem writeAccess_quiet {place : Nat → Place} {w : Width} {a v : Word} {s : State}
    (h : ∀ k, k < w.bytes → place (a.toNat + k) = .ram ∨ place (a.toNat + k) = .storage) :
    writeAccess place w a v s = .next
      { s with
        mem := writeBytesWhere (fun x => place x == .ram) s.mem a.toNat w.bytes v
        io := writeBytesWhere (fun x => place x == .storage) s.io a.toNat w.bytes v } := by
  have no : ∀ p, p ≠ .ram → p ≠ .storage → touches place a.toNat w.bytes p = false :=
    fun p h1 h2 => touches_eq_false.mpr fun k hk c => by
      rcases h k hk with h | h <;> rw [h] at c
      · exact h1 c.symm
      · exact h2 c.symm
  unfold writeAccess
  simp only [no _ (by simp : Place.unmapped .io ≠ .ram) (by simp),
    no _ (by simp : Place.unmapped .memory ≠ .ram) (by simp), no _ (by simp : Place.rom ≠ .ram) (by simp),
    no _ (by simp : Place.device .io ≠ .ram) (by simp),
    no _ (by simp : Place.device .memory ≠ .ram) (by simp), deviceWriteIf, Bool.false_eq_true, if_false]

/-- A write to ram. -/
theorem writeAccess_ram {place : Nat → Place} {w : Width} {a v : Word} {s : State}
    (h : ∀ k, k < w.bytes → place (a.toNat + k) = .ram) :
    writeAccess place w a v s =
      .next { s with mem := writeBytes s.mem a.toNat w.bytes v } := by
  rw [writeAccess_quiet fun k hk => .inl (h k hk),
    writeBytesWhere_all (p := fun x => place x == .ram) fun k hk => by simp [h k hk],
    writeBytesWhere_none (p := fun x => place x == .storage) fun k hk => by simp [h k hk]]

/-- A write to plain storage. -/
theorem writeAccess_storage {place : Nat → Place} {w : Width} {a v : Word} {s : State}
    (h : ∀ k, k < w.bytes → place (a.toNat + k) = .storage) :
    writeAccess place w a v s =
      .next { s with io := writeBytes s.io a.toNat w.bytes v } := by
  rw [writeAccess_quiet fun k hk => .inr (h k hk),
    writeBytesWhere_none (p := fun x => place x == .ram) fun k hk => by simp [h k hk],
    writeBytesWhere_all (p := fun x => place x == .storage) fun k hk => by simp [h k hk]]

/-- A write to a device. -/
theorem writeAccess_device {place : Nat → Place} {w : Width} {a v : Word} {s : State} {sp : Space}
    (h : ∀ k, k < w.bytes → place (a.toNat + k) = .device sp) :
    writeAccess place w a v s = .next (deviceWrite sp w a v s) := by
  have h1 := writeBytesWhere_none (p := fun x => place x == .ram) (a := a.toNat) (n := w.bytes)
    (fun k hk => by simp [h k hk]) s.mem v
  have h2 := writeBytesWhere_none (p := fun x => place x == .storage) (a := a.toNat) (n := w.bytes)
    (fun k hk => by simp [h k hk]) s.io v
  unfold writeAccess
  simp only [touches_all h w.bytes_pos, h1, h2]
  cases sp <;> simp [deviceWriteIf]

/-! ## The same for the memory space -/

theorem memRead_plain {w : Width} {a : Word} {s : State} (h : s.MemPlain a.toNat w.bytes) :
    memRead w a s = .next (readBytes s.mem a.toNat w.bytes, s) :=
  readAccess_plain fun k hk => (h k hk).imp memPlace_ram.mpr memPlace_rom.mpr

theorem memRead_device {w : Width} {a : Word} {s : State} (h : s.MemAll .device a.toNat w.bytes) :
    memRead w a s = .next (deviceRead .memory w a s) :=
  readAccess_device fun k hk => memPlace_device.mpr (h k hk)

theorem memRead_none {w : Width} {a : Word} {s : State} (h : s.MemSome .none a.toNat w.bytes) :
    memRead w a s = .fault (.unmappedAddress a.toNat) := by
  have := memTouches s a.toNat w.bytes
  simp [memRead, readAccess, this.1.mpr h, this.2.2.2.1]

theorem memWrite_ram {w : Width} {a v : Word} {s : State} (h : s.MemAll .ram a.toNat w.bytes) :
    memWrite w a v s = .next { s with mem := writeBytes s.mem a.toNat w.bytes v } :=
  writeAccess_ram fun k hk => memPlace_ram.mpr (h k hk)

theorem memWrite_device {w : Width} {a v : Word} {s : State}
    (h : s.MemAll .device a.toNat w.bytes) :
    memWrite w a v s = .next (deviceWrite .memory w a v s) :=
  writeAccess_device fun k hk => memPlace_device.mpr (h k hk)

theorem memWrite_none {w : Width} {a v : Word} {s : State} (h : s.MemSome .none a.toNat w.bytes) :
    memWrite w a v s = .fault (.unmappedAddress a.toNat) := by
  have := memTouches s a.toNat w.bytes
  simp [memWrite, writeAccess, this.1.mpr h, this.2.2.2.1]

theorem memWrite_rom {w : Width} {a v : Word} {s : State} (hm : s.MemMapped a.toNat w.bytes)
    (h : s.MemSome .rom a.toNat w.bytes) : memWrite w a v s = .fault (.romWrite a.toNat) := by
  have := memTouches s a.toNat w.bytes
  have hn : touches s.memPlace a.toNat w.bytes (.unmapped .memory) = false := by
    rw [touches_eq_false]
    intro k hk c
    exact hm k hk (memPlace_unmapped.mp c)
  simp [memWrite, writeAccess, hn, this.2.2.1.mpr h, this.2.2.2.1]

/-- Everything a memory write can answer, in memory: some of its own bytes written; the ports stay. -/
theorem memWrite_next {w : Width} {a v : Word} {s t : State} (h : memWrite w a v s = .next t) :
    ∃ b : Bool, t = deviceWriteIf b .memory w a v
      { s with mem := writeBytesWhere (fun x => s.memPlace x == .ram) s.mem a.toNat w.bytes v } := by
  unfold memWrite writeAccess at h
  have hio := (memTouches s a.toNat w.bytes).2.2.2.2
  have hst := writeBytesWhere_none (p := fun x => s.memPlace x == .storage) (a := a.toNat)
    (n := w.bytes) (fun k _ => by simp [memPlace_not_storage]) s.io v
  simp only [hio, hst, deviceWriteIf, Bool.false_eq_true, if_false] at h
  split at h
  · cases h
  · split at h
    · cases h
    · split at h
      · cases h
      · simp only [Host.Outcome.next.injEq] at h
        exact ⟨_, h.symm⟩

/-! ## Stored bytes -/

/-- A write stores its bytes and nothing else. -/
theorem storedAt_writeBytes {s t : State} {a n : Nat} {v : Word} (h : t.mem = writeBytes s.mem a n v) :
    StoredAt s t a n v := by
  refine ⟨fun k hk => ?_, fun c hc => ?_⟩
  · rw [h, readByte_writeBytes, if_pos (by omega)]
    congr 2
    omega
  · rw [h, readByte_writeBytes, if_neg (by omega)]

/-- The same for the port space. -/
theorem storedAtPort_writeBytes {s t : State} {a n : Nat} {v : Word}
    (h : t.io = writeBytes s.io a n v) : StoredAtPort s t a n v := by
  refine ⟨fun k hk => ?_, fun c hc => ?_⟩
  · rw [h, readByte_writeBytes, if_pos (by omega)]
    congr 2
    omega
  · rw [h, readByte_writeBytes, if_neg (by omega)]

/-! ## The shared shapes of loads, stores and ports -/

/-- Only memory, ports and device accesses differ, and the pc has moved. -/
theorem coreEffect_advance {s u : State} {next : Word}
    (h : u = { s with mem := u.mem, io := u.io, deviceLog := u.deviceLog, draws := u.draws })
    (len : Word) (hn : next = s.pc + len) : CoreEffect s (u.advance len) [] [] next := by
  have e : ∀ {α : Type} (f : State → α),
      f u = f { s with mem := u.mem, io := u.io, deviceLog := u.deviceLog, draws := u.draws } :=
    fun f => congrArg f h
  exact
    { regs := regsAfter_nil (e State.regs)
      psw := pswKeeps_refl (e State.psw) _
      pc := by rw [hn, advance_pc, e State.pc]
      system := ⟨e State.eipc, e State.eipsw, e State.fepc, e State.fepsw, e State.ecr, e State.pir,
        e State.tkcw, e State.chcw, e State.adtre⟩
      control := ⟨e State.halted, e State.stopped, e State.inputs, e State.icache, e State.config⟩ }

/-- The same with a register written. -/
theorem coreEffect_writeReg {s u : State} (reg2 : RegIdx) (v len : Word)
    (h : u = { s with mem := u.mem, io := u.io, deviceLog := u.deviceLog, draws := u.draws }) :
    CoreEffect s ((u.writeReg reg2 v).advance len) [(reg2, v)] [] (s.pc + len) := by
  have e : ∀ {α : Type} (f : State → α),
      f u = f { s with mem := u.mem, io := u.io, deviceLog := u.deviceLog, draws := u.draws } :=
    fun f => congrArg f h
  have hr : (u.writeReg reg2 v).regs = (s.writeReg reg2 v).regs := by
    have := e State.regs
    unfold State.writeReg
    split
    · exact this
    · simp only [this]
  exact
    { regs := regsAfter_one reg2 v hr
      psw := pswKeeps_refl (by simpa using e State.psw) _
      pc := by rw [advance_pc, writeReg_pc, e State.pc]
      system := by
        refine ⟨?_, ?_, ?_, ?_, ?_, ?_, ?_, ?_, ?_⟩ <;> simp
        · exact e State.eipc
        · exact e State.eipsw
        · exact e State.fepc
        · exact e State.fepsw
        · exact e State.ecr
        · exact e State.pir
        · exact e State.tkcw
        · exact e State.chcw
        · exact e State.adtre
      control := by
        refine ⟨?_, ?_, ?_, ?_, ?_⟩ <;> simp
        · exact e State.halted
        · exact e State.stopped
        · exact e State.inputs
        · exact e State.icache
        · exact e State.config }

/-- A load from ram or rom (R151-R153). -/
theorem loadMem_plain (w : Width) (d : BitVec 16) (r1 r2 : RegIdx) (s : State)
    (h : s.MemPlain (accessAddr w d r1 s).toNat w.bytes) :
    ∃ t, loadMem w d r1 r2 s = .next t ∧
      Effect s t [(r2, extendLoad w
        (BitVec.ofNat 32 (littleEndian s.mem (accessAddr w d r1 s).toNat w.bytes)))] []
        (s.pc + 4) := by
  unfold loadMem
  rw [memRead_plain h, bindOutcome_next,
    readBytes_eq_littleEndian]
  exact finishPlain_effect _ _ _ _

/-- A load from a device: one read, also when the register is r0 (R39, R151). -/
theorem loadMem_device (w : Width) (d : BitVec 16) (r1 r2 : RegIdx) (s : State)
    (h : s.MemAll .device (accessAddr w d r1 s).toNat w.bytes) :
    ∃ t v, loadMem w d r1 r2 s = .next t ∧
      DeviceWasRead s t .memory (accessAddr w d r1 s) w.bytes v ∧
      CoreEffect s t [(r2, extendLoad w v)] [] (s.pc + 4) ∧ SameMemory s t ∧ SamePorts s t := by
  unfold loadMem
  rw [memRead_device h, bindOutcome_next]
  refine ⟨_, _, rfl, ⟨truncTo_eq _ _, by simp [deviceRead], by simp [deviceRead]⟩,
    coreEffect_writeReg r2 _ 4 rfl, fun a => by simp [deviceRead], fun a => by simp [deviceRead]⟩

/-- A store to ram (R154-R156). -/
theorem storeMem_ram (w : Width) (d : BitVec 16) (r1 r2 : RegIdx) (s : State)
    (h : s.MemAll .ram (accessAddr w d r1 s).toNat w.bytes) :
    ∃ t, storeMem w r2 d r1 s = .next t ∧ CoreEffect s t [] [] (s.pc + 4) ∧
      StoredAt s t (accessAddr w d r1 s).toNat w.bytes (s.readReg r2) ∧ SamePorts s t ∧
      NoDevice s t := by
  unfold storeMem
  rw [memWrite_ram h, bindOutcome_next]
  exact ⟨_, rfl, coreEffect_advance rfl 4 rfl, storedAt_writeBytes rfl, fun _ => rfl, rfl, rfl⟩

/-- A store to a device: one write (R39). -/
theorem storeMem_device (w : Width) (d : BitVec 16) (r1 r2 : RegIdx) (s : State)
    (h : s.MemAll .device (accessAddr w d r1 s).toNat w.bytes) :
    ∃ t, storeMem w r2 d r1 s = .next t ∧ CoreEffect s t [] [] (s.pc + 4) ∧
      DeviceWasWritten s t .memory (accessAddr w d r1 s) w.bytes (s.readReg r2) ∧ SameMemory s t ∧
      SamePorts s t := by
  unfold storeMem
  rw [memWrite_device h, bindOutcome_next]
  exact ⟨_, rfl, coreEffect_advance rfl 4 rfl, ⟨by rw [← truncTo_eq]; rfl, rfl⟩, fun _ => rfl,
    fun _ => rfl⟩

/-- A port input from plain storage (R33, R157-R159). -/
theorem inputPort_storage (w : Width) (d : BitVec 16) (r1 r2 : RegIdx) (s : State)
    (h : s.PortAll .storage (accessAddr w d r1 s).toNat w.bytes) :
    ∃ t, inputPort w d r1 r2 s = .next t ∧
      Effect s t [(r2, BitVec.ofNat 32 (littleEndian s.io (accessAddr w d r1 s).toNat w.bytes))] []
        (s.pc + 4) := by
  have hr : ioRead w (accessAddr w d r1 s) s =
      .next (readBytes s.io (accessAddr w d r1 s).toNat w.bytes, s) :=
    readAccess_storage fun k hk => by simp [State.portPlace, h k hk]
  unfold inputPort
  rw [hr, bindOutcome_next, readBytes_eq_littleEndian]
  exact finishPlain_effect _ _ _ _

/-- A port input where the ports are memory (R33). -/
theorem inputPort_alias_plain (w : Width) (d : BitVec 16) (r1 r2 : RegIdx) (s : State)
    (h : s.PortAll .aliasMemory (accessAddr w d r1 s).toNat w.bytes)
    (hm : s.MemPlain (accessAddr w d r1 s).toNat w.bytes) :
    ∃ t, inputPort w d r1 r2 s = .next t ∧
      Effect s t [(r2, BitVec.ofNat 32 (littleEndian s.mem (accessAddr w d r1 s).toNat w.bytes))] []
        (s.pc + 4) := by
  have hr : ioRead w (accessAddr w d r1 s) s =
      .next (readBytes s.mem (accessAddr w d r1 s).toNat w.bytes, s) :=
    readAccess_plain fun k hk => by
      rw [portPlace_alias (h k hk)]
      exact (hm k hk).imp memPlace_ram.mpr memPlace_rom.mpr
  unfold inputPort
  rw [hr, bindOutcome_next, readBytes_eq_littleEndian]
  exact finishPlain_effect _ _ _ _

/-- A port input that reaches a device, as a port or as memory (R33, R39). -/
theorem inputPort_device (w : Width) (d : BitVec 16) (r1 r2 : RegIdx) (s : State) (space : Space)
    (h : ioRead w (accessAddr w d r1 s) s = .next (deviceRead space w (accessAddr w d r1 s) s)) :
    ∃ t v, inputPort w d r1 r2 s = .next t ∧
      DeviceWasRead s t space (accessAddr w d r1 s) w.bytes v ∧
      CoreEffect s t [(r2, v)] [] (s.pc + 4) ∧ SameMemory s t ∧ SamePorts s t := by
  unfold inputPort
  rw [h, bindOutcome_next]
  exact ⟨_, _, rfl, ⟨truncTo_eq _ _, by simp [deviceRead], by simp [deviceRead]⟩,
    coreEffect_writeReg r2 _ 4 rfl, fun a => by simp [deviceRead], fun a => by simp [deviceRead]⟩

/-- A port output to plain storage (R33, R161-R163). -/
theorem outputPort_storage (w : Width) (d : BitVec 16) (r1 r2 : RegIdx) (s : State)
    (h : s.PortAll .storage (accessAddr w d r1 s).toNat w.bytes) :
    ∃ t, outputPort w r2 d r1 s = .next t ∧ CoreEffect s t [] [] (s.pc + 4) ∧
      StoredAtPort s t (accessAddr w d r1 s).toNat w.bytes (s.readReg r2) ∧ SameMemory s t ∧
      NoDevice s t := by
  have hr : ioWrite w (accessAddr w d r1 s) (s.readReg r2) s =
      .next { s with io := writeBytes s.io (accessAddr w d r1 s).toNat w.bytes (s.readReg r2) } :=
    writeAccess_storage fun k hk => by simp [State.portPlace, h k hk]
  unfold outputPort
  rw [hr, bindOutcome_next]
  exact ⟨_, rfl, coreEffect_advance rfl 4 rfl, storedAtPort_writeBytes rfl, fun _ => rfl, rfl, rfl⟩

/-- A port output where the ports are memory (R33). -/
theorem outputPort_alias_ram (w : Width) (d : BitVec 16) (r1 r2 : RegIdx) (s : State)
    (h : s.PortAll .aliasMemory (accessAddr w d r1 s).toNat w.bytes)
    (hm : s.MemAll .ram (accessAddr w d r1 s).toNat w.bytes) :
    ∃ t, outputPort w r2 d r1 s = .next t ∧ CoreEffect s t [] [] (s.pc + 4) ∧
      StoredAt s t (accessAddr w d r1 s).toNat w.bytes (s.readReg r2) ∧ SamePorts s t ∧
      NoDevice s t := by
  have hr : ioWrite w (accessAddr w d r1 s) (s.readReg r2) s =
      .next { s with mem := writeBytes s.mem (accessAddr w d r1 s).toNat w.bytes (s.readReg r2) } :=
    writeAccess_ram fun k hk => by
      rw [portPlace_alias (h k hk)]
      exact memPlace_ram.mpr (hm k hk)
  unfold outputPort
  rw [hr, bindOutcome_next]
  exact ⟨_, rfl, coreEffect_advance rfl 4 rfl, storedAt_writeBytes rfl, fun _ => rfl, rfl, rfl⟩

/-- A port output that reaches a device, as a port or as memory (R33, R39). -/
theorem outputPort_device (w : Width) (d : BitVec 16) (r1 r2 : RegIdx) (s : State) (space : Space)
    (h : ioWrite w (accessAddr w d r1 s) (s.readReg r2) s =
      .next (deviceWrite space w (accessAddr w d r1 s) (s.readReg r2) s)) :
    ∃ t, outputPort w r2 d r1 s = .next t ∧
      DeviceWasWritten s t space (accessAddr w d r1 s) w.bytes (s.readReg r2) ∧
      CoreEffect s t [] [] (s.pc + 4) ∧ SameMemory s t ∧ SamePorts s t := by
  unfold outputPort
  rw [h, bindOutcome_next]
  exact ⟨_, rfl, ⟨by rw [← truncTo_eq]; rfl, rfl⟩, coreEffect_advance rfl 4 rfl, fun _ => rfl,
    fun _ => rfl⟩

/-- A register and the four flags written after accesses (R160). -/
theorem coreEffect_finishFlagged {s u : State} (reg2 : RegIdx) (r len : Word) (f : Flags)
    (h : u = { s with mem := u.mem, io := u.io, deviceLog := u.deviceLog, draws := u.draws }) :
    ∃ t, finishFlagged reg2 r f len u = .next t ∧
      CoreEffect s t [(reg2, r)] [bitZ, bitS, bitOV, bitCY] (s.pc + len) ∧
      t.psw = withFlags s.psw f ∧ t.mem = u.mem ∧ t.io = u.io ∧ t.deviceLog = u.deviceLog ∧
      t.draws = u.draws := by
  have hc := coreEffect_writeReg reg2 r len h
  have hp : u.psw = s.psw := by rw [h]
  refine ⟨_, rfl, ⟨fun j => ?_, ?_, ?_, ?_, ?_⟩, by simp [hp], by simp, by simp, by simp, by simp⟩
  · have := hc.regs j
    simpa using this
  · exact pswKeeps_withFlags (f := f) (by simp [hp])
  · have := hc.pc
    simpa using this
  · have := hc.system
    simpa [SameSystem] using this
  · have := hc.control
    simpa [SameControl] using this

/-- `caxi` on a word of ram (R160). -/
theorem execCaxi_ram (d : BitVec 16) (r1 r2 : RegIdx) (s : State)
    (h : s.MemAll .ram (accessAddr .word d r1 s).toNat 4) :
    ∃ t w, execCaxi d r1 r2 s = .next t ∧
      w = BitVec.ofNat 32 (littleEndian s.mem (accessAddr .word d r1 s).toNat 4) ∧
      CoreEffect s t [(r2, w)] [bitZ, bitS, bitOV, bitCY] (s.pc + 4) ∧
      SubFlagsAre t (s.readReg r2) w ∧
      StoredAt s t (accessAddr .word d r1 s).toNat 4
        (if s.readReg r2 = w then s.readReg 30 else w) ∧
      SamePorts s t ∧ NoDevice s t := by
  have hr := readBytes_eq_littleEndian s.mem (accessAddr .word d r1 s).toNat 4
  unfold execCaxi
  simp only [memRead_plain (w := .word) (memPlain_of_ram h), bindOutcome_next, memWrite_ram (w := .word) h, Width.bytes]
  generalize hw : readBytes s.mem (accessAddr .word d r1 s).toNat 4 = w
  obtain ⟨t, h1, h2, h3, h4, h5, h6, h7⟩ := coreEffect_finishFlagged (s := s)
    (u := { s with
        mem := writeBytes s.mem (accessAddr .word d r1 s).toNat 4
          (if s.readReg r2 = w then s.readReg 30 else w) }) r2 w 4 (subFlags (s.readReg r2) w) rfl
  exact ⟨t, w, h1, hw.symm.trans hr, h2, subFlagsAre_of_psw h3, storedAt_writeBytes h4,
    fun a => by rw [h5], h6, h7⟩

/-- `caxi` on a device: one read, then one write (R39, R160). -/
theorem execCaxi_device (d : BitVec 16) (r1 r2 : RegIdx) (s : State)
    (h : s.MemAll .device (accessAddr .word d r1 s).toNat 4) :
    ∃ t w, execCaxi d r1 r2 s = .next t ∧
      w = Config.deviceAnswer s.draws .memory (accessAddr .word d r1 s).toNat 4 ∧
      CoreEffect s t [(r2, w)] [bitZ, bitS, bitOV, bitCY] (s.pc + 4) ∧
      SubFlagsAre t (s.readReg r2) w ∧
      t.deviceLog = ⟨.memory, true, (accessAddr .word d r1 s).toNat, 4,
          if s.readReg r2 = w then s.readReg 30 else w⟩ ::
        ⟨.memory, false, (accessAddr .word d r1 s).toNat, 4, w⟩ :: s.deviceLog ∧
      t.draws = s.draws + 1 ∧ SameMemory s t ∧ SamePorts s t := by
  have hk : ∀ u : State, u.config = s.config →
      u.MemAll .device (accessAddr .word d r1 s).toNat 4 := fun u hu => (memAll_congr hu).mpr h
  let w := Config.deviceAnswer s.draws .memory (accessAddr .word d r1 s).toNat 4
  let s1 : State :=
    { s with
      draws := s.draws + 1
      deviceLog := ⟨.memory, false, (accessAddr .word d r1 s).toNat, 4, w⟩ :: s.deviceLog }
  let s2 := deviceWrite .memory .word (accessAddr .word d r1 s)
    (if s.readReg r2 = w then s.readReg 30 else w) s1
  obtain ⟨t, h1, h2, h3, h4, h5, h6, h7⟩ := coreEffect_finishFlagged (s := s) (u := s2)
    r2 w 4 (subFlags (s.readReg r2) w) rfl
  have hx : execCaxi d r1 r2 s = finishFlagged r2 w (subFlags (s.readReg r2) w) 4 s2 := by
    unfold execCaxi
    simp only [memRead_device (w := .word) (hk s rfl), bindOutcome_next]
    show bindOutcome (memWrite .word (accessAddr .word d r1 s) _ s1) _ = _
    rw [memWrite_device (w := .word) (hk s1 rfl)]
    rfl
  rw [hx]
  exact ⟨t, w, h1, rfl, h2, subFlagsAre_of_psw h3, h6, h7, fun a => by rw [h4]; rfl,
    fun a => by rw [h5]; rfl⟩

/-- A memory read answers wherever every byte is there; the parameters stay (R39, R48). -/
theorem memRead_mapped {w : Width} {a : Word} {s : State} (h : s.MemMapped a.toNat w.bytes) :
    ∃ v t, memRead w a s = .next (v, t) ∧ t.config = s.config := by
  have mt := memTouches s a.toNat w.bytes
  have hn : touches s.memPlace a.toNat w.bytes (.unmapped .memory) = false := by
    rw [touches_eq_false]; intro k hk c; exact h k hk (memPlace_unmapped.mp c)
  unfold memRead readAccess
  simp only [mt.2.2.2.1, mt.2.2.2.2, hn, Bool.false_eq_true, if_false, deviceReadIf]
  refine ⟨_, _, rfl, ?_⟩
  split <;> rfl

end Sys2Proof.Machine
end

