-- ==== Sys2Proof/Laws/Exceptions.lean ====
section
/-! SUPPORT. Taking an exception or an event, returning from one, reset: what each shared operation of
Machine/Ops.lean can do, said once. -/

namespace Sys2Proof.Machine

/-! ## ECR halves (R22) -/

/-- Every bit of two halves put together. -/
theorem getLsbD_halves (x y : BitVec 16) (i : Nat) :
    BitVec.getLsbD (w := 32) (x ++ y) i = if i < 16 then y.getLsbD i else x.getLsbD (i - 16) :=
  BitVec.getLsbD_append

@[simp] theorem eicc_withEicc (ecr : Word) (code : BitVec 16) :
    (withEicc ecr code).extractLsb' 0 16 = code := by
  apply BitVec.eq_of_getLsbD_eq
  intro i hi
  rw [BitVec.getLsbD_extractLsb', withEicc, getLsbD_halves]
  simp [-BitVec.getLsbD_eq_getElem, hi]

@[simp] theorem fecc_withEicc (ecr : Word) (code : BitVec 16) :
    (withEicc ecr code).extractLsb' 16 16 = ecr.extractLsb' 16 16 := by
  apply BitVec.eq_of_getLsbD_eq
  intro i hi
  rw [BitVec.getLsbD_extractLsb', withEicc, getLsbD_halves]
  simp [-BitVec.getLsbD_eq_getElem, hi]

@[simp] theorem fecc_withFecc (ecr : Word) (code : BitVec 16) :
    (withFecc ecr code).extractLsb' 16 16 = code := by
  apply BitVec.eq_of_getLsbD_eq
  intro i hi
  rw [BitVec.getLsbD_extractLsb', withFecc, getLsbD_halves]
  simp [-BitVec.getLsbD_eq_getElem, hi]

@[simp] theorem eicc_withFecc (ecr : Word) (code : BitVec 16) :
    (withFecc ecr code).extractLsb' 0 16 = ecr.extractLsb' 0 16 := by
  apply BitVec.eq_of_getLsbD_eq
  intro i hi
  rw [BitVec.getLsbD_extractLsb', withFecc, getLsbD_halves]
  simp [-BitVec.getLsbD_eq_getElem, hi]

/-! ## Entry -/

theorem pswKeeps_three {s t : State} {i j k : Nat} {a b c : Bool}
    (h : t.psw = setBit (setBit (setBit s.psw i a) j b) k c) : PswKeeps s t [i, j, k] := by
  intro n hn
  simp only [List.mem_cons, List.not_mem_nil, or_false, not_or] at hn
  rw [h, getLsbD_setBit_other _ _ _ _ hn.2.2, getLsbD_setBit_other _ _ _ _ hn.2.1,
    getLsbD_setBit_other _ _ _ _ hn.1]

/-- `enterRegular` is the entry of R214. -/
theorem enterRegular_entry (code : BitVec 16) (handler restore : Word) (s : State)
    (h : handler &&& 0xFFFFFFFE = handler) :
    RegularEntry s (enterRegular code handler restore s) code handler restore where
  keeps := ⟨rfl, rfl, rfl, rfl, rfl, rfl, rfl, rfl, rfl, ⟨rfl, rfl⟩, rfl⟩
  eipc := rfl
  eipsw := rfl
  eicc := by simp [enterRegular]
  fecc := by simp [enterRegular]
  ep := by simp [enterRegular, getElem_setBit, bitEP, bitID, bitAE]
  id := by simp [enterRegular, getElem_setBit, bitEP, bitID, bitAE]
  ae := by simp [enterRegular, bitEP, bitID, bitAE]
  psw := pswKeeps_three (a := true) (b := true) (c := false) rfl
  pc := h
  fepc := rfl
  fepsw := rfl
  halted := rfl
  inputs := rfl

/-- `enterFatalPair` is the entry of R217. -/
theorem enterFatalPair_entry (code : BitVec 16) (restore : Word) (s : State) :
    DuplexedEntry s (enterFatalPair code restore s) code restore where
  keeps := ⟨rfl, rfl, rfl, rfl, rfl, rfl, rfl, rfl, rfl, ⟨rfl, rfl⟩, rfl⟩
  fepc := rfl
  fepsw := rfl
  fecc := by simp [enterFatalPair]
  eicc := by simp [enterFatalPair]
  np := by simp [enterFatalPair, getElem_setBit, bitNP, bitID, bitAE]
  id := by simp [enterFatalPair, getElem_setBit, bitNP, bitID, bitAE]
  ae := by simp [enterFatalPair, bitNP, bitID, bitAE]
  psw := pswKeeps_three (a := true) (b := true) (c := false) rfl
  pc := rfl
  eipc := rfl
  eipsw := rfl
  halted := rfl
  inputs := rfl

/-- Every handler address is even. -/
theorem handler_even (e : Exc) : e.handler &&& 0xFFFFFFFE = e.handler := by
  cases e with
  | trap v =>
    simp only [Exc.handler]
    split <;> rfl
  | _ => rfl

/-- Taking an exception while NP = 0 enters (R214, R217). -/
theorem raise_enters (e : Exc) (restore : Word) (s : State) (h : s.psw.getLsbD bitNP = false) :
    ∃ t, raise e restore s = .next t ∧ Enters s t e.code e.handler restore := by
  unfold raise
  rw [if_neg (by simp [h])]
  split
  · rename_i hep
    exact ⟨_, rfl, fun c => by simp [c] at hep, fun _ => enterFatalPair_entry _ _ _⟩
  · rename_i hep
    exact ⟨_, rfl, fun _ => enterRegular_entry _ _ _ _ (handler_even e), fun c => absurd c hep⟩

/-- Everything taking an exception can answer (R214, R217, R219). -/
theorem raise_next {e : Exc} {restore : Word} {s t : State} (h : raise e restore s = .next t) :
    (s.psw.getLsbD bitNP = true ∧ s.config.fatalAction = .stop ∧ t = { s with stopped := true }) ∨
    (s.psw.getLsbD bitNP = true ∧ s.config.fatalAction = .stopWithDump ∧
      fatalDump e.code restore s = .next t) ∨
    (s.psw.getLsbD bitNP = false ∧ s.psw.getLsbD bitEP = true ∧
      t = enterFatalPair e.code restore s) ∨
    (s.psw.getLsbD bitNP = false ∧ s.psw.getLsbD bitEP = false ∧
      t = enterRegular e.code e.handler restore s) := by
  unfold raise at h
  split at h
  · rename_i hnp
    split at h
    · rename_i ha
      exact .inl ⟨hnp, ha, by simpa using h.symm⟩
    · rename_i ha
      exact .inr (.inl ⟨hnp, ha, h⟩)
  · rename_i hnp
    have hnp' : s.psw.getLsbD bitNP = false := by simpa using hnp
    split at h
    · rename_i hep
      exact .inr (.inr (.inl ⟨hnp', hep, by simpa using h.symm⟩))
    · rename_i hep
      exact .inr (.inr (.inr ⟨hnp', by simpa using hep, by simpa using h.symm⟩))

/-- A fatal dump changes memory (or the device log) and sets `stopped` (R219). -/
theorem fatalDump_next {code : BitVec 16} {restore : Word} {s t : State}
    (h : fatalDump code restore s = .next t) :
    ∃ s1 s2 s3, memWrite .word 0 (0xFFFF#16 ++ code) s = .next s1 ∧
      memWrite .word 4 s.psw s1 = .next s2 ∧ memWrite .word 8 restore s2 = .next s3 ∧
      t = { s3 with stopped := true } := by
  unfold fatalDump at h
  obtain ⟨s1, h1, h⟩ := (bindOutcome_eq_next _ _ _).mp h
  obtain ⟨s2, h2, h⟩ := (bindOutcome_eq_next _ _ _).mp h
  obtain ⟨s3, h3, h⟩ := (bindOutcome_eq_next _ _ _).mp h
  exact ⟨s1, s2, s3, h1, h2, h3, by simpa using h.symm⟩

/-- A fatal dump to ram writes its three words and sets `stopped` (R219). -/
theorem fatalDump_ram (code : BitVec 16) (restore : Word) (s : State)
    (h : ∀ k, k < 12 → s.memKind k = .ram) :
    fatalDump code restore s = .next
      { s with
        mem := writeBytes (writeBytes (writeBytes s.mem 0 4 (0xFFFF#16 ++ code)) 4 4 s.psw) 8 4 restore
        stopped := true } := by
  have part : ∀ (u : State) (a v : Word), u.config = s.config → a.toNat ≤ 8 →
      memWrite .word a v u = .next { u with mem := writeBytes u.mem a.toNat 4 v } :=
    fun u a v hu ha => memWrite_ram (w := .word) ((memAll_congr hu).mpr fun k hk => h _ (by
      simp only [Width.bytes] at hk
      omega))
  let s1 : State := { s with mem := writeBytes s.mem 0 4 (0xFFFF#16 ++ code) }
  let s2 : State := { s1 with mem := writeBytes s1.mem 4 4 s.psw }
  have h1 : memWrite .word 0 (0xFFFF#16 ++ code) s = .next s1 := part s 0 _ rfl (by decide)
  have h2 : memWrite .word 4 s.psw s1 = .next s2 := part s1 4 _ rfl (by decide)
  have h3 := part s2 8 restore rfl (by decide)
  simp only [fatalDump, h1, h2, h3, bindOutcome]
  rfl

/-- A memory write leaves every byte outside its own alone. -/
theorem memWrite_other {w : Width} {a v : Word} {s t : State} (h : memWrite w a v s = .next t)
    (c : Nat) (hc : a.toNat + w.bytes ≤ c) : readByte t.mem c = readByte s.mem c := by
  obtain ⟨b, rfl⟩ := memWrite_next h
  have : ∀ m, readByte (writeBytesWhere (fun x => s.memPlace x == .ram) m a.toNat w.bytes v) c =
      readByte m c := fun m => by rw [readByte_writeBytesWhere, if_neg (by omega)]
  cases b <;> exact this _

/-- A fatal exception stops the machine (R219). -/
theorem raise_stopsFatally (e : Exc) (restore : Word) (s : State) (h : s.psw.getLsbD bitNP = true) :
    StopsFatally (raise e restore s) s e.code restore := by
  refine ⟨fun ha => ?_, fun ha hm => ?_⟩
  · simp only [raise, h, ha, if_true]
  · have hr : raise e restore s = fatalDump e.code restore s := by
      simp only [raise, h, ha, if_true]
    rw [hr, fatalDump_ram _ _ _ hm]
    refine ⟨_, rfl, rfl, ?_, ?_, readBytes_writeBytes_word _ _ _, fun c hc => ?_⟩
    · rw [readBytes_writeBytes_other _ _ _ _ _ _ (by omega),
        readBytes_writeBytes_other _ _ _ _ _ _ (by omega), readBytes_writeBytes_word]
    · rw [readBytes_writeBytes_other _ _ _ _ _ _ (by omega), readBytes_writeBytes_word]
    · simp only [readByte_writeBytes]
      rw [if_neg (by omega), if_neg (by omega), if_neg (by omega)]

/-- An undefined instruction (R70-R72). -/
theorem undefinedInstruction_next {name : String} {s t : State}
    (h : undefinedInstruction name s = .next t) :
    s.config.undefinedOpcode = .exception ∧ raise .invalidOpcode s.pc s = .next t := by
  unfold undefinedInstruction at h
  split at h
  · exact ⟨‹_›, h⟩
  · cases h

/-! ## The boundary (R223) -/

/-- `acceptedEvent` answers nothing exactly when no event is acceptable. -/
theorem acceptedEvent_none_of_noEvent {s : State} (h : s.NoEvent) :
    acceptedEvent s.psw s.sample = none := by
  obtain ⟨_, hn, hi⟩ := h
  unfold acceptedEvent
  split
  · rfl
  · rename_i hnp
    have hnp' : s.psw.getLsbD bitNP = false := by simpa using hnp
    rw [if_neg fun c => hn ⟨c, hnp'⟩]
    split
    · rfl
    · rename_i n hlev
      split
      · rfl
      · rename_i hm
        simp only [Bool.or_eq_true, not_or, Bool.not_eq_true] at hm
        rw [if_neg fun c => hi n hlev ⟨hnp', hm.1, hm.2, c⟩]

/-- The NMI goes before everything (R223, R224). -/
theorem acceptedEvent_nmi {psw : Word} {i : Inputs} (h : psw.getLsbD bitNP = false)
    (hn : i.nmiReq = true) : acceptedEvent psw i = some .nmi := by
  simp only [acceptedEvent, h, hn, Bool.false_eq_true, if_false, if_true]

/-- A maskable interrupt under R223's condition. -/
theorem acceptedEvent_irq {psw : Word} {i : Inputs} {n : BitVec 4} (h : psw.getLsbD bitNP = false)
    (hn : i.nmiReq = false) (hl : i.irqLevel = some n) (hep : psw.getLsbD bitEP = false)
    (hid : psw.getLsbD bitID = false) (hle : (levelOf psw).toNat ≤ n.toNat) :
    acceptedEvent psw i = some (.irq n) := by
  simp only [acceptedEvent, h, hn, hl, hep, hid, hle, Bool.false_eq_true, if_false, if_true,
    Bool.or_self]

/-! ## One step -/

/-- Everything a step can do (R15, R224). -/
theorem stepWith_next {run : Instr → State → Result} {s t : State} (h : stepWith run s = .next t) :
    (s.sample.resetReq = true ∧ t = (performReset s).dropSample) ∨
    (s.stopped = false ∧ ∃ e, acceptedEvent s.psw s.sample = some e ∧
      t = (enterEvent e s).dropSample) ∨
    (s.stopped = false ∧ s.halted = true ∧ t = s.dropSample) ∨
    (s.stopped = false ∧ s.halted = false ∧
      ∃ u, runInstruction run s = .next u ∧ t = u.dropSample) := by
  unfold stepWith at h
  split at h
  · exact .inl ⟨‹_›, by simpa using h.symm⟩
  · split at h
    · cases h
    · rename_i hs
      have hs' : s.stopped = false := by simpa using hs
      split at h
      · rename_i e he
        exact .inr (.inl ⟨hs', e, he, by simpa using h.symm⟩)
      · split at h
        · exact .inr (.inr (.inl ⟨hs', ‹_›, by simpa using h.symm⟩))
        · rename_i hh
          obtain ⟨u, hu, h⟩ := (bindOutcome_eq_next _ _ _).mp h
          exact .inr (.inr (.inr ⟨hs', by simpa using hh, u, hu, by simpa using h.symm⟩))

/-- A running machine at a boundary without an event runs the instruction. -/
theorem stepWith_of_running {run : Instr → State → Result} {s : State} (h : s.NoEvent)
    (hh : s.halted = false) (hs : s.stopped = false) :
    stepWith run s = bindOutcome (runInstruction run s) fun t => .next t.dropSample := by
  unfold stepWith
  rw [if_neg (by simp [h.1]), if_neg (by simp [hs]), acceptedEvent_none_of_noEvent h]
  simp [hh]

/-- Everything the executing part of a step can do (R213). -/
theorem runInstruction_next {run : Instr → State → Result} {s t : State}
    (h : runInstruction run s = .next t) :
    (s.addressTrapDue = true ∧ raise .addressTrap s.pc s = .next t) ∨
    (s.addressTrapDue = false ∧ ∃ w u, fetchWords s = .next (w, u) ∧ runWords run w u = .next t) := by
  unfold runInstruction at h
  split at h
  · exact .inl ⟨‹_›, h⟩
  · rename_i ha
    obtain ⟨⟨w, u⟩, hu, h⟩ := (bindOutcome_eq_next _ _ _).mp h
    exact .inr ⟨by simpa using ha, w, u, hu, h⟩

/-- Everything the fetched words can lead to (R70-R72, R76). -/
theorem runWords_next {run : Instr → State → Result} {w : Half × Half} {s t : State}
    (h : runWords run w s = .next t) :
    (∃ name, undefinedInstruction name s = .next t) ∨
    (∃ i, decodeWords w.1 w.2 = .ok i ∧ run i s = .next t) := by
  unfold runWords at h
  split at h
  · exact .inl ⟨_, h⟩
  · exact .inl ⟨_, h⟩
  · exact .inl ⟨_, h⟩
  · exact .inl ⟨_, h⟩
  · rename_i i hi
    split at h
    · cases h
    · exact .inr ⟨i, hi, h⟩

/-! ## Fetching (R31, R46) -/

theorem remember_eq (s : State) (a : Word) (h : Half) :
    s.remember a h = { s with icache := (s.remember a h).icache } := by
  unfold State.remember
  split <;> rfl

/-- Everything a fetch can do: only the cache and the count of free values can differ. -/
theorem fetch16_next {a : Word} {s t : State} {h : Half} (hf : fetch16 a s = .next (h, t)) :
    s.MemPlain a.toNat 2 ∧
    (h, t) = cachedFetch a ((readBytes s.mem a.toNat 2).extractLsb' 0 16) s := by
  unfold fetch16 at hf
  split at hf
  · cases hf
  · split at hf
    · cases hf
    · simp only [Host.Outcome.next.injEq] at hf
      exact ⟨memPlain_of_touches ‹_› ‹_›, hf.symm⟩

/-- A fetch of bytes that are ram or rom (R31, R39). -/
theorem fetch16_plain {a : Word} {s : State} (h : s.MemPlain a.toNat 2) :
    fetch16 a s = .next (cachedFetch a ((readBytes s.mem a.toNat 2).extractLsb' 0 16) s) := by
  obtain ⟨h1, h2⟩ := memPlain_touches h
  simp only [fetch16, h1, h2, Bool.false_eq_true, if_false]

/-- A fetch where nothing answers has no step (R48). -/
theorem fetch16_none {a : Word} {s : State} (h : s.MemSome .none a.toNat 2) :
    fetch16 a s = .fault (.unmappedAddress a.toNat) := by
  simp only [fetch16, (memTouches s a.toNat 2).1.mpr h, if_true]

/-- A fetch from a device is refused (R39). -/
theorem fetch16_device {a : Word} {s : State} (hm : s.MemMapped a.toNat 2)
    (h : s.MemSome .device a.toNat 2) : fetch16 a s = .refused (.deviceFetch a.toNat) := by
  have hn : touches s.memPlace a.toNat 2 (.unmapped .memory) = false := by
    rw [touches_eq_false]
    intro k hk c
    exact hm k hk (memPlace_unmapped.mp c)
  simp only [fetch16, hn, (memTouches s a.toNat 2).2.1.mpr h, Bool.false_eq_true, if_false, if_true]

theorem cachedFetch_state (a : Word) (now : Half) (s : State) :
    (cachedFetch a now s).2 =
      { s with icache := (s.remember a now).icache, draws := (cachedFetch a now s).2.draws } := by
  have := remember_eq s a now
  unfold cachedFetch
  dsimp only
  split
  · rw [this]
  · rw [this]

/-- A fetch changes nothing but the cache and the count of free values. -/
theorem fetch16_state {a : Word} {s t : State} {h : Half} (hf : fetch16 a s = .next (h, t)) :
    t = { s with icache := t.icache, draws := t.draws } := by
  have e := cachedFetch_state a ((readBytes s.mem a.toNat 2).extractLsb' 0 16) s
  rw [← (fetch16_next hf).2] at e
  dsimp only at e
  rw [e]

/-- So does fetching an instruction. -/
theorem fetchWords_state {s t : State} {w : Half × Half} (h : fetchWords s = .next (w, t)) :
    t = { s with icache := t.icache, draws := t.draws } := by
  unfold fetchWords at h
  obtain ⟨⟨h0, u⟩, hu, h⟩ := (bindOutcome_eq_next _ _ _).mp h
  dsimp only at h
  split at h
  · obtain ⟨⟨h1, v⟩, hv, h⟩ := (bindOutcome_eq_next _ _ _).mp h
    simp only [Host.Outcome.next.injEq, Prod.mk.injEq] at h
    obtain ⟨_, rfl⟩ := h
    have e1 := fetch16_state hu
    have e2 := fetch16_state hv
    rw [e2, e1]
  · simp only [Host.Outcome.next.injEq, Prod.mk.injEq] at h
    obtain ⟨_, rfl⟩ := h
    exact fetch16_state hu

/-- A fetch draws free values or none. -/
theorem fetch16_draws {a : Word} {s t : State} {h : Half} (hf : fetch16 a s = .next (h, t)) :
    s.draws ≤ t.draws := by
  have := congrArg (fun p => p.2.draws) (fetch16_next hf).2
  dsimp only at this
  rw [this]
  unfold cachedFetch
  dsimp only
  split
  · rw [remember_eq]
  · exact Nat.le_succ _

theorem fetchWords_draws {s t : State} {w : Half × Half} (h : fetchWords s = .next (w, t)) :
    s.draws ≤ t.draws := by
  unfold fetchWords at h
  obtain ⟨⟨h0, u⟩, hu, h⟩ := (bindOutcome_eq_next _ _ _).mp h
  have := fetch16_draws hu
  dsimp only at h
  split at h
  · obtain ⟨⟨h1, v⟩, hv, h⟩ := (bindOutcome_eq_next _ _ _).mp h
    cases h
    exact this.trans (fetch16_draws hv)
  · cases h; exact this

end Sys2Proof.Machine
end

