-- ==== Sys2Proof/Laws/Exec.lean ====
section
/-! SUPPORT. What any instruction can do, said once: an ordinary change, an exception, or the effect of
one of the five system instructions. The whole-machine statements are derived from `exec_next`. -/

namespace Sys2Proof.Machine

/-! ## Ordinary changes -/

/-- A change that touches no system register, no control state and no PSW bit above the sticky ones;
spaces stay canonical, an even pc stays even, the device log and the count of free values grow. -/
structure Ordinary (s t : State) : Prop where
  system : SameSystem s t
  control : SameControl s t
  psw : ∀ n, 10 ≤ n → t.psw.getLsbD n = s.psw.getLsbD n
  pc : s.pc.getLsbD 0 = false → t.pc.getLsbD 0 = false
  log : ∃ new, t.deviceLog = new ++ s.deviceLog
  draws : s.draws ≤ t.draws
  mem : Memory.wf s.mem → Memory.wf t.mem
  io : Memory.wf s.io → Memory.wf t.io

theorem Ordinary.refl (s : State) : Ordinary s s :=
  ⟨sameSystem_refl s, sameControl_refl s, fun _ _ => rfl, id, ⟨[], rfl⟩, Nat.le_refl _, id, id⟩

theorem Ordinary.trans {s t u : State} (h : Ordinary s t) (k : Ordinary t u) : Ordinary s u where
  system := by
    obtain ⟨a1, a2, a3, a4, a5, a6, a7, a8, a9⟩ := h.system
    obtain ⟨b1, b2, b3, b4, b5, b6, b7, b8, b9⟩ := k.system
    exact ⟨b1.trans a1, b2.trans a2, b3.trans a3, b4.trans a4, b5.trans a5, b6.trans a6, b7.trans a7,
      b8.trans a8, b9.trans a9⟩
  control := by
    obtain ⟨a1, a2, a3, a4, a5⟩ := h.control
    obtain ⟨b1, b2, b3, b4, b5⟩ := k.control
    exact ⟨b1.trans a1, b2.trans a2, b3.trans a3, b4.trans a4, b5.trans a5⟩
  psw := fun n hn => (k.psw n hn).trans (h.psw n hn)
  pc := fun hp => k.pc (h.pc hp)
  log := by
    obtain ⟨a, ha⟩ := h.log
    obtain ⟨b, hb⟩ := k.log
    exact ⟨b ++ a, by rw [hb, ha, List.append_assoc]⟩
  draws := Nat.le_trans h.draws k.draws
  mem := fun hm => k.mem (h.mem hm)
  io := fun hm => k.io (h.io hm)

theorem ordinary_writeReg (s : State) (i : RegIdx) (v : Word) : Ordinary s (s.writeReg i v) where
  system := by simp [SameSystem]
  control := by simp [SameControl]
  psw := by simp
  pc := by simp
  log := ⟨[], by simp⟩
  draws := by simp
  mem := by simp
  io := by simp

theorem ordinary_setPc (s : State) (t : Word) : Ordinary s (s.setPc t) where
  system := by simp [SameSystem]
  control := by simp [SameControl]
  psw := by simp
  pc := fun _ => by simp
  log := ⟨[], by simp⟩
  draws := by simp
  mem := by simp
  io := by simp

theorem ordinary_advance (s : State) (n : Word) : Ordinary s (s.advance n) := ordinary_setPc s _

theorem ordinary_setFlags (s : State) (f : Flags) : Ordinary s (s.setFlags f) where
  system := by simp [SameSystem]
  control := by simp [SameControl]
  psw := fun n hn => by rw [setFlags_psw, getLsbD_withFlags_other _ _ _ (by omega)]
  pc := by simp
  log := ⟨[], by simp⟩
  draws := by simp
  mem := by simp
  io := by simp

theorem ordinary_setPswBit (s : State) (n : Nat) (b : Bool) (h : n < 10) :
    Ordinary s (s.setPswBit n b) where
  system := by simp [SameSystem]
  control := by simp [SameControl]
  psw := fun m hm => by rw [setPswBit_psw, getLsbD_setBit_other _ _ _ _ (by omega)]
  pc := by simp
  log := ⟨[], by simp⟩
  draws := by simp
  mem := by simp
  io := by simp

theorem ordinary_stick (s : State) (n : Nat) (b : Bool) (h : n < 10) : Ordinary s (s.stick n b) := by
  unfold State.stick
  split
  · exact ordinary_setPswBit s n true h
  · exact Ordinary.refl s

theorem ordinary_deviceRead (sp : Space) (w : Width) (a : Word) (s : State) :
    Ordinary s (deviceRead sp w a s).2 where
  system := sameSystem_refl s
  control := sameControl_refl s
  psw := fun _ _ => rfl
  pc := id
  log := ⟨[_], rfl⟩
  draws := Nat.le_succ _
  mem := id
  io := id

theorem ordinary_deviceWrite (sp : Space) (w : Width) (a v : Word) (s : State) :
    Ordinary s (deviceWrite sp w a v s) where
  system := sameSystem_refl s
  control := sameControl_refl s
  psw := fun _ _ => rfl
  pc := id
  log := ⟨[_], rfl⟩
  draws := Nat.le_refl _
  mem := id
  io := id

theorem ordinary_withMem (s : State) (m : Memory) (h : Memory.wf s.mem → Memory.wf m) :
    Ordinary s { s with mem := m } where
  system := sameSystem_refl s
  control := sameControl_refl s
  psw := fun _ _ => rfl
  pc := id
  log := ⟨[], rfl⟩
  draws := Nat.le_refl _
  mem := h
  io := id

theorem ordinary_withIo (s : State) (m : Memory) (h : Memory.wf s.io → Memory.wf m) :
    Ordinary s { s with io := m } where
  system := sameSystem_refl s
  control := sameControl_refl s
  psw := fun _ _ => rfl
  pc := id
  log := ⟨[], rfl⟩
  draws := Nat.le_refl _
  mem := id
  io := h

/-! ## Shared shapes are ordinary and leave the spaces alone -/

/-- An ordinary change that writes neither space. -/
def Quiet (s t : State) : Prop := Ordinary s t ∧ t.mem = s.mem ∧ t.io = s.io

theorem Quiet.trans {s t u : State} (h : Quiet s t) (k : Quiet t u) : Quiet s u :=
  ⟨h.1.trans k.1, k.2.1.trans h.2.1, k.2.2.trans h.2.2⟩

theorem quiet_writeReg (s : State) (i : RegIdx) (v : Word) : Quiet s (s.writeReg i v) :=
  ⟨ordinary_writeReg s i v, by simp, by simp⟩

theorem quiet_setPc (s : State) (t : Word) : Quiet s (s.setPc t) := ⟨ordinary_setPc s t, rfl, rfl⟩

theorem quiet_advance (s : State) (n : Word) : Quiet s (s.advance n) := quiet_setPc s _

theorem quiet_setFlags (s : State) (f : Flags) : Quiet s (s.setFlags f) :=
  ⟨ordinary_setFlags s f, rfl, rfl⟩

theorem quiet_stick (s : State) (n : Nat) (b : Bool) (h : n < 10) : Quiet s (s.stick n b) :=
  ⟨ordinary_stick s n b h, by simp, by simp⟩

theorem quiet_setPswBit (s : State) (n : Nat) (b : Bool) (h : n < 10) : Quiet s (s.setPswBit n b) :=
  ⟨ordinary_setPswBit s n b h, rfl, rfl⟩

theorem quiet_stickAll (s : State) (b : BitVec 6) : Quiet s (s.stickAll b) where
  left :=
    { system := by simp [SameSystem]
      control := by simp [SameControl]
      psw := fun n hn => by
        rw [getLsbD_stickAll, decide_eq_false (by omega), Bool.false_and, Bool.or_false]
      pc := id
      log := ⟨[], rfl⟩
      draws := Nat.le_refl _
      mem := id
      io := id }
  right := ⟨rfl, rfl⟩

/-- Nothing but sticky bits, PSW bits 4 to 9, differs (R191). -/
structure StickyOnly (s u : State) : Prop where
  rest : u = { s with psw := u.psw }
  psw : ∀ n, n < 4 ∨ 10 ≤ n → u.psw.getLsbD n = s.psw.getLsbD n

theorem StickyOnly.refl (s : State) : StickyOnly s s := ⟨rfl, fun _ _ => rfl⟩

theorem StickyOnly.trans {s t u : State} (h : StickyOnly s t) (k : StickyOnly t u) : StickyOnly s u :=
  ⟨by rw [k.rest, h.rest], fun n hn => (k.psw n hn).trans (h.psw n hn)⟩

theorem stickyOnly_setPswBit (s : State) (n : Nat) (b : Bool) (h : 4 ≤ n ∧ n < 10) :
    StickyOnly s (s.setPswBit n b) :=
  ⟨rfl, fun m hm => by rw [setPswBit_psw, getLsbD_setBit_other _ _ _ _ (by omega)]⟩

theorem stickyOnly_stickAll (s : State) (b : BitVec 6) : StickyOnly s (s.stickAll b) :=
  ⟨rfl, fun n hn => by
    rw [getLsbD_stickAll, decide_eq_false (by omega), Bool.false_and, Bool.or_false]⟩

theorem StickyOnly.quiet {s u : State} (h : StickyOnly s u) : Quiet s u := by
  obtain ⟨hr, hp⟩ := h
  generalize u.psw = p at hr hp
  subst hr
  exact ⟨⟨⟨rfl, rfl, rfl, rfl, rfl, rfl, rfl, rfl, rfl⟩, ⟨rfl, rfl, rfl, rfl, rfl⟩,
    fun n hn => hp n (.inr hn), id, ⟨[], rfl⟩, Nat.le_refl _, id, id⟩, rfl, rfl⟩

theorem quiet_finishPlain {reg2 : RegIdx} {r len : Word} {s t : State}
    (h : finishPlain reg2 r len s = .next t) : Quiet s t := by
  cases h
  exact (quiet_writeReg s _ _).trans (quiet_advance _ _)

theorem quiet_finishFlagged {reg2 : RegIdx} {r len : Word} {f : Flags} {s t : State}
    (h : finishFlagged reg2 r f len s = .next t) : Quiet s t := by
  cases h
  exact ((quiet_writeReg s _ _).trans (quiet_setFlags _ _)).trans (quiet_advance _ _)

theorem quiet_finishPair {reg2 : RegIdx} {x y : Word} {f : Flags} {s t : State}
    (h : finishPair reg2 x y f s = .next t) : Quiet s t := by
  cases h
  exact (((quiet_writeReg s _ _).trans (quiet_writeReg _ _ _)).trans (quiet_setFlags _ _)).trans
    (quiet_advance _ _)

theorem quiet_branchOn {c : BitVec 4} {d : BitVec 9} {s t : State}
    (h : branchOn c d s = .next t) : Quiet s t := by
  cases h
  split
  · exact quiet_setPc s _
  · exact quiet_advance s _

theorem quiet_deviceReadIf (b : Bool) (sp : Space) (w : Width) (a : Word) (s : State) :
    Quiet s (deviceReadIf b sp w a s).2 := by
  cases b
  · exact ⟨Ordinary.refl _, rfl, rfl⟩
  · exact ⟨ordinary_deviceRead _ _ _ _, rfl, rfl⟩

theorem quiet_deviceWriteIf (b : Bool) (sp : Space) (w : Width) (a v : Word) (s : State) :
    Quiet s (deviceWriteIf b sp w a v s) := by
  cases b
  · exact ⟨Ordinary.refl _, rfl, rfl⟩
  · exact ⟨ordinary_deviceWrite _ _ _ _ _, rfl, rfl⟩

/-- A read, of memory or of ports, is ordinary and writes neither space. -/
theorem quiet_readAccess {place : Nat → Place} {w : Width} {a v : Word} {s t : State}
    (h : readAccess place w a s = .next (v, t)) : Quiet s t := by
  obtain ⟨b, c, rfl⟩ := readAccess_next h
  exact (quiet_deviceReadIf _ _ _ _ _).trans (quiet_deviceReadIf _ _ _ _ _)

/-- A memory write at an aligned address is ordinary and leaves the ports alone. -/
theorem ordinary_memWrite {w : Width} {a v : Word} {s t : State}
    (h : memWrite w a v s = .next t) (ha : a.toNat + w.bytes ≤ 2 ^ 32) :
    Ordinary s t ∧ t.io = s.io := by
  obtain ⟨b, rfl⟩ := memWrite_next h
  have q := quiet_deviceWriteIf b .memory w a v
    { s with mem := writeBytesWhere (fun x => s.memPlace x == .ram) s.mem a.toNat w.bytes v }
  exact ⟨(ordinary_withMem s _ fun hm => wf_writeBytesWhere _ _ _ _ _ hm ha).trans q.1, q.2.2⟩

/-- A fatal dump is ordinary memory writes below 12, then `stopped` (R219). -/
theorem ordinary_fatalDump {code : BitVec 16} {r : Word} {s t : State}
    (h : fatalDump code r s = .next t) :
    ∃ u, Ordinary s u ∧ u.io = s.io ∧ t = { u with stopped := true } ∧
      ∀ c, 12 ≤ c → readByte u.mem c = readByte s.mem c := by
  obtain ⟨s1, s2, s3, h1, h2, h3, rfl⟩ := fatalDump_next h
  have o1 := ordinary_memWrite h1 (by decide)
  have o2 := ordinary_memWrite h2 (by decide)
  have o3 := ordinary_memWrite h3 (by decide)
  have n0 : (0#32).toNat = 0 := rfl
  have n4 : (4#32).toNat = 4 := rfl
  have n8 : (8#32).toNat = 8 := rfl
  refine ⟨s3, (o1.1.trans o2.1).trans o3.1, o3.2.trans (o2.2.trans o1.2), rfl, fun c hc => ?_⟩
  have b : Width.word.bytes = 4 := rfl
  exact (memWrite_other h3 c (by show (8#32).toNat + _ ≤ c; omega)).trans
    ((memWrite_other h2 c (by show (4#32).toNat + _ ≤ c; omega)).trans
      (memWrite_other h1 c (by show (0#32).toNat + _ ≤ c; omega)))

theorem ordinary_ioWrite {w : Width} {a v : Word} {s t : State}
    (h : ioWrite w a v s = .next t) (ha : a.toNat + w.bytes ≤ 2 ^ 32) : Ordinary s t := by
  obtain ⟨b, c, rfl⟩ := writeAccess_next h
  have h1 := ordinary_withMem s _ fun hm =>
    wf_writeBytesWhere (fun x => s.portPlace x == .ram) s.mem _ _ v hm ha
  have h2 := ordinary_withIo { s with
      mem := writeBytesWhere (fun x => s.portPlace x == .ram) s.mem a.toNat w.bytes v }
    _ fun hm => wf_writeBytesWhere (fun x => s.portPlace x == .storage) s.io _ _ v hm ha
  exact ((h1.trans h2).trans (quiet_deviceWriteIf b _ _ _ _ _).1).trans
    (quiet_deviceWriteIf c _ _ _ _ _).1

theorem quiet_loadMem {w : Width} {d : BitVec 16} {r1 r2 : RegIdx} {s t : State}
    (h : loadMem w d r1 r2 s = .next t) : Quiet s t := by
  obtain ⟨⟨v, u⟩, hu, h⟩ := (bindOutcome_eq_next _ _ _).mp h
  exact (quiet_readAccess hu).trans (quiet_finishPlain h)

theorem quiet_inputPort {w : Width} {d : BitVec 16} {r1 r2 : RegIdx} {s t : State}
    (h : inputPort w d r1 r2 s = .next t) : Quiet s t := by
  obtain ⟨⟨v, u⟩, hu, h⟩ := (bindOutcome_eq_next _ _ _).mp h
  exact (quiet_readAccess hu).trans (quiet_finishPlain h)

theorem ordinary_storeMem {w : Width} {d : BitVec 16} {r1 r2 : RegIdx} {s t : State}
    (h : storeMem w r2 d r1 s = .next t) : Ordinary s t ∧ t.io = s.io := by
  obtain ⟨u, hu, h⟩ := (bindOutcome_eq_next _ _ _).mp h
  cases h
  have := ordinary_memWrite hu (alignTo_bound w _)
  exact ⟨this.1.trans (ordinary_advance _ _), this.2⟩

theorem ordinary_outputPort {w : Width} {d : BitVec 16} {r1 r2 : RegIdx} {s t : State}
    (h : outputPort w r2 d r1 s = .next t) : Ordinary s t := by
  obtain ⟨u, hu, h⟩ := (bindOutcome_eq_next _ _ _).mp h
  cases h
  exact (ordinary_ioWrite hu (alignTo_bound w _)).trans (ordinary_advance _ _)

theorem ordinary_execCaxi {d : BitVec 16} {r1 r2 : RegIdx} {s t : State}
    (h : execCaxi d r1 r2 s = .next t) : Ordinary s t ∧ t.io = s.io := by
  obtain ⟨⟨v, u⟩, hu, h⟩ := (bindOutcome_eq_next _ _ _).mp h
  obtain ⟨u', hu', h⟩ := (bindOutcome_eq_next _ _ _).mp h
  have h1 := quiet_readAccess hu
  have h2 := ordinary_memWrite hu' (alignTo_bound .word _)
  have h3 := quiet_finishFlagged h
  exact ⟨(h1.1.trans h2.1).trans h3.1, h3.2.2.trans (h2.2.trans h1.2.2)⟩

/-! ## Bit strings -/

theorem quiet_setSourcePtr (s : State) (p : Word × Word) : Quiet s (s.setSourcePtr p) :=
  (quiet_writeReg s _ _).trans (quiet_writeReg _ _ _)

theorem quiet_setDestPtr (s : State) (p : Word × Word) : Quiet s (s.setDestPtr p) :=
  (quiet_writeReg s _ _).trans (quiet_writeReg _ _ _)

/-- A bit-string write reaches ram and nothing else. -/
theorem bsWrite_next {a v : Word} {s t : State} (h : bsWrite a v s = .next t) :
    s.MemAll .ram a.toNat 4 ∧ t = { s with mem := writeBytes s.mem a.toNat 4 v } := by
  unfold bsWrite at h
  split at h
  · cases h
  · split at h
    · cases h
    · split at h
      · cases h
      · rename_i h1 h2 h3
        refine ⟨fun k hk => ?_, by simpa using h.symm⟩
        rcases memPlain_of_touches h1 h2 k hk with c | c
        · exact c
        · exact absurd ((memTouches s a.toNat 4).2.2.1.mpr ⟨k, hk, c⟩) h3

/-- A bit-string read reads ram or rom and nothing else. -/
theorem bsRead_next {a v : Word} {s : State} (h : bsRead a s = .next v) :
    s.MemPlain a.toNat 4 ∧ v = readBytes s.mem a.toNat 4 := by
  unfold bsRead at h
  split at h
  · cases h
  · split at h
    · cases h
    · exact ⟨memPlain_of_touches ‹_› ‹_›, by simpa using h.symm⟩

/-- A bit-string read of ram or rom. -/
theorem bsRead_plain {a : Word} {s : State} (h : s.MemPlain a.toNat 4) :
    bsRead a s = .next (readBytes s.mem a.toNat 4) := by
  obtain ⟨h1, h2⟩ := memPlain_touches h
  simp only [bsRead, h1, h2, Bool.false_eq_true, if_false]

/-- A bit-string write of ram. -/
theorem bsWrite_ram {a v : Word} {s : State} (h : s.MemAll .ram a.toNat 4) :
    bsWrite a v s = .next { s with mem := writeBytes s.mem a.toNat 4 v } := by
  obtain ⟨h1, h2⟩ := memPlain_touches (memPlain_of_ram h)
  have h3 : touches s.memPlace a.toNat 4 .rom = false := by
    rw [touches_eq_false]
    intro k hk c
    rw [memPlace_rom, h k hk] at c
    cases c
  simp only [bsWrite, h1, h2, h3, Bool.false_eq_true, if_false]

/-- The destination pointer is word-aligned. -/
def destAligned (s : State) : Prop := (s.readReg 29).toNat % 4 = 0

theorem setDestPtr_readReg29 (s : State) (p : Word × Word) : (s.setDestPtr p).readReg 29 = p.1 := by
  simp [State.setDestPtr, readReg_writeReg]

theorem setSourcePtr_readReg29 (s : State) (p : Word × Word) :
    (s.setSourcePtr p).readReg 29 = s.readReg 29 := by
  simp [State.setSourcePtr, readReg_writeReg]

theorem stepUp_aligned (p : Word × Word) (h : p.1.toNat % 4 = 0) : (stepUp p).1.toNat % 4 = 0 := by
  unfold stepUp
  split
  · show (p.1 + 4#32).toNat % 4 = 0
    rw [BitVec.toNat_add, show (4#32).toNat = 4 from rfl]
    omega
  · exact h

theorem stringElement_ordinary {f : Bool → Bool → Bool} {s t : State}
    (h : stringElement f s = .next t) (ha : destAligned s) :
    Ordinary s t ∧ t.io = s.io ∧ destAligned t := by
  obtain ⟨sw, _, h⟩ := (bindOutcome_eq_next _ _ _).mp h
  obtain ⟨dw, _, h⟩ := (bindOutcome_eq_next _ _ _).mp h
  obtain ⟨u, hu, h⟩ := (bindOutcome_eq_next _ _ _).mp h
  obtain ⟨_, hu⟩ := bsWrite_next hu
  have hb : (s.readReg 29).toNat + 4 ≤ 2 ^ 32 := by
    have := (s.readReg 29).isLt
    unfold destAligned at ha
    omega
  have h1 : Ordinary s u ∧ u.io = s.io := by
    rw [hu]
    exact ⟨ordinary_withMem s _ fun hm => wf_writeBytes _ _ _ _ hm hb, rfl⟩
  cases h
  have h2 := ((quiet_setSourcePtr u (stepUp s.sourcePtr)).trans
    (quiet_setDestPtr _ (stepUp s.destPtr))).trans (quiet_writeReg _ 28 (s.readReg 28 - 1))
  refine ⟨h1.1.trans h2.1, h2.2.2.trans h1.2, ?_⟩
  unfold destAligned
  rw [readReg_writeReg_other _ _ _ _ (by decide), setDestPtr_readReg29]
  exact stepUp_aligned _ ha

theorem stringLoop_ordinary {f : Bool → Bool → Bool} {n : Nat} {s t : State}
    (h : stringLoop f n s = .next t) (ha : destAligned s) : Ordinary s t ∧ t.io = s.io := by
  induction n generalizing s with
  | zero =>
    cases h
    exact ⟨Ordinary.refl _, rfl⟩
  | succ n ih =>
    obtain ⟨u, hu, h⟩ := (bindOutcome_eq_next _ _ _).mp h
    have h1 := stringElement_ordinary hu ha
    have h2 := ih h h1.2.2
    exact ⟨h1.1.trans h2.1, h2.2.trans h1.2.1⟩

theorem maskStringRegs_aligned (s : State) : destAligned (maskStringRegs s) := by
  unfold destAligned maskStringRegs
  rw [setDestPtr_readReg29]
  show (s.destPtr.1 &&& 0xFFFFFFFC#32).toNat % 4 = 0
  rw [show (s.destPtr.1 &&& 0xFFFFFFFC#32).toNat = _ from toNat_and_word s.destPtr.1]
  omega

/-- A string-to-string operation is ordinary and leaves the ports alone. -/
theorem ordinary_stringOp {f : Bool → Bool → Bool} {s t : State} (h : stringOp f s = .next t) :
    Ordinary s t ∧ t.io = s.io := by
  unfold stringOp at h
  dsimp only at h
  split at h
  · cases h
  obtain ⟨u, hu, h⟩ := (bindOutcome_eq_next _ _ _).mp h
  have h0 : Quiet s (maskStringRegs s) := (quiet_setSourcePtr s _).trans (quiet_setDestPtr _ _)
  have h1 := stringLoop_ordinary hu (maskStringRegs_aligned s)
  have h2 : Quiet u t := by
    cases h
    split
    · exact quiet_advance u 2
    · exact ⟨Ordinary.refl _, rfl, rfl⟩
  exact ⟨(h0.1.trans h1.1).trans h2.1, h2.2.2.trans (h1.2.trans h0.2.2)⟩

theorem searchLoop_quiet {b : Bool} {d : Direction} {n : Nat} {s t : State} {r : Bool}
    (h : searchLoop b d n s = .next (r, t)) : Quiet s t := by
  induction n generalizing s with
  | zero =>
    cases h
    exact ⟨Ordinary.refl _, rfl, rfl⟩
  | succ n ih =>
    obtain ⟨w, _, h⟩ := (bindOutcome_eq_next _ _ _).mp h
    split at h
    · cases h
      exact ⟨Ordinary.refl _, rfl, rfl⟩
    · exact (((quiet_setSourcePtr s _).trans (quiet_writeReg _ _ _)).trans
        (quiet_writeReg _ _ _)).trans (ih h)

/-- A search is ordinary and writes no memory. -/
theorem quiet_searchOp {b : Bool} {d : Direction} {s t : State} (h : searchOp b d s = .next t) :
    Quiet s t := by
  obtain ⟨⟨r, u⟩, hu, h⟩ := (bindOutcome_eq_next _ _ _).mp h
  have h1 := (quiet_setSourcePtr s (maskPtr s.sourcePtr)).trans (searchLoop_quiet hu)
  refine h1.trans ?_
  cases h
  dsimp only
  split
  · exact (((quiet_setSourcePtr u _).trans (quiet_writeReg _ _ _)).trans
      (quiet_setPswBit _ _ _ (by decide))).trans (quiet_advance _ _)
  · split
    · exact (quiet_setPswBit _ _ _ (by decide)).trans (quiet_advance _ _)
    · exact ⟨Ordinary.refl _, rfl, rfl⟩

/-! ## Floating point -/

/-- A floating-point completion is ordinary, or its condition raises an exception with the sticky bit
set first (R191). -/
theorem finishFloat_next {reg2 : RegIdx} {o : FloatOutcome} {f : Word → Flags} {s t : State}
    (h : finishFloat reg2 o f s = .next t) :
    Quiet s t ∨ ∃ e u, StickyOnly s u ∧ raise e s.pc u = .next t := by
  unfold finishFloat at h
  split at h
  · exact .inl (((quiet_stick s _ _ (by decide)).trans (quiet_stick _ _ _ (by decide))).trans
      (quiet_finishFlagged h))
  · exact .inr ⟨_, _, stickyOnly_setPswBit s bitFRO true (by decide), h⟩
  · exact .inr ⟨_, _, stickyOnly_setPswBit s bitFIV true (by decide), h⟩
  · exact .inr ⟨_, _, stickyOnly_setPswBit s bitFZD true (by decide), h⟩
  · exact .inr ⟨_, _, stickyOnly_setPswBit s bitFOV true (by decide), h⟩

/-- So is one with the answer of a platform's own function (R3). -/
theorem finishPlatform_next {reg2 : RegIdx} {p : FpAnswer} {f : Word → Flags} {s t : State}
    (h : finishPlatform reg2 p f s = .next t) :
    Quiet s t ∨ ∃ e u, StickyOnly s u ∧ raise e s.pc u = .next t := by
  rcases finishFloat_next h with h | ⟨e, u, hu, h⟩
  · exact .inl ((quiet_stickAll s _).trans h)
  · exact .inr ⟨e, u, (stickyOnly_stickAll s _).trans hu, h⟩

/-! ## Every instruction -/

/-- The instructions that can write the port space. -/
def writesPorts : Instr → Bool
  | .outB _ _ _ | .outH _ _ _ | .outW _ _ _ => true
  | _ => false

/-- The instructions that can write memory. -/
def writesMemory : Instr → Bool
  | .stB _ _ _ | .stH _ _ _ | .stW _ _ _ | .caxi _ _ _ | .outB _ _ _ | .outH _ _ _ | .outW _ _ _ => true
  | .orbsu | .andbsu | .xorbsu | .movbsu | .ornbsu | .andnbsu | .xornbsu | .notbsu => true
  | _ => false

/-- What an instruction that answers a next state has done. -/
inductive ExecCase (i : Instr) (s t : State) : Prop where
  | ordinary (h : Ordinary s t) (hm : t.mem = s.mem ∨ writesMemory i = true)
      (hp : t.io = s.io ∨ writesPorts i = true)
  | exception (e : Exc) (restore : Word) (u : State)
      (hu : StickyOnly s u) (h : raise e restore u = .next t)
  | ldsr (r : RegIdx) (n : BitVec 5) (u : State) (hi : i = .ldsr r n)
      (h : writeSystem n (s.readReg r) s = .next u) (ht : t = u.advance 2)
  | reti (hi : i = .reti) (ht : t = returnFromException s)
  | ei (hi : i = .ei) (ht : t = (s.setPswBit bitID false).advance 2)
  | di (hi : i = .di) (ht : t = (s.setPswBit bitID true).advance 2)
  | halt (hi : i = .halt) (ht : t = { s.advance 2 with halted := true })

theorem ExecCase.of_quiet {i : Instr} {s t : State} (h : Quiet s t) : ExecCase i s t :=
  .ordinary h.1 (.inl h.2.1) (.inl h.2.2)

theorem ExecCase.of_float {i : Instr} {s t : State}
    (h : Quiet s t ∨ ∃ e u, StickyOnly s u ∧ raise e s.pc u = .next t) : ExecCase i s t := by
  rcases h with h | ⟨e, u, hu, h⟩
  · exact .of_quiet h
  · exact .exception e _ u hu h

theorem ExecCase.of_completeFloat {i : Instr} {reg2 : RegIdx} {o : FloatOutcome} {p : FpAnswer}
    {f : Word → Flags} {s t : State} (h : completeFloat reg2 o p f s = .next t) : ExecCase i s t := by
  unfold completeFloat at h
  split at h
  · exact .of_float (finishFloat_next h)
  · exact .of_float (finishPlatform_next h)

theorem ExecCase.of_undefined {i : Instr} {name : String} {s t : State}
    (h : undefinedInstruction name s = .next t) : ExecCase i s t :=
  .exception _ _ s (.refl s) (undefinedInstruction_next h).2

theorem ExecCase.of_stringOp {i : Instr} {f : Bool → Bool → Bool} {s t : State}
    (h : stringOp f s = .next t) (hw : writesMemory i = true) : ExecCase i s t :=
  .ordinary (ordinary_stringOp h).1 (.inr hw) (.inl (ordinary_stringOp h).2)

theorem ExecCase.of_storeMem {i : Instr} {w : Width} {d : BitVec 16} {r1 r2 : RegIdx} {s t : State}
    (h : storeMem w r2 d r1 s = .next t) (hw : writesMemory i = true) : ExecCase i s t :=
  .ordinary (ordinary_storeMem h).1 (.inr hw) (.inl (ordinary_storeMem h).2)

theorem ExecCase.of_outputPort {i : Instr} {w : Width} {d : BitVec 16} {r1 r2 : RegIdx} {s t : State}
    (h : outputPort w r2 d r1 s = .next t) (hw : writesMemory i = true) (hp : writesPorts i = true) :
    ExecCase i s t :=
  .ordinary (ordinary_outputPort h) (.inr hw) (.inr hp)

theorem ExecCase.of_div {i : Instr} {r1 r2 : RegIdx} {s t : State}
    (h : execDiv r1 r2 s = .next t) : ExecCase i s t := by
  unfold execDiv at h
  dsimp only at h
  split at h
  · exact .exception _ _ s (.refl s) h
  · split at h
    · exact .of_quiet (quiet_finishPair h)
    · exact .of_quiet (quiet_finishPair h)

theorem ExecCase.of_divu {i : Instr} {r1 r2 : RegIdx} {s t : State}
    (h : execDivu r1 r2 s = .next t) : ExecCase i s t := by
  unfold execDivu at h
  dsimp only at h
  split at h
  · exact .exception _ _ s (.refl s) h
  · exact .of_quiet (quiet_finishPair h)

theorem ExecCase.of_cmpf {i : Instr} {r1 r2 : RegIdx} {s t : State}
    (h : execCmpfS r1 r2 s = .next t) : ExecCase i s t := by
  unfold execCmpfS at h
  dsimp only at h
  split at h
  · exact .of_float (finishPlatform_next h)
  · split at h
    · exact .exception _ _ _ (stickyOnly_setPswBit s bitFRO true (by decide)) h
    · cases h
      exact .of_quiet ((quiet_setFlags s _).trans (quiet_advance _ _))

/-- What any instruction can do. -/
theorem exec_next (i : Instr) (s t : State) (h : exec i s = .next t) : ExecCase i s t := by
  have cmp : ∀ (f : Flags), (Host.Outcome.next ((s.setFlags f).advance 2) : Result) = .next t →
      ExecCase i s t := fun f h => by
    cases h
    exact .of_quiet ((quiet_setFlags s _).trans (quiet_advance _ _))
  have jump : ∀ (a : Word), (Host.Outcome.next (s.setPc a) : Result) = .next t →
      ExecCase i s t := fun a h => by
    cases h
    exact .of_quiet (quiet_setPc s _)
  cases i with
  | mov => exact .of_quiet (quiet_finishPlain h)
  | add => exact .of_quiet (quiet_finishFlagged h)
  | sub => exact .of_quiet (quiet_finishFlagged h)
  | cmp => exact cmp _ h
  | shl => exact .of_quiet (quiet_finishFlagged h)
  | shr => exact .of_quiet (quiet_finishFlagged h)
  | jmp => exact jump _ h
  | sar => exact .of_quiet (quiet_finishFlagged h)
  | mul => exact .of_quiet (quiet_finishPair h)
  | div => exact .of_div h
  | mulu => exact .of_quiet (quiet_finishPair h)
  | divu => exact .of_divu h
  | or => exact .of_quiet (quiet_finishFlagged h)
  | and => exact .of_quiet (quiet_finishFlagged h)
  | xor => exact .of_quiet (quiet_finishFlagged h)
  | not => exact .of_quiet (quiet_finishFlagged h)
  | movImm => exact .of_quiet (quiet_finishPlain h)
  | addImm => exact .of_quiet (quiet_finishFlagged h)
  | setf => exact .of_quiet (quiet_finishPlain h)
  | cmpImm => exact cmp _ h
  | shlImm => exact .of_quiet (quiet_finishFlagged h)
  | shrImm => exact .of_quiet (quiet_finishFlagged h)
  | ei =>
    have h : execEi s = .next t := h
    unfold execEi at h
    split at h
    · cases h
      exact .ei rfl rfl
    · exact .of_undefined h
  | sarImm => exact .of_quiet (quiet_finishFlagged h)
  | trap => exact .exception _ _ s (.refl s) h
  | reti =>
    cases h
    exact .reti rfl rfl
  | halt =>
    cases h
    exact .halt rfl rfl
  | udef1B => exact .of_undefined h
  | ldsr r n =>
    obtain ⟨u, hu, h⟩ := (bindOutcome_eq_next _ _ _).mp h
    cases h
    exact .ldsr r n u rfl hu rfl
  | stsr n r =>
    have h : execStsr n r s = .next t := h
    unfold execStsr at h
    split at h
    · exact .of_quiet (quiet_finishPlain h)
    · cases h
  | di =>
    have h : execDi s = .next t := h
    unfold execDi at h
    split at h
    · cases h
      exact .di rfl rfl
    · exact .of_undefined h
  | sch0bsu => exact .of_quiet (quiet_searchOp h)
  | sch0bsd => exact .of_quiet (quiet_searchOp h)
  | sch1bsu => exact .of_quiet (quiet_searchOp h)
  | sch1bsd => exact .of_quiet (quiet_searchOp h)
  | orbsu => exact .of_stringOp h rfl
  | andbsu => exact .of_stringOp h rfl
  | xorbsu => exact .of_stringOp h rfl
  | movbsu => exact .of_stringOp h rfl
  | ornbsu => exact .of_stringOp h rfl
  | andnbsu => exact .of_stringOp h rfl
  | xornbsu => exact .of_stringOp h rfl
  | notbsu => exact .of_stringOp h rfl
  | bv => exact .of_quiet (quiet_branchOn h)
  | bl => exact .of_quiet (quiet_branchOn h)
  | be => exact .of_quiet (quiet_branchOn h)
  | bnh => exact .of_quiet (quiet_branchOn h)
  | bn => exact .of_quiet (quiet_branchOn h)
  | br => exact .of_quiet (quiet_branchOn h)
  | blt => exact .of_quiet (quiet_branchOn h)
  | ble => exact .of_quiet (quiet_branchOn h)
  | bnv => exact .of_quiet (quiet_branchOn h)
  | bnl => exact .of_quiet (quiet_branchOn h)
  | bne => exact .of_quiet (quiet_branchOn h)
  | bh => exact .of_quiet (quiet_branchOn h)
  | bp => exact .of_quiet (quiet_branchOn h)
  | nop => exact .of_quiet (quiet_branchOn h)
  | bge => exact .of_quiet (quiet_branchOn h)
  | bgt => exact .of_quiet (quiet_branchOn h)
  | movea => exact .of_quiet (quiet_finishPlain h)
  | addi => exact .of_quiet (quiet_finishFlagged h)
  | jr => exact jump _ h
  | jal =>
    cases h
    exact .of_quiet ((quiet_writeReg s _ _).trans (quiet_setPc _ _))
  | ori => exact .of_quiet (quiet_finishFlagged h)
  | andi => exact .of_quiet (quiet_finishFlagged h)
  | xori => exact .of_quiet (quiet_finishFlagged h)
  | movhi => exact .of_quiet (quiet_finishPlain h)
  | ldB => exact .of_quiet (quiet_loadMem h)
  | ldH => exact .of_quiet (quiet_loadMem h)
  | udef32 => exact .of_undefined h
  | ldW => exact .of_quiet (quiet_loadMem h)
  | stB => exact .of_storeMem h rfl
  | stH => exact .of_storeMem h rfl
  | udef36 => exact .of_undefined h
  | stW => exact .of_storeMem h rfl
  | inB => exact .of_quiet (quiet_inputPort h)
  | inH => exact .of_quiet (quiet_inputPort h)
  | caxi => exact .ordinary (ordinary_execCaxi h).1 (.inr rfl) (.inl (ordinary_execCaxi h).2)
  | inW => exact .of_quiet (quiet_inputPort h)
  | outB => exact .of_outputPort h rfl rfl
  | outH => exact .of_outputPort h rfl rfl
  | outW => exact .of_outputPort h rfl rfl
  | cmpfS => exact .of_cmpf h
  | cvtWS => exact .of_completeFloat h
  | cvtSW => exact .of_completeFloat h
  | addfS => exact .of_completeFloat h
  | subfS => exact .of_completeFloat h
  | mulfS => exact .of_completeFloat h
  | divfS => exact .of_completeFloat h
  | trncSW => exact .of_completeFloat h

end Sys2Proof.Machine
end

