-- ==== Sys2Proof/Laws/BitString.lean ====
section
/-! SUPPORT. What the bit-string loops do (spec/45_bitstring.md R171-R174), said once: pointers as linear
bit numbers, one element, the loop, the search. -/

namespace Sys2Proof.Machine

/-! ## Words as bits of memory -/

/-- A bit of the aligned word at `a`. -/
theorem readWord_bit (m : Memory) (a k : Nat) (hk : k < 32) (ha : a < 2 ^ 32) (h4 : a % 4 = 0) :
    (readBytes m a 4).getLsbD k = memoryBit m (8 * a + k) := by
  rw [getLsbD_readBytes, decide_eq_true (show k < 8 * 4 ∧ k < 32 by omega), Bool.true_and]
  unfold memoryBit
  rw [show (8 * a + k) % 2 ^ 35 / 8 = a + k / 8 by omega, show (8 * a + k) % 8 = k % 8 by omega]

/-- Writing one bit of the aligned word at `a`. -/
theorem memoryBit_setBit (m : Memory) (a k p : Nat) (b : Bool) (hk : k < 32)
    (h4 : a % 4 = 0) :
    memoryBit (writeBytes m a 4 (setBit (readBytes m a 4) k b)) p =
      if p % 2 ^ 35 = 8 * a + k then b else memoryBit m p := by
  unfold memoryBit
  rw [readByte_writeBytes]
  by_cases c : a ≤ p % 2 ^ 35 / 8 ∧ p % 2 ^ 35 / 8 < a + 4
  · rw [if_pos c]
    have e : ∀ v : Word, (v.extractLsb' (8 * (p % 2 ^ 35 / 8 - a)) 8).getLsbD (p % 8) = v.getLsbD (p % 2 ^ 35 - 8 * a) := by
      intro v
      rw [BitVec.getLsbD_extractLsb', decide_eq_true (show p % 8 < 8 by omega), Bool.true_and]
      congr 1
      omega
    rw [e, getLsbD_setBit]
    by_cases c2 : p % 2 ^ 35 = 8 * a + k
    · rw [if_pos c2, if_pos (by omega)]
    · rw [if_neg c2, if_neg (by omega), getLsbD_readBytes,
          decide_eq_true (show p % 2 ^ 35 - 8 * a < 8 * 4 ∧ p % 2 ^ 35 - 8 * a < 32 by omega),
        Bool.true_and, show a + (p % 2 ^ 35 - 8 * a) / 8 = p % 2 ^ 35 / 8 by omega,
            show (p % 2 ^ 35 - 8 * a) % 8 = p % 8 by omega]
  · rw [if_neg c, if_neg (by omega)]

/-! ## Pointers as linear bit numbers -/

/-- The pointer to linear bit `p`. -/
def bitPtr (p : Nat) : Word × Word := (bitAddress p, bitOffset p)

/-- The address half of a pointer as a number. -/
theorem bitAddress_toNat {p : Nat} (h : p < 2 ^ 35) : (bitAddress p).toNat = 4 * (p / 32) := by
  unfold bitAddress; rw [BitVec.toNat_ofNat, Nat.mod_eq_of_lt (by omega)]

/-- The offset half of a pointer as a number. -/
theorem bitOffset_toNat (p : Nat) : (bitOffset p).toNat = p % 32 := by
  unfold bitOffset; rw [BitVec.toNat_ofNat, Nat.mod_eq_of_lt (by omega)]

/-- `StepUp` is one linear bit on, modulo the space (R172). -/
theorem stepUp_bitPtr {p : Nat} (h : p < 2 ^ 35) : stepUp (bitPtr p) = bitPtr ((p + 1) % 2 ^ 35) := by
  have ho := bitOffset_toNat p
  unfold stepUp bitPtr
  dsimp only
  by_cases c : p % 32 = 31
  · rw [if_pos (by apply BitVec.eq_of_toNat_eq; rw [ho]; exact c)]
    refine Prod.ext ?_ ?_
    · apply BitVec.eq_of_toNat_eq
      show (bitAddress p + 4#32).toNat = _
      rw [BitVec.toNat_add, bitAddress_toNat h, show (4#32).toNat = 4 from rfl,
          bitAddress_toNat (Nat.mod_lt _ (by decide))]
      omega
    · apply BitVec.eq_of_toNat_eq
      rw [bitOffset_toNat]
      show 0 = _
      omega
  · rw [if_neg (by intro e; have := congrArg BitVec.toNat e; rw [ho] at this; exact c this)]
    refine Prod.ext ?_ ?_
    · apply BitVec.eq_of_toNat_eq
      dsimp only
      rw [bitAddress_toNat h, bitAddress_toNat (Nat.mod_lt _ (by decide))]
      omega
    · apply BitVec.eq_of_toNat_eq
      show (bitOffset p + 1#32).toNat = _
      rw [BitVec.toNat_add, ho, bitOffset_toNat, show (1#32).toNat = 1 from rfl]
      omega

/-- `StepDown` is one linear bit back, modulo the space (R172). -/
theorem stepDown_bitPtr {p : Nat} (h : p < 2 ^ 35) :
    stepDown (bitPtr p) = bitPtr ((p + (2 ^ 35 - 1)) % 2 ^ 35) := by
  have ho := bitOffset_toNat p
  unfold stepDown bitPtr
  dsimp only
  by_cases c : p % 32 = 0
  · rw [if_pos (by apply BitVec.eq_of_toNat_eq; rw [ho]; exact c)]
    refine Prod.ext ?_ ?_
    · apply BitVec.eq_of_toNat_eq
      show (bitAddress p - 4#32).toNat = _
      rw [BitVec.toNat_sub, bitAddress_toNat h, show (4#32).toNat = 4 from rfl,
          bitAddress_toNat (Nat.mod_lt _ (by decide))]
      omega
    · apply BitVec.eq_of_toNat_eq
      rw [bitOffset_toNat]
      show 31 = _
      omega
  · rw [if_neg (by intro e; have := congrArg BitVec.toNat e; rw [ho] at this; exact c this)]
    refine Prod.ext ?_ ?_
    · apply BitVec.eq_of_toNat_eq
      dsimp only
      rw [bitAddress_toNat h, bitAddress_toNat (Nat.mod_lt _ (by decide))]
      omega
    · apply BitVec.eq_of_toNat_eq
      show (bitOffset p - 1#32).toNat = _
      rw [BitVec.toNat_sub, ho, bitOffset_toNat, show (1#32).toNat = 1 from rfl]
      omega

/-- The low five bits of a word. -/
theorem toNat_and_31 (v : Word) : (v &&& 0x1F).toNat = v.toNat % 32 := by
  rw [BitVec.toNat_and]
  exact Nat.and_two_pow_sub_one_eq_mod v.toNat 5

/-- The masked pointer registers point at the linear start bit (R171). -/
theorem maskPtr_eq (a o : Word) : maskPtr (a, o) = bitPtr (startBit a o) := by
  have l := a.isLt
  unfold maskPtr bitPtr startBit
  refine Prod.ext ?_ ?_
  · apply BitVec.eq_of_toNat_eq
    dsimp only
    rw [toNat_and_word, bitAddress_toNat (by omega)]
    omega
  · apply BitVec.eq_of_toNat_eq
    dsimp only
    rw [toNat_and_31, bitOffset_toNat]
    omega

/-- A start bit lies in the space. -/
theorem startBit_lt (a o : Word) : startBit a o < 2 ^ 35 := by
  have l := a.isLt
  unfold startBit; omega

/-- A bit counted from another lies in the space. -/
theorem bitFrom_lt (d : Direction) (p j : Nat) : bitFrom d p j < 2 ^ 35 := by
  unfold bitFrom; split <;> exact Nat.mod_lt _ (by decide)

/-- One step in a direction. -/
theorem step_bitPtr (d : Direction) {p : Nat} (h : p < 2 ^ 35) :
    d.step (bitPtr p) = bitPtr (bitFrom d p 1) := by
  cases d
  · exact stepUp_bitPtr h
  · refine (stepDown_bitPtr h).trans ?_
    unfold bitFrom
    dsimp only
    exact congrArg bitPtr (by omega)

/-- One step back, as 2^35 - 1 steps on. -/
theorem back_bitPtr (d : Direction) {p : Nat} (h : p < 2 ^ 35) :
    d.back (bitPtr p) = bitPtr (bitFrom d p (2 ^ 35 - 1)) := by
  cases d
  · refine (stepDown_bitPtr h).trans ?_
    unfold bitFrom
    dsimp only
  · refine (stepUp_bitPtr h).trans ?_
    unfold bitFrom
    dsimp only
    exact congrArg bitPtr (by omega)

/-- Counting on from a counted bit. -/
theorem bitFrom_add (d : Direction) (p j k : Nat) : bitFrom d (bitFrom d p j) k = bitFrom d p (j + k) := by
  unfold bitFrom
  cases d <;> dsimp only <;> omega

/-- Counting no bit. -/
theorem bitFrom_zero (d : Direction) {p : Nat} (h : p < 2 ^ 35) : bitFrom d p 0 = p := by
  unfold bitFrom
  cases d <;> dsimp only <;> omega


/-! ## One element -/

/-- A linear bit number from its word and offset. -/
theorem lin_eq {p : Nat} : 8 * (4 * (p / 32)) + p % 32 = p := by omega

/-- The linear bit number of the pointer to a bit. -/
theorem linearBit_bitPtr {p : Nat} (h : p < 2 ^ 35) : linearBit (bitPtr p) = p := by
  unfold linearBit bitPtr
  dsimp only
  rw [bitAddress_toNat h, bitOffset_toNat, lin_eq]

/-- The five registers of a string-to-string operation. -/
def stringRegs : List RegIdx := [30, 27, 29, 26, 28]

/-- Everything one element does (R173). -/
theorem stringElement_spec (f : Bool → Bool → Bool) {s : State} {S D : Nat}
    (hS : s.sourcePtr = bitPtr S) (hD : s.destPtr = bitPtr D) (lS : S < 2 ^ 35) (lD : D < 2 ^ 35)
    (hx : s.MemPlain (bitAddress S).toNat 4) (hr : s.MemAll .ram (bitAddress D).toNat 4) :
    ∃ t, stringElement f s = .next t ∧ t.sourcePtr = bitPtr (bitFrom .up S 1) ∧
      t.destPtr = bitPtr (bitFrom .up D 1) ∧ t.readReg 28 = s.readReg 28 - 1 ∧
      (∀ j, j ∉ stringRegs → t.readReg j = s.readReg j) ∧
      t = { s with regs := t.regs, mem := t.mem } ∧
      ∀ p, memoryBit t.mem p =
        if p % 2 ^ 35 = D then f (memoryBit s.mem D) (memoryBit s.mem S) else memoryBit s.mem p := by
  have aS := bitAddress_toNat lS
  have aD := bitAddress_toNat lD
  have r1 : bsRead (bitAddress S) s = .next (readBytes s.mem (4 * (S / 32)) 4) := by
    rw [bsRead_plain hx, aS]
  have r2 : bsRead (bitAddress D) s = .next (readBytes s.mem (4 * (D / 32)) 4) := by
    rw [bsRead_plain (memPlain_of_ram hr), aD]
  have b1 : (readBytes s.mem (4 * (S / 32)) 4).getLsbD (S % 32) = memoryBit s.mem S := by
    rw [readWord_bit _ _ _ (by omega) (by omega) (by omega), lin_eq]
  have b2 : (readBytes s.mem (4 * (D / 32)) 4).getLsbD (D % 32) = memoryBit s.mem D := by
    rw [readWord_bit _ _ _ (by omega) (by omega) (by omega), lin_eq]
  have w : ∀ v, bsWrite (bitAddress D) v s = .next { s with mem := writeBytes s.mem (4 * (D / 32)) 4 v } := by
    intro v
    rw [bsWrite_ram hr, aD]
  have mb : ∀ b p, memoryBit (writeBytes s.mem (4 * (D / 32)) 4 (setBit (readBytes s.mem (4 * (D / 32)) 4) (D % 32) b)) p =
      if p % 2 ^ 35 = D then b else memoryBit s.mem p := by
    intro b p
    rw [memoryBit_setBit _ _ _ _ _ (by omega) (by omega), lin_eq]
  unfold stringElement
  rw [hS, hD]
  simp only [bitPtr, r1, r2, bindOutcome, bitOffset_toNat, b1, b2, w]
  refine ⟨_, rfl, ?_⟩
  have e1 := stepUp_bitPtr lS
  have e2 := stepUp_bitPtr lD
  unfold bitPtr at e1 e2
  rw [e1, e2]
  have mb' := mb (f (memoryBit s.mem D) (memoryBit s.mem S))
  generalize writeBytes s.mem (4 * (D / 32)) 4 (setBit (readBytes s.mem (4 * (D / 32)) 4) (D % 32)
    (f (memoryBit s.mem D) (memoryBit s.mem S))) = m at mb' ⊢
  have old : ∀ j, ({ s with mem := m } : State).readReg j = s.readReg j := fun j => readReg_congr rfl j
  refine ⟨?_, ?_, ?_, ?_, rfl, fun p => mb' p⟩
  · simp [State.sourcePtr, State.setDestPtr, State.setSourcePtr, readReg_writeReg, bitFrom]
  · simp [State.destPtr, State.setDestPtr, State.setSourcePtr, readReg_writeReg, bitFrom]
  · simp [readReg_writeReg]
  · intro j hj
    simp only [stringRegs, List.mem_cons, List.not_mem_nil, or_false, not_or] at hj
    rw [readReg_writeReg_other _ _ _ _ (fun c => hj.2.2.2.2 c)]
    unfold State.setDestPtr State.setSourcePtr
    rw [readReg_writeReg_other _ _ _ _ (fun c => hj.2.2.2.1 c),
        readReg_writeReg_other _ _ _ _ (fun c => hj.2.2.1 c),
        readReg_writeReg_other _ _ _ _ (fun c => hj.2.1 c),
        readReg_writeReg_other _ _ _ _ (fun c => hj.1 c), old]

/-- Everything the loop does (R173): the pointers and count move, bits outside the destination stay, and
every destination bit is `f` of what it was and of its source bit, as that was, or as an element before
had written it. -/
theorem stringLoop_spec (f : Bool → Bool → Bool) (n : Nat) : ∀ {s : State} {S D : Nat},
    s.sourcePtr = bitPtr S → s.destPtr = bitPtr D → S < 2 ^ 35 → D < 2 ^ 35 → n < 2 ^ 35 →
    (∀ j, j < n → s.MemPlain (bitAddress (bitFrom .up S j)).toNat 4 ∧
        s.MemAll .ram (bitAddress (bitFrom .up D j)).toNat 4) →
    ∃ t, stringLoop f n s = .next t ∧ t.sourcePtr = bitPtr (bitFrom .up S n) ∧
      t.destPtr = bitPtr (bitFrom .up D n) ∧ t.readReg 28 = s.readReg 28 - BitVec.ofNat 32 n ∧
      (∀ j, j ∉ stringRegs → t.readReg j = s.readReg j) ∧
      t = { s with regs := t.regs, mem := t.mem } ∧
      (∀ p, p < 2 ^ 35 → (∀ j, j < n → bitFrom .up D j ≠ p) → memoryBit t.mem p = memoryBit s.mem p) ∧
      (∀ j, j < n → (∀ l, l < j → bitFrom .up D l ≠ bitFrom .up S j) →
        memoryBit t.mem (bitFrom .up D j) =
          f (memoryBit s.mem (bitFrom .up D j)) (memoryBit s.mem (bitFrom .up S j))) ∧
      (∀ l j, l < j → j < n → bitFrom .up D l = bitFrom .up S j →
        memoryBit t.mem (bitFrom .up D j) =
          f (memoryBit s.mem (bitFrom .up D j)) (memoryBit t.mem (bitFrom .up D l))) := by
  induction n with
  | zero =>
    intro s S D hS hD lS lD _ _
    exact ⟨s, rfl, by rw [bitFrom_zero _ lS, hS], by rw [bitFrom_zero _ lD, hD], by simp,
      fun _ _ => rfl, rfl, fun _ _ _ => rfl, fun _ hj => by omega, fun _ _ _ hj => by omega⟩
  | succ n ih =>
    intro s S D hS hD lS lD ln hx
    obtain ⟨x0, r0⟩ := hx 0 (by omega)
    rw [bitFrom_zero _ lS] at x0
    rw [bitFrom_zero _ lD] at r0
    obtain ⟨u, hu, u1, u2, u3, u4, u5, u6⟩ := stringElement_spec f hS hD lS lD x0 r0
    have uc : u.config = s.config := by rw [u5]
    obtain ⟨t, ht, t1, t2, t3, t4, t5, t6, t7, t8⟩ :=
        ih u1 u2 (bitFrom_lt _ _ _) (bitFrom_lt _ _ _) (by omega) (by
      intro j hj
      obtain ⟨a, b⟩ := hx (j + 1) (by omega)
      rw [bitFrom_add, bitFrom_add, Nat.add_comm 1 j, memAll_congr uc, memPlain_congr uc]
      exact ⟨a, b⟩)
    have ud : ∀ p, p < 2 ^ 35 → p ≠ D → memoryBit u.mem p = memoryBit s.mem p := fun p hp hne => by
      rw [u6, if_neg (by omega)]
    have far : ∀ j, 0 < j → j < n + 1 → bitFrom .up D j ≠ D := fun j h0 hj => by
      unfold bitFrom; dsimp only; omega
    -- the first destination bit is final after the first element
    have first : memoryBit t.mem D = f (memoryBit s.mem D) (memoryBit s.mem S) := by
      rw [t6 D lD (fun l hl => by rw [bitFrom_add]; exact far _ (by omega) (by omega)), u6,
        if_pos (Nat.mod_eq_of_lt lD)]
    refine ⟨t, ?_, ?_, ?_, ?_, ?_, ?_, ?_, ?_, ?_⟩
    · unfold stringLoop
      rw [hu]
      exact ht
    · rw [t1, bitFrom_add, Nat.add_comm 1 n]
    · rw [t2, bitFrom_add, Nat.add_comm 1 n]
    · rw [t3, u3]
      apply BitVec.eq_of_toNat_eq
      show (s.readReg 28 - 1#32 - BitVec.ofNat 32 n).toNat = _
      simp only [BitVec.toNat_sub, BitVec.toNat_ofNat]
      omega
    · intro j hj; rw [t4 j hj, u4 j hj]
    · rw [t5, u5]
    · intro p hp hne
      rw [t6 p hp (fun j hj => by rw [bitFrom_add, Nat.add_comm 1 j]; exact hne (j + 1) (by omega)), u6,
        if_neg (by
          have := hne 0 (by omega)
          rw [bitFrom_zero _ lD] at this
          omega)]
    · intro j hj hno
      rcases Nat.eq_zero_or_pos j with rfl | hj0
      · rw [bitFrom_zero _ lD, bitFrom_zero _ lS, first]
      · obtain ⟨k, rfl⟩ : ∃ k, j = k + 1 := ⟨j - 1, by omega⟩
        have := t7 k (by omega) (fun l hl => by
          rw [bitFrom_add, bitFrom_add, Nat.add_comm 1 k]; exact hno (1 + l) (by omega))
        rw [bitFrom_add, bitFrom_add, Nat.add_comm 1 k] at this
        have n0 := hno 0 (by omega)
        rw [bitFrom_zero _ lD] at n0
        rw [this, ud _ (bitFrom_lt _ _ _) (far _ hj0 hj), ud _ (bitFrom_lt _ _ _) (fun c => n0 c.symm)]
    · intro l j hl hj he
      obtain ⟨k, rfl⟩ : ∃ k, j = k + 1 := ⟨j - 1, by omega⟩
      rcases Nat.eq_zero_or_pos l with rfl | hl0
      · -- the source bit is the one the first element wrote
        rw [bitFrom_zero _ lD] at he ⊢
        have := t7 k (by omega) (fun l hl => by
          rw [bitFrom_add, bitFrom_add, Nat.add_comm 1 k, ← he]; exact far _ (by omega) (by omega))
        rw [bitFrom_add, bitFrom_add, Nat.add_comm 1 k, ← he] at this
        rw [this, ud _ (bitFrom_lt _ _ _) (far _ (by omega) hj), u6, if_pos (Nat.mod_eq_of_lt lD), first]
      · obtain ⟨m, rfl⟩ : ∃ m, l = m + 1 := ⟨l - 1, by omega⟩
        have := t8 m k (by omega) (by omega) (by
          rw [bitFrom_add, bitFrom_add, Nat.add_comm 1 k, Nat.add_comm 1 m]; exact he)
        rw [bitFrom_add, bitFrom_add, Nat.add_comm 1 k, Nat.add_comm 1 m] at this
        rw [this, ud _ (bitFrom_lt _ _ _) (far _ (by omega) hj)]

/-- The model's test of an overlap is that of R175: the strings share a bit, the destination above. -/
theorem destructiveOverlap_maskStringRegs (s : State) :
    destructiveOverlap (maskStringRegs s) = true ↔ s.OverlapsAbove := by
  have m1 : (maskStringRegs s).sourcePtr = bitPtr (startBit (s.readReg 30) (s.readReg 27)) := by
    rw [← maskPtr_eq]
    simp [maskStringRegs, State.setSourcePtr, State.setDestPtr, readReg_writeReg, State.sourcePtr]
  have m2 : (maskStringRegs s).destPtr = bitPtr (startBit (s.readReg 29) (s.readReg 26)) := by
    rw [← maskPtr_eq]
    simp [maskStringRegs, State.setSourcePtr, State.setDestPtr, readReg_writeReg, State.destPtr]
  have m3 : (maskStringRegs s).readReg 28 = s.readReg 28 := by
    simp [maskStringRegs, State.setSourcePtr, State.setDestPtr, readReg_writeReg]
  have l := (s.readReg 28).isLt
  unfold destructiveOverlap State.OverlapsAbove
  rw [m1, m2, m3]
  have hS := startBit_lt (s.readReg 30) (s.readReg 27)
  have hD := startBit_lt (s.readReg 29) (s.readReg 26)
  generalize startBit (s.readReg 30) (s.readReg 27) = S at *
  generalize startBit (s.readReg 29) (s.readReg 26) = D at *
  dsimp only
  rw [linearBit_bitPtr hS, linearBit_bitPtr hD, decide_eq_true_iff]
  unfold bitFrom
  dsimp only
  constructor
  · rintro ⟨h, h1 | h1⟩
    · exact ⟨h, D - S, 0, h1, by omega, by omega⟩
    · exact ⟨h, 0, S + 2 ^ 35 - D, by omega, h1, by omega⟩
  · rintro ⟨h, j, k, hj, hk, he⟩
    exact ⟨h, by omega⟩

/-- Everything a string-to-string operation that completes has done first (R173, R175). -/
theorem stringOp_next {f : Bool → Bool → Bool} {s t : State} (h : stringOp f s = .next t) :
    ¬s.OverlapsAbove ∧
    ∃ u, stringLoop f (elementsToRun (maskStringRegs s)) (maskStringRegs s) = .next u ∧
      t = if u.readReg 28 = 0 then u.advance 2 else u := by
  unfold stringOp at h
  dsimp only at h
  split at h
  · cases h
  · rename_i hn
    obtain ⟨u, hu, h⟩ := (bindOutcome_eq_next _ _ _).mp h
    cases h
    exact ⟨fun c => hn ((destructiveOverlap_maskStringRegs s).mpr c), u, hu, rfl⟩

/-- Strings that overlap with the destination above are refused (R175). -/
theorem stringOp_overlap {f : Bool → Bool → Bool} {s : State} (h : s.OverlapsAbove) :
    stringOp f s = .refused (.destructiveOverlap (linearBit (maskStringRegs s).sourcePtr)
      (linearBit (maskStringRegs s).destPtr)) :=
  if_pos ((destructiveOverlap_maskStringRegs s).mpr h)

/-- Any others run through the loop of R173. -/
theorem stringOp_runs {f : Bool → Bool → Bool} {s : State} (h : ¬s.OverlapsAbove) :
    stringOp f s = bindOutcome (stringLoop f (elementsToRun (maskStringRegs s)) (maskStringRegs s))
      fun t => .next (if t.readReg 28 = 0 then t.advance 2 else t) :=
  if_neg fun c => h ((destructiveOverlap_maskStringRegs s).mp c)


/-! ## Searches -/

/-- The state after `k` bits passed over by a search. -/
structure SearchAt (s t : State) (d : Direction) (p k : Nat) : Prop where
  source : t.sourcePtr = bitPtr (bitFrom d p k)
  count : t.readReg 28 = s.readReg 28 - BitVec.ofNat 32 k
  passed : t.readReg 29 = s.readReg 29 + BitVec.ofNat 32 k
  others : ∀ j : RegIdx, j ≠ 30 → j ≠ 27 → j ≠ 28 → j ≠ 29 → t.readReg j = s.readReg j
  rest : t = { s with regs := t.regs }

/-- One bit passed over (R174). -/
theorem searchStep_at (s : State) (d : Direction) {p : Nat} (hS : s.sourcePtr = bitPtr p) (lS : p < 2 ^ 35) :
    SearchAt s (((s.setSourcePtr (d.step s.sourcePtr)).writeReg 28 (s.readReg 28 - 1)).writeReg 29
      (s.readReg 29 + 1)) d p 1 := by
  rw [hS, step_bitPtr d lS]
  refine ⟨?_, ?_, ?_, ?_, rfl⟩
  · unfold State.sourcePtr
    simp [State.setSourcePtr, readReg_writeReg]
  · simp [readReg_writeReg]
  · simp [readReg_writeReg]
  · intro j h1 h2 h3 h4
    unfold State.setSourcePtr
    rw [readReg_writeReg_other _ _ _ _ h4, readReg_writeReg_other _ _ _ _ h3,
      readReg_writeReg_other _ _ _ _ h2, readReg_writeReg_other _ _ _ _ h1]

/-- Bits passed over add up. -/
theorem SearchAt.trans {s t u : State} {d : Direction} {p j k : Nat} (h : SearchAt s t d p j)
    (g : SearchAt t u d (bitFrom d p j) k) : SearchAt s u d p (j + k) where
  source := by rw [g.source, bitFrom_add]
  count := by
    rw [g.count, h.count]
    apply BitVec.eq_of_toNat_eq
    simp only [BitVec.toNat_sub, BitVec.toNat_ofNat]
    omega
  passed := by
    rw [g.passed, h.passed]
    apply BitVec.eq_of_toNat_eq
    simp only [BitVec.toNat_add, BitVec.toNat_ofNat]
    omega
  others := fun i h1 h2 h3 h4 => (g.others i h1 h2 h3 h4).trans (h.others i h1 h2 h3 h4)
  rest := by rw [g.rest, h.rest]

/-- No bit passed over. -/
theorem searchAt_refl {s : State} (d : Direction) {p : Nat} (hS : s.sourcePtr = bitPtr p) (lS : p < 2 ^ 35) :
    SearchAt s s d p 0 :=
  ⟨by rw [bitFrom_zero _ lS, hS], by simp, by simp, fun _ _ _ _ _ => rfl, rfl⟩

/-- Everything a search loop does (R174): it stops at the first target bit, or passes over all. -/
theorem searchLoop_spec (b : Bool) (d : Direction) (n : Nat) : ∀ {s : State} {p : Nat},
    s.sourcePtr = bitPtr p → p < 2 ^ 35 →
    (∀ j, j < n → (∀ l, l < j → memoryBit s.mem (bitFrom d p l) ≠ b) →
      s.MemPlain (bitAddress (bitFrom d p j)).toNat 4) →
    (∀ k, k < n → memoryBit s.mem (bitFrom d p k) = b →
      (∀ l, l < k → memoryBit s.mem (bitFrom d p l) ≠ b) →
      ∃ t, searchLoop b d n s = .next (true, t) ∧ SearchAt s t d p k) ∧
    ((∀ l, l < n → memoryBit s.mem (bitFrom d p l) ≠ b) →
      ∃ t, searchLoop b d n s = .next (false, t) ∧ SearchAt s t d p n) := by
  induction n with
  | zero =>
    intro s p hS lS _
    exact ⟨fun k hk => by omega, fun _ => ⟨s, rfl, searchAt_refl d hS lS⟩⟩
  | succ n ih =>
    intro s p hS lS hx
    have x0 := hx 0 (by omega) (fun l hl => by omega)
    rw [bitFrom_zero _ lS] at x0
    have aS := bitAddress_toNat lS
    have r1 : bsRead (bitAddress p) s = .next (readBytes s.mem (4 * (p / 32)) 4) := by
      rw [bsRead_plain x0, aS]
    have b1 : (readBytes s.mem (4 * (p / 32)) 4).getLsbD (p % 32) = memoryBit s.mem p := by
      rw [readWord_bit _ _ _ (by omega) (by omega) (by omega), lin_eq]
    have st := searchStep_at s d hS lS
    generalize hu : (((s.setSourcePtr (d.step s.sourcePtr)).writeReg 28 (s.readReg 28 - 1)).writeReg 29
      (s.readReg 29 + 1)) = u at st
    have unf : searchLoop b d (n + 1) s =
        if memoryBit s.mem p = b then .next (true, s) else searchLoop b d n u := by
      rw [← hu]
      show bindOutcome (bsRead s.sourcePtr.1 s) _ = _
      rw [hS]
      simp only [bitPtr, r1, bindOutcome, bitOffset_toNat, b1]
    by_cases c : memoryBit s.mem p = b
    · rw [if_pos c] at unf
      refine ⟨fun k hk hb hne => ?_, fun hne => ?_⟩
      · have : k = 0 := by
          by_contra k0
          have := hne 0 (by omega)
          rw [bitFrom_zero _ lS] at this
          exact this c
        subst this
        exact ⟨s, unf, searchAt_refl d hS lS⟩
      · have := hne 0 (by omega)
        rw [bitFrom_zero _ lS] at this
        exact absurd c this
    · rw [if_neg c] at unf
      have um : u.mem = s.mem := by rw [st.rest]
      have uc : u.config = s.config := by rw [st.rest]
      have ne0 : ∀ k, (∀ l, l < k → memoryBit u.mem (bitFrom d (bitFrom d p 1) l) ≠ b) →
          ∀ l, l < k + 1 → memoryBit s.mem (bitFrom d p l) ≠ b := by
        intro k h l hl
        rcases Nat.eq_zero_or_pos l with rfl | h0
        · rw [bitFrom_zero _ lS]; exact c
        · have := h (l - 1) (by omega)
          rw [bitFrom_add, um, show 1 + (l - 1) = l by omega] at this
          exact this
      have := ih st.source (bitFrom_lt _ _ _) (by
        intro j hj hl
        have := hx (j + 1) (by omega) (ne0 j hl)
        rw [bitFrom_add, Nat.add_comm 1 j]
        rw [memPlain_congr uc]
        exact this)
      refine ⟨fun k hk hb hne => ?_, fun hne => ?_⟩
      · rcases Nat.eq_zero_or_pos k with rfl | k0
        · rw [bitFrom_zero _ lS] at hb; exact absurd hb c
        · have hb' : memoryBit u.mem (bitFrom d (bitFrom d p 1) (k - 1)) = b := by
            rw [bitFrom_add, um, show 1 + (k - 1) = k by omega]
            exact hb
          obtain ⟨t, ht, h⟩ := this.1 (k - 1) (by omega) hb' fun l hl => by
            rw [bitFrom_add, um]
            exact hne (1 + l) (by omega)
          refine ⟨t, unf.trans ht, ?_⟩
          have := st.trans h
          rwa [show 1 + (k - 1) = k by omega] at this
      · obtain ⟨t, ht, h⟩ := this.2 (fun l hl => by rw [bitFrom_add, um]; exact hne (1 + l) (by omega))
        refine ⟨t, unf.trans ht, ?_⟩
        have := st.trans h
        rwa [Nat.add_comm 1 n] at this

/-! ## The instructions -/

/-- Every string-to-string operation is `stringOp` of its bit function. -/
theorem exec_stringFunction {i : Instr} {f : Bool → Bool → Bool} (hf : stringFunction i = some f)
    (s : State) : exec i s = stringOp f s := by
  unfold stringFunction at hf
  by_cases h : i = .orbsu
  · subst h; cases hf; rfl
  by_cases h : i = .andbsu
  · subst h; cases hf; rfl
  by_cases h : i = .xorbsu
  · subst h; cases hf; exact congrArg (stringOp · s) (by funext a b; cases a <;> cases b <;> rfl)
  by_cases h : i = .movbsu
  · subst h; cases hf; rfl
  by_cases h : i = .ornbsu
  · subst h; cases hf; rfl
  by_cases h : i = .andnbsu
  · subst h; cases hf; rfl
  by_cases h : i = .xornbsu
  · subst h; cases hf; exact congrArg (stringOp · s) (by funext a b; cases a <;> cases b <;> rfl)
  by_cases h : i = .notbsu
  · subst h; cases hf; rfl
  · simp_all

/-- Every search is `searchOp` of its target and direction. -/
theorem exec_searchFunction {i : Instr} {b : Bool} {d : Direction}
    (hf : searchFunction i = some (b, d)) (s : State) : exec i s = searchOp b d s := by
  unfold searchFunction at hf
  by_cases h : i = .sch0bsu
  · subst h; cases hf; rfl
  by_cases h : i = .sch0bsd
  · subst h; cases hf; rfl
  by_cases h : i = .sch1bsu
  · subst h; cases hf; rfl
  by_cases h : i = .sch1bsd
  · subst h; cases hf; rfl
  · simp_all

/-- What masking the registers leaves alone, and the pointers it gives (R171). -/
theorem maskStringRegs_spec (s : State) :
    (maskStringRegs s).breakPoint = s.breakPoint ∧ (maskStringRegs s).readReg 28 = s.readReg 28 ∧
    (maskStringRegs s).sourcePtr = bitPtr (startBit (s.readReg 30) (s.readReg 27)) ∧
    (maskStringRegs s).destPtr = bitPtr (startBit (s.readReg 29) (s.readReg 26)) ∧
    maskStringRegs s = { s with regs := (maskStringRegs s).regs } := by
  refine ⟨?_, ?_, ?_, ?_, rfl⟩
  · simp [maskStringRegs, State.breakPoint, State.setSourcePtr, State.setDestPtr]
  · simp [maskStringRegs, State.setSourcePtr, State.setDestPtr, readReg_writeReg]
  · rw [← maskPtr_eq]
    simp [maskStringRegs, State.setSourcePtr, State.setDestPtr, readReg_writeReg, State.sourcePtr]
  · rw [← maskPtr_eq]
    simp [maskStringRegs, State.setSourcePtr, State.setDestPtr, readReg_writeReg, State.destPtr]

/-- A run that is not broken off at once, on a string that is not empty, has a first element. -/
theorem elementsToRun_pos {s : State} (hb : s.breakPoint ≠ some 0) (h : s.readReg 28 ≠ 0) :
    ∃ n, elementsToRun s = n + 1 := by
  have : (s.readReg 28).toNat ≠ 0 := fun c => h (BitVec.eq_of_toNat_eq c)
  refine ⟨elementsToRun s - 1, ?_⟩
  unfold elementsToRun
  split
  · rename_i k hk
    have : k ≠ 0 := fun c => hb (by rw [hk, c])
    omega
  · omega

/-! ## Where the loops stop, and how they compose -/

/-- A bit string where nothing answers has no step (R48). -/
theorem bsRead_none {s : State} {a : Word} (h : s.MemSome .none a.toNat 4) :
    bsRead a s = .fault (.unmappedAddress a.toNat) := by
  simp only [bsRead, (memTouches s a.toNat 4).1.mpr h, if_true]

/-- A bit string on a device is refused (R173). -/
theorem bsRead_device {s : State} {a : Word} (hm : s.MemMapped a.toNat 4)
    (h : s.MemSome .device a.toNat 4) : bsRead a s = .refused (.bitStringDevice a.toNat) := by
  have hn : touches s.memPlace a.toNat 4 (.unmapped .memory) = false := by
    rw [touches_eq_false]; intro k hk c; exact hm k hk (memPlace_unmapped.mp c)
  simp only [bsRead, hn, (memTouches s a.toNat 4).2.1.mpr h, if_true, Bool.false_eq_true, if_false]

/-- Everything an element that completes has done to the pointers, and what it needed of the map. -/
theorem stringElement_next {f : Bool → Bool → Bool} {s t : State}
    (h : stringElement f s = .next t) :
    s.MemPlain s.sourcePtr.1.toNat 4 ∧ s.MemAll .ram s.destPtr.1.toNat 4 ∧
    t.sourcePtr = stepUp s.sourcePtr ∧ t.destPtr = stepUp s.destPtr ∧
    t.readReg 28 = s.readReg 28 - 1 ∧
    t = { s with regs := t.regs, mem := t.mem } := by
  obtain ⟨sw, h1, h⟩ := (bindOutcome_eq_next _ _ _).mp h
  obtain ⟨dw, h2, h⟩ := (bindOutcome_eq_next _ _ _).mp h
  obtain ⟨u, hu, h⟩ := (bindOutcome_eq_next _ _ _).mp h
  obtain ⟨hk, hu⟩ := bsWrite_next hu
  simp only [Host.Outcome.next.injEq] at h
  have r : t.regs = (((u.setSourcePtr (stepUp s.sourcePtr)).setDestPtr
      (stepUp s.destPtr)).writeReg 28 (s.readReg 28 - 1)).regs := by
    rw [← h]
  refine ⟨(bsRead_next h1).1, hk, ?_, ?_, ?_, ?_⟩
  · show (t.readReg 30, t.readReg 27) = _
    rw [readReg_congr r, readReg_congr r]
    simp [State.setDestPtr, State.setSourcePtr, readReg_writeReg]
  · show (t.readReg 29, t.readReg 26) = _
    rw [readReg_congr r, readReg_congr r]
    simp [State.setDestPtr, State.setSourcePtr, readReg_writeReg]
  · rw [readReg_congr r]
    simp [readReg_writeReg]
  · rw [← h, hu]
    rfl

/-- A loop of `m + n` elements is one of `m`, then one of `n`. -/
theorem stringLoop_add (f : Bool → Bool → Bool) (m n : Nat) : ∀ s : State,
    stringLoop f (m + n) s = bindOutcome (stringLoop f m s) (stringLoop f n) := by
  induction m with
  | zero => intro s; rw [Nat.zero_add]; rfl
  | succ m ih =>
    intro s
    rw [Nat.add_right_comm]
    show bindOutcome (stringElement f s) (stringLoop f (m + n)) =
      bindOutcome (bindOutcome (stringElement f s) (stringLoop f m)) (stringLoop f n)
    cases stringElement f s with
    | next t => exact ih t
    | _ => rfl

/-- A search that passes over `m` bits goes on from there. -/
theorem searchLoop_add {b : Bool} {d : Direction} {n : Nat} (m : Nat) : ∀ {s u : State},
    searchLoop b d m s = .next (false, u) → searchLoop b d (m + n) s = searchLoop b d n u := by
  induction m with
  | zero => intro s u h; cases h; rw [Nat.zero_add]
  | succ m ih =>
    intro s u h
    rw [Nat.add_right_comm]
    obtain ⟨w, hw, h⟩ := (bindOutcome_eq_next _ _ _).mp h
    show bindOutcome (bsRead s.sourcePtr.1 s) _ = _
    rw [hw]
    show (if _ then _ else _) = _
    split at h
    · cases h
    · rename_i hn
      rw [if_neg hn]
      exact ih h

end Sys2Proof.Machine
end

