-- ==== Sys2Proof/Laws/Decode.lean ====
section
/-! SUPPORT. What the decoder and the encoder do, said once: the fields read back from an encoded
halfword, the length of what is decoded, and what each group answers. -/

namespace Sys2Proof

/-! ## Fields of an encoded halfword (R51-R58) -/

@[simp] theorem opcodeOf_fmtI (op : BitVec 6) (r lo : BitVec 5) : opcodeOf (fmtI op r lo) = op := by
  apply BitVec.eq_of_getLsbD_eq
  intro i hi
  unfold opcodeOf fmtI
  simp only [BitVec.getLsbD_extractLsb', BitVec.getLsbD_append, hi, decide_true, Bool.true_and]
  rw [if_neg (by omega), if_neg (by omega)]
  congr 1
  omega

@[simp] theorem reg2Of_fmtI (op : BitVec 6) (r lo : BitVec 5) : reg2Of (fmtI op r lo) = r := by
  apply BitVec.eq_of_getLsbD_eq
  intro i hi
  unfold reg2Of fmtI
  simp only [BitVec.getLsbD_extractLsb', BitVec.getLsbD_append, hi, decide_true, Bool.true_and]
  rw [if_neg (by omega), if_pos (by omega)]
  congr 1
  omega

@[simp] theorem reg1Of_fmtI (op : BitVec 6) (r lo : BitVec 5) : reg1Of (fmtI op r lo) = lo := by
  apply BitVec.eq_of_getLsbD_eq
  intro i hi
  unfold reg1Of fmtI
  simp only [BitVec.getLsbD_extractLsb', BitVec.getLsbD_append, hi, decide_true, Bool.true_and]
  rw [if_pos (by omega)]
  congr 1
  omega

/-- Format III is told by the top three bits of the opcode. -/
theorem isBranch_eq (hw0 : Half) : isBranch hw0 = ((opcodeOf hw0).extractLsb' 3 3 == 0b100#3) := by
  unfold isBranch opcodeOf
  congr 1
  apply BitVec.eq_of_getLsbD_eq
  intro i hi
  simp only [BitVec.getLsbD_extractLsb', hi, decide_true, Bool.true_and]
  rw [show (decide (3 + i < 6)) = true by simp; omega, Bool.true_and]
  congr 1
  omega

@[simp] theorem isBranch_fmtIII (c : BitVec 4) (d : BitVec 9) : isBranch (fmtIII c d) = true := by
  unfold isBranch fmtIII
  rw [beq_iff_eq]
  apply BitVec.eq_of_getLsbD_eq
  intro i hi
  simp only [BitVec.getLsbD_extractLsb', BitVec.getLsbD_append, hi, decide_true, Bool.true_and]
  rw [if_neg (by omega), if_neg (by omega)]
  congr 1
  omega

@[simp] theorem condOf_fmtIII (c : BitVec 4) (d : BitVec 9) : condOf (fmtIII c d) = c := by
  apply BitVec.eq_of_getLsbD_eq
  intro i hi
  unfold condOf fmtIII
  simp only [BitVec.getLsbD_extractLsb', BitVec.getLsbD_append, hi, decide_true, Bool.true_and]
  rw [if_neg (by omega), if_pos (by omega)]
  congr 1
  omega

/-- An even displacement survives. -/
theorem disp9Of_fmtIII (c : BitVec 4) (d : BitVec 9) (h : d.getLsbD 0 = false) :
    disp9Of (fmtIII c d) = d := by
  apply BitVec.eq_of_getLsbD_eq
  intro i hi
  unfold disp9Of fmtIII
  simp only [BitVec.getLsbD_extractLsb', BitVec.getLsbD_append]
  by_cases c : i < 1
  · have : i = 0 := by omega
    subst this
    rw [if_pos c, h]
    rfl
  · rw [if_neg c, if_pos (by omega), show (decide (i - 1 < 8)) = true by simp; omega, Bool.true_and]
    congr 1
    omega

/-- A format III word is no long one. -/
theorem isLong_of_isBranch (hw0 : Half) (h : isBranch hw0 = true) : isLong hw0 = false := by
  rw [isBranch_eq] at h
  unfold isLong
  revert h
  generalize opcodeOf hw0 = op
  revert op
  decide

@[simp] theorem opcodeOf_fmtIV (op : BitVec 6) (d : BitVec 26) :
    opcodeOf (op ++ d.extractLsb' 16 10) = op := by
  apply BitVec.eq_of_getLsbD_eq
  intro i hi
  unfold opcodeOf
  simp only [BitVec.getLsbD_extractLsb', BitVec.getLsbD_append, hi, decide_true, Bool.true_and]
  rw [if_neg (by omega)]
  congr 1
  omega

/-- An even displacement survives. -/
theorem disp26Of_fmtIV (op : BitVec 6) (d : BitVec 26) (h : d.getLsbD 0 = false) :
    disp26Of (op ++ d.extractLsb' 16 10) (d.extractLsb' 0 16) = d := by
  apply BitVec.eq_of_getLsbD_eq
  intro i hi
  unfold disp26Of
  simp only [BitVec.getLsbD_extractLsb', BitVec.getLsbD_append]
  by_cases c : i < 1
  · have : i = 0 := by omega
    subst this
    rw [if_pos c, h]
    rfl
  · rw [if_neg c]
    by_cases c2 : i - 1 < 15
    · rw [if_pos c2]
      simp only [c2, decide_true, Bool.true_and, show 1 + (i - 1) < 16 by omega]
      congr 1
      omega
    · rw [if_neg c2, if_pos (by omega)]
      simp only [show i - 1 - 15 < 10 by omega, decide_true, Bool.true_and,
        Nat.zero_add, show 16 + (i - 1 - 15) = i by omega]

/-- The sub-opcode of a format VII word. -/
@[simp] theorem sub_fmtSub (s : BitVec 6) : (fmtSub s).extractLsb' 10 6 = s := by
  apply BitVec.eq_of_getLsbD_eq
  intro i hi
  unfold fmtSub
  simp only [BitVec.getLsbD_extractLsb', BitVec.getLsbD_append, hi, decide_true, Bool.true_and]
  rw [if_neg (by omega)]
  congr 1
  omega

/-- The halfword of the two bytes of a halfword. -/
@[simp] theorem halfOfBytes_split (h : Half) :
    halfOfBytes (h.extractLsb' 0 8) (h.extractLsb' 8 8) = h := by
  apply BitVec.eq_of_getLsbD_eq
  intro i hi
  unfold halfOfBytes
  simp only [BitVec.getLsbD_extractLsb', BitVec.getLsbD_append]
  by_cases c : i < 8
  · simp [c]
  · rw [if_neg c, show (decide (i - 8 < 8)) = true by simp; omega, Bool.true_and]
    congr 1
    omega

/-! ## Decoding an encoded pair -/

/-- The bytes of a short word and what follows. -/
theorem decode_short (hw0 : Half) (rest : List Byte) (h : isLong hw0 = false) :
    decode (bytesOfHalves [hw0] ++ rest) =
      match decodeWords hw0 0 with
      | .ok i => .ok (i, rest)
      | .error e => .error e := by
  simp only [bytesOfHalves, List.cons_append, List.nil_append, decode, halfOfBytes_split, h]
  rfl

/-- The bytes of a long word and what follows. -/
theorem decode_long (hw0 hw1 : Half) (rest : List Byte) (h : isLong hw0 = true) :
    decode (bytesOfHalves [hw0, hw1] ++ rest) =
      match decodeWords hw0 hw1 with
      | .ok i => .ok (i, rest)
      | .error e => .error e := by
  simp only [bytesOfHalves, List.cons_append, List.nil_append, decode, halfOfBytes_split, h]
  rfl

/-! ## The groups -/

/-- The bit-string group answers exactly for the listed sub-opcodes (R71). -/
theorem decodeBitString_length {sub : BitVec 5} {i : Instr} (h : decodeBitString sub = .ok i) :
    i.length = 2 ∧ i.wellFormed = true := by
  unfold decodeBitString at h
  split at h <;> cases h <;> exact ⟨rfl, rfl⟩

/-- The floating-point group answers exactly for the listed sub-opcodes (R72). -/
theorem decodeFloat_length {sub : BitVec 6} {r1 r2 : RegIdx} {i : Instr}
    (h : decodeFloat sub r1 r2 = .ok i) : i.length = 4 ∧ i.wellFormed = true := by
  unfold decodeFloat at h
  split at h <;> cases h <;> exact ⟨rfl, rfl⟩

/-- A decoded displacement is even (R54). -/
theorem disp9Of_even (hw0 : Half) : (disp9Of hw0).getLsbD 0 = false := by
  unfold disp9Of
  rw [BitVec.getLsbD_append]
  rfl

/-- A decoded displacement is even (R55). -/
theorem disp26Of_even (hw0 hw1 : Half) : (disp26Of hw0 hw1).getLsbD 0 = false := by
  unfold disp26Of
  rw [BitVec.getLsbD_append]
  rfl

/-- Format III instructions are short and well-formed. -/
theorem decodeBranch_length (c : BitVec 4) (d : BitVec 9) (h : d.getLsbD 0 = false) :
    (decodeBranch c d).length = 2 ∧ (decodeBranch c d).wellFormed = true := by
  unfold decodeBranch
  split <;> exact ⟨rfl, by simp [Instr.wellFormed, evenDisp, -BitVec.getLsbD_eq_getElem, h]⟩

/-- What is decoded is well-formed, and as long as the first halfword says (R50, R65). -/
theorem decodeWords_length {hw0 hw1 : Half} {i : Instr} (h : decodeWords hw0 hw1 = .ok i) :
    i.wellFormed = true ∧ i.length = lengthOf hw0 := by
  unfold decodeWords at h
  unfold lengthOf
  split at h
  · rename_i hb
    cases h
    rw [isLong_of_isBranch _ hb]
    exact (decodeBranch_length _ _ (disp9Of_even _)).symm
  · unfold isLong
    generalize opcodeOf hw0 = op at h
    unfold decodeRow at h
    split at h
    all_goals first
      | exact (decodeBitString_length h).symm
      | exact (decodeFloat_length h).symm
      | (cases h; exact ⟨rfl, rfl⟩)
      | (cases h; exact ⟨by
          simp [Instr.wellFormed, evenDisp, -BitVec.getLsbD_eq_getElem, disp26Of_even], rfl⟩)
      | cases h

/-- A short instruction has no unused field in a second halfword (R76). -/
theorem unusedField_short (i : Instr) (hw0 hw1 hw1' : Half) (h : i.length = 2) :
    unusedField i hw0 hw1 = unusedField i hw0 hw1' := by
  cases i <;> first | rfl | exact absurd h (by decide) | (cases h)

/-! ## Whole words -/

theorem isLong_fmtI (op : BitVec 6) (r lo : BitVec 5) :
    isLong (fmtI op r lo) = decide (0x28 ≤ op.toNat) := by
  unfold isLong; rw [opcodeOf_fmtI]
theorem isBranch_fmtI (op : BitVec 6) (r lo : BitVec 5) :
    isBranch (fmtI op r lo) = (op.extractLsb' 3 3 == 0b100#3) := by
  rw [isBranch_eq, opcodeOf_fmtI]

theorem decodeRow_float (r1 r2 : RegIdx) (hw0 hw1 : Half) :
    decodeRow 0x3E#6 r1 r2 hw0 hw1 = decodeFloat (hw1.extractLsb' 10 6) r1 r2 := rfl

theorem decodeWords_fmtI (op : BitVec 6) (r lo : BitVec 5) (hw1 : Half)
    (h : (op.extractLsb' 3 3 == 0b100#3) = false) :
    decodeWords (fmtI op r lo) hw1 = decodeRow op lo r (fmtI op r lo) hw1 := by
  unfold decodeWords
  rw [isBranch_fmtI, h, opcodeOf_fmtI, reg1Of_fmtI, reg2Of_fmtI]
  rfl

/-- A short word of format I or II decodes to its row, whatever follows. -/
theorem decode_fmtI_short (op : BitVec 6) (r lo : BitVec 5) (rest : List Byte)
    (hl : decide (0x28 ≤ op.toNat) = false) (h : (op.extractLsb' 3 3 == 0b100#3) = false)
    (i : Instr) (hr : ∀ hw0, decodeRow op lo r hw0 0 = .ok i) :
    decode (bytesOfHalves [fmtI op r lo] ++ rest) = .ok (i, rest) := by
  rw [decode_short _ _ (by rw [isLong_fmtI, hl]), decodeWords_fmtI _ _ _ _ h, hr]

/-- A long word decodes to its row, whatever follows. -/
theorem decode_fmtI_long (op : BitVec 6) (r lo : BitVec 5) (hw1 : Half) (rest : List Byte)
    (hl : decide (0x28 ≤ op.toNat) = true) (h : (op.extractLsb' 3 3 == 0b100#3) = false)
    (i : Instr) (hr : ∀ hw0, decodeRow op lo r hw0 hw1 = .ok i) :
    decode (bytesOfHalves [fmtI op r lo, hw1] ++ rest) = .ok (i, rest) := by
  rw [decode_long _ _ _ (by rw [isLong_fmtI, hl]), decodeWords_fmtI _ _ _ _ h, hr]

/-- A format III word decodes to its condition's branch. -/
theorem decode_fmtIII (c : BitVec 4) (d : BitVec 9) (rest : List Byte) (i : Instr)
    (he : evenDisp d = true) (h : decodeBranch c d = i) :
    decode (bytesOfHalves [fmtIII c d] ++ rest) = .ok (i, rest) := by
  have he' : d.getLsbD 0 = false := by simpa [evenDisp, -BitVec.getLsbD_eq_getElem] using he
  rw [decode_short _ _ (isLong_of_isBranch _ (isBranch_fmtIII c d))]
  unfold decodeWords
  rw [if_pos (isBranch_fmtIII c d), condOf_fmtIII, disp9Of_fmtIII _ _ he', h]

/-- A format IV word decodes to `jr` or `jal`. -/
theorem decode_fmtIV (op : BitVec 6) (d : BitVec 26) (rest : List Byte) (i : Instr)
    (he : evenDisp d = true)
    (hl : decide (0x28 ≤ op.toNat) = true) (h : (op.extractLsb' 3 3 == 0b100#3) = false)
    (hr : ∀ hw0 hw1 r1 r2, decodeRow op r1 r2 hw0 hw1 =
      .ok (if op = 0x2A then .jr (disp26Of hw0 hw1) else .jal (disp26Of hw0 hw1)))
    (hi : (if op = 0x2A then Instr.jr d else .jal d) = i) :
    decode (bytesOfHalves (fmtIV op d) ++ rest) = .ok (i, rest) := by
  have he' : d.getLsbD 0 = false := by simpa [evenDisp, -BitVec.getLsbD_eq_getElem] using he
  unfold fmtIV
  rw [decode_long _ _ _ (by unfold isLong; rw [opcodeOf_fmtIV, hl])]
  unfold decodeWords
  rw [if_neg (by rw [isBranch_eq, opcodeOf_fmtIV, h]; simp), opcodeOf_fmtIV, hr, disp26Of_fmtIV _ _ he', hi]

/-! ## Fields make up the word -/

theorem fmtI_fields (h : Half) : fmtI (opcodeOf h) (reg2Of h) (reg1Of h) = h := by
  apply BitVec.eq_of_getLsbD_eq
  intro i hi
  unfold fmtI opcodeOf reg2Of reg1Of
  simp only [BitVec.getLsbD_append, BitVec.getLsbD_extractLsb']
  split
  · rename_i c; simp [c]
  · split
    · rename_i c c2
      rw [decide_eq_true c2, Bool.true_and]; congr 1; omega
    · rename_i c c2
      rw [decide_eq_true (show i - 5 - 5 < 6 by omega), Bool.true_and]; congr 1; omega

theorem fmtIII_fields (h : Half) (hb : isBranch h = true) (h0 : h.getLsbD 0 = false) :
    fmtIII (condOf h) (disp9Of h) = h := by
  unfold isBranch at hb
  rw [beq_iff_eq] at hb
  unfold fmtIII
  rw [← hb]
  apply BitVec.eq_of_getLsbD_eq
  intro i hi
  unfold condOf disp9Of
  simp only [BitVec.getLsbD_append, BitVec.getLsbD_extractLsb']
  split
  · split
    · rename_i c c2
      rw [show i = 0 by omega, h0]; rfl
    · rename_i c c2
      rw [decide_eq_true (show i - 1 < 8 by omega), Bool.true_and]; congr 1; omega
  · split
    · rename_i c c2
      rw [decide_eq_true c2, Bool.true_and]; congr 1; omega
    · rename_i c c2
      rw [decide_eq_true (show i - 9 - 4 < 3 by omega), Bool.true_and]; congr 1; omega

theorem fmtIV_fields (hw0 hw1 : Half) (h0 : hw1.getLsbD 0 = false) :
    fmtIV (opcodeOf hw0) (disp26Of hw0 hw1) = [hw0, hw1] := by
  have e1 : (opcodeOf hw0 ++ (disp26Of hw0 hw1).extractLsb' 16 10 : Half) = hw0 := by
    apply BitVec.eq_of_getLsbD_eq
    intro i hi
    unfold opcodeOf disp26Of
    simp only [BitVec.getLsbD_append, BitVec.getLsbD_extractLsb']
    split
    · rename_i c
      rw [decide_eq_true c, Bool.true_and, if_neg (by omega), if_neg (by omega),
          decide_eq_true (show 16 + i - 1 - 15 < 10 by omega), Bool.true_and]; congr 1; omega
    · rw [decide_eq_true (show i - 10 < 6 by omega), Bool.true_and]; congr 1; omega
  have e2 : (disp26Of hw0 hw1).extractLsb' 0 16 = hw1 := by
    apply BitVec.eq_of_getLsbD_eq
    intro i hi
    unfold disp26Of
    simp only [BitVec.getLsbD_append, BitVec.getLsbD_extractLsb']
    rw [decide_eq_true hi, Bool.true_and]
    split
    · rw [show i = 0 by omega, h0]; rfl
    · rw [if_pos (by omega), decide_eq_true (show 0 + i - 1 < 15 by omega), Bool.true_and]; congr 1; omega
  unfold fmtIV
  rw [e1, e2]

theorem fmtSub_fields (h : Half) (h0 : h.extractLsb' 0 10 = 0) : fmtSub (h.extractLsb' 10 6) = h := by
  unfold fmtSub
  rw [← show h.extractLsb' 0 10 = 0#10 from h0]
  apply BitVec.eq_of_getLsbD_eq
  intro i hi
  simp only [BitVec.getLsbD_append, BitVec.getLsbD_extractLsb']
  split
  · rename_i c; simp [c]
  · rw [decide_eq_true (show i - 10 < 6 by omega), Bool.true_and]; congr 1; omega

end Sys2Proof
end

