-- ==== Sys2Proof/Laws/Fetch.lean ====
section
/-! SUPPORT. Fetching the bytes at the pc (spec/20_memory.md R31, R39, R46), and the shape of a step that
accepts an event. -/

namespace Sys2Proof.Machine

/-- A step that accepts an event. -/
theorem step_event {s : State} {e : Event} (h1 : s.sample.resetReq = false) (h2 : s.stopped = false)
    (h : acceptedEvent s.psw s.sample = some e) : step s = .next (enterEvent e s).dropSample := by
  unfold step stepWith
  rw [if_neg (by simp [h1]), if_neg (by simp [h2]), h]

/-- Two bytes of a space as a halfword. -/
theorem half_readBytes (m : Memory) (a : Nat) :
    (readBytes m a 2).extractLsb' 0 16 = halfOfBytes (readByte m a) (readByte m (a + 1)) := by
  unfold readBytes readBytes readBytes halfOfBytes
  generalize readByte m a = x
  generalize readByte m (a+1) = y
  apply BitVec.eq_of_getLsbD_eq
  intro i hi
  simp only [BitVec.getLsbD_extractLsb', hi, decide_true, Bool.true_and, Nat.zero_add,
    BitVec.getLsbD_or, BitVec.getLsbD_append, BitVec.getLsbD_shiftLeft, BitVec.truncate_eq_setWidth,
    BitVec.getLsbD_setWidth]
  by_cases c : i < 8
  · simp [c, show i < 32 by omega]
  · simp [c, show i < 32 by omega, BitVec.getLsbD_of_ge x i (by omega), show i - 8 < 32 by omega]

/-- A stale halfword comes from the cache. -/
theorem staleHalves_mem {c : List (Nat × Half)} {a : Nat} {now h : Half}
    (hm : h ∈ staleHalves c a now) : (a, h) ∈ c := by
  unfold staleHalves at hm
  simp only [List.mem_map, List.mem_filter, Bool.and_eq_true, beq_iff_eq] at hm
  obtain ⟨⟨x, y⟩, ⟨hm, rfl, _⟩, rfl⟩ := hm
  exact hm

/-- A fetch whose answer is what memory holds (R31, R39, R46). -/
theorem fetch_at {s : State} {a : Word} (hu : s.Uncached) (hx : s.Executable a) :
    fetch16 a s = .next ((readBytes s.mem a.toNat 2).extractLsb' 0 16,
      s.remember a ((readBytes s.mem a.toNat 2).extractLsb' 0 16)) := by
  have hc : s.cacheOn = false := by
    unfold State.cacheOn
    unfold State.Uncached at hu
    simp only [Bool.and_eq_false_iff, beq_eq_false_iff_ne]
    exact hu
  rw [fetch16_plain hx]
  simp only [cachedFetch, hc, Bool.false_eq_true, if_false]

@[simp] theorem remember_mem (s : State) (a : Word) (h : Half) : (s.remember a h).mem = s.mem := by
  rw [remember_eq]

@[simp] theorem remember_config (s : State) (a : Word) (h : Half) :
    (s.remember a h).config = s.config := by
  rw [remember_eq]

@[simp] theorem remember_chcw (s : State) (a : Word) (h : Half) : (s.remember a h).chcw = s.chcw := by
  rw [remember_eq]

/-- Fetching the instruction at the pc changes the cache alone. -/
theorem fetched_eq (s : State) : s.fetched = { s with icache := s.fetched.icache } := by
  unfold State.fetched
  dsimp only
  split
  · rw [remember_eq, remember_eq s]
  · rw [remember_eq]

/-- An even address, in both forms. -/
theorem pc_even {a : Word} (h : a.getLsbD 0 = false) : a.toNat % 2 = 0 ∧ a &&& 0xFFFFFFFE = a := by
  have h2 : a.toNat % 2 = 0 := by
    have := h
    rw [BitVec.getLsbD, Nat.testBit_zero] at this
    simpa using this
  refine ⟨h2, ?_⟩
  apply BitVec.eq_of_toNat_eq
  rw [toNat_and_even]; omega

/-- The halfwords fetched at an even pc, and the state after the fetch. -/
theorem fetchWords_at {s : State} (hu : s.Uncached) (hp : s.pc.getLsbD 0 = false)
    (hx : s.Executable s.pc)
    (hx2 : isLong s.halvesAtPc.1 = true → s.Executable (s.pc + 2)) :
    fetchWords s =
      .next ((s.halvesAtPc.1, if isLong s.halvesAtPc.1 then s.halvesAtPc.2 else 0), s.fetched) := by
  have lt := s.pc.isLt
  obtain ⟨he, hm⟩ := pc_even hp
  have e1 : (s.pc + 1#32).toNat = s.pc.toNat + 1 := by
    rw [BitVec.toNat_add, show (1#32).toNat = 1 from rfl]; omega
  have e2 : (s.pc + 3#32).toNat = (s.pc + 2#32).toNat + 1 := by
    rw [BitVec.toNat_add, BitVec.toNat_add, show (3#32).toNat = 3 from rfl,
      show (2#32).toNat = 2 from rfl]
    omega
  have d1 : (readBytes s.mem s.pc.toNat 2).extractLsb' 0 16 = s.halvesAtPc.1 := by
    rw [half_readBytes, ← e1]; rfl
  have d2 : (readBytes s.mem (s.pc + 2#32).toNat 2).extractLsb' 0 16 = s.halvesAtPc.2 := by
    rw [half_readBytes, ← e2]; rfl
  unfold fetchWords State.fetched
  rw [hm, fetch_at hu hx, d1]
  simp only [bindOutcome]
  by_cases hl : isLong s.halvesAtPc.1 = true
  · have u2 : (s.remember s.pc s.halvesAtPc.1).Uncached := by
      unfold State.Uncached
      rw [remember_config, remember_chcw]
      exact hu
    have x2 : (s.remember s.pc s.halvesAtPc.1).Executable (s.pc + 2) :=
      (memPlain_congr (remember_config _ _ _)).mpr (hx2 hl)
    rw [if_pos hl, if_pos hl, if_pos hl, fetch_at u2 x2, remember_mem,
      show (readBytes s.mem (s.pc + 2).toNat 2).extractLsb' 0 16 = _ from d2]
  · rw [if_neg hl, if_neg hl, if_neg hl]

/-- The decoder on the bytes at the pc, by halfwords. -/
theorem decode_atPc (s : State) : decode s.bytesAtPc =
    match decodeWords s.halvesAtPc.1 (if isLong s.halvesAtPc.1 then s.halvesAtPc.2 else 0) with
    | .ok i => .ok (i, if isLong s.halvesAtPc.1 then [] else s.bytesAtPc.drop 2)
    | .error e => .error e := by
  unfold State.bytesAtPc State.halvesAtPc decode
  dsimp only
  split <;> rfl

/-- Using up an input sample does not touch an entry. -/
theorem enters_dropSample {s t : State} {c : BitVec 16} {h r : Word} (he : Enters s t c h r) :
    Enters s.dropSample t.dropSample c h r := by
  refine ⟨fun h => ?_, fun h => ?_⟩
  · obtain ⟨k,a,b,c,d,e,f,g,i,j,l,m,n,o⟩ := he.1 h
    refine ⟨?_,a,b,c,d,e,f,g,i,j,l,m,n,?_⟩
    · obtain ⟨a,b,c,d,e,f,g,h,i,j,k⟩ := k
      exact ⟨a,b,c,d,e,f,g,h,i,j,k⟩
    · simp [State.dropSample, o]
  · obtain ⟨k,a,b,c,d,e,f,g,i,j,l,m,n,o⟩ := he.2 h
    refine ⟨?_,a,b,c,d,e,f,g,i,j,l,m,n,?_⟩
    · obtain ⟨a,b,c,d,e,f,g,h,i,j,k⟩ := k
      exact ⟨a,b,c,d,e,f,g,h,i,j,k⟩
    · simp [State.dropSample, o]

end Sys2Proof.Machine
end

