-- ==== Sys2Proof/Laws/Float.lean ====
section
/-! SUPPORT. What the floating-point operations answer (spec/46_float.md R189-R191, R196-R199): the one
rounding of an exact fraction, and the exact fractions of the four operations. -/

namespace Sys2Proof.Machine

/-! ## Rounding -/

/-- A power of two with an integer exponent as a fraction of two natural ones. -/
theorem zpow_split (k : ℤ) : (2 : ℚ) ^ k = 2 ^ k.toNat / 2 ^ (-k).toNat := by
  rcases Int.le_total 0 k with h | h
  · obtain ⟨n, rfl⟩ := Int.eq_ofNat_of_zero_le h
    simp
  · obtain ⟨n, hn⟩ := Int.eq_ofNat_of_zero_le (show 0 ≤ -k by omega)
    have : k = -(n : ℤ) := by omega
    subst this
    simp

/-- `floorLog` brackets the fraction between powers of two. -/
theorem floorLog_spec (n d : Nat) (hn : n ≠ 0) (hd : d ≠ 0) :
    (2 : ℚ) ^ (floorLog n d) ≤ (n : ℚ) / d ∧ (n : ℚ) / d < 2 ^ (floorLog n d + 1) := by
  have hd0 : (0 : ℚ) < d := by exact_mod_cast Nat.pos_of_ne_zero hd
  have hn0 : (0 : ℚ) < n := by exact_mod_cast Nat.pos_of_ne_zero hn
  have n1 : ((2 : ℚ) ^ (Nat.log2 n : ℤ)) ≤ n := by
    rw [zpow_natCast]; exact_mod_cast Nat.log2_self_le hn
  have n2 : (n : ℚ) < (2 : ℚ) ^ ((Nat.log2 n : ℤ) + 1) := by
    have : n < 2 ^ (Nat.log2 n + 1) := Nat.lt_log2_self
    have h : (n : ℚ) < 2 ^ (Nat.log2 n + 1) := by exact_mod_cast this
    exact_mod_cast h
  have d1 : ((2 : ℚ) ^ (Nat.log2 d : ℤ)) ≤ d := by
    rw [zpow_natCast]; exact_mod_cast Nat.log2_self_le hd
  have d2 : (d : ℚ) < (2 : ℚ) ^ ((Nat.log2 d : ℤ) + 1) := by
    have : d < 2 ^ (Nat.log2 d + 1) := Nat.lt_log2_self
    have h : (d : ℚ) < 2 ^ (Nat.log2 d + 1) := by exact_mod_cast this
    exact_mod_cast h
  unfold floorLog
  generalize hk : (Nat.log2 n : ℤ) - Nat.log2 d = k
  have test : 2 ^ k.toNat * d ≤ n * 2 ^ (-k).toNat ↔ (2 : ℚ) ^ k ≤ (n : ℚ) / d := by
    rw [zpow_split, div_le_div_iff₀ (by positivity) hd0]
    exact_mod_cast Iff.rfl
  have up : (n : ℚ) / d < 2 ^ (k + 1) := by
    rw [div_lt_iff₀ hd0]
    calc (n : ℚ) < 2 ^ ((Nat.log2 n : ℤ) + 1) := n2
      _ = 2 ^ (k + 1) * 2 ^ (Nat.log2 d : ℤ) := by rw [← zpow_add₀ (by norm_num)]; congr 1; omega
      _ ≤ 2 ^ (k + 1) * d := by gcongr
  have low : (2 : ℚ) ^ (k - 1) ≤ (n : ℚ) / d := by
    rw [le_div_iff₀ hd0]
    calc (2 : ℚ) ^ (k - 1) * d ≤ 2 ^ (k - 1) * 2 ^ ((Nat.log2 d : ℤ) + 1) := by gcongr
      _ = 2 ^ (Nat.log2 n : ℤ) := by rw [← zpow_add₀ (by norm_num)]; congr 1; omega
      _ ≤ n := n1
  dsimp only
  split
  · rename_i h
    exact ⟨test.mp h, up⟩
  · rename_i h
    rw [test, not_le] at h
    exact ⟨low, by rw [sub_add_cancel]; exact h⟩

/-- `roundHalfEven` is within half of the fraction, even on a tie, and exact where it divides. -/
theorem roundHalfEven_spec (a b : Nat) (hb : b ≠ 0) :
    |(a : ℚ) / b - roundHalfEven a b| ≤ 1 / 2 ∧
    (|(a : ℚ) / b - roundHalfEven a b| = 1 / 2 → roundHalfEven a b % 2 = 0) ∧
    (a % b ≠ 0 ↔ (roundHalfEven a b : ℚ) ≠ (a : ℚ) / b) := by
  have hb0 : (0 : ℚ) < b := by exact_mod_cast Nat.pos_of_ne_zero hb
  have hr : a % b < b := Nat.mod_lt _ (Nat.pos_of_ne_zero hb)
  have hq : (a : ℚ) / b = ((a / b : ℕ) : ℚ) + ((a % b : ℕ) : ℚ) / b := by
    field_simp
    exact_mod_cast (Nat.div_add_mod a b).symm
  unfold roundHalfEven
  dsimp only
  rw [hq]
  generalize a / b = Q
  generalize hR : a % b = R at *
  have hRb : (R : ℚ) < b := by exact_mod_cast hr
  have hR0 : (0 : ℚ) ≤ R := by positivity
  split
  · rename_i h
    have h2 : (b : ℚ) ≤ 2 * R := by
      rcases h with h | h
      · exact_mod_cast h.le
      · exact_mod_cast h.1.ge
    have e : (Q : ℚ) + (R : ℚ) / b - ((Q + 1 : ℕ) : ℚ) = -(1 - (R : ℚ) / b) := by push_cast; ring
    have p : 0 < 1 - (R : ℚ) / b := by
      have : (R : ℚ) / b < 1 := by rw [div_lt_one hb0]; exact hRb
      linarith
    rw [e, abs_neg, abs_of_pos p]
    have p2 : (1 : ℚ) / 2 ≤ (R : ℚ) / b := by rw [le_div_iff₀ hb0]; linarith
    refine ⟨by linarith, ?_, ?_⟩
    · intro h3
      have : (R : ℚ) / b = 1 / 2 := by linarith
      have h4 : 2 * R = b := by
        rw [div_eq_iff hb0.ne'] at this
        have : 2 * (R : ℚ) = b := by linarith
        exact_mod_cast this
      omega
    · constructor
      · intro _ h; push_cast at h; linarith
      · intro _; rintro rfl
        rcases h with h | h <;> omega
  · rename_i h
    have e : (Q : ℚ) + (R : ℚ) / b - (Q : ℚ) = (R : ℚ) / b := by ring
    have h2 : 2 * R ≤ b := by omega
    have h2' : 2 * (R : ℚ) ≤ b := by exact_mod_cast h2
    rw [e, abs_of_nonneg (by positivity)]
    refine ⟨by rw [div_le_iff₀ hb0]; linarith, ?_, ?_⟩
    · intro h3
      rw [div_eq_iff hb0.ne'] at h3
      have : 2 * (R : ℚ) = b := by linarith
      have : 2 * R = b := by exact_mod_cast this
      omega
    · rw [ne_eq, ne_eq, not_iff_not]
      constructor
      · rintro rfl; simp
      · intro h
        have : (R : ℚ) / b = 0 := by linarith
        rw [div_eq_zero_iff] at this
        rcases this with h | h
        · exact_mod_cast h
        · exact absurd h hb0.ne'

/-! ## Packed words -/
/-- The fraction field of a packed word. -/
theorem pack_frac (neg : Bool) (e m : Nat) :
    (BitVec.ofBool neg ++ BitVec.ofNat 8 e ++ BitVec.ofNat 23 m :
        BitVec 32).extractLsb' 0 23 = BitVec.ofNat 23 m := by
  apply BitVec.eq_of_getLsbD_eq
  intro i hi
  simp only [BitVec.getLsbD_extractLsb', BitVec.getLsbD_append, hi, decide_true, Bool.true_and,
      Nat.zero_add, if_true]

/-- The exponent field of a packed word. -/
theorem pack_exp (neg : Bool) (e m : Nat) :
    (BitVec.ofBool neg ++ BitVec.ofNat 8 e ++ BitVec.ofNat 23 m :
        BitVec 32).extractLsb' 23 8 = BitVec.ofNat 8 e := by
  apply BitVec.eq_of_getLsbD_eq
  intro i hi
  simp only [BitVec.getLsbD_extractLsb', BitVec.getLsbD_append, hi, decide_true, Bool.true_and]
  rw [if_neg (by omega), if_pos (by omega)]
  congr 1; omega

/-- The sign of a packed word. -/
theorem pack_msb (neg : Bool) (e m : Nat) :
    (BitVec.ofBool neg ++ BitVec.ofNat 8 e ++ BitVec.ofNat 23 m : BitVec 32).msb = neg := by
  rw [BitVec.msb_eq_getLsbD_last]
  simp only [BitVec.getLsbD_append]
  rw [if_neg (by omega), if_neg (by omega)]
  cases neg <;> rfl

/-- A packed word in range is normal, with the sign and value it was packed from (R190). -/
theorem floatVal_pack {neg : Bool} {e : ℤ} {m : ℕ} (h1 : 2 ^ 23 ≤ m) (h2 :
    m < 2 ^ 24) (h3 : -126 ≤ e) (h4 : e ≤ 127) :
    floatClass (packFloat neg e m) = .normal ∧ (packFloat neg e m).msb = neg ∧
    floatVal (packFloat neg e m) = (if neg then -1 else 1) * (2 : ℚ) ^ (e - 23) * m ∧
    ((packFloat neg e m).getLsbD 0 = decide (m % 2 = 1)) := by
  have fr := pack_frac neg (e + 127).toNat (m - 2 ^ 23)
  have ex := pack_exp neg (e + 127).toNat (m - 2 ^ 23)
  have ms := pack_msb neg (e + 127).toNat (m - 2 ^ 23)
  have exn : ((packFloat neg e m).extractLsb' 23 8).toNat = (e + 127).toNat := by
    unfold packFloat
    rw [ex, BitVec.toNat_ofNat, Nat.mod_eq_of_lt (by omega)]
  have frn : ((packFloat neg e m).extractLsb' 0 23).toNat = m - 2 ^ 23 := by
    unfold packFloat
    rw [fr, BitVec.toNat_ofNat, Nat.mod_eq_of_lt (by omega)]
  have c : floatClass (packFloat neg e m) = .normal := by
    unfold floatClass floatExp
    rw [exn, if_neg (by omega), if_neg (by omega)]
  refine ⟨c, ms, ?_, ?_⟩
  · unfold floatVal
    rw [if_neg, exn, frn, show (packFloat neg e m).msb = neg from ms]
    · have : (((e + 127).toNat : ℤ) - 127) = e := by omega
      rw [this]
      have p : (2 : ℚ) ^ (e - 23) = 2 ^ e / 2 ^ 23 := by
        rw [zpow_sub₀ (by norm_num)]; norm_num
      rw [p, Nat.cast_sub h1]
      push_cast
      field_simp
      ring
    · intro h
      have h2 := congrArg (fun v => v.extractLsb' 23 8) h
      have : (packFloat neg e m).extractLsb' 23 8 = ((packFloat neg e m).extractLsb' 0 31).extractLsb' 23 8 := by
        apply BitVec.eq_of_getLsbD_eq
        intro i hi
        simp only [BitVec.getLsbD_extractLsb', hi, decide_true, Bool.true_and, Nat.zero_add]
        rw [decide_eq_true (show 23 + i < 31 by omega), Bool.true_and]
      rw [this, h] at exn
      have z : (BitVec.extractLsb' 23 8 (0 : BitVec 31)).toNat = 0 := by decide
      rw [z] at exn
      omega
  · have : (packFloat neg e m).getLsbD 0 = ((packFloat neg e m).extractLsb' 0 23).getLsbD 0 := by
      rw [BitVec.getLsbD_extractLsb']; rfl
    rw [this, BitVec.getLsbD, frn, Nat.testBit_zero]
    have e2 : (m - 2 ^ 23) % 2 = m % 2 := by omega
    rw [e2]

/-- Every normal word is packed. -/
theorem normal_is_pack (v : Word) (h : floatClass v = .normal) :
    ∃ neg e m, 2 ^ 23 ≤ m ∧ m < 2 ^ 24 ∧ -126 ≤ e ∧ e ≤ 127 ∧ v = packFloat neg e m := by
  unfold floatClass at h
  split at h
  · split at h <;> cases h
  · split at h
    · split at h <;> cases h
    · rename_i h0 h1
      unfold floatExp at h0 h1
      have l1 := (v.extractLsb' 23 8).isLt
      have l2 := (v.extractLsb' 0 23).isLt
      refine ⟨v.msb, ((v.extractLsb' 23 8).toNat : ℤ) - 127, (v.extractLsb' 0 23).toNat + 2 ^ 23,
          by omega, by omega, by omega, by omega, ?_⟩
      unfold packFloat
      rw [show (((v.extractLsb' 23 8).toNat : ℤ) - 127 + 127).toNat = (v.extractLsb' 23 8).toNat by omega, Nat.add_sub_cancel, BitVec.ofNat_toNat, BitVec.ofNat_toNat, BitVec.setWidth_eq, BitVec.setWidth_eq]
      apply BitVec.eq_of_getLsbD_eq
      intro i hi
      simp only [BitVec.getLsbD_append, BitVec.getLsbD_extractLsb']
      by_cases c1 : i < 23
      · simp [c1]
      · by_cases c2 : i - 23 < 8
        · rw [if_neg c1, if_pos c2, decide_eq_true c2, Bool.true_and]; congr 1; omega
        · rw [if_neg c1, if_neg c2, show i = 31 by omega, BitVec.msb_eq_getLsbD_last]
          cases v.getLsbD (32 - 1) <;> rfl

/-- The integer nearest to `t` is at least as near as any other. -/
theorem int_near {M K : ℕ} {t : ℚ} (h1 : |t - M| ≤ 1 / 2) (h2 : |t - M| = 1 / 2 → M % 2 = 0) :
    |t - M| < |t - K| ∨ K = M ∨ (|t - M| = |t - K| ∧ M % 2 = 0) := by
  by_cases hk : K = M
  · exact .inr (.inl hk)
  · have d : (1 : ℚ) ≤ |(K : ℚ) - M| := by
      have : (1 : ℤ) ≤ |(K : ℤ) - M| := Int.one_le_abs (by omega)
      exact_mod_cast this
    have tri : |(K : ℚ) - M| ≤ |t - K| + |t - M| := by
      have e : (K : ℚ) - M = (t - M) - (t - K) := by ring
      rw [e]
      refine (abs_sub _ _).trans ?_
      rw [add_comm]
    rcases lt_or_eq_of_le (show |t - M| ≤ |t - K| by linarith) with h | h
    · exact .inl h
    · exact .inr (.inr ⟨h, h2 (by linarith)⟩)

/-- The significand after a carry out of rounding. -/
theorem carry_value (e : ℤ) (M : ℕ) (h : M ≤ 2 ^ 24) (h0 : 2 ^ 23 ≤ M) :
    let e' := if M = 2 ^ 24 then e + 1 else e
    let m' := if M = 2 ^ 24 then 2 ^ 23 else M
    (m' : ℚ) * 2 ^ (e' - 23) = M * 2 ^ (e - 23) ∧ 2 ^ 23 ≤ m' ∧ m' < 2 ^ 24 ∧ e ≤ e' ∧
    (M % 2 = 0 → m' % 2 = 0) := by
  dsimp only
  split
  · rename_i hM
    subst hM
    refine ⟨?_, by norm_num, by norm_num, by omega, fun _ => by norm_num⟩
    rw [show e + 1 - 23 = (e - 23) + 1 by ring, zpow_add_one₀ (by norm_num)]
    push_cast
    ring
  · exact ⟨rfl, h0, by omega, le_refl _, id⟩

/-- A magnitude has one significand and exponent. -/
theorem pack_unique {m m' : ℕ} {e e' : ℤ} (a1 : 2 ^ 23 ≤ m) (a2 : m < 2 ^ 24) (b1 : 2 ^ 23 ≤ m') (b2 :
    m' < 2 ^ 24)
    (h : (m : ℚ) * 2 ^ (e - 23) = m' * 2 ^ (e' - 23)) : m = m' ∧ e = e' := by
  have aux : ∀ (m m' : ℕ) (e e' : ℤ), 2 ^ 23 ≤ m → m < 2 ^ 24 → 2 ^ 23 ≤ m' →
      (m : ℚ) * 2 ^ (e - 23) = m' * 2 ^ (e' - 23) → e' ≤ e := by
    intro m m' e e' h1 h2 h3 h
    by_contra c
    push Not at c
    have l : (m : ℚ) < 2 ^ 24 := by exact_mod_cast h2
    have l3 : (2 : ℚ) ^ 23 ≤ m' := by exact_mod_cast h3
    have : (m : ℚ) * 2 ^ (e - 23) < m' * 2 ^ (e' - 23) := by
      calc (m : ℚ) * 2 ^ (e - 23) < 2 ^ 24 * 2 ^ (e - 23) := by gcongr
        _ = 2 ^ 23 * 2 ^ (e + 1 - 23) := by
          rw [show e + 1 - 23 = (e - 23) + 1 by ring, zpow_add_one₀ (by norm_num)]; ring
        _ ≤ m' * 2 ^ (e' - 23) := by gcongr; norm_num; omega
    linarith
  have he : e = e' := le_antisymm (aux m' m e' e b1 b2 a1 h.symm) (aux m m' e e' a1 a2 b1 h)
  subst he
  refine ⟨?_, rfl⟩
  have : (m : ℚ) = m' := mul_right_cancel₀ (by positivity) h
  exact_mod_cast this

/-- The rounded magnitude is nearest among those of normal numbers, of either sign. -/
theorem mag_near {Q t : ℚ} {e : ℤ} {M : ℕ} (ht : Q = t * 2 ^ (e - 23)) (t1 : 2 ^ 23 ≤ t)
    (h1 : |t - M| ≤ 1 / 2) (h2 : |t - M| = 1 / 2 → M % 2 = 0) (M1 : 2 ^ 23 ≤ M)
    {mx : ℕ} {ex : ℤ} (x1 : 2 ^ 23 ≤ mx) (x2 : mx < 2 ^ 24) :
    let R : ℚ := M * 2 ^ (e - 23)
    let y : ℚ := mx * 2 ^ (ex - 23)
    (|R - Q| < |y - Q| ∨ y = R ∨ (|R - Q| = |y - Q| ∧ M % 2 = 0)) ∧ |R - Q| < |-y - Q| := by
  dsimp only
  have u0 : (0 : ℚ) < 2 ^ (e - 23) := by positivity
  have x1q : (2 : ℚ) ^ 23 ≤ mx := by exact_mod_cast x1
  have x2q : (mx : ℚ) < 2 ^ 24 := by exact_mod_cast x2
  have y0 : (0 : ℚ) < mx * 2 ^ (ex - 23) := by
    have : (0 : ℚ) < mx := by linarith
    positivity
  have RQ : |(M : ℚ) * 2 ^ (e - 23) - Q| = |t - M| * 2 ^ (e - 23) := by
    rw [ht, ← sub_mul, abs_mul, abs_of_pos u0, abs_sub_comm]
  rw [RQ]
  constructor
  · by_cases hex : e ≤ ex
    · obtain ⟨k, hk⟩ := Int.eq_ofNat_of_zero_le (show 0 ≤ ex - e by omega)
      have ye : (mx : ℚ) * 2 ^ (ex - 23) = ((mx * 2 ^ k : ℕ) : ℚ) * 2 ^ (e - 23) := by
        rw [show ex - 23 = (k : ℤ) + (e - 23) by omega, zpow_add₀ (by norm_num), zpow_natCast]
        push_cast; ring
      rw [ye, ht, ← sub_mul, abs_mul, abs_of_pos u0, abs_sub_comm _ t]
      rcases int_near (K := mx * 2 ^ k) h1 h2 with h | h | ⟨h, h'⟩
      · exact .inl (by gcongr)
      · exact .inr (.inl (by rw [h]))
      · exact .inr (.inr ⟨by rw [h], h'⟩)
    · left
      have ylt : (mx : ℚ) * 2 ^ (ex - 23) < 2 ^ 23 * 2 ^ (e - 23) := by
        calc (mx : ℚ) * 2 ^ (ex - 23) < 2 ^ 24 * 2 ^ (ex - 23) := by gcongr
          _ = 2 ^ 23 * 2 ^ (ex + 1 - 23) := by
            rw [show ex + 1 - 23 = (ex - 23) + 1 by ring, zpow_add_one₀ (by norm_num)]; ring
          _ ≤ 2 ^ 23 * 2 ^ (e - 23) := by gcongr; norm_num; omega
      have hM : |t - M| ≤ t - 2 ^ 23 := by
        by_cases c : (1 : ℚ) / 2 ≤ t - 2 ^ 23
        · linarith
        · push Not at c
          have a1 := abs_le.mp h1
          have : (M : ℚ) < 2 ^ 23 + 1 := by linarith [a1.1]
          have : M < 2 ^ 23 + 1 := by exact_mod_cast this
          have : M = 2 ^ 23 := by omega
          rw [this]
          push_cast
          rw [abs_of_nonneg (by linarith)]
          norm_num
      have : |t - M| * 2 ^ (e - 23) ≤ Q - 2 ^ 23 * 2 ^ (e - 23) := by
        rw [ht, ← sub_mul]; gcongr
      have h3 : |(mx : ℚ) * 2 ^ (ex - 23) - Q| = Q - mx * 2 ^ (ex - 23) := by
        rw [abs_sub_comm, abs_of_pos]
        have : (2 : ℚ) ^ 23 * 2 ^ (e - 23) ≤ t * 2 ^ (e - 23) := by gcongr
        linarith
      rw [h3]; linarith
  · have h3 : |-((mx : ℚ) * 2 ^ (ex - 23)) - Q| = mx * 2 ^ (ex - 23) + Q := by
      have : (0 : ℚ) < Q := by rw [ht]; have : 0 < t := by linarith
                               positivity
      rw [abs_of_neg (by linarith)]; ring
    rw [h3, ht]
    have : |t - M| * 2 ^ (e - 23) ≤ (1 / 2) * 2 ^ (e - 23) := by gcongr
    have : (1 / 2 : ℚ) * 2 ^ (e - 23) < t * 2 ^ (e - 23) := by gcongr; linarith
    linarith

/-- The packed word of a rounded magnitude is the nearest normal number (R189). -/
theorem near_of_mag {neg : Bool} {q Q : ℚ} (hq : q = (if neg then -1 else 1) * Q) {t : ℚ} {e : ℤ} {M : ℕ}
    (ht : Q = t * 2 ^ (e - 23)) (t1 : 2 ^ 23 ≤ t)
    (h1 : |t - M| ≤ 1 / 2) (h2 : |t - M| = 1 / 2 → M % 2 = 0) (M1 : 2 ^ 23 ≤ M) (M2 : M ≤ 2 ^ 24)
    (e1 : -126 ≤ if M = 2 ^ 24 then e + 1 else e) (e2 : (if M = 2 ^ 24 then e + 1 else e) ≤ 127) :
    NearestFloat q (packFloat neg (if M = 2 ^ 24 then e + 1 else e) (if M = 2 ^ 24 then 2 ^ 23 else M)) ∧
    floatVal (packFloat neg (if M = 2 ^ 24 then e + 1 else e) (if M = 2 ^ 24 then 2 ^ 23 else M)) =
      (if neg then -1 else 1) * (M * 2 ^ (e - 23)) := by
  obtain ⟨cv, c1, c2, c3, c4⟩ := carry_value e M M2 M1
  generalize (if M = 2 ^ 24 then e + 1 else e) = e' at *
  generalize (if M = 2 ^ 24 then 2 ^ 23 else M) = m' at *
  obtain ⟨f1, f2, f3, f4⟩ := floatVal_pack (neg := neg) c1 c2 e1 e2
  have fv : floatVal (packFloat neg e' m') = (if neg then -1 else 1) * (M * 2 ^ (e - 23)) := by
    rw [f3, ← cv]; ring
  refine ⟨⟨f1, fun x hx => ?_⟩, fv⟩
  obtain ⟨nx, ex, mx, x1, x2, x3, x4, rfl⟩ := normal_is_pack x hx
  obtain ⟨g1, g2, g3, g4⟩ := floatVal_pack (neg := nx) x1 x2 x3 x4
  have gv : floatVal (packFloat nx ex mx) = (if nx then -1 else 1) * (mx * 2 ^ (ex - 23)) := by
    rw [g3]; ring
  have key := mag_near ht t1 h1 h2 M1 (ex := ex) x1 x2
  dsimp only at key
  rw [fv, gv, hq]
  have abs1 : ∀ (a b : ℚ), |-1 * a - -1 * b| = |a - b| :=
      fun a b => by rw [show -1 * a - -1 * b = -(a - b) by ring, abs_neg]
  have same : nx = neg → (|(M : ℚ) * 2 ^ (e - 23) - Q| < |(mx : ℚ) * 2 ^ (ex - 23) - Q| ∨
      packFloat nx ex mx = packFloat neg e' m' ∨ (|(M : ℚ) * 2 ^ (e - 23) - Q| = |(mx : ℚ) * 2 ^ (ex - 23) - Q| ∧ (packFloat neg e' m').getLsbD 0 = false)) := by
    rintro rfl
    rcases key.1 with h | h | ⟨h, h'⟩
    · exact .inl h
    · rw [← cv] at h
      obtain ⟨rfl, rfl⟩ := pack_unique x1 x2 c1 c2 h
      exact .inr (.inl rfl)
    · refine .inr (.inr ⟨h, ?_⟩)
      rw [f4, c4 h']; rfl
  cases neg <;> cases nx
  · simpa using same rfl
  · left
    have := key.2
    simpa using this
  · left
    have := key.2
    simp only [if_true, Bool.false_eq_true, if_false, one_mul]
    rw [abs1]
    rw [show (mx : ℚ) * 2 ^ (ex - 23) - -1 * Q = -(-(mx * 2 ^ (ex - 23)) - Q) by ring, abs_neg]
    exact this
  · have := same rfl
    simp only [if_true]
    rw [abs1, abs1]
    exact this

/-- `Round` on a fraction already scaled to 24 significant bits (R189, R191). -/
theorem round_core (u : UnderflowZero) (neg : Bool) {q Q : ℚ} {e : ℤ} {a b : ℕ}
    (hb0 : b ≠ 0) (hq : q = (if neg then -1 else 1) * Q) (hab : Q = (a : ℚ) / b * 2 ^ (e - 23))
    (f1 : (2 : ℚ) ^ e ≤ Q) (f2 : Q < 2 ^ (e + 1)) :
    let M := roundHalfEven a b
    let e' := if M = 2 ^ 24 then e + 1 else e
    let m' := if M = 2 ^ 24 then 2 ^ 23 else M
    let o : FloatOutcome := if 127 < e' then .overflow
      else if e' < -126 then .value (underflowZero u neg) true true
      else .value (packFloat neg e' m') false (a % b != 0)
    (floatHigh ≤ Q ∧ o = .overflow) ∨
    (Q < floatLow ∧ o = .value (underflowZero u neg) true true) ∨
    (floatLow ≤ Q ∧ Q < floatHigh ∧ ∃ r inexact, o = .value r false inexact ∧
      NearestFloat q r ∧ r.msb = neg ∧ (inexact = true ↔ floatVal r ≠ q)) := by
  dsimp only
  obtain ⟨r1, r2, r3⟩ := roundHalfEven_spec a b hb0
  generalize roundHalfEven a b = M at *
  generalize ht : (a : ℚ) / b = t at *
  have u0 : (0 : ℚ) < 2 ^ (e - 23) := by positivity
  have pe : (2 : ℚ) ^ e = 2 ^ 23 * 2 ^ (e - 23) := by
    rw [show e = 23 + (e - 23) by ring, zpow_add₀ (by norm_num)]; norm_num
  have pe1 : (2 : ℚ) ^ (e + 1) = 2 ^ 24 * 2 ^ (e - 23) := by
    rw [zpow_add_one₀ (by norm_num), pe]; ring
  have t1 : (2 : ℚ) ^ 23 ≤ t := by
    rw [hab, pe] at f1; exact le_of_mul_le_mul_right f1 u0
  have t2 : t < (2 : ℚ) ^ 24 := by
    rw [hab, pe1] at f2; exact lt_of_mul_lt_mul_right f2 u0.le
  have rr := abs_le.mp r1
  have M1 : 2 ^ 23 ≤ M := by
    have : (2 : ℚ) ^ 23 < M + 1 := by linarith
    have : 2 ^ 23 < M + 1 := by exact_mod_cast this
    omega
  have M2 : M ≤ 2 ^ 24 := by
    have : (M : ℚ) < 2 ^ 24 + 1 := by linarith
    have : M < 2 ^ 24 + 1 := by exact_mod_cast this
    omega
  have Mtop : M = 2 ^ 24 ↔ 2 ^ 24 - 1 / 2 ≤ t := by
    constructor
    · intro h; rw [h] at rr; push_cast at rr; linarith
    · intro h
      by_contra c
      have : M + 1 ≤ 2 ^ 24 := by omega
      have hm : (M : ℚ) + 1 ≤ 2 ^ 24 := by exact_mod_cast this
      have e1 : t - M = 1 / 2 := by linarith
      have e2 : (M : ℚ) + 1 = 2 ^ 24 := by linarith
      have e3 : M + 1 = 2 ^ 24 := by exact_mod_cast e2
      have := r2 (by rw [e1]; norm_num)
      omega
  have mono : ∀ k : ℤ, e ≤ k → (2 : ℚ) ^ (e - 23) ≤ 2 ^ (k - 23) := fun k hk => by gcongr; norm_num
  have mono' : ∀ k : ℤ, k ≤ e → (2 : ℚ) ^ (k - 23) ≤ 2 ^ (e - 23) := fun k hk => by gcongr; norm_num
  have hH : floatHigh = (2 ^ 24 - 1 / 2) * 2 ^ ((127 : ℤ) - 23) := by norm_num [floatHigh]
  have hL : floatLow = (2 ^ 24 - 1 / 2) * 2 ^ ((-127 : ℤ) - 23) := by norm_num [floatLow]
  have inj : ∀ k : ℤ, (2 ^ 24 - 1 / 2) * (2 : ℚ) ^ (k - 23) ≤ Q ↔ k < (if M = 2 ^ 24 then e + 1 else e) := by
    intro k
    have k0 : (0 : ℚ) < 2 ^ (k - 23) := by positivity
    rw [hab]
    rcases lt_trichotomy e k with h | h | h
    · have hs : ¬ k < (if M = 2 ^ 24 then e + 1 else e) := by split <;> omega
      simp only [hs, iff_false, not_le]
      have : (2 : ℚ) ^ (e + 1 - 23) ≤ 2 ^ (k - 23) := by gcongr; norm_num; omega
      have e5 : (2 : ℚ) ^ (e + 1 - 23) = 2 * 2 ^ (e - 23) := by
        rw [show e + 1 - 23 = (e - 23) + 1 by ring, zpow_add_one₀ (by norm_num)]; ring
      calc t * 2 ^ (e - 23) < 2 ^ 24 * 2 ^ (e - 23) := by gcongr
        _ ≤ (2 ^ 24 - 1 / 2) * (2 * 2 ^ (e - 23)) := by nlinarith
        _ ≤ (2 ^ 24 - 1 / 2) * 2 ^ (k - 23) := by rw [← e5]; gcongr
    · subst h
      rw [mul_le_mul_iff_left₀ u0, ← Mtop]
      by_cases h : M = 2 ^ 24
      · rw [if_pos h]; exact iff_of_true h (by omega)
      · rw [if_neg h]; exact iff_of_false h (by omega)
    · have hs : k < (if M = 2 ^ 24 then e + 1 else e) := by split <;> omega
      simp only [hs, iff_true]
      have : (2 : ℚ) ^ (k + 1 - 23) ≤ 2 ^ (e - 23) := by gcongr; norm_num; omega
      have e5 : (2 : ℚ) ^ (k + 1 - 23) = 2 * 2 ^ (k - 23) := by
        rw [show k + 1 - 23 = (k - 23) + 1 by ring, zpow_add_one₀ (by norm_num)]; ring
      calc (2 ^ 24 - 1 / 2) * (2 : ℚ) ^ (k - 23) ≤ 2 ^ 23 * (2 * 2 ^ (k - 23)) := by nlinarith
        _ ≤ 2 ^ 23 * 2 ^ (e - 23) := by rw [← e5]; gcongr
        _ ≤ t * 2 ^ (e - 23) := by gcongr
  by_cases h : 127 < (if M = 2 ^ 24 then e + 1 else e)
  · exact .inl ⟨by rw [hH]; exact (inj 127).mpr h, by rw [if_pos h]⟩
  · rw [if_neg h]
    by_cases h2 : (if M = 2 ^ 24 then e + 1 else e) < -126
    · refine .inr (.inl ⟨?_, by rw [if_pos h2]⟩)
      rw [hL, ← not_le, inj]; omega
    · rw [if_neg h2]
      refine .inr (.inr ⟨?_, ?_, _, _, rfl, ?_⟩)
      · rw [hL, inj]; omega
      · rw [hH, ← not_le, inj]; exact h
      · obtain ⟨n1, n2⟩ := near_of_mag (neg := neg) hq hab t1 r1 r2 M1 M2 (by omega) (by omega)
        refine ⟨n1, ?_, ?_⟩
        · obtain ⟨cv, c1, c2, c3, c4⟩ := carry_value e M M2 M1
          exact (floatVal_pack c1 c2 (by omega) (by omega)).2.1
        · rw [n2, hq, bne_iff_ne, r3, hab]
          have s0 : (if neg = true then (-1 : ℚ) else 1) ≠ 0 := by split <;> norm_num
          rw [ne_eq, ne_eq, not_iff_not, mul_right_inj' s0, mul_left_inj' u0.ne']

/-- What `Round` answers (R189, R191). -/
theorem roundFraction_spec (u : UnderflowZero) (num : ℤ) (den : ℕ) (z : Bool) (hn : num ≠ 0) (hd : den ≠ 0) :
    let q : ℚ := num / den
    (floatHigh ≤ |q| ∧ roundFraction u num den z = .overflow) ∨
    (|q| < floatLow ∧ roundFraction u num den z = .value (underflowZero u (decide (q < 0))) true true) ∨
    (floatLow ≤ |q| ∧ |q| < floatHigh ∧ ∃ r inexact, roundFraction u num den z = .value r false inexact ∧
      NearestFloat q r ∧ r.msb = decide (q < 0) ∧ (inexact = true ↔ floatVal r ≠ q)) := by
  dsimp only
  have hd0 : (0 : ℚ) < den := by exact_mod_cast Nat.pos_of_ne_zero hd
  have hna : num.natAbs ≠ 0 := by omega
  have hneg : ((num : ℚ) / den < 0) ↔ num < 0 := by
    rw [div_neg_iff]
    constructor
    · rintro (⟨_, h⟩ | ⟨h, _⟩)
      · linarith
      · exact_mod_cast h
    · intro h; exact .inr ⟨by exact_mod_cast h, hd0⟩
  have hqabs : |(num : ℚ) / den| = (num.natAbs : ℚ) / den := by
    rw [abs_div, abs_of_pos hd0, Nat.cast_natAbs]; simp
  have hq : (num : ℚ) / den = (if decide (num < 0) then -1 else 1) * ((num.natAbs : ℚ) / den) := by
    rw [← hqabs]
    by_cases h : num < 0
    · simp only [h, decide_true, if_true]; rw [abs_of_neg (hneg.mpr h)]; ring
    · simp only [h, decide_false, Bool.false_eq_true, if_false,
          one_mul]; rw [abs_of_nonneg (not_lt.mp (mt hneg.mp h))]
  obtain ⟨f1, f2⟩ := floorLog_spec num.natAbs den hna hd
  unfold roundFraction
  rw [if_neg hn]
  dsimp only
  rw [hqabs, decide_eq_decide.mpr hneg]
  refine round_core u (decide (num < 0)) ?_ hq ?_ f1 f2
  · positivity
  · rw [zpow_split (floorLog num.natAbs den - 23),
        show -(floorLog num.natAbs den - 23) = 23 - floorLog num.natAbs den by ring]
    push_cast
    field_simp

/-! ## Operations on finite operands -/
/-- A finite operand is not reserved. -/
theorem FiniteFloat.notReserved {v : Word} (h : FiniteFloat v) (b : Bool) : isReserved b v = false := by
  unfold isReserved
  rcases h with h | h <;> rw [h]

/-- A finite operand is no infinity. -/
theorem FiniteFloat.notInf {v : Word} (h : FiniteFloat v) : isFloatInf v = false := by
  unfold isFloatInf
  rcases h with h | h <;> rw [h] <;> rfl

/-- The zeros are the words whose low 31 bits are 0 (R190). -/
theorem low31_zero (v : Word) : v.extractLsb' 0 31 = 0 ↔ floatClass v = .zero := by
  have e : (v.extractLsb' 0 31).toNat = (v.extractLsb' 23 8).toNat * 2 ^ 23 + (v.extractLsb' 0 23).toNat := by
    simp only [BitVec.extractLsb'_toNat, Nat.shiftRight_eq_div_pow]
    omega
  have l := (v.extractLsb' 0 23).isLt
  unfold floatClass floatExp floatFrac
  rw [← BitVec.toNat_inj, e, show (0 : BitVec 31).toNat = 0 from rfl]
  generalize (v.extractLsb' 0 23).toNat = y at *
  generalize (v.extractLsb' 23 8).toNat = x at *
  split
  · split
    · exact iff_of_true (by omega) rfl
    · exact iff_of_false (by omega) (by simp)
  · refine iff_of_false (by omega) ?_
    split
    · split <;> simp
    · simp

/-- The value of a word that is no denormal is its scaled integer over 2^149. -/
theorem floatVal_eq_of {v : Word} (h : floatClass v ≠ .denormal) :
    floatVal v = (floatScaled v : ℚ) / floatUnit := by
  unfold floatVal floatScaled isFloatZero
  by_cases hz : floatClass v = .zero
  · rw [if_pos ((low31_zero v).mpr hz), if_pos (by rw [hz]; rfl)]
    simp
  · have he : 1 ≤ floatExp v := by
      by_contra c
      have h0 : floatExp v = 0 := by omega
      unfold floatClass at h hz
      rw [if_pos h0] at h hz
      split at h
      · rename_i hf
        exact hz (if_pos hf)
      · exact h rfl
    have key : (2 : ℚ) ^ ((floatExp v : ℤ) - 127) * (1 + (floatFrac v : ℚ) / 2 ^ 23) =
        (((2 ^ 23 + floatFrac v) * 2 ^ (floatExp v - 1) : ℕ) : ℚ) / floatUnit := by
      rw [show ((floatExp v : ℤ) - 127) = ((floatExp v - 1 : ℕ) : ℤ) - 126 by omega,
        zpow_sub₀ (by norm_num), zpow_natCast, show (126 : ℤ) = ((126 : ℕ) : ℤ) from rfl, zpow_natCast]
      have hu : ((floatUnit : ℕ) : ℚ) = 2 ^ 126 * 2 ^ 23 := by norm_num [floatUnit]
      rw [hu]
      push_cast
      generalize (2 : ℚ) ^ (floatExp v - 1) = p
      field_simp
      norm_num
    have hz' : ¬((floatClass v == .zero) = true) := by simpa using hz
    rw [if_neg (fun c => hz ((low31_zero v).mp c)), if_neg hz', mul_assoc]
    refine (congrArg (fun x => (if v.msb = true then (-1 : ℚ) else 1) * x) key).trans ?_
    dsimp only
    split <;> (push_cast; ring)

/-- The value of a finite operand. -/
theorem floatVal_eq {v : Word} (h : FiniteFloat v) : floatVal v = (floatScaled v : ℚ) / floatUnit :=
  floatVal_eq_of (by rcases h with h | h <;> rw [h] <;> simp)

/-- An operand that is not reserved is no denormal. -/
theorem not_denormal_of {b : Bool} {v : Word} (h : isReserved b v = false) : floatClass v ≠ .denormal := by
  intro c
  unfold isReserved at h
  rw [c] at h
  cases h

/-- The sign bit of an operand with a value other than 0. -/
theorem floatScaled_sign (v : Word) :
    (floatScaled v < 0 → v.msb = true) ∧ (0 < floatScaled v → v.msb = false) := by
  unfold floatScaled
  split
  · exact ⟨fun h => absurd h (by decide), fun h => absurd h (by decide)⟩
  · dsimp only
    generalize (2 ^ 23 + floatFrac v) * 2 ^ (floatExp v - 1) = m
    split
    · rename_i h
      exact ⟨fun _ => h, fun c => by omega⟩
    · rename_i h
      exact ⟨fun c => by omega, fun _ => by simpa using h⟩

/-- Inverting the sign bit keeps the other fields. -/
theorem negate_fields (v : Word) : floatExp (v ^^^ 0x80000000) = floatExp v ∧
    floatFrac (v ^^^ 0x80000000) = floatFrac v ∧ (v ^^^ 0x80000000#32).msb = !v.msb := by
  have key : ∀ j : Fin 32, (0x80000000#32).getLsbD j.val = decide (j.val = 31) := by decide
  refine ⟨?_, ?_, ?_⟩
  · unfold floatExp
    congr 1
    apply BitVec.eq_of_getLsbD_eq
    intro i hi
    show ((v ^^^ 0x80000000#32).extractLsb' 23 8).getLsbD i = _
    rw [BitVec.getLsbD_extractLsb', BitVec.getLsbD_extractLsb', BitVec.getLsbD_xor, key ⟨23 + i, by omega⟩,
      decide_eq_false (show ¬(23 + i = 31) by omega), Bool.xor_false]
  · unfold floatFrac
    congr 1
    apply BitVec.eq_of_getLsbD_eq
    intro i hi
    show ((v ^^^ 0x80000000#32).extractLsb' 0 23).getLsbD i = _
    rw [BitVec.getLsbD_extractLsb', BitVec.getLsbD_extractLsb', BitVec.getLsbD_xor, key ⟨0 + i, by omega⟩,
      decide_eq_false (show ¬(0 + i = 31) by omega), Bool.xor_false]
  · rw [BitVec.msb_xor]
    have : (0x80000000#32).msb = true := by decide
    rw [this]; simp

/-- Inverting the sign bit keeps the class. -/
theorem negate_class (v : Word) : floatClass (v ^^^ 0x80000000) = floatClass v := by
  obtain ⟨a, b, _⟩ := negate_fields v
  unfold floatClass
  rw [a, b]

/-- Inverting the sign bit negates the value. -/
theorem negate_scaled (v : Word) : floatScaled (v ^^^ 0x80000000) = -floatScaled v := by
  obtain ⟨a, b, c⟩ := negate_fields v
  have c' : (v ^^^ 0x80000000).msb = !v.msb := c
  unfold floatScaled isFloatZero
  rw [negate_class, a, b, c']
  split
  · rfl
  · dsimp only
    cases v.msb <;> simp

/-- The sum of finite operands is one rounding of the exact sum (R196). -/
theorem floatAdd_finite (c : Config) {a b : Word} (ha : FiniteFloat a) (hb : FiniteFloat b) :
    floatAdd c a b = roundFraction c.fpUnderflowZero (floatScaled a + floatScaled b) floatUnit (a.msb && b.msb) := by
  unfold floatAdd floatSum
  rw [ha.notReserved, hb.notReserved, ha.notInf, hb.notInf]
  simp only [Bool.or_self, Bool.false_eq_true, if_false]

/-- The difference of finite operands (R197). -/
theorem floatSub_finite (c : Config) {a b : Word} (ha : FiniteFloat a) (hb : FiniteFloat b) :
    floatSub c a b = roundFraction c.fpUnderflowZero (floatScaled a - floatScaled b) floatUnit (a.msb && !b.msb) := by
  have hb' : isFloatInf (b ^^^ 0x80000000) = false := by
    unfold isFloatInf
    rw [negate_class]
    exact hb.notInf
  unfold floatSub floatSum
  rw [ha.notReserved, hb.notReserved, ha.notInf, hb', negate_scaled,
      (show (b ^^^ 0x80000000).msb = !b.msb from (negate_fields b).2.2), ← sub_eq_add_neg]
  simp only [Bool.or_self, Bool.false_eq_true, if_false]

/-- The product of finite operands (R198). -/
theorem floatMul_finite (c : Config) {a b : Word} (ha : FiniteFloat a) (hb : FiniteFloat b) :
    floatMul c a b = roundFraction c.fpUnderflowZero (floatScaled a * floatScaled b) (floatUnit * floatUnit) (a.msb ^^ b.msb) := by
  unfold floatMul
  rw [ha.notReserved, hb.notReserved, ha.notInf, hb.notInf]
  simp only [Bool.or_self, Bool.false_eq_true, if_false]

/-- The quotient of finite operands, the divisor no zero (R199). -/
theorem floatDiv_finite (c : Config) {a b : Word} (ha : FiniteFloat a) (hb : floatClass b = .normal) :
    floatDiv c a b = roundFraction c.fpUnderflowZero (if b.msb then -floatScaled a else floatScaled a)
    (floatScaled b).natAbs (a.msb ^^ b.msb) := by
  have hb' : FiniteFloat b := .inr hb
  have hz : isFloatZero b = false := by unfold isFloatZero; rw [hb]; rfl
  unfold floatDiv
  rw [ha.notReserved, hb'.notReserved, ha.notInf, hb'.notInf, hz]
  simp only [Bool.or_self, Bool.false_eq_true, if_false]

/-- The scaled value is 0 exactly for the zeros. -/
theorem floatScaled_zero (v : Word) : floatScaled v = 0 ↔ floatClass v = .zero := by
  unfold floatScaled isFloatZero
  split
  · rename_i hz; simpa using hz
  · rename_i hz
    dsimp only
    have p : 0 < (2 ^ 23 + floatFrac v) * 2 ^ (floatExp v - 1) := by positivity
    generalize (2 ^ 23 + floatFrac v) * 2 ^ (floatExp v - 1) = m at *
    have hc : floatClass v ≠ .zero := by simpa using hz
    refine iff_of_false ?_ hc
    split <;> omega

/-! ## Completion -/

/-- A sticky bit is set or kept (R191). -/
theorem psw_stick (s : State) (n : Nat) (b : Bool) (m : Nat) (hn : n < 32) :
    (s.stick n b).psw.getLsbD m = if m = n ∧ b = true then true else s.psw.getLsbD m := by
  unfold State.stick
  cases b
  · simp
  · simp only [if_true, setPswBit_psw, and_true]
    rw [getLsbD_setBit]
    by_cases h : m = n
    · simp [h, hn]
    · simp [h]

/-- A result is written with its flags, the sticky bits set where the outcome says (R191, R192). -/
theorem finishFloat_value (r2 : RegIdx) (r : Word) (fud fpr : Bool) (f : Word → Flags) (s : State) :
    ∃ t, finishFloat r2 (.value r fud fpr) f s = .next t ∧
      t = { s with regs := t.regs, psw := t.psw, pc := t.pc } ∧ RegsAfter s t [(r2, r)] ∧
          t.pc = (s.pc + 4) &&& 0xFFFFFFFE ∧
      (∀ n, t.psw.getLsbD n = if n < 4 then (withFlags s.psw (f r)).getLsbD n else if n = bitFUD then fud || s.psw.getLsbD n else if n = bitFPR then fpr || s.psw.getLsbD n else s.psw.getLsbD n) := by
  refine ⟨_, rfl, ?_, ?_, ?_, ?_⟩
  · unfold State.writeReg State.stick
    cases fud <;> cases fpr <;> (simp only [Bool.false_eq_true, if_true, if_false]; split <;> rfl)
  · exact regsAfter_one _ _ (by cases fud <;> cases fpr <;> (unfold State.stick State.writeReg; simp only [Bool.false_eq_true, if_true, if_false]; split <;> rfl))
  · simp
  · intro n
    simp only [advance_psw, setFlags_psw, writeReg_psw]
    rw [getLsbD_withFlags, getLsbD_withFlags, psw_stick _ _ _ _ (by decide), psw_stick _ _ _ _ (by decide)]
    simp only [bitFUD, bitFPR]
    by_cases h : n < 4
    · have : n = 0 ∨ n = 1 ∨ n = 2 ∨ n = 3 := by omega
      rcases this with rfl | rfl | rfl | rfl <;> simp
    · rw [if_neg (by omega), if_neg (by omega), if_neg (by omega), if_neg (by omega), if_neg h]
      cases fud <;> cases fpr <;> simp [-BitVec.getLsbD_eq_getElem] <;> (first | tauto | (intros; omega) | (cases s.psw.getLsbD n <;> simp [Bool.or_comm]))

/-- The flags of a normal result (R192). -/
theorem normal_flags {r : Word} (h : floatClass r = .normal) : floatFlags r = ⟨false, r.msb, false,
    r.msb⟩ := by
  have : r.extractLsb' 0 31 ≠ 0 := fun c => by rw [(low31_zero r).mp c] at h; cases h
  have : (r.extractLsb' 0 31 == 0) = false := by simpa using this
  unfold floatFlags
  rw [this]
  rfl

/-- The flags of a zero result (R192). -/
theorem zero_flags (b : Bool) : floatFlags (floatZero b) = ⟨true, false, false, false⟩ := by
  cases b <;> decide

/-- A delivered result: the destination, the flags `f` gives, and the two sticky bits; CY may be left out
of the bits that change where `f` keeps it (R191, R192). -/
theorem finishFloat_effect {r2 : RegIdx} {r : Word} {fud fpr : Bool} {f : Word → Flags} {s : State}
    (bits : List Nat)
    (hb : ∀ n, n ∉ bits → n ≠ bitZ ∧ n ≠ bitS ∧ n ≠ bitOV ∧ ((f r).cy = s.flags.cy ∨ n ≠ bitCY) ∧
      (fpr = true → n ≠ bitFPR) ∧ (fud = true → n ≠ bitFUD)) :
    ∃ t, finishFloat r2 (.value r fud fpr) f s = .next t ∧ Effect s t [(r2, r)] bits (s.pc + 4) ∧
      FlagsAre t ((f r).z = true) ((f r).s = true) ((f r).ov = true) ((f r).cy = true) ∧
      t.psw.getLsbD bitFPR = (fpr || s.psw.getLsbD bitFPR) ∧
      t.psw.getLsbD bitFUD = (fud || s.psw.getLsbD bitFUD) := by
  obtain ⟨t, h1, h2, h3, h4, h5⟩ := finishFloat_value r2 r fud fpr f s
  refine ⟨t, h1, effect_intro h3 ?_ h4 h2, ?_, ?_, ?_⟩
  · intro n hn
    obtain ⟨b1, b2, b3, b4, b5, b6⟩ := hb n hn
    simp only [bitZ, bitS, bitOV, bitCY] at b1 b2 b3 b4
    rw [h5]
    split
    · have : n = 3 := by omega
      subst this
      rcases b4 with b4 | b4
      · rw [getLsbD_withFlags]
        simp [-BitVec.getLsbD_eq_getElem, b4, State.flags]
        rfl
      · omega
    · split
      · rename_i h
        cases fud
        · rfl
        · exact absurd h (b6 rfl)
      · split
        · rename_i h
          cases fpr
          · rfl
          · exact absurd h (b5 rfl)
        · rfl
  · unfold FlagsAre
    simp only [bitZ, bitS, bitOV, bitCY]
    rw [h5, h5, h5, h5]
    simp [-BitVec.getLsbD_eq_getElem, getLsbD_withFlags]
  · rw [h5]; simp [bitFPR, bitFUD]
  · rw [h5]; simp [bitFUD]

/-- An exception raised in a state that differs in sticky bits alone (R191, R219). -/
theorem raise_floatTraps {s u : State} {e : Exc} {i : Instr} (hu : StickyOnly s u)
    (hx : exec i s = raise e s.pc u) (hh : e.handler = 0xFFFFFF60) : FloatTrapsIn i s u e.code := by
  have keep : u.psw.getLsbD bitNP = s.psw.getLsbD bitNP := hu.psw bitNP (by decide)
  refine ⟨fun h => ?_, fun h => ?_⟩
  · obtain ⟨t, ht, he⟩ := raise_enters e s.pc u (keep.trans h)
    exact ⟨t, hx.trans ht, by rw [← hh]; exact he⟩
  · rw [hx]
    exact raise_stopsFatally e s.pc u (keep.trans h)

/-- What an instruction does whose outcome is a condition (R191). -/
theorem finishFloat_traps {s : State} {i : Instr} {r2 : RegIdx} {o : FloatOutcome} {f : Word → Flags}
    (hx : exec i s = finishFloat r2 o f s) :
    (o = .reserved → FloatTraps i s bitFRO Exc.floatReserved.code) ∧
    (o = .invalid → FloatTraps i s bitFIV Exc.floatInvalid.code) ∧
    (o = .zeroDivision → FloatTraps i s bitFZD Exc.floatZeroDivision.code) ∧
    (o = .overflow → FloatTraps i s bitFOV Exc.floatOverflow.code) := by
  refine ⟨?_, ?_, ?_, ?_⟩ <;>
    (rintro rfl; exact raise_floatTraps (stickyOnly_setPswBit s _ true (by decide)) hx rfl)

end Sys2Proof.Machine
end

