-- ==== Sys2Proof/Laws/PerInstr.lean ====
section
/-! SUPPORT. Statements for all instructions, one lemma per constructor: the length that the first
halfword of an encoding announces is the length of the instruction (spec/30_encoding.md R50). -/

namespace Sys2Proof.Laws

/-- The first halfword of the encoding tells the length (R50). -/
def EncodedLength.Statement (i : Instr) : Prop :=
  ∀ (h : Half) (rest : List Half), encode i = h :: rest → lengthOf h = i.length

/-- A word of format I, II, V, VI or VII. -/
theorem length_fmtI (op : BitVec 6) (r lo : BitVec 5) (n : Nat)
    (h : (if decide (0x28 ≤ op.toNat) = true then 4 else 2) = n) : lengthOf (fmtI op r lo) = n := by
  unfold lengthOf
  rw [isLong_fmtI]
  exact h

/-- A word of format III. -/
theorem length_fmtIII (c : BitVec 4) (d : BitVec 9) : lengthOf (fmtIII c d) = 2 := by
  unfold lengthOf
  rw [isLong_of_isBranch _ (isBranch_fmtIII c d)]
  rfl

/-- The first halfword of format IV. -/
theorem length_fmtIV (op : BitVec 6) (d : BitVec 26) (h : decide (0x28 ≤ op.toNat) = true) :
    lengthOf (op ++ d.extractLsb' 16 10) = 4 := by
  unfold lengthOf isLong
  rw [opcodeOf_fmtIV, h]
  rfl

theorem EncodedLength.mov (reg1 reg2 : RegIdx) :
    EncodedLength.Statement (.mov reg1 reg2) := fun _ _ e => by
  cases e
  exact length_fmtI _ _ _ _ rfl

theorem EncodedLength.add (reg1 reg2 : RegIdx) :
    EncodedLength.Statement (.add reg1 reg2) := fun _ _ e => by
  cases e
  exact length_fmtI _ _ _ _ rfl

theorem EncodedLength.sub (reg1 reg2 : RegIdx) :
    EncodedLength.Statement (.sub reg1 reg2) := fun _ _ e => by
  cases e
  exact length_fmtI _ _ _ _ rfl

theorem EncodedLength.cmp (reg1 reg2 : RegIdx) :
    EncodedLength.Statement (.cmp reg1 reg2) := fun _ _ e => by
  cases e
  exact length_fmtI _ _ _ _ rfl

theorem EncodedLength.shl (reg1 reg2 : RegIdx) :
    EncodedLength.Statement (.shl reg1 reg2) := fun _ _ e => by
  cases e
  exact length_fmtI _ _ _ _ rfl

theorem EncodedLength.shr (reg1 reg2 : RegIdx) :
    EncodedLength.Statement (.shr reg1 reg2) := fun _ _ e => by
  cases e
  exact length_fmtI _ _ _ _ rfl

theorem EncodedLength.jmp (reg1 : RegIdx) :
    EncodedLength.Statement (.jmp reg1) := fun _ _ e => by
  cases e
  exact length_fmtI _ _ _ _ rfl

theorem EncodedLength.sar (reg1 reg2 : RegIdx) :
    EncodedLength.Statement (.sar reg1 reg2) := fun _ _ e => by
  cases e
  exact length_fmtI _ _ _ _ rfl

theorem EncodedLength.mul (reg1 reg2 : RegIdx) :
    EncodedLength.Statement (.mul reg1 reg2) := fun _ _ e => by
  cases e
  exact length_fmtI _ _ _ _ rfl

theorem EncodedLength.div (reg1 reg2 : RegIdx) :
    EncodedLength.Statement (.div reg1 reg2) := fun _ _ e => by
  cases e
  exact length_fmtI _ _ _ _ rfl

theorem EncodedLength.mulu (reg1 reg2 : RegIdx) :
    EncodedLength.Statement (.mulu reg1 reg2) := fun _ _ e => by
  cases e
  exact length_fmtI _ _ _ _ rfl

theorem EncodedLength.divu (reg1 reg2 : RegIdx) :
    EncodedLength.Statement (.divu reg1 reg2) := fun _ _ e => by
  cases e
  exact length_fmtI _ _ _ _ rfl

theorem EncodedLength.or (reg1 reg2 : RegIdx) :
    EncodedLength.Statement (.or reg1 reg2) := fun _ _ e => by
  cases e
  exact length_fmtI _ _ _ _ rfl

theorem EncodedLength.and (reg1 reg2 : RegIdx) :
    EncodedLength.Statement (.and reg1 reg2) := fun _ _ e => by
  cases e
  exact length_fmtI _ _ _ _ rfl

theorem EncodedLength.xor (reg1 reg2 : RegIdx) :
    EncodedLength.Statement (.xor reg1 reg2) := fun _ _ e => by
  cases e
  exact length_fmtI _ _ _ _ rfl

theorem EncodedLength.not (reg1 reg2 : RegIdx) :
    EncodedLength.Statement (.not reg1 reg2) := fun _ _ e => by
  cases e
  exact length_fmtI _ _ _ _ rfl

theorem EncodedLength.movImm (imm5 : BitVec 5) (reg2 : RegIdx) :
    EncodedLength.Statement (.movImm imm5 reg2) := fun _ _ e => by
  cases e
  exact length_fmtI _ _ _ _ rfl

theorem EncodedLength.addImm (imm5 : BitVec 5) (reg2 : RegIdx) :
    EncodedLength.Statement (.addImm imm5 reg2) := fun _ _ e => by
  cases e
  exact length_fmtI _ _ _ _ rfl

theorem EncodedLength.setf (cond : BitVec 4) (reg2 : RegIdx) :
    EncodedLength.Statement (.setf cond reg2) := fun _ _ e => by
  cases e
  exact length_fmtI _ _ _ _ rfl

theorem EncodedLength.cmpImm (imm5 : BitVec 5) (reg2 : RegIdx) :
    EncodedLength.Statement (.cmpImm imm5 reg2) := fun _ _ e => by
  cases e
  exact length_fmtI _ _ _ _ rfl

theorem EncodedLength.shlImm (imm5 : BitVec 5) (reg2 : RegIdx) :
    EncodedLength.Statement (.shlImm imm5 reg2) := fun _ _ e => by
  cases e
  exact length_fmtI _ _ _ _ rfl

theorem EncodedLength.shrImm (imm5 : BitVec 5) (reg2 : RegIdx) :
    EncodedLength.Statement (.shrImm imm5 reg2) := fun _ _ e => by
  cases e
  exact length_fmtI _ _ _ _ rfl

theorem EncodedLength.ei :
    EncodedLength.Statement .ei := fun _ _ e => by
  cases e
  exact length_fmtI _ _ _ _ rfl

theorem EncodedLength.sarImm (imm5 : BitVec 5) (reg2 : RegIdx) :
    EncodedLength.Statement (.sarImm imm5 reg2) := fun _ _ e => by
  cases e
  exact length_fmtI _ _ _ _ rfl

theorem EncodedLength.trap (vector : BitVec 5) :
    EncodedLength.Statement (.trap vector) := fun _ _ e => by
  cases e
  exact length_fmtI _ _ _ _ rfl

theorem EncodedLength.reti :
    EncodedLength.Statement .reti := fun _ _ e => by
  cases e
  exact length_fmtI _ _ _ _ rfl

theorem EncodedLength.halt :
    EncodedLength.Statement .halt := fun _ _ e => by
  cases e
  exact length_fmtI _ _ _ _ rfl

theorem EncodedLength.udef1B :
    EncodedLength.Statement .udef1B := fun _ _ e => by
  cases e
  exact length_fmtI _ _ _ _ rfl

theorem EncodedLength.ldsr (reg2 : RegIdx) (sreg : BitVec 5) :
    EncodedLength.Statement (.ldsr reg2 sreg) := fun _ _ e => by
  cases e
  exact length_fmtI _ _ _ _ rfl

theorem EncodedLength.stsr (sreg : BitVec 5) (reg2 : RegIdx) :
    EncodedLength.Statement (.stsr sreg reg2) := fun _ _ e => by
  cases e
  exact length_fmtI _ _ _ _ rfl

theorem EncodedLength.di :
    EncodedLength.Statement .di := fun _ _ e => by
  cases e
  exact length_fmtI _ _ _ _ rfl

theorem EncodedLength.sch0bsu :
    EncodedLength.Statement .sch0bsu := fun _ _ e => by
  cases e
  exact length_fmtI _ _ _ _ rfl

theorem EncodedLength.sch0bsd :
    EncodedLength.Statement .sch0bsd := fun _ _ e => by
  cases e
  exact length_fmtI _ _ _ _ rfl

theorem EncodedLength.sch1bsu :
    EncodedLength.Statement .sch1bsu := fun _ _ e => by
  cases e
  exact length_fmtI _ _ _ _ rfl

theorem EncodedLength.sch1bsd :
    EncodedLength.Statement .sch1bsd := fun _ _ e => by
  cases e
  exact length_fmtI _ _ _ _ rfl

theorem EncodedLength.orbsu :
    EncodedLength.Statement .orbsu := fun _ _ e => by
  cases e
  exact length_fmtI _ _ _ _ rfl

theorem EncodedLength.andbsu :
    EncodedLength.Statement .andbsu := fun _ _ e => by
  cases e
  exact length_fmtI _ _ _ _ rfl

theorem EncodedLength.xorbsu :
    EncodedLength.Statement .xorbsu := fun _ _ e => by
  cases e
  exact length_fmtI _ _ _ _ rfl

theorem EncodedLength.movbsu :
    EncodedLength.Statement .movbsu := fun _ _ e => by
  cases e
  exact length_fmtI _ _ _ _ rfl

theorem EncodedLength.ornbsu :
    EncodedLength.Statement .ornbsu := fun _ _ e => by
  cases e
  exact length_fmtI _ _ _ _ rfl

theorem EncodedLength.andnbsu :
    EncodedLength.Statement .andnbsu := fun _ _ e => by
  cases e
  exact length_fmtI _ _ _ _ rfl

theorem EncodedLength.xornbsu :
    EncodedLength.Statement .xornbsu := fun _ _ e => by
  cases e
  exact length_fmtI _ _ _ _ rfl

theorem EncodedLength.notbsu :
    EncodedLength.Statement .notbsu := fun _ _ e => by
  cases e
  exact length_fmtI _ _ _ _ rfl

theorem EncodedLength.bv (disp9 : BitVec 9) :
    EncodedLength.Statement (.bv disp9) := fun _ _ e => by
  cases e
  exact length_fmtIII _ _

theorem EncodedLength.bl (disp9 : BitVec 9) :
    EncodedLength.Statement (.bl disp9) := fun _ _ e => by
  cases e
  exact length_fmtIII _ _

theorem EncodedLength.be (disp9 : BitVec 9) :
    EncodedLength.Statement (.be disp9) := fun _ _ e => by
  cases e
  exact length_fmtIII _ _

theorem EncodedLength.bnh (disp9 : BitVec 9) :
    EncodedLength.Statement (.bnh disp9) := fun _ _ e => by
  cases e
  exact length_fmtIII _ _

theorem EncodedLength.bn (disp9 : BitVec 9) :
    EncodedLength.Statement (.bn disp9) := fun _ _ e => by
  cases e
  exact length_fmtIII _ _

theorem EncodedLength.br (disp9 : BitVec 9) :
    EncodedLength.Statement (.br disp9) := fun _ _ e => by
  cases e
  exact length_fmtIII _ _

theorem EncodedLength.blt (disp9 : BitVec 9) :
    EncodedLength.Statement (.blt disp9) := fun _ _ e => by
  cases e
  exact length_fmtIII _ _

theorem EncodedLength.ble (disp9 : BitVec 9) :
    EncodedLength.Statement (.ble disp9) := fun _ _ e => by
  cases e
  exact length_fmtIII _ _

theorem EncodedLength.bnv (disp9 : BitVec 9) :
    EncodedLength.Statement (.bnv disp9) := fun _ _ e => by
  cases e
  exact length_fmtIII _ _

theorem EncodedLength.bnl (disp9 : BitVec 9) :
    EncodedLength.Statement (.bnl disp9) := fun _ _ e => by
  cases e
  exact length_fmtIII _ _

theorem EncodedLength.bne (disp9 : BitVec 9) :
    EncodedLength.Statement (.bne disp9) := fun _ _ e => by
  cases e
  exact length_fmtIII _ _

theorem EncodedLength.bh (disp9 : BitVec 9) :
    EncodedLength.Statement (.bh disp9) := fun _ _ e => by
  cases e
  exact length_fmtIII _ _

theorem EncodedLength.bp (disp9 : BitVec 9) :
    EncodedLength.Statement (.bp disp9) := fun _ _ e => by
  cases e
  exact length_fmtIII _ _

theorem EncodedLength.nop :
    EncodedLength.Statement .nop := fun _ _ e => by
  cases e
  exact length_fmtIII _ _

theorem EncodedLength.bge (disp9 : BitVec 9) :
    EncodedLength.Statement (.bge disp9) := fun _ _ e => by
  cases e
  exact length_fmtIII _ _

theorem EncodedLength.bgt (disp9 : BitVec 9) :
    EncodedLength.Statement (.bgt disp9) := fun _ _ e => by
  cases e
  exact length_fmtIII _ _

theorem EncodedLength.movea (imm16 : BitVec 16) (reg1 reg2 : RegIdx) :
    EncodedLength.Statement (.movea imm16 reg1 reg2) := fun _ _ e => by
  cases e
  exact length_fmtI _ _ _ _ rfl

theorem EncodedLength.addi (imm16 : BitVec 16) (reg1 reg2 : RegIdx) :
    EncodedLength.Statement (.addi imm16 reg1 reg2) := fun _ _ e => by
  cases e
  exact length_fmtI _ _ _ _ rfl

theorem EncodedLength.jr (disp26 : BitVec 26) :
    EncodedLength.Statement (.jr disp26) := fun _ _ e => by
  cases e
  exact length_fmtIV _ _ rfl

theorem EncodedLength.jal (disp26 : BitVec 26) :
    EncodedLength.Statement (.jal disp26) := fun _ _ e => by
  cases e
  exact length_fmtIV _ _ rfl

theorem EncodedLength.ori (imm16 : BitVec 16) (reg1 reg2 : RegIdx) :
    EncodedLength.Statement (.ori imm16 reg1 reg2) := fun _ _ e => by
  cases e
  exact length_fmtI _ _ _ _ rfl

theorem EncodedLength.andi (imm16 : BitVec 16) (reg1 reg2 : RegIdx) :
    EncodedLength.Statement (.andi imm16 reg1 reg2) := fun _ _ e => by
  cases e
  exact length_fmtI _ _ _ _ rfl

theorem EncodedLength.xori (imm16 : BitVec 16) (reg1 reg2 : RegIdx) :
    EncodedLength.Statement (.xori imm16 reg1 reg2) := fun _ _ e => by
  cases e
  exact length_fmtI _ _ _ _ rfl

theorem EncodedLength.movhi (imm16 : BitVec 16) (reg1 reg2 : RegIdx) :
    EncodedLength.Statement (.movhi imm16 reg1 reg2) := fun _ _ e => by
  cases e
  exact length_fmtI _ _ _ _ rfl

theorem EncodedLength.ldB (disp16 : BitVec 16) (reg1 reg2 : RegIdx) :
    EncodedLength.Statement (.ldB disp16 reg1 reg2) := fun _ _ e => by
  cases e
  exact length_fmtI _ _ _ _ rfl

theorem EncodedLength.ldH (disp16 : BitVec 16) (reg1 reg2 : RegIdx) :
    EncodedLength.Statement (.ldH disp16 reg1 reg2) := fun _ _ e => by
  cases e
  exact length_fmtI _ _ _ _ rfl

theorem EncodedLength.udef32 :
    EncodedLength.Statement .udef32 := fun _ _ e => by
  cases e
  exact length_fmtI _ _ _ _ rfl

theorem EncodedLength.ldW (disp16 : BitVec 16) (reg1 reg2 : RegIdx) :
    EncodedLength.Statement (.ldW disp16 reg1 reg2) := fun _ _ e => by
  cases e
  exact length_fmtI _ _ _ _ rfl

theorem EncodedLength.stB (reg2 : RegIdx) (disp16 : BitVec 16) (reg1 : RegIdx) :
    EncodedLength.Statement (.stB reg2 disp16 reg1) := fun _ _ e => by
  cases e
  exact length_fmtI _ _ _ _ rfl

theorem EncodedLength.stH (reg2 : RegIdx) (disp16 : BitVec 16) (reg1 : RegIdx) :
    EncodedLength.Statement (.stH reg2 disp16 reg1) := fun _ _ e => by
  cases e
  exact length_fmtI _ _ _ _ rfl

theorem EncodedLength.udef36 :
    EncodedLength.Statement .udef36 := fun _ _ e => by
  cases e
  exact length_fmtI _ _ _ _ rfl

theorem EncodedLength.stW (reg2 : RegIdx) (disp16 : BitVec 16) (reg1 : RegIdx) :
    EncodedLength.Statement (.stW reg2 disp16 reg1) := fun _ _ e => by
  cases e
  exact length_fmtI _ _ _ _ rfl

theorem EncodedLength.inB (disp16 : BitVec 16) (reg1 reg2 : RegIdx) :
    EncodedLength.Statement (.inB disp16 reg1 reg2) := fun _ _ e => by
  cases e
  exact length_fmtI _ _ _ _ rfl

theorem EncodedLength.inH (disp16 : BitVec 16) (reg1 reg2 : RegIdx) :
    EncodedLength.Statement (.inH disp16 reg1 reg2) := fun _ _ e => by
  cases e
  exact length_fmtI _ _ _ _ rfl

theorem EncodedLength.caxi (disp16 : BitVec 16) (reg1 reg2 : RegIdx) :
    EncodedLength.Statement (.caxi disp16 reg1 reg2) := fun _ _ e => by
  cases e
  exact length_fmtI _ _ _ _ rfl

theorem EncodedLength.inW (disp16 : BitVec 16) (reg1 reg2 : RegIdx) :
    EncodedLength.Statement (.inW disp16 reg1 reg2) := fun _ _ e => by
  cases e
  exact length_fmtI _ _ _ _ rfl

theorem EncodedLength.outB (reg2 : RegIdx) (disp16 : BitVec 16) (reg1 : RegIdx) :
    EncodedLength.Statement (.outB reg2 disp16 reg1) := fun _ _ e => by
  cases e
  exact length_fmtI _ _ _ _ rfl

theorem EncodedLength.outH (reg2 : RegIdx) (disp16 : BitVec 16) (reg1 : RegIdx) :
    EncodedLength.Statement (.outH reg2 disp16 reg1) := fun _ _ e => by
  cases e
  exact length_fmtI _ _ _ _ rfl

theorem EncodedLength.outW (reg2 : RegIdx) (disp16 : BitVec 16) (reg1 : RegIdx) :
    EncodedLength.Statement (.outW reg2 disp16 reg1) := fun _ _ e => by
  cases e
  exact length_fmtI _ _ _ _ rfl

theorem EncodedLength.cmpfS (reg1 reg2 : RegIdx) :
    EncodedLength.Statement (.cmpfS reg1 reg2) := fun _ _ e => by
  cases e
  exact length_fmtI _ _ _ _ rfl

theorem EncodedLength.cvtWS (reg1 reg2 : RegIdx) :
    EncodedLength.Statement (.cvtWS reg1 reg2) := fun _ _ e => by
  cases e
  exact length_fmtI _ _ _ _ rfl

theorem EncodedLength.cvtSW (reg1 reg2 : RegIdx) :
    EncodedLength.Statement (.cvtSW reg1 reg2) := fun _ _ e => by
  cases e
  exact length_fmtI _ _ _ _ rfl

theorem EncodedLength.addfS (reg1 reg2 : RegIdx) :
    EncodedLength.Statement (.addfS reg1 reg2) := fun _ _ e => by
  cases e
  exact length_fmtI _ _ _ _ rfl

theorem EncodedLength.subfS (reg1 reg2 : RegIdx) :
    EncodedLength.Statement (.subfS reg1 reg2) := fun _ _ e => by
  cases e
  exact length_fmtI _ _ _ _ rfl

theorem EncodedLength.mulfS (reg1 reg2 : RegIdx) :
    EncodedLength.Statement (.mulfS reg1 reg2) := fun _ _ e => by
  cases e
  exact length_fmtI _ _ _ _ rfl

theorem EncodedLength.divfS (reg1 reg2 : RegIdx) :
    EncodedLength.Statement (.divfS reg1 reg2) := fun _ _ e => by
  cases e
  exact length_fmtI _ _ _ _ rfl

theorem EncodedLength.trncSW (reg1 reg2 : RegIdx) :
    EncodedLength.Statement (.trncSW reg1 reg2) := fun _ _ e => by
  cases e
  exact length_fmtI _ _ _ _ rfl

end Sys2Proof.Laws
end

