-- ==== Sys2Proof/Tests/Slice0.lean ====
section
/-! SUPPORT. Small checks of the model: well-formedness, words written out from the encoding figures of
spec/30_encoding.md, one step of each instruction against the vectors of spec/95_test_vectors.md, and,
for every statement that has hypotheses, states that meet them. -/

namespace Sys2Proof.Tests

open Sys2Proof Sys2Proof.Machine

/-! ## Helpers -/

/-- The values section 2 of spec/95_test_vectors.md assumes, and plain storage at every port. -/
def testConfig : Config :=
  { chosenConfig with
    logicImm16Ext := .sign
    trncSwResult := .signed
    schFoundPointer := .atFound
    ioMap := [⟨0, 0xFFFFFFFF, .storage⟩] }

/-- Words stored one after the other. -/
def wordsIn (words : List (Nat × Word)) : Memory :=
  words.foldl (fun m p => writeBytes m p.1 4 p.2) []

/-- A machine at 0x1000; memory and ports hold the same words. -/
def machine (psw : Word) (regs : List (RegIdx × Word)) (words : List (Nat × Word)) : State :=
  regs.foldl (fun s p => s.writeReg p.1 p.2)
    { State.reset with
      pc := 0x1000, psw := psw, mem := wordsIn words, io := wordsIn words, config := testConfig }

/-- The other value of `LOGIC_IMM16_EXT`. -/
def zeroExtending (s : State) : State := { s with config := { s.config with logicImm16Ext := .zero } }

/-- A next state for which `f` holds. -/
def holds (r : Result) (f : State → Bool) : Bool :=
  match r with
  | .next t => f t
  | _ => false

/-- The word `w` of `n` bits, run at the pc, ends with these registers, this PSW, this pc and these
words in memory, or in the port space when the first of them is there. -/
def ends (n w : Nat) (s : State) (regs : List (RegIdx × Word)) (psw pc : Word)
    (words : List (Nat × Word)) : Bool :=
  holds (step (s.withFetchWord n w)) fun t =>
    regs.all (fun p => t.readReg p.1 == p.2) && t.psw == psw && t.pc == pc &&
      words.all (fun p => readBytes t.mem p.1 4 == p.2)

/-- The same, for the port space. -/
def endsAtPort (n w : Nat) (s : State) (words : List (Nat × Word)) : Bool :=
  holds (step (s.withFetchWord n w)) fun t =>
    t.pc == s.pc + 4 && t.mem == (s.withFetchWord n w).mem &&
      words.all (fun p => readBytes t.io p.1 4 == p.2)

/-! ## Well-formedness -/

theorem test_odd_branch_refused :
    [Instr.bv 0x1, .bl 0x1, .be 0x1, .bnh 0x1, .bn 0x1, .br 0x1FF, .blt 0x1, .ble 0x1].all
      (fun i => !i.wellFormed) = true := by decide

theorem test_odd_negated_branch_refused :
    [Instr.bnv 0x1, .bnl 0x1, .bne 0x1, .bh 0x1, .bp 0x1, .bge 0x101, .bgt 0x1].all
      (fun i => !i.wellFormed) = true := by decide

theorem test_odd_jump_refused :
    (Instr.jr 0x3FFFFFF).wellFormed = false ∧ (Instr.jal 0x1).wellFormed = false := by decide

theorem test_even_disp_accepted :
    (Instr.br 0x1FE).wellFormed = true ∧ (Instr.jal 0x2000000).wellFormed = true := by decide

/-! ## Decoding: words from the figures of spec/30_encoding.md, low byte first -/

/-- 000001 00111 00110: opcode, reg2, reg1 (R52). -/
theorem test_decode_format_I : decode [0b11100110, 0b00000100, 0xAA] = .ok (.add 6 7, [0xAA]) := by
  decide

/-- 010001 00111 11111: opcode, reg2, imm5 (R53). -/
theorem test_decode_format_II : decode [0b11111111, 0b01000100] = .ok (.addImm 0x1F 7, []) := by
  decide

/-- 011111 00000 01011: opcode 0x1F, sub-opcode 0x0B (R57). -/
theorem test_decode_bit_string : decode [0b00001011, 0b01111100] = .ok (.movbsu, []) := by decide

/-- 100 1010 11111101 0: 100, condition 10, disp9 (R54). -/
theorem test_decode_format_III : decode [0b11111010, 0b10010101] = .ok (.bne 0x1FA, []) := by decide

/-- 101011 1111111111 then 16 bits: opcode, disp26 (R55). -/
theorem test_decode_format_IV :
    decode [0b11111111, 0b10101111, 0x00, 0xF0] = .ok (.jal 0x3FFF000, []) := by decide

/-- 101000 00111 00110 then imm16 (R56). -/
theorem test_decode_format_V :
    decode [0b11100110, 0b10100000, 0x34, 0x12] = .ok (.movea 0x1234 6 7, []) := by decide

/-- 110111 00111 00110 then disp16 (R56). -/
theorem test_decode_format_VI :
    decode [0b11100110, 0b11011100, 0x10, 0x80] = .ok (.stW 7 0x8010 6, []) := by decide

/-- 111110 00111 00110 then sub-opcode 000111 (R58). -/
theorem test_decode_format_VII :
    decode [0b11100110, 0b11111000, 0x00, 0b00011100] = .ok (.divfS 6 7, []) := by decide

/-- The edges of the undefined ranges of R71 and R72. -/
theorem test_decode_undefined :
    [(0x7C04 : Half), 0x7C07, 0x7C10, 0x7C1F].all (fun w => (decodeWords w 0).toOption == none) = true ∧
    [(0x0400 : Half), 0x2000, 0x2800, 0x3000, 0xFC00].all
      (fun w => (decodeWords 0xF8E6 w).toOption == none) = true ∧
    (decodeWords 0x7C0F 0).toOption = some .notbsu ∧
    (decodeWords 0xF8E6 0x2C00).toOption = some (.trncSW 6 7) := by decide

/-- The three undefined primary opcodes, and the probe of the host on one of them. -/
theorem test_decode_undefined_primary :
    decode [0x00, 0x6C] = .ok (.udef1B, []) ∧ decode [0x00, 0xC8, 0, 0] = .ok (.udef32, []) ∧
    decodeTableWord 32 0x0000D800 = some .udef36 := by decide

/-! ## One step of each instruction -/

section Steps

set_option maxRecDepth 20000

/-! ### Format I (spec/95_test_vectors.md, the rows of spec/40_reg_reg.md) -/

theorem test_mov : ends 16 0xE6 (machine 0xF [(6, 0xDEADBEEF)] [])
    [(7, 0xDEADBEEF)] 0xF 0x1002 [] = true := by decide
theorem test_mov_to_r0 : ends 16 6 (machine 0 [(6, 0xDEADBEEF)] [])
    [(0, 0)] 0 0x1002 [] = true := by decide
theorem test_add_signed_overflow : ends 16 0x4E6 (machine 0 [(7, 1), (6, 0x7FFFFFFF)] [])
    [(7, 0x80000000)] 6 0x1002 [] = true := by decide
theorem test_add_carry : ends 16 0x4E6 (machine 0 [(7, 0x80000000), (6, 0x80000000)] [])
    [(7, 0)] 0xD 0x1002 [] = true := by decide
theorem test_sub_borrow : ends 16 0x8E6 (machine 0 [(7, 0), (6, 1)] [])
    [(7, 0xFFFFFFFF)] 0xA 0x1002 [] = true := by decide
theorem test_sub_overflow : ends 16 0x8E6 (machine 0 [(7, 0x80000000), (6, 1)] [])
    [(7, 0x7FFFFFFF)] 4 0x1002 [] = true := by decide
theorem test_cmp_borrow : ends 16 0xCE6 (machine 0 [(7, 1), (6, 0xFFFFFFFF)] [])
    [(7, 1), (6, 0xFFFFFFFF)] 8 0x1002 [] = true := by decide
theorem test_cmp_overflow : ends 16 0xCE6 (machine 0 [(7, 0x80000000), (6, 0x7FFFFFFF)] [])
    [(7, 0x80000000)] 4 0x1002 [] = true := by decide
theorem test_shl_count_masked : ends 16 0x10E6 (machine 0 [(6, 0x21), (7, 0x80000001)] [])
    [(7, 2)] 8 0x1002 [] = true := by decide
theorem test_shl_count_zero : ends 16 0x10E6 (machine 8 [(6, 0x20), (7, 0x80000001)] [])
    [(7, 0x80000001)] 2 0x1002 [] = true := by decide
theorem test_shr : ends 16 0x14E6 (machine 0 [(6, 4), (7, 0x80000018)] [])
    [(7, 0x8000001)] 8 0x1002 [] = true := by decide
theorem test_shr_31 : ends 16 0x14E6 (machine 0 [(6, 0x1F), (7, 0x80000000)] [])
    [(7, 1)] 0 0x1002 [] = true := by decide
theorem test_jmp_drops_bit0 : ends 16 0x1806 (machine 0 [(6, 0x2003)] [])
    [(6, 0x2003)] 0 0x2002 [] = true := by decide
theorem test_sar : ends 16 0x1CE6 (machine 0 [(6, 4), (7, 0x80000018)] [])
    [(7, 0xF8000001)] 0xA 0x1002 [] = true := by decide
theorem test_sar_31 : ends 16 0x1CE6 (machine 0 [(6, 0x1F), (7, 0x7FFFFFFF)] [])
    [(7, 0)] 9 0x1002 [] = true := by decide
theorem test_mul_negative : ends 16 0x20E6 (machine 0 [(7, 0xFFFFFFFF), (6, 2)] [])
    [(7, 0xFFFFFFFE), (30, 0xFFFFFFFF)] 2 0x1002 [] = true := by decide
theorem test_mul_low_word_wins : ends 16 0x23C6 (machine 0 [(30, 0x10000), (6, 0x10000)] [])
    [(30, 0)] 5 0x1002 [] = true := by decide
theorem test_div_toward_zero : ends 16 0x24E6 (machine 8 [(7, 7), (6, 0xFFFFFFFE)] [])
    [(7, 0xFFFFFFFD), (30, 1)] 0xA 0x1002 [] = true := by decide
theorem test_div_overflow : ends 16 0x24E6 (machine 0 [(7, 0x80000000), (6, 0xFFFFFFFF)] [])
    [(7, 0x80000000), (30, 0)] 6 0x1002 [] = true := by decide
theorem test_mulu : ends 16 0x28E6 (machine 0 [(7, 0xFFFFFFFF), (6, 0xFFFFFFFF)] [])
    [(7, 1), (30, 0xFFFFFFFE)] 4 0x1002 [] = true := by decide
theorem test_mulu_sign : ends 16 0x28E6 (machine 0 [(7, 0xFFFFFFFF), (6, 2)] [])
    [(7, 0xFFFFFFFE), (30, 1)] 6 0x1002 [] = true := by decide
theorem test_divu : ends 16 0x2CE6 (machine 0 [(7, 0x80000000), (6, 0xFFFFFFFF)] [])
    [(7, 0), (30, 0x80000000)] 1 0x1002 [] = true := by decide
theorem test_divu_by_three : ends 16 0x2CE6 (machine 0 [(7, 0xFFFFFFFF), (6, 3)] [])
    [(7, 0x55555555), (30, 0)] 0 0x1002 [] = true := by decide
theorem test_or : ends 16 0x30E6 (machine 0xC [(7, 0x80000000), (6, 1)] [])
    [(7, 0x80000001)] 0xA 0x1002 [] = true := by decide
theorem test_and : ends 16 0x34E6 (machine 0xC [(7, 0xF0F0F0F0), (6, 0xF0F0F0F)] [])
    [(7, 0)] 9 0x1002 [] = true := by decide
theorem test_xor : ends 16 0x38E6 (machine 0 [(7, 0xFFFFFFFF), (6, 0x12345678)] [])
    [(7, 0xEDCBA987)] 2 0x1002 [] = true := by decide
theorem test_not : ends 16 0x3CE6 (machine 4 [(6, 0)] [])
    [(7, 0xFFFFFFFF)] 2 0x1002 [] = true := by decide

/-! ### Format II (the rows of spec/41_imm_reg.md) -/

theorem test_mov_imm : ends 16 0x40F0 (machine 0xF [] [])
    [(7, 0xFFFFFFF0)] 0xF 0x1002 [] = true := by decide
theorem test_add_imm : ends 16 0x44EF (machine 0 [(7, 0x7FFFFFF8)] [])
    [(7, 0x80000007)] 6 0x1002 [] = true := by decide
theorem test_add_imm_negative : ends 16 0x44F0 (machine 0 [(7, 0x10)] [])
    [(7, 0)] 9 0x1002 [] = true := by decide
theorem test_setf_lt : ends 16 0x48E6 (machine 2 [] [])
    [(7, 1)] 2 0x1002 [] = true := by decide
theorem test_setf_h : ends 16 0x48EB (machine 1 [(7, 9)] [])
    [(7, 0)] 1 0x1002 [] = true := by decide
theorem test_cmp_imm : ends 16 0x4CFF (machine 0 [(7, 0)] [])
    [(7, 0)] 8 0x1002 [] = true := by decide
theorem test_cmp_imm_overflow : ends 16 0x4CEF (machine 0 [(7, 0x80000000)] [])
    [(7, 0x80000000)] 4 0x1002 [] = true := by decide
theorem test_shl_imm : ends 16 0x50FF (machine 0 [(7, 3)] [])
    [(7, 0x80000000)] 0xA 0x1002 [] = true := by decide
theorem test_shr_imm : ends 16 0x54E1 (machine 0 [(7, 0x80000001)] [])
    [(7, 0x40000000)] 8 0x1002 [] = true := by decide
theorem test_ei : ends 16 0x5800 (machine 0x1005 [] [])
    [] 5 0x1002 [] = true := by decide
theorem test_sar_imm : ends 16 0x5CFF (machine 0 [(7, 0x80000000)] [])
    [(7, 0xFFFFFFFF)] 2 0x1002 [] = true := by decide
theorem test_sar_imm_zero : ends 16 0x5CE0 (machine 8 [(7, 0x80000000)] [])
    [(7, 0x80000000)] 2 0x1002 [] = true := by decide
theorem test_di : ends 16 0x7800 (machine 5 [] [])
    [] 0x1005 0x1002 [] = true := by decide
theorem test_ldsr_psw_mask : ends 16 0x70E5 (machine 0 [(7, 0xFFFFFFFF)] [])
    [] 0xFF3FF 0x1002 [] = true := by decide
theorem test_ldsr_ecr_ignored : holds (exec (.ldsr 7 4) (machine 0 [(7, 0x12345678)] []))
    (fun t => t.ecr == 0x0000FFF0 && t.pc == 0x1002) = true := by decide
theorem test_stsr_psw : ends 16 0x74E5 (machine 0x8003 [] [])
    [(7, 0x8003)] 0x8003 0x1002 [] = true := by decide
theorem test_stsr_ecr : ends 16 0x74E4 (machine 0 [] [])
    [(7, 0xFFF0)] 0 0x1002 [] = true := by decide

/-! ### Format III (the rows of spec/42_branch.md): one taken or not taken each -/

theorem test_bv_taken : ends 16 0x8020 (machine 4 [] [])
    [] 4 0x1020 [] = true := by decide
theorem test_bv_not_taken : ends 16 0x8020 (machine 0 [] [])
    [] 0 0x1002 [] = true := by decide
theorem test_bl_taken : ends 16 0x8220 (machine 8 [] [])
    [] 8 0x1020 [] = true := by decide
theorem test_bl_not_taken : ends 16 0x8220 (machine 0 [] [])
    [] 0 0x1002 [] = true := by decide
theorem test_be_taken : ends 16 0x8420 (machine 1 [] [])
    [] 1 0x1020 [] = true := by decide
theorem test_be_not_taken : ends 16 0x8420 (machine 0 [] [])
    [] 0 0x1002 [] = true := by decide
theorem test_bnh_taken : ends 16 0x8620 (machine 8 [] [])
    [] 8 0x1020 [] = true := by decide
theorem test_bnh_not_taken : ends 16 0x8620 (machine 0 [] [])
    [] 0 0x1002 [] = true := by decide
theorem test_bn_taken : ends 16 0x8820 (machine 2 [] [])
    [] 2 0x1020 [] = true := by decide
theorem test_bn_not_taken : ends 16 0x8820 (machine 0 [] [])
    [] 0 0x1002 [] = true := by decide
theorem test_br_taken : ends 16 0x8A20 (machine 0xF [] [])
    [] 0xF 0x1020 [] = true := by decide
theorem test_blt_taken : ends 16 0x8C20 (machine 4 [] [])
    [] 4 0x1020 [] = true := by decide
theorem test_blt_not_taken : ends 16 0x8C20 (machine 6 [] [])
    [] 6 0x1002 [] = true := by decide
theorem test_ble_taken : ends 16 0x8E20 (machine 1 [] [])
    [] 1 0x1020 [] = true := by decide
theorem test_ble_not_taken : ends 16 0x8E20 (machine 6 [] [])
    [] 6 0x1002 [] = true := by decide
theorem test_bnv_taken : ends 16 0x9020 (machine 0 [] [])
    [] 0 0x1020 [] = true := by decide
theorem test_bnv_not_taken : ends 16 0x9020 (machine 4 [] [])
    [] 4 0x1002 [] = true := by decide
theorem test_bnl_taken : ends 16 0x9220 (machine 0 [] [])
    [] 0 0x1020 [] = true := by decide
theorem test_bnl_not_taken : ends 16 0x9220 (machine 8 [] [])
    [] 8 0x1002 [] = true := by decide
theorem test_bne_taken : ends 16 0x9420 (machine 0 [] [])
    [] 0 0x1020 [] = true := by decide
theorem test_bne_not_taken : ends 16 0x9420 (machine 1 [] [])
    [] 1 0x1002 [] = true := by decide
theorem test_bh_taken : ends 16 0x9620 (machine 0 [] [])
    [] 0 0x1020 [] = true := by decide
theorem test_bh_not_taken : ends 16 0x9620 (machine 8 [] [])
    [] 8 0x1002 [] = true := by decide
theorem test_bp_taken : ends 16 0x9820 (machine 0 [] [])
    [] 0 0x1020 [] = true := by decide
theorem test_bp_not_taken : ends 16 0x9820 (machine 2 [] [])
    [] 2 0x1002 [] = true := by decide
theorem test_bge_taken : ends 16 0x9C20 (machine 6 [] [])
    [] 6 0x1020 [] = true := by decide
theorem test_bge_not_taken : ends 16 0x9C20 (machine 2 [] [])
    [] 2 0x1002 [] = true := by decide
theorem test_bgt_taken : ends 16 0x9E20 (machine 6 [] [])
    [] 6 0x1020 [] = true := by decide
theorem test_bgt_not_taken : ends 16 0x9E20 (machine 1 [] [])
    [] 1 0x1002 [] = true := by decide
theorem test_br_backward : ends 16 0x8B00 (machine 0 [] [])
    [] 0 0xF00 [] = true := by decide
theorem test_nop : ends 16 0x9AFF (machine 0xF [] [])
    [] 0xF 0x1002 [] = true := by decide

/-! ### Formats IV and V (the rows of spec/43_imm16_jump.md) -/

theorem test_movea : ends 32 0x8000A0E6 (machine 0xF [(6, 0x10000)] [])
    [(7, 0x8000)] 0xF 0x1004 [] = true := by decide
theorem test_addi : ends 32 0x8000A4E6 (machine 0 [(6, 0x80000000)] [])
    [(7, 0x7FFF8000)] 0xC 0x1004 [] = true := by decide
theorem test_addi_carry : ends 32 0xFFFFA4E6 (machine 0 [(6, 1)] [])
    [(7, 0)] 9 0x1004 [] = true := by decide
theorem test_jr_most_negative : ends 32 0xAA00 { machine 0 [] [] with pc := 0x3000000 }
    [] 0 0x1000000 [] = true := by decide
theorem test_jr_wraps : ends 32 0xFFFCABFF { machine 0 [] [] with pc := 0 }
    [] 0 0xFFFFFFFC [] = true := by decide
theorem test_jal : ends 32 0xF000AFFF { machine 0 [] [] with pc := 0x2000 }
    [(31, 0x2004)] 0 0x1000 [] = true := by decide
theorem test_jal_wraps : ends 32 0x8AC00 { machine 0 [] [] with pc := 0xFFFFFFFC }
    [(31, 0)] 0 4 [] = true := by decide
theorem test_ori_sign : ends 32 0x8000B0E6 (machine 8 [(6, 1)] [])
    [(7, 0xFFFF8001)] 0xA 0x1004 [] = true := by decide
theorem test_ori_zero : ends 32 0x8000B0E6 (zeroExtending (machine 8 [(6, 1)] []))
    [(7, 0x8001)] 8 0x1004 [] = true := by decide
theorem test_andi_sign : ends 32 0xFF00B4E6 (machine 4 [(6, 0x12345678)] [])
    [(7, 0x12345600)] 0 0x1004 [] = true := by decide
theorem test_andi_zero : ends 32 0xFF00B4E6 (zeroExtending (machine 4 [(6, 0x12345678)] []))
    [(7, 0x5600)] 0 0x1004 [] = true := by decide
theorem test_xori_sign : ends 32 0xFFFFB8E6 (machine 0 [(6, 0xFFFF)] [])
    [(7, 0xFFFF0000)] 2 0x1004 [] = true := by decide
theorem test_xori_zero : ends 32 0xFFFFB8E6 (zeroExtending (machine 0 [(6, 0xFFFF)] []))
    [(7, 0)] 1 0x1004 [] = true := by decide
theorem test_movhi_wraps : ends 32 0xFFFFBCE6 (machine 0xF [(6, 0x10001)] [])
    [(7, 1)] 0xF 0x1004 [] = true := by decide

/-- The words the vectors load. -/
def loadWords : List (Nat × Word) := [(0x2010, 0x8899AABB), (0x2014, 0x7F6E5D4C)]

/-- The registers of the stores and outputs, over a word of ones. -/
def storing : State := machine 0 [(6, 0x2000), (7, 0x11223344)] [(0x2010, 0xFFFFFFFF)]

/-! ### Format VI (the rows of spec/44_load_store.md) -/

theorem test_ld_b : ends 32 0x11C0E6 (machine 0 [(6, 0x2000)] loadWords)
    [(7, 0xFFFFFFAA)] 0 0x1004 [] = true := by decide
theorem test_ld_b_wraps : ends 32 0x10C0E6 (machine 0 [(6, 0xFFFFFFF8)] [(8, 0x80)])
    [(7, 0xFFFFFF80)] 0 0x1004 [] = true := by decide
theorem test_ld_h_masked : ends 32 0x13C4E6 (machine 0 [(6, 0x2000)] loadWords)
    [(7, 0xFFFF8899)] 0 0x1004 [] = true := by decide
theorem test_ld_w_masked : ends 32 0x13CCE6 (machine 0 [(6, 0x2000)] loadWords)
    [(7, 0x8899AABB)] 0 0x1004 [] = true := by decide
theorem test_ld_w_negative : ends 32 0x8000CCE6 (machine 0 [(6, 0xA010)] loadWords)
    [(7, 0x8899AABB)] 0 0x1004 [] = true := by decide
theorem test_st_b : ends 32 0x13D0E6 storing
    [] 0 0x1004 [(0x2010, 0x44FFFFFF)] = true := by decide
theorem test_st_h_masked : ends 32 0x13D4E6 storing
    [] 0 0x1004 [(0x2010, 0x3344FFFF)] = true := by decide
theorem test_st_w_masked : ends 32 0x13DCE6 storing
    [] 0 0x1004 [(0x2010, 0x11223344)] = true := by decide
theorem test_st_w_r0 : ends 32 0x14DC06 (machine 0 [(6, 0x2000)] loadWords)
    [] 0 0x1004 [(0x2014, 0)] = true := by decide

/-! ### caxi, and the ports (plain storage here, so a port word reads as the vectors' port word) -/

theorem test_caxi_taken : ends 32 0x10E8E6 (machine 0 [(6, 0x2000), (30, 1)] [(0x2010, 0)])
    [(7, 0)] 1 0x1004 [(0x2010, 1)] = true := by decide
theorem test_caxi_not_taken : ends 32 0x10E8E6 (machine 0 [(6, 0x2000), (30, 1)] [(0x2010, 1)])
    [(7, 1)] 0xA 0x1004 [(0x2010, 1)] = true := by decide
theorem test_in_b : ends 32 0x11E0E6 (machine 0 [(6, 0x2000)] loadWords)
    [(7, 0xAA)] 0 0x1004 [] = true := by decide
theorem test_in_h : ends 32 0x13E4E6 (machine 0 [(6, 0x2000)] loadWords)
    [(7, 0x8899)] 0 0x1004 [] = true := by decide
theorem test_in_w : ends 32 0x12ECE6 (machine 0 [(6, 0x2000)] loadWords)
    [(7, 0x8899AABB)] 0 0x1004 [] = true := by decide
theorem test_out_b : endsAtPort 32 0x11F0E6 storing
    [(0x2010, 0xFFFF44FF)] = true := by decide
theorem test_out_h : endsAtPort 32 0x11F4E6 storing
    [(0x2010, 0xFFFF3344)] = true := by decide
theorem test_out_w : endsAtPort 32 0x11FCE6 storing
    [(0x2010, 0x11223344)] = true := by decide

/-! ### Format VII (the rows of spec/46_float.md); a in r7, b in r6 -/

theorem test_addf_tie_to_even : ends 32 0x1000F8E6 (machine 0 [(7, 0x4B000001), (6, 0x3F000000)] [])
    [(7, 0x4B000002)] 0x10 0x1004 [] = true := by decide
theorem test_addf_underflow : ends 32 0x1000F8E6 (machine 0 [(7, 0x800000), (6, 0x80800001)] [])
    [(7, 0x80000000)] 0x31 0x1004 [] = true := by decide
theorem test_subf_negative : ends 32 0x1400F8E6 (machine 0 [(7, 0x3F800000), (6, 0x40000000)] [])
    [(7, 0xBF800000)] 0xA 0x1004 [] = true := by decide
theorem test_subf_zero_sign : ends 32 0x1400F8E6 (machine 0 [(7, 0x80000000), (6, 0)] [])
    [(7, 0x80000000)] 1 0x1004 [] = true := by decide
theorem test_mulf_inexact : ends 32 0x1800F8E6 (machine 0 [(7, 0x3F800001), (6, 0x3F800001)] [])
    [(7, 0x3F800002)] 0x10 0x1004 [] = true := by decide
theorem test_mulf_smallest : ends 32 0x1800F8E6 (machine 0 [(7, 0x20000000), (6, 0x20000000)] [])
    [(7, 0x800000)] 0 0x1004 [] = true := by decide
theorem test_divf_inexact : ends 32 0x1C00F8E6 (machine 0 [(7, 0x3F800000), (6, 0x40400000)] [])
    [(7, 0x3EAAAAAB)] 0x10 0x1004 [] = true := by decide
theorem test_divf_exact : ends 32 0x1C00F8E6 (machine 0 [(7, 0x40E00000), (6, 0x40000000)] [])
    [(7, 0x40600000)] 0 0x1004 [] = true := by decide
theorem test_cmpf_less : ends 32 0xF8E6 (machine 0 [(7, 0x3F800000), (6, 0x40000000)] [])
    [(7, 0x3F800000)] 0xA 0x1004 [] = true := by decide
theorem test_cmpf_zeros : ends 32 0xF8E6 (machine 0 [(7, 0), (6, 0x80000000)] [])
    [(7, 0)] 1 0x1004 [] = true := by decide
theorem test_cvt_ws : ends 32 0x800F8E6 (machine 0 [(7, 0), (6, 0x75BCD15)] [])
    [(7, 0x4CEB79A3)] 0x10 0x1004 [] = true := by decide
theorem test_cvt_ws_least : ends 32 0x800F8E6 (machine 0 [(7, 0), (6, 0x80000000)] [])
    [(7, 0xCF000000)] 0xA 0x1004 [] = true := by decide
theorem test_cvt_sw_tie_to_even : ends 32 0xC00F8E6 (machine 0 [(7, 0), (6, 0xC0200000)] [])
    [(7, 0xFFFFFFFE)] 0x12 0x1004 [] = true := by decide
theorem test_cvt_sw_least : ends 32 0xC00F8E6 (machine 0 [(7, 0), (6, 0xCF000000)] [])
    [(7, 0x80000000)] 2 0x1004 [] = true := by decide
theorem test_trnc_sw : ends 32 0x2C00F8E6 (machine 0 [(7, 0), (6, 0x3FC00000)] [])
    [(7, 1)] 0x10 0x1004 [] = true := by decide

/-- The registers and words of eight rows of the vectors. -/
def strings : State :=
  machine 0xF [(30, 0x2000), (27, 4), (29, 0x3000), (26, 0x1C), (28, 8)]
    [(0x2000, 0xA50), (0x3000, 0x33333333), (0x3004, 0x33333333)]

/-- The pointers stand past the strings, and the two destination words are as given. -/
def endsString (w : Nat) (lo hi : Word) : Bool :=
  ends 16 w strings [(30, 0x2000), (27, 12), (29, 0x3004), (26, 4), (28, 0)] 0xF 0x1002
    [(0x3000, lo), (0x3004, hi)]

/-! ### Bit strings (the rows of spec/45_bitstring.md) -/

theorem test_orbsu : endsString 0x7C08 0x73333333 0x3333333B = true := by decide
theorem test_andbsu : endsString 0x7C09 0x13333333 0x33333332 = true := by decide
theorem test_xorbsu : endsString 0x7C0A 0x63333333 0x33333339 = true := by decide
theorem test_movbsu : endsString 0x7C0B 0x53333333 0x3333333A = true := by decide
theorem test_ornbsu : endsString 0x7C0C 0xB3333333 0x33333337 = true := by decide
theorem test_andnbsu : endsString 0x7C0D 0x23333333 0x33333331 = true := by decide
theorem test_xornbsu : endsString 0x7C0E 0x93333333 0x33333336 = true := by decide
theorem test_notbsu : endsString 0x7C0F 0xA3333333 0x33333335 = true := by decide

/-- A search over [2000] = 0, [2004] = 0x00010000 and its outcome under each value of the pointer. -/
def searched (f : FoundPointer) : State :=
  let s := machine 0 [(30, 0x2000), (28, 0x40)] [(0x2004, 0x00010000)]
  { s with config := { s.config with schFoundPointer := f } }

theorem test_sch1bsu_hit :
    ends 16 0x7C02 (searched .atFound) [(30, 0x2004), (27, 16), (28, 0x10), (29, 0x30)] 0 0x1002 [] ∧
    ends 16 0x7C02 (searched .afterFound) [(30, 0x2004), (27, 17), (28, 0xF), (29, 0x30)] 0 0x1002
      [] ∧
    ends 16 0x7C02 (searched .beforeFound) [(30, 0x2004), (27, 15), (28, 0x10), (29, 0x30)] 0 0x1002
      [] := by decide
theorem test_sch1bsu_miss :
    ends 16 0x7C02 (machine 0 [(30, 0x2000), (28, 20), (29, 5)] [(0x2000, 0x00100000)])
      [(30, 0x2000), (27, 20), (28, 0), (29, 25)] 1 0x1002 [] = true := by decide
theorem test_sch0bsu : ends 16 0x7C00
    (machine 1 [(30, 0x2000), (27, 4), (28, 8)] [(0x2000, 0xFFFFFEFF)])
    [(30, 0x2000), (27, 8), (28, 4), (29, 4)] 0 0x1002 [] = true := by decide
theorem test_sch1bsd : ends 16 0x7C03
    (machine 1 [(30, 0x2004), (27, 31), (28, 0x40)] [(0x2000, 0x100)])
    [(30, 0x2000), (27, 8), (28, 9), (29, 55)] 0 0x1002 [] = true := by decide
theorem test_sch0bsd : ends 16 0x7C01
    (machine 1 [(30, 0x2000), (27, 1), (28, 4)] [(0x1FFC, 0x7FFFFFFF), (0x2000, 0xFFFFFFFF)])
    [(30, 0x1FFC), (27, 31), (28, 2), (29, 2)] 0 0x1002 [] = true := by decide
theorem test_sch0bsd_miss : ends 16 0x7C01
    (machine 0 [(30, 0x2000), (27, 1), (28, 2)] [(0x1FFC, 0x7FFFFFFF), (0x2000, 0xFFFFFFFF)])
    [(30, 0x1FFC), (27, 31), (28, 0), (29, 2)] 1 0x1002 [] = true := by decide

/-! ### Exceptions, interrupts, system (section 2.8 of the vectors) -/

/-- The five registers a regular entry leaves. -/
def entered (r : Result) (eipc eipsw ecr psw pc : Word) : Bool :=
  holds r fun t => t.eipc == eipc && t.eipsw == eipsw && t.ecr == ecr && t.psw == psw && t.pc == pc

theorem test_trap_31 : entered (step ((machine 0xF [] []).withFetchWord 16 0x601F))
    0x1002 0xF 0xFFBF 0x500F 0xFFFFFFB0 = true := by decide

theorem test_trap_duplexed :
    holds (exec (.trap 5) { machine 0x5000 [] [] with pc := 0xFFFFFF84, ecr := 0xFF80, eipc := 0x1006 })
      (fun t => t.fepc == 0xFFFFFF86 && t.fepsw == 0x5000 && t.ecr == 0xFFA5FF80 &&
        t.psw == 0xD000 && t.pc == 0xFFFFFFD0 && t.eipc == 0x1006) = true := by decide

theorem test_trap_fatal_dump :
    holds (exec (.trap 5)
      { machine 0x8000 [] [] with config := { testConfig with fatalAction := .stopWithDump } })
      (fun t => t.stopped && readBytes t.mem 0 4 == 0xFFFFFFA5 && readBytes t.mem 4 4 == 0x8000 &&
        readBytes t.mem 8 4 == 0x1002 && t.pc == 0x1000) = true := by decide

theorem test_reti_fe_pair :
    holds (step ({ machine 0xD000 [] [] with
        fepc := 0x3000, fepsw := 0x45000, eipc := 0x2000 }.withFetchWord 16 0x6400))
      (fun t => t.pc == 0x3000 && t.psw == 0x45000) = true := by decide

theorem test_reti_ei_pair :
    holds (step ({ machine 0x5000 [] [] with
        eipc := 0x1002, eipsw := 0xF, fepc := 0x2000 }.withFetchWord 16 0x6400))
      (fun t => t.pc == 0x1002 && t.psw == 0xF) = true := by decide

theorem test_halt : holds (step ((machine 0 [] []).withFetchWord 16 0x6800))
    (fun t => t.halted && t.pc == 0x1002) = true := by decide

theorem test_undefined_primary :
    entered (step ((machine 0 [] []).withFetchWord 16 0x6C00)) 0x1000 0 0xFF90 0x5000 0xFFFFFF90 ∧
    entered (step ((machine 0 [] []).withFetchWord 32 0xC800)) 0x1000 0 0xFF90 0x5000 0xFFFFFF90 ∧
    entered (step ((machine 0 [] []).withFetchWord 32 0xD800)) 0x1000 0 0xFF90 0x5000
      0xFFFFFF90 := by decide

theorem test_division_by_zero :
    entered (step ((machine 2 [(7, 7)] []).withFetchWord 16 0x24E0)) 0x1000 2 0xFF80 0x5002
      0xFFFFFF80 ∧
    entered (exec (.divu 0 7) (machine 2 [(7, 7)] [])) 0x1000 2 0xFF80 0x5002 0xFFFFFF80 := by decide

theorem test_float_overflow :
    entered (exec (.mulfS 6 7) (machine 0 [(7, 0x7F000000), (6, 0x40000000)] []))
      0x1000 0x40 0xFF64 0x5040 0xFFFFFF60 = true := by decide

theorem test_float_invalid :
    entered (exec (.divfS 6 7) (machine 0 [] [])) 0x1000 0x100 0xFF70 0x5100 0xFFFFFF60 ∧
    entered (exec (.trncSW 6 7) (machine 0 [(6, 0x4F000000)] [])) 0x1000 0x100 0xFF70 0x5100
      0xFFFFFF60 := by decide

theorem test_address_trap :
    entered (step { machine 0x2000 [] [] with adtre := 0x1000 }) 0x1000 0x2000 0xFFC0 0x5000
      0xFFFFFFC0 = true := by decide

theorem test_interrupt_level_15 :
    entered (step { machine 0xF0001 [] [] with inputs := [⟨false, false, some 15, none⟩] })
      0x1000 0xF0001 0xFEF0 0xF5001 0xFFFFFEF0 = true := by decide

theorem test_interrupt_below_level :
    holds (step ({ machine 0x60000 [] [] with
        inputs := [⟨false, false, some 5, none⟩] }.withFetchWord 16 0x9A00))
      (fun t => t.pc == 0x1002 && t.inputs == []) = true := by decide

theorem test_chcw_write :
    holds (exec (.ldsr 7 24) (machine 0 [(7, 0xFFFFFF0E)] []))
      (fun t => t.chcw == 2 && t.pc == 0x1002) = true := by decide

end Steps

/-! ## Witnesses: states that meet the hypotheses of each statement, at the edges of their ranges -/

/-- A machine with another configuration. -/
def configured (f : Config → Config) (s : State) : State := { s with config := f s.config }

theorem noEvent_of_quiet {s : State} (h : s.sample = Inputs.quiet) : s.NoEvent := by
  simp [State.NoEvent, h, Inputs.quiet]

theorem executes_of_quiet {s : State} (h : s.sample = Inputs.quiet) (h1 : s.halted = false)
    (h2 : s.stopped = false) (h3 : s.psw.getLsbD bitAE = false) : s.Executes :=
  ⟨noEvent_of_quiet h, h1, h2, by simp [h3]⟩

section Witnesses

set_option maxRecDepth 20000

/-! ### Encoding -/

theorem witness_DecodeEncodeRoundTrip :
    (Instr.jr 0x3FFFFFE).wellFormed = true ∧ (Instr.bgt 0).wellFormed = true := by decide

theorem witness_EncodeDecodeCanonical :
    (decodeWords 0x04E6 0).toOption = some (.add 6 7) ∧ unusedField (.add 6 7) 0x04E6 0 = none ∧
    (decodeWords 0xF8E6 0x1C00).toOption = some (.divfS 6 7) ∧
    unusedField (.divfS 6 7) 0xF8E6 0x1C00 = none := by decide

theorem witness_DecodedIsWellFormed :
    decode [0xE6, 0xA0, 0x34, 0x12, 0x55] = .ok (.movea 0x1234 6 7, [0x55]) ∧
    decode [0xFF, 0x9F, 0x55] = .ok (.bgt 0x1FE, [0x55]) := by decide

/-! ### The invariant, and steps -/

/-- An `add` at 0x1000, with memory, flags and all the saved registers in use. -/
def addMachine : State :=
  { (machine 0x000F500F [(7, 1), (6, 2)] loadWords).withFetchWord 16 0x04E6 with
    eipc := 0x1002, eipsw := 0xFF3FF, fepc := 0xFFFFFFFE, fepsw := 0x8000, chcw := 2, adtre := 0x2000 }

theorem witness_StepKeepsInvariant :
    addMachine.Inv ∧ holds (step addMachine) (fun t => t.readReg 7 == 3) = true :=
  ⟨⟨by decide, by decide, by decide, by decide, by decide, by decide, by decide, by decide, by decide,
    by decide⟩, by decide⟩

theorem witness_StepKeepsConstants :
    holds (step addMachine) (fun t => t.draws == 0 && t.deviceLog == []) = true := by decide

theorem witness_ResetEventServed :
    ({ machine 0 [] [] with
      halted := true, stopped := true, inputs := [⟨true, true, some 15, none⟩] }).sample.resetReq
      = true := by decide

theorem witness_StepRunsDecodedInstruction_16 :
    let s := (machine 0 [(7, 1)] []).withFetchWord 16 0x04E6
    s.Executes ∧ s.Uncached ∧ s.pc.getLsbD 0 = false ∧ s.Executable s.pc ∧
    decode s.bytesAtPc = .ok (.add 6 7, [0, 0]) ∧ (Instr.add 6 7).length = 2 ∧
      s.config.strictUnusedFields = false :=
  ⟨executes_of_quiet (by decide) (by decide) (by decide) (by decide), .inr (by decide), by decide,
    by decide, by decide, by decide, by decide⟩

/-- The last four bytes of memory, and `STRICT_UNUSED_FIELDS` true with no unused bit set. -/
theorem witness_StepRunsDecodedInstruction_32 :
    let s := configured (fun c => { c with strictUnusedFields := true, icache := .coherent })
      ({ machine 0 [] [] with pc := 0xFFFFFFFC, chcw := 2 }.withFetchWord 32 0x0008AC00)
    s.Executes ∧ s.Uncached ∧ s.pc.getLsbD 0 = false ∧ s.Executable s.pc ∧
    s.Executable (s.pc + 2) ∧
    decode s.bytesAtPc = .ok (.jal 8, []) ∧ (Instr.jal 8).length = 4 ∧
      unusedField (.jal 8) s.halvesAtPc.1 s.halvesAtPc.2 = none :=
  ⟨executes_of_quiet (by decide) (by decide) (by decide) (by decide), .inl (by decide), by decide,
    by decide, by decide, by decide, by decide, by decide⟩

/-- `ei` with an unused field set, `STRICT_UNUSED_FIELDS` true and `HAS_EI_DI` false. -/
theorem witness_StepRunsDecodedInstruction_ei :
    let s := configured (fun c => { c with strictUnusedFields := true, hasEiDi := false })
      ((machine 0 [] []).withFetchWord 16 0x5801)
    s.Executes ∧ s.Uncached ∧ s.pc.getLsbD 0 = false ∧ s.Executable s.pc ∧
    decode s.bytesAtPc = .ok (.ei, [0, 0]) ∧ s.config.hasEiDi = false ∧
    entered (step s) 0x1000 0 0xFF90 0x5000 0xFFFFFF90 = true :=
  ⟨executes_of_quiet (by decide) (by decide) (by decide) (by decide), .inr (by decide), by decide,
    by decide, by decide, by decide, by decide⟩

/-- A machine about to execute the word `w` at 0x1000. -/
def about (w : Nat) (f : Config → Config) : State :=
  configured f ((machine 0 [] []).withFetchWord 32 w)

/-- The first undefined bit-string and floating-point sub-opcodes, under both parameter values. -/
theorem witness_StepUndefinedOrStrict_undefined :
    ∀ w ∈ [0x7C04, 0x0400F8E6], ∀ o ∈ [UndefinedOpcode.exception, UndefinedOpcode.refuse],
      let s := about w fun c => { c with undefinedOpcode := o }
      (s.sample = Inputs.quiet ∧ s.halted = false ∧ s.stopped = false ∧
        s.psw.getLsbD bitAE = false) ∧
      s.chcw.getLsbD 1 = false ∧ s.pc.getLsbD 0 = false ∧ s.Executable s.pc ∧
      s.Executable (s.pc + 2) ∧ (decode s.bytesAtPc).toOption = none ∧
      s.psw.getLsbD bitNP = false ∧ s.config.undefinedOpcode = o := by
  decide

theorem witness_StepUndefinedOrStrict_strict :
    let s := about 0x48F2 fun c => { c with strictUnusedFields := true }
    s.Executes ∧ s.Uncached ∧ s.pc.getLsbD 0 = false ∧ s.Executable s.pc ∧ s.Executable (s.pc + 2) ∧
    decode s.bytesAtPc = .ok (.setf 2 7, [0, 0]) ∧ s.config.strictUnusedFields = true ∧
    ∃ field, unusedField (.setf 2 7) s.halvesAtPc.1 s.halvesAtPc.2 = some field :=
  ⟨executes_of_quiet (by decide) (by decide) (by decide) (by decide), .inr (by decide), by decide,
    by decide, by decide, by decide, by decide, _, rfl⟩

/-- `di` with an unused field set and no `HAS_EI_DI`, under both parameter values. -/
theorem witness_StepUndefinedOrStrict_di :
    ∀ o ∈ [UndefinedOpcode.exception, UndefinedOpcode.refuse],
      let s := about 0x7801 fun c =>
        { c with hasEiDi := false, strictUnusedFields := true, undefinedOpcode := o }
      (s.sample = Inputs.quiet ∧ s.halted = false ∧ s.stopped = false ∧
        s.psw.getLsbD bitAE = false) ∧
      s.Executable s.pc ∧ s.config.hasEiDi = false ∧ decode s.bytesAtPc = .ok (.di, [0, 0]) ∧
      s.psw.getLsbD bitNP = false ∧ s.config.undefinedOpcode = o := by
  decide

theorem witness_AddressTrapTaken :
    let s := { machine 0x2000 [] [] with adtre := 0x1000 }
    s.NoEvent ∧ s.halted = false ∧ s.stopped = false ∧ s.psw.getLsbD bitAE = true ∧
    s.pc = s.adtre ∧ s.psw.getLsbD bitNP = false :=
  ⟨noEvent_of_quiet (by decide), rfl, rfl, rfl, rfl, rfl⟩

/-- Levels 0 and 15, at and under the edge of `PSW.I`, also while halted. -/
theorem witness_MaskableInterruptEntry :
    ∀ p ∈ [((0 : BitVec 4), (0 : Word)), (15, 0xF0000), (7, 0x70000)],
      let s := { machine p.2 [] [] with halted := true, inputs := [⟨false, false, some p.1, none⟩] }
      s.sample.resetReq = false ∧ s.stopped = false ∧ s.sample.nmiReq = false ∧
      s.sample.irqLevel = some p.1 ∧ s.psw.getLsbD bitNP = false ∧ s.psw.getLsbD bitEP = false ∧
      s.psw.getLsbD bitID = false ∧ (levelOf s.psw).toNat ≤ p.1.toNat := by
  simp only [List.forall_mem_cons]
  refine ⟨by decide, by decide, by decide, by simp⟩

theorem witness_NmiEntry :
    let s := { machine 0x5000 [] [] with inputs := [⟨false, true, some 15, none⟩] }
    s.sample.resetReq = false ∧ s.stopped = false ∧ s.sample.nmiReq = true ∧
    s.psw.getLsbD bitNP = false := by decide

/-- NMI and interrupts requested, all masked by NP. -/
theorem witness_HaltHangsWhileMasked :
    let s := { machine 0x8000 [] [] with
      halted := true, inputs := [⟨false, true, none, none⟩, ⟨false, false, some 15, none⟩] }
    s.halted = true ∧ s.stopped = false ∧ s.psw.getLsbD bitNP = true ∧
    (∀ i ∈ s.inputs, i.resetReq = false) := by decide

/-- A fetch with ICE = 0, which is remembered too; one with the cache on; one with no cache to clear. -/
theorem witness_FetchCoherence :
    let s := { addMachine with icache := [(0x1002, 0x9A00)] }
    (∃ t, fetch16 0x1000 { s with chcw := 0 } = .next (0x04E6, t) ∧ (0x1000, 0x04E6) ∈ t.icache) ∧
    State.Uncached { s with chcw := 0 } ∧
    (∃ t, fetch16 0x1000 s = .next (0x04E6, t) ∧ (0x1000, 0x04E6) ∈ t.icache) ∧ ¬s.Uncached ∧
    (∃ t, fetch16 0x1000 (configured (fun c => { c with icache := .coherent }) s) =
      .next (0x04E6, t) ∧ t.icache = s.icache) := by
  refine ⟨⟨_, rfl, by decide⟩, .inr (by decide), ⟨_, rfl, by decide⟩, ?_, ⟨_, rfl, rfl⟩⟩
  simp only [State.Uncached]
  decide

/-! ### Exceptions -/

theorem witness_RegularEntryTaken :
    (machine 0xF0FFF [] []).psw.getLsbD bitEP = false ∧
    (machine 0xF0FFF [] []).psw.getLsbD bitNP = false ∧
    Exc.floatReserved ≠ .floatInvalid := by decide

theorem witness_DuplexedEntryTaken :
    (machine 0x5000 [] []).psw.getLsbD bitEP = true ∧
    (machine 0x5000 [] []).psw.getLsbD bitNP = false := by decide

theorem witness_FatalExceptionStops :
    let s := machine 0xC000 [] []
    let d := configured (fun c => { c with fatalAction := .stopWithDump }) s
    let z := { s with stopped := true, inputs := [⟨false, true, some 15, none⟩] }
    (s.psw.getLsbD bitNP = true ∧ s.config.fatalAction = .stop) ∧
    (d.psw.getLsbD bitNP = true ∧ d.config.fatalAction = .stopWithDump ∧
      ∀ k, k < 12 → d.memKind k = .ram) ∧
    (z.psw.getLsbD bitNP = true ∧ z.stopped = true ∧ z.sample.resetReq = false) := by decide

/-- Also the hypothesis of `TrapTaken`, `UndefinedPrimaryOpcodes`, the floating-point exceptions. -/
theorem witness_np_clear :
    (machine 0 [] []).psw.getLsbD bitNP = false ∧
    (machine 0 [] []).config.undefinedOpcode = .exception ∧
    (configured (fun c => { c with undefinedOpcode := .refuse }) (machine 0 [] [])
      ).config.undefinedOpcode = .refuse := by decide

theorem witness_RetiRestores :
    addMachine.psw.getLsbD bitNP = false ∧ { addMachine with psw := 0xD000 }.psw.getLsbD bitNP = true ∧
    addMachine.Inv ∧ State.Inv { addMachine with psw := 0xD000 } :=
  ⟨by decide, by decide, witness_StepKeepsInvariant.1, { witness_StepKeepsInvariant.1 with
    pswReserved := by decide }⟩

theorem witness_EiDiWriteId :
    let s := machine 0 [] []
    let off := fun o => configured (fun c => { c with hasEiDi := false, undefinedOpcode := o }) s
    s.config.hasEiDi = true ∧
    ((off .exception).config.hasEiDi = false ∧
      (off .exception).config.undefinedOpcode = .exception) ∧
    ((off .refuse).config.hasEiDi = false ∧ (off .refuse).config.undefinedOpcode = .refuse) := by
  decide

/-- A pending event that the mask holds back. -/
theorem witness_HaltWaits :
    let s := { machine 0x60000 [] [] with
      halted := true, inputs := [⟨false, false, some 5, none⟩] }
    s.halted = true ∧ s.stopped = false ∧ s.NoEvent := by
  refine ⟨rfl, rfl, by decide, by decide, ?_⟩
  intro n h
  cases (Option.some.inj h)
  decide

/-! ### System registers -/

/-- CHCW written with no bit, with ICC and ICE, with ICD, with ICR; the edges of the reserved numbers. -/
theorem witness_LdsrWrites :
    (((0xFFFFFFCE : Word).getLsbD 4 = false ∧ (0xFFFFFFCE : Word).getLsbD 5 = false ∧
        (0xFFFFFFCE : Word).getLsbD 0 = false) ∧
      ((0x00100103 : Word).getLsbD 4 = false ∧ (0x00100103 : Word).getLsbD 5 = false ∧
        (0x00100103 : Word).getLsbD 0 = true) ∧
      (0x10 : Word).getLsbD 4 = true ∧ (0x20 : Word).getLsbD 5 = true) ∧
    (machine 0 [] []).config.icache = .explicitClear ∧
    (∀ n ∈ [(8 : BitVec 5), 23, 26, 31], (8 ≤ n.toNat ∧ n.toNat ≤ 23) ∨ 26 ≤ n.toNat) ∧
    (∀ n ∈ [(7 : BitVec 5), 24, 25], ¬((8 ≤ n.toNat ∧ n.toNat ≤ 23) ∨ 26 ≤ n.toNat)) := by decide

theorem witness_StsrReads :
    exec (.stsr 23 7) (machine 0 [] []) = .refused (.reservedSystemRegister 23) ∧
    exec (.stsr 26 7) (machine 0 [] []) = .refused (.reservedSystemRegister 26) :=
  ⟨rfl, rfl⟩

theorem witness_SystemRegistersProtected :
    holds (exec (.trap 0) (machine 0 [] [])) (fun t => t.ecr == 0xFFA0 && t.psw.getLsbD bitEP) ∧
    holds (exec (.trap 0) (machine 0x4000 [] []))
      (fun t => t.ecr == 0xFFA0FFF0 && t.psw.getLsbD bitNP) ∧
    holds (exec (.trap 0) (machine 0x8000 [] [])) (fun t => t.ecr == 0xFFF0 && t.stopped) ∧
    holds (exec .reti (machine 0 [] [])) (fun t => t.psw == 0) := by decide

theorem witness_OnlyStoresWrite :
    holds (exec (.stB 7 3 6) storing) (fun t => t.pc == 0x1004) ∧
    holds (exec .movbsu strings) (fun t => t.pc == 0x1002) ∧
    holds (exec (.div 0 7)
      (configured (fun c => { c with fatalAction := .stopWithDump }) (machine 0x8000 [] [])))
      (fun t => t.stopped && readBytes t.mem 0 4 == 0xFFFFFF80) := by decide

/-! ### Arithmetic -/

theorem witness_DivideResults :
    ((1 : Word) ≠ 0 ∧ ¬((0x80000000 : Word) = 0x80000000 ∧ (1 : Word) = 0xFFFFFFFF)) ∧
    ((machine 0 [(7, 0x80000000), (6, 0xFFFFFFFF)] []).readReg 7 = 0x80000000 ∧
      (machine 0 [(7, 0x80000000), (6, 0xFFFFFFFF)] []).readReg 6 = 0xFFFFFFFF) ∧
    (machine 0 [(7, 7)] []).readReg 6 = 0 := by decide

/-! ### Memory and ports -/

/-- A map with ram, one word of rom, one of a device, and a word whose four bytes differ; the rest
unmapped; the ports likewise. -/
def mapped (regs : List (RegIdx × Word)) : State :=
  configured (fun c => { c with
    memMap := [⟨0, 0x1FFF, .ram⟩, ⟨0x2000, 0x2003, .rom⟩, ⟨0x2004, 0x2007, .device⟩,
      ⟨0x2008, 0x2008, .ram⟩, ⟨0x2009, 0x2009, .device⟩, ⟨0x200A, 0x200A, .rom⟩]
    ioMap := [⟨0, 0x1FFE, .storage⟩, ⟨0x1FFF, 0x1FFF, .aliasMemory⟩, ⟨0x2000, 0x2003, .device⟩,
      ⟨0x3000, 0xFFFFFFFF, .aliasMemory⟩] })
    (machine 0 regs loadWords)

/-- The same with every port the memory at its address. -/
def aliased (regs : List (RegIdx × Word)) : State :=
  configured (fun c => { c with ioMap := [⟨0, 0xFFFFFFFF, .aliasMemory⟩] }) (mapped regs)

/-- The last byte of ram, the first and last bytes of rom and of the device; a word of each. -/
theorem witness_LoadsRead :
    (mapped []).MemPlain 0x1FFF 1 ∧ (mapped []).MemPlain 0x2000 4 ∧ (mapped []).MemPlain 0x2003 1 ∧
    (mapped []).MemAll .device 0x2004 4 ∧ (mapped []).MemAll .device 0x2007 1 ∧
    (mapped []).MemPlain 0x1FFE 2 ∧ (mapped []).MemAll .device 0x2006 2 := by decide

/-- The effective address of a store at displacement -1 from the first rom word is in ram. -/
theorem witness_StoresWrite :
    (mapped [(6, 0x2000)]).MemAll .ram
      ((mapped [(6, 0x2000)]).readReg 6 + (0xFFFF : BitVec 16).signExtend 32).toNat 1 ∧
    (mapped [(6, 0x2000)]).MemAll .device
      ((mapped [(6, 0x2000)]).readReg 6 + (4 : BitVec 16).signExtend 32).toNat 4 := by decide

/-- A word stored at 0x1000 and read back through its last byte. -/
theorem witness_StoreThenLoadAnyWidth :
    let s := mapped [(6, 0x1000), (7, 0x11223344)]
    s.MemAll .ram ((s.readReg 6 + (0 : BitVec 16).signExtend 32) &&& 0xFFFFFFFC).toNat 4 ∧
    holds (exec (.stW 7 0 6) s) (fun t =>
      (t.readReg 6 + (3 : BitVec 16).signExtend 32) &&& 0xFFFFFFFC ==
        (s.readReg 6 + (0 : BitVec 16).signExtend 32) &&& 0xFFFFFFFC) ∧ (8 : RegIdx) ≠ 0 := by decide

/-- A halfword of ram and device, and a byte of a device. -/
theorem witness_StoreThenLoadAnyWidth_mixed :
    ((mapped []).MemMapped 0x2008 2 ∧ (mapped []).MemSome .device 0x2008 2 ∧
      ∀ k, k < 2 → (mapped []).memKind (0x2008 + k) ≠ .rom) ∧
    (mapped []).MemMapped 0x2009 1 ∧ (mapped []).MemSome .device 0x2009 1 := by decide

/-- A store to that halfword reaches the ram byte and the device, once. -/
theorem test_mixed_store :
    holds (exec (.stH 7 0 6) (mapped [(6, 0x2009), (7, 0x1122)])) (fun t =>
      readBytes t.mem 0x2008 4 == 0x22 &&
        t.deviceLog == [⟨.memory, true, 0x2008, 2, 0x1122⟩]) = true := by decide

/-- A word store to a word with an unmapped byte has no step. -/
theorem test_partly_unmapped :
    exec (.stW 7 0 6) (mapped [(6, 0x2008)]) = .fault (.unmappedAddress 0x2008) := rfl

theorem witness_AccessesThatStop :
    ((mapped []).MemSome .none 0x2008 4 ∧ (mapped []).MemSome .none 0xFFFFFFFF 1) ∧
    ((mapped []).MemMapped 0x200A 1 ∧ (mapped []).MemSome .rom 0x200A 1 ∧
      (mapped []).MemMapped 0x2000 4 ∧ (mapped []).MemSome .rom 0x2000 4) ∧
    ((mapped []).ioKind (0x2004 + 0) = .none ∧ (mapped []).ioKind (0x2FFC + 3) = .none) ∧
    ((mapped []).PortAll .aliasMemory 0x3000 4 ∧ (mapped []).MemSome .none 0x3000 4) ∧
    (aliased []).PortAll .aliasMemory 0x2000 4 ∧ (aliased []).MemMapped 0x2000 4 ∧
      (aliased []).MemSome .rom 0x2000 4 := by decide

/-- A bit string of one element, with its source at `a` and its destination at `b`. -/
def oneBit (a b : Word) : State := mapped [(30, a), (29, b), (28, 1)]

/-- Bit strings: the source on nothing, on a device; the destination on nothing, on a device, on rom. -/
theorem witness_AccessesThatStop_strings :
    ((oneBit 0x2007 0x200B).breakPoint ≠ some 0 ∧ (oneBit 0x2007 0x200B).readReg 28 ≠ 0) ∧
    (stringFunction .movbsu).isSome = true ∧ (searchFunction .sch1bsd).isSome = true ∧
    ¬(oneBit 0x2007 0x200B).OverlapsAbove ∧
    (mapped []).MemSome .none 0x2008 4 ∧
    ((mapped []).MemMapped 0x2004 4 ∧ (mapped []).MemSome .device 0x2004 4) ∧
    ((mapped []).MemPlain 0x2000 4 ∧ (mapped []).MemSome .rom 0x2000 4) :=
  ⟨by decide, by decide, by decide, mt (destructiveOverlap_maskStringRegs _).mpr (by decide), by decide,
    by decide, by decide⟩

theorem test_bit_string_stops :
    exec .movbsu (machine 0 [(30, 0x2000), (29, 0x2000), (26, 2), (28, 8)] []) =
      .refused (.destructiveOverlap 0x10000 0x10002) ∧
    exec .sch1bsd (oneBit 0x2007 0) = .refused (.bitStringDevice 0x2004) ∧
    exec .movbsu (oneBit 0x2003 0x2004) = .refused (.bitStringDevice 0x2004) ∧
    exec .movbsu (oneBit 0x2003 0x2001) = .fault (.romWrite 0x2000) ∧
    exec .movbsu (oneBit 0x2003 0x200B) = .fault (.unmappedAddress 0x2008) :=
  ⟨rfl, rfl, rfl, rfl, rfl⟩

/-- A machine about to fetch the first halfword of `jr` at `a`. -/
def fetching (a : Word) : State := { mapped [] with pc := a }.withFetchWord 16 0xA800

/-- Fetches: an address of nothing, a device, and a second halfword on a device. -/
theorem witness_AccessesThatStop_fetch :
    ((fetching 0x200C).sample = Inputs.quiet ∧ (fetching 0x200C).halted = false ∧
      (fetching 0x200C).stopped = false ∧ (fetching 0x200C).psw.getLsbD bitAE = false) ∧
    (mapped []).MemSome .none 0x200C 2 ∧
    ((mapped []).MemMapped 0x2006 2 ∧ (mapped []).MemSome .device 0x2006 2) ∧
    ((mapped []).chcw.getLsbD 1 = false ∧ (mapped []).MemPlain 0x2002 2 ∧
      (mapped []).MemMapped 0x2004 2 ∧ (mapped []).MemSome .device 0x2004 2) ∧
    isLong (fetching 0x2002).halvesAtPc.1 = true := by decide

theorem test_fetch_stops :
    step (fetching 0x200C) = .fault (.unmappedAddress 0x200C) ∧
    step (fetching 0x2006) = .refused (.deviceFetch 0x2006) ∧
    step (fetching 0x2002) = .refused (.deviceFetch 0x2004) :=
  ⟨rfl, rfl, rfl⟩

theorem witness_PortInputs :
    (mapped []).PortAll .device 0x2000 4 ∧ (mapped []).PortAll .storage 0x1FFC 2 ∧
    ((aliased []).PortAll .aliasMemory 0x2004 4 ∧ (aliased []).MemAll .device 0x2004 4) ∧
    ((aliased []).PortAll .aliasMemory 0x1FFF 1 ∧ (aliased []).MemPlain 0x1FFF 1) ∧
    (∀ k, k < 4 → (mapped []).ioKind (0x1FFC + k) = .storage ∨
      ((mapped []).ioKind (0x1FFC + k) = .aliasMemory ∧
        ((mapped []).memKind (0x1FFC + k) = .ram ∨ (mapped []).memKind (0x1FFC + k) = .rom))) := by
  decide

theorem witness_PortOutputs :
    (mapped []).PortAll .device 0x2003 1 ∧ (mapped []).PortAll .storage 0 4 ∧
    ((aliased []).PortAll .aliasMemory 0x2006 2 ∧ (aliased []).MemAll .device 0x2006 2) ∧
    ((aliased []).PortAll .aliasMemory 0 4 ∧ (aliased []).MemAll .ram 0 4) ∧
    (∀ k, k < 2 → (mapped []).ioKind (0x1FFE + k) = .storage ∨
      ((mapped []).ioKind (0x1FFE + k) = .aliasMemory ∧
        (mapped []).memKind (0x1FFE + k) = .ram)) := by decide

/-- The two bytes of one halfword output go to two places. -/
theorem test_mixed_output :
    holds (exec (.outH 7 0 6) (mapped [(6, 0x1FFE), (7, 0x1122)])) (fun t =>
      readByte t.io 0x1FFE == 0x22 && readByte t.mem 0x1FFF == 0x11 &&
        readByte t.mem 0x1FFE == 0 && readByte t.io 0x1FFF == 0) = true := by decide

theorem witness_CaxiExchanges :
    (mapped []).MemAll .ram 0x1FFC 4 ∧ (mapped []).MemAll .device 0x2004 4 := by decide

/-! ### Floating point -/

/-- The largest finite word, the two zeros; the least denormal, infinity and a NaN. -/
theorem witness_CmpfComparesValues :
    isReserved true 0x7F7FFFFF = false ∧ isReserved true 0x80000000 = false ∧
    isReserved false 0x7F800000 = false ∧ isReserved true 0x7F800000 = true ∧
    isReserved true 0x00000001 = true ∧ isReserved false 0x7F800001 = true ∧
    (machine 0 [] []).config.fp = .binary32 := by decide

/-- 31 x 2^-70 times 1082401 x 2^-81: the product is exactly the lower edge. -/
def lowEdge : State := machine 0 [(7, 0x1EF80000), (6, 0x21042108)] []

/-- 31 x 2^51 times 1082401 x 2^52: the product is exactly the upper edge. -/
def highEdge : State := machine 0 [(7, 0x5B780000), (6, 0x63842108)] []

theorem finite_edges :
    FiniteFloat (lowEdge.readReg 7) ∧ FiniteFloat (lowEdge.readReg 6) ∧
    FiniteFloat (highEdge.readReg 7) ∧ FiniteFloat (highEdge.readReg 6) ∧
    lowEdge.config.fp = .binary32 ∧ highEdge.config.fp = .binary32 := by
  refine ⟨.inr (by decide), .inr (by decide), .inr (by decide), .inr (by decide), rfl, rfl⟩

/-- The value of a word from its three fields. -/
theorem floatVal_fields {v : Word} (neg : Bool) (e m : Nat) (h0 : v.extractLsb' 0 31 ≠ 0)
    (hs : v.msb = neg) (he : (v.extractLsb' 23 8).toNat = e) (hm : (v.extractLsb' 0 23).toNat = m) :
    floatVal v = (if neg then -1 else 1) * (2 : ℚ) ^ ((e : ℤ) - 127) * (1 + (m : ℚ) / 2 ^ 23) := by
  rw [floatVal, if_neg h0, hs, he, hm]

theorem floatVal_lowEdge : floatVal 0x1EF80000 = 31 / 2 ^ 70 ∧ floatVal 0x21042108 = 1082401 / 2 ^ 81 :=
  ⟨(floatVal_fields (v := 0x1EF80000) false 61 7864320 (by decide) (by decide) (by decide) (by decide)).trans
    (by norm_num),
  (floatVal_fields (v := 0x21042108) false 66 270600 (by decide) (by decide) (by decide) (by decide)).trans
    (by norm_num)⟩

theorem floatVal_highEdge :
    floatVal 0x5B780000 = 31 * 2 ^ 51 ∧ floatVal 0x63842108 = 1082401 * 2 ^ 52 :=
  ⟨(floatVal_fields (v := 0x5B780000) false 182 7864320 (by decide) (by decide) (by decide) (by decide)).trans
    (by norm_num),
  (floatVal_fields (v := 0x63842108) false 199 270600 (by decide) (by decide) (by decide) (by decide)).trans
    (by norm_num)⟩

theorem witness_FloatRoundsToNearestEven :
    FloatArith 6 7 lowEdge (.mulfS 6 7) floatLow ∧ floatLow ≤ |floatLow| ∧ |floatLow| < floatHigh := by
  have h7 : lowEdge.readReg 7 = 0x1EF80000 := by decide
  have h6 : lowEdge.readReg 6 = 0x21042108 := by decide
  refine ⟨?_, ?_, ?_⟩
  · rw [FloatArith, h6, h7, floatVal_lowEdge.1, floatVal_lowEdge.2]
    exact .inr (.inr (.inl ⟨rfl, by norm_num [floatLow]⟩))
  · exact le_abs_self _
  · norm_num [floatLow, floatHigh]

/-- A zero product, and a product of 2^-127, below the range. -/
theorem witness_FloatZeroAndUnderflow :
    FloatArith 6 7 (machine 0 [(7, 0x80000000), (6, 0x3F000000)] []) (.mulfS 6 7) 0 ∧
    FloatArith 6 7 (machine 0 [(7, 0x00800000), (6, 0x3F000000)] []) (.mulfS 6 7) (1 / 2 ^ 127) ∧
    (1 / 2 ^ 127 : ℚ) ≠ 0 ∧ |(1 / 2 ^ 127 : ℚ)| < floatLow := by
  have a : (machine 0 [(7, 0x80000000), (6, 0x3F000000)] []).readReg 7 = 0x80000000 := by decide
  have b : (machine 0 [(7, 0x00800000), (6, 0x3F000000)] []).readReg 7 = 0x00800000 := by decide
  have c : (machine 0 [(7, 0x00800000), (6, 0x3F000000)] []).readReg 6 = 0x3F000000 := by decide
  have va : floatVal 0x80000000 = 0 := if_pos (by decide)
  have vb : floatVal 0x00800000 = 1 / 2 ^ 126 :=
    (floatVal_fields (v := 0x00800000) false 1 0 (by decide) (by decide) (by decide) (by decide)).trans
    (by norm_num)
  have vc : floatVal 0x3F000000 = 1 / 2 :=
    (floatVal_fields (v := 0x3F000000) false 126 0 (by decide) (by decide) (by decide) (by decide)).trans
    (by norm_num)
  refine ⟨?_, ?_, by norm_num, by norm_num [floatLow]⟩
  · rw [FloatArith, a, va]
    exact .inr (.inr (.inl ⟨rfl, by simp⟩))
  · rw [FloatArith, b, c, vb, vc]
    exact .inr (.inr (.inl ⟨rfl, by norm_num⟩))

theorem witness_FloatExceptionsTaken :
    (floatClass 0x80000000 = .zero ∧ floatClass 0x00800000 = .normal ∧
      isReserved true 0x007FFFFF = true) ∧
    FloatArith 6 7 highEdge (.mulfS 6 7) floatHigh ∧ floatHigh ≤ |floatHigh| := by
  have h7 : highEdge.readReg 7 = 0x5B780000 := by decide
  have h6 : highEdge.readReg 6 = 0x63842108 := by decide
  refine ⟨by decide, ?_, le_abs_self _⟩
  rw [FloatArith, h6, h7, floatVal_highEdge.1, floatVal_highEdge.2]
  exact .inr (.inr (.inl ⟨rfl, by norm_num [floatHigh]⟩))

/-- Infinities with `FP_RESERVED_INF` false, with a zero, a normal number and each other. -/
theorem witness_FloatExceptionsTaken_infinity :
    let s := fun a b : Word => configured (fun c => { c with fpReservedInf := false })
      (machine 0 [(7, a), (6, b)] [])
    ((s 0 0).config.fp = .binary32 ∧ (s 0 0).config.fpReservedInf = false) ∧
    floatClass 0x7F800000 = .infinity ∧ floatClass 0xFF800000 = .infinity ∧
    floatClass 0x3F800000 = .normal ∧ floatClass 0x80000000 = .zero ∧
    (0x7F800000 : Word).msb ≠ (0xFF800000 : Word).msb ∧
    entered (exec (.addfS 6 7) (s 0x7F800000 0xFF800000)) 0x1000 0x100 0xFF70 0x5100 0xFFFFFF60 ∧
    entered (exec (.addfS 6 7) (s 0x3F800000 0xFF800000)) 0x1000 0x40 0xFF64 0x5040 0xFFFFFF60 ∧
    holds (exec (.divfS 6 7) (s 0xBF800000 0x7F800000)) (fun t => t.readReg 7 == 0x80000000) := by
  decide

/-- A floating-point exception while NP = 1: the sticky bit, then the stop, here with the dump. -/
theorem witness_FloatExceptionsTaken_fatal :
    let s := configured (fun c => { c with fatalAction := .stopWithDump })
      (machine 0x8000 [(7, 0x7FC00000)] [])
    s.psw.getLsbD bitNP = true ∧ isReserved s.config.fpReservedInf (s.readReg 7) = true ∧
    (∀ k, k < 12 → s.memKind k = .ram) ∧
    holds (exec (.addfS 6 7) s) (fun t => t.stopped && t.psw == 0x8200 &&
      readBytes t.mem 0 4 == 0xFFFFFF60 && readBytes t.mem 4 4 == 0x8200 &&
      readBytes t.mem 8 4 == 0x1000) := by decide

/-- A platform's own floating-point unit. -/
theorem witness_FloatExceptionsTaken_platform :
    let s := configured (fun c => { c with fp := .platform }) (machine 0 [] [])
    s.config.fp = .platform ∧
    exec (.addfS 6 7) s = finishPlatform 7 (Config.fpAdd 0 0) floatFlags s :=
  ⟨rfl, rfl⟩

/-- Its answers: a result with FPR and the further sticky bit FUD, an exception with FPR besides FOV. -/
theorem witness_platform_answers :
    holds (finishPlatform 7 ⟨.value 0xBF800000 false true, 0b000010⟩ floatFlags (machine 0 [] []))
      (fun t => t.psw == 0x3A && t.readReg 7 == 0xBF800000) ∧
    holds (finishPlatform 7 ⟨.overflow, 0b000001⟩ floatFlags (machine 0 [] []))
      (fun t => t.eipsw == 0x50 && t.pc == 0xFFFFFF60) := by decide

/-- The integers at the ends of the ranges of `cvt.sw` and `trnc.sw`. -/
theorem witness_integer_ranges :
    floatVal 0xCF000000 = -2 ^ 31 ∧ floatVal 0x4F000000 = 2 ^ 31 ∧
    NearestInt (-2 ^ 31) (-2 ^ 31) ∧ NearestInt (2 ^ 31) (2 ^ 31) ∧
    TruncatedInt (2 ^ 31) (2 ^ 31) ∧ isReserved true 0x7FFFFFFF = true := by
  refine ⟨?_, ?_, ?_, ?_, ?_, by decide⟩
  · exact (floatVal_fields (v := 0xCF000000) true 158 0 (by decide) (by decide) (by decide) (by decide)).trans
      (by norm_num)
  · exact (floatVal_fields (v := 0x4F000000) false 158 0 (by decide) (by decide) (by decide) (by decide)).trans
      (by norm_num)
  · left; norm_num
  · left; norm_num
  · norm_num [TruncatedInt]

/-! ### Bit strings -/

/-- The strings of the vectors. -/
theorem witness_StringOperationResult :
    let n := (strings.readReg 28).toNat
    let src := startBit (strings.readReg 30) (strings.readReg 27)
    let dst := startBit (strings.readReg 29) (strings.readReg 26)
    (stringFunction .movbsu).isSome ∧ strings.breakPoint = none ∧ n = 8 ∧
    (∀ j, j < 8 → strings.MemPlain (bitAddress (bitFrom .up src j)).toNat 4 ∧
      strings.MemAll .ram (bitAddress (bitFrom .up dst j)).toNat 4) ∧
    ¬strings.OverlapsAbove := by
  refine ⟨by decide, by decide, by decide, ?_, mt (destructiveOverlap_maskStringRegs _).mpr (by decide)⟩
  intro j hj
  interval_cases j <;> exact ⟨by decide, by decide⟩

/-- The two words at the ends of the space, and a string between the pointers `src` and `dst` across
them. -/
def wrapping (src dst : Word × Word) : State :=
  machine 0 [(30, src.1), (27, src.2), (29, dst.1), (26, dst.2), (28, 10)] [(0xFFFFFFFC, 0xF0000000)]

/-- R175: a destination two bits above the source's start, inside it (its example); and a destination that
wraps past the top onto the source. -/
theorem witness_StringOperationResult_overlap :
    (machine 0 [(30, 0x2000), (29, 0x2000), (26, 2), (28, 8)] [(0x2000, 0xF)]).OverlapsAbove ∧
    (wrapping (0, 2) (0xFFFFFFFC, 28)).OverlapsAbove :=
  ⟨(destructiveOverlap_maskStringRegs _).mp (by decide),
    (destructiveOverlap_maskStringRegs _).mp (by decide)⟩

/-- A source that wraps past the top onto a destination below it: the loop of R173 reads what it wrote. -/
theorem witness_StringOperationResult_wrap :
    let s := wrapping (0xFFFFFFFC, 28) (0, 2)
    ¬s.OverlapsAbove ∧ s.breakPoint = none ∧
    (∀ j, j < 10 → s.MemPlain (bitAddress (bitFrom .up (startBit 0xFFFFFFFC 28) j)).toNat 4 ∧
      s.MemAll .ram (bitAddress (bitFrom .up (startBit 0 2) j)).toNat 4) ∧
    holds (exec .movbsu s) (fun t => readBytes t.mem 0 4 == 0xF3C) := by
  refine ⟨mt (destructiveOverlap_maskStringRegs _).mpr (by decide), by decide, ?_, by decide⟩
  intro j hj
  interval_cases j <;> exact ⟨by decide, by decide⟩

/-- A hit on the last bit of the string, under every value of `SCH_FOUND_POINTER`, and a miss. -/
theorem witness_SearchResult :
    let s := machine 0 [(30, 0x2000), (28, 3)] [(0x2000, 4)]
    let m := machine 0 [(30, 0x2000), (28, 2)] [(0x2000, 4)]
    let src := startBit (s.readReg 30) (s.readReg 27)
    searchFunction .sch1bsu = some (true, .up) ∧ s.breakPoint = none ∧
    (∀ j, j < 3 → s.MemPlain (bitAddress (bitFrom .up src j)).toNat 4) ∧
    (2 < (s.readReg 28).toNat ∧ memoryBit s.mem (bitFrom .up src 2) = true ∧
      ∀ l, l < 2 → memoryBit s.mem (bitFrom .up src l) ≠ true) ∧
    ((m.readReg 28).toNat = 2 ∧ ∀ l, l < 2 → memoryBit m.mem (bitFrom .up src l) ≠ true) := by
  refine ⟨by decide, by decide, ?_, by decide, by decide⟩
  intro j hj
  interval_cases j <;> decide

/-- An interrupt accepted after `k` elements of the next bit-string instruction. -/
def brokenAfter (k : Nat) (s : State) : State :=
  { s with inputs := [⟨false, false, none, some k⟩, ⟨false, false, some 8, none⟩] }

/-- A hit after two bits comes before a break-off after three. -/
theorem witness_SearchResult_before_break :
    let s := brokenAfter 3 (machine 0 [(30, 0x2000), (28, 9)] [(0x2000, 4)])
    let src := startBit (s.readReg 30) (s.readReg 27)
    s.breakPoint = some 3 ∧ 2 < (s.readReg 28).toNat ∧
    (∀ j, j < 3 → s.MemPlain (bitAddress (bitFrom .up src j)).toNat 4) ∧
    memoryBit s.mem (bitFrom .up src 2) = true ∧
    (∀ l, l < 2 → memoryBit s.mem (bitFrom .up src l) ≠ true) ∧
    holds (exec .sch1bsu s) (fun t => t.pc == s.pc + 2 && t.readReg 29 == 2) := by
  refine ⟨by decide, by decide, ?_, by decide, by decide, by decide⟩
  intro j hj
  interval_cases j <;> decide

/-- The strings of the vectors, broken off after three elements. -/
theorem witness_BrokenOffRunResumes :
    let s := brokenAfter 3 strings
    (stringFunction .movbsu).isSome ∧ s.breakPoint = some 3 ∧ s.pc.getLsbD 0 = false ∧
    3 < (s.readReg 28).toNat ∧
    ¬s.OverlapsAbove ∧
    ∃ t, exec .movbsu s = .next t ∧ t.pc = s.pc ∧ t.readReg 28 = 5 ∧ ¬t.OverlapsAbove :=
  ⟨by decide, by decide, by decide, by decide, mt (destructiveOverlap_maskStringRegs _).mpr (by decide),
    _, rfl, by decide, by decide, mt (destructiveOverlap_maskStringRegs _).mpr (by decide)⟩

/-- Its first three elements lie in ram; and a search broken off after two bits. -/
theorem witness_BrokenOffRunResumes_progress :
    (∀ j, j < 3 → strings.MemPlain (bitAddress (bitFrom .up (startBit 0x2000 4) j)).toNat 4 ∧
      strings.MemAll .ram (bitAddress (bitFrom .up (startBit 0x3000 0x1C) j)).toNat 4) ∧
    (let s := brokenAfter 2 (machine 0xF [(30, 0x2000), (28, 9)] [])
     searchFunction .sch1bsd = some (true, .down) ∧ s.breakPoint = some 2 ∧
     s.pc.getLsbD 0 = false ∧ 2 < (s.readReg 28).toNat ∧
     (∀ l, l < 2 → memoryBit s.mem (bitFrom .down (startBit 0x2000 0) l) ≠ true) ∧
     (∀ j, j < 2 → s.MemPlain (bitAddress (bitFrom .down (startBit 0x2000 0) j)).toNat 4) ∧
     holds (exec .sch1bsd s) (fun t => t.pc == s.pc && t.psw == 0xF && t.readReg 28 == 7 &&
       t.readReg 29 == 2)) := by
  refine ⟨?_, by decide, by decide, by decide, by decide, by decide, ?_, by decide⟩
  · intro j hj
    interval_cases j <;> exact ⟨by decide, by decide⟩
  · intro j hj
    interval_cases j <;> decide

end Witnesses

end Sys2Proof.Tests
end

-- Proofs of the family 00_scope: the constants of the machine.
section
/-! PROOFS. No step changes PIR, TKCW or a parameter, and the device log only grows (spec/00_scope.md R3,
spec/10_state.md R23, R24, spec/20_memory.md R39). Every case of a step is one of the shared operations,
and each of them keeps the constants. -/

namespace Sys2Proof.Machine

/-- What no operation changes, and what can only grow. -/
structure KeepsConstants (s t : State) : Prop where
  pir : t.pir = s.pir
  tkcw : t.tkcw = s.tkcw
  config : t.config = s.config
  draws : s.draws ≤ t.draws
  log : ∃ new, t.deviceLog = new ++ s.deviceLog

theorem KeepsConstants.trans {s t u : State} (h : KeepsConstants s t) (k : KeepsConstants t u) :
    KeepsConstants s u where
  pir := k.pir.trans h.pir
  tkcw := k.tkcw.trans h.tkcw
  config := k.config.trans h.config
  draws := h.draws.trans k.draws
  log := by
    obtain ⟨a, ha⟩ := h.log
    obtain ⟨b, hb⟩ := k.log
    exact ⟨b ++ a, by rw [hb, ha, List.append_assoc]⟩

/-- An update that leaves the five fields alone. -/
theorem KeepsConstants.of_same {s t : State} (pir : t.pir = s.pir) (tkcw : t.tkcw = s.tkcw)
    (config : t.config = s.config) (draws : t.draws = s.draws) (log : t.deviceLog = s.deviceLog) :
    KeepsConstants s t :=
  ⟨pir, tkcw, config, draws.ge, [], log⟩

theorem Ordinary.keepsConstants {s t : State} (h : Ordinary s t) : KeepsConstants s t := by
  obtain ⟨-, -, -, -, -, pir, tkcw, -, -⟩ := h.system
  obtain ⟨-, -, -, -, config⟩ := h.control
  exact ⟨pir, tkcw, config, h.draws, h.log⟩

theorem raise_keepsConstants {e : Exc} {restore : Word} {s t : State}
    (h : raise e restore s = .next t) : KeepsConstants s t := by
  rcases raise_next h with ⟨-, -, rfl⟩ | ⟨-, -, hd⟩ | ⟨-, -, rfl⟩ | ⟨-, -, rfl⟩
  · exact .of_same rfl rfl rfl rfl rfl
  · obtain ⟨u, hu, -, rfl, -⟩ := ordinary_fatalDump hd
    exact hu.keepsConstants.trans (.of_same rfl rfl rfl rfl rfl)
  · exact .of_same rfl rfl rfl rfl rfl
  · exact .of_same rfl rfl rfl rfl rfl

theorem writeChcw_keepsConstants {v : Word} {s t : State} (h : writeChcw v s = .next t) :
    KeepsConstants s t := by
  unfold writeChcw at h
  split at h
  · cases h
  · cases h
    exact .of_same rfl rfl rfl rfl rfl

/-- The writes of ECR, PIR and TKCW are ignored, those of the other numbers write one register (R17,
R111). -/
theorem writeSystem_keepsConstants {n : BitVec 5} {v : Word} {s t : State}
    (h : writeSystem n v s = .next t) : KeepsConstants s t := by
  unfold writeSystem at h
  split at h
  case h_9 => exact writeChcw_keepsConstants h
  case h_11 => cases h
  all_goals
    cases h
    exact .of_same rfl rfl rfl rfl rfl

theorem returnFromException_keepsConstants (s : State) :
    KeepsConstants s (returnFromException s) := by
  unfold returnFromException
  split
  · exact .of_same rfl rfl rfl rfl rfl
  · exact .of_same rfl rfl rfl rfl rfl

theorem exec_keepsConstants {i : Instr} {s t : State} (h : exec i s = .next t) :
    KeepsConstants s t := by
  cases exec_next i s t h with
  | ordinary ho => exact ho.keepsConstants
  | exception e restore u hu hr => exact hu.quiet.1.keepsConstants.trans (raise_keepsConstants hr)
  | ldsr r n u hi hw ht =>
    subst ht
    exact (writeSystem_keepsConstants hw).trans (ordinary_advance u 2).keepsConstants
  | reti hi ht =>
    subst ht
    exact returnFromException_keepsConstants s
  | ei hi ht =>
    subst ht
    exact .of_same rfl rfl rfl rfl rfl
  | di hi ht =>
    subst ht
    exact .of_same rfl rfl rfl rfl rfl
  | halt hi ht =>
    subst ht
    exact .of_same rfl rfl rfl rfl rfl

/-- A fetch can only remember halfwords and draw a free value (R46). -/
theorem fetchWords_keepsConstants {s t : State} {w : Half × Half} (h : fetchWords s = .next (w, t)) :
    KeepsConstants s t := by
  have hs := fetchWords_state h
  exact ⟨by rw [hs], by rw [hs], by rw [hs], fetchWords_draws h, [], by rw [hs]; rfl⟩

theorem runInstruction_keepsConstants {s t : State} (h : runInstruction exec s = .next t) :
    KeepsConstants s t := by
  rcases runInstruction_next h with ⟨-, hr⟩ | ⟨-, w, u, hf, hr⟩
  · exact raise_keepsConstants hr
  · refine (fetchWords_keepsConstants hf).trans ?_
    rcases runWords_next hr with ⟨name, hn⟩ | ⟨i, -, hx⟩
    · exact raise_keepsConstants (undefinedInstruction_next hn).2
    · exact exec_keepsConstants hx

theorem performReset_keepsConstants (s : State) : KeepsConstants s (performReset s) :=
  ⟨by simp, by simp, by simp, by simp, [], by simp⟩

theorem enterEvent_keepsConstants (e : Event) (s : State) : KeepsConstants s (enterEvent e s) := by
  cases e with
  | nmi => exact .of_same rfl rfl rfl rfl rfl
  | irq n => exact .of_same rfl rfl rfl rfl rfl

theorem dropSample_keepsConstants (s : State) : KeepsConstants s s.dropSample :=
  .of_same rfl rfl rfl rfl rfl

theorem step_keepsConstants {s t : State} (h : step s = .next t) : KeepsConstants s t := by
  rcases stepWith_next h with ⟨-, rfl⟩ | ⟨-, e, -, rfl⟩ | ⟨-, -, rfl⟩ | ⟨-, -, u, hu, rfl⟩
  · exact (performReset_keepsConstants s).trans (dropSample_keepsConstants _)
  · exact (enterEvent_keepsConstants e s).trans (dropSample_keepsConstants _)
  · exact dropSample_keepsConstants s
  · exact (runInstruction_keepsConstants hu).trans (dropSample_keepsConstants u)

/-- Settles O9: each of the four things a step can be (R15) keeps the constants. -/
theorem stepKeepsConstants : Obligations.StepKeepsConstants := by
  intro s t h
  obtain ⟨pir, tkcw, config, draws, log⟩ := step_keepsConstants h
  exact ⟨pir, tkcw, config, draws, log⟩

end Sys2Proof.Machine
end

-- Proofs of the family 00_scope: loads inside a stored word, and accesses partly on a device.
section
/-! PROOFS. Read after write at every width (spec/20_memory.md R32, R40), and an access whose bytes are
partly a device's: composed byte by byte, the device accessed once (R39, R43, log entry 12). -/

namespace Sys2Proof.Machine

/-! ## Loads inside a stored word -/

/-- The bytes read inside a stored word are those of the word, low byte first (R32). -/
theorem readBytes_of_storedAt {s t : State} {a off n : Nat} {v : Word} (h : StoredAt s t a 4 v)
    (hn : off + n ≤ 4) : readBytes t.mem (a + off) n = (v.extractLsb' (8 * off) (8 * n)).setWidth 32 := by
  apply BitVec.eq_of_getLsbD_eq
  intro i hi
  rw [getLsbD_readBytes, BitVec.getLsbD_setWidth, BitVec.getLsbD_extractLsb']
  by_cases hin : i < 8 * n
  · have hbyte : readByte t.mem (a + off + i / 8) = v.extractLsb' (8 * (off + i / 8)) 8 := by
      rw [Nat.add_assoc]
      exact h.1 _ (by omega)
    have hbit : 8 * (off + i / 8) + i % 8 = 8 * off + i := by omega
    rw [hbyte, BitVec.getLsbD_extractLsb', hbit, decide_eq_true (show i % 8 < 8 by omega)]
    simp only [hin, hi, and_self, decide_true, Bool.true_and]
  · simp only [hin, false_and, decide_false, Bool.false_and, Bool.and_false]

/-- Extending a value of the width's bytes is sign extension. -/
theorem extendLoad_setWidth (w : Width) (x : BitVec (8 * w.bytes)) :
    extendLoad w (x.setWidth 32) = x.signExtend 32 := by
  rw [← BitVec.ofNat_toNat, extendLoad_ofNat, BitVec.ofNat_toNat, BitVec.setWidth_eq]

/-- Where in its word of memory an aligned access starts. -/
theorem alignTo_offset (w : Width) (a : Word) :
    (alignTo w a).toNat = (a &&& 0xFFFFFFFC).toNat + (alignTo w a).toNat % 4 ∧
    (alignTo w a).toNat % 4 + w.bytes ≤ 4 := by
  have hword := alignTo_word w a
  rw [toNat_and_word]
  refine ⟨by omega, ?_⟩
  cases w
  · simp only [alignTo, Width.bytes]
    omega
  · simp only [alignTo, toNat_and_even, Width.bytes]
    omega
  · simp only [alignTo, toNat_and_word, Width.bytes]
    omega

/-- A load inside a stored word of ram (R40). -/
theorem loadMem_of_storedAt (w : Width) {d : BitVec 16} {r1 r2 : RegIdx} {s t : State} {a v : Word}
    (hst : StoredAt s t a.toNat 4 v) (hram : t.MemAll .ram a.toNat 4) (hr2 : r2 ≠ 0)
    (ha : effAddr (t.readReg r1) d &&& 0xFFFFFFFC = a) :
    ∃ u, loadMem w d r1 r2 t = .next u ∧ u.readReg r2 =
      (v.extractLsb' (8 * ((accessAddr w d r1 t).toNat % 4)) (8 * w.bytes)).signExtend 32 := by
  obtain ⟨haddr, hoff⟩ := alignTo_offset w (effAddr (t.readReg r1) d)
  rw [ha] at haddr
  change (accessAddr w d r1 t).toNat = _ + (accessAddr w d r1 t).toNat % 4 at haddr
  change (accessAddr w d r1 t).toNat % 4 + w.bytes ≤ 4 at hoff
  have hplain : t.MemPlain (accessAddr w d r1 t).toNat w.bytes := by
    intro k hk
    rw [haddr, Nat.add_assoc]
    exact .inl (hram _ (by omega))
  obtain ⟨u, hu, he⟩ := loadMem_plain w d r1 r2 t hplain
  refine ⟨u, hu, ?_⟩
  have hval := he.core.regs r2
  rw [if_neg hr2, ← readBytes_eq_littleEndian, haddr, readBytes_of_storedAt hst hoff,
    extendLoad_setWidth] at hval
  rw [hval]
  simp only [valueAfter, if_true]

/-! ## Accesses partly on a device -/

/-- The bytes of a read partly on a device, which answered `v` (R43). -/
def mixedByte (s : State) (a : Nat) (v : Word) (k : Nat) : Byte :=
  if s.memKind (a + k) = .device then v.extractLsb' (8 * k) 8 else readByte s.mem (a + k)

/-- Mapped bytes touch nothing unmapped. -/
theorem memMapped_touches {s : State} {a n : Nat} (h : s.MemMapped a n) :
    touches s.memPlace a n (.unmapped .memory) = false :=
  touches_eq_false.mpr fun k hk c => h k hk (memPlace_unmapped.mp c)

/-- What a byte of a mapped access reads as. -/
theorem placeByte_mixed {s : State} {a k : Nat} (h : s.memKind (a + k) ≠ .none) (m p : Word) :
    placeByte s.memPlace s a m p (a + k) = mixedByte s a m k := by
  unfold placeByte mixedByte State.memPlace
  cases hk : s.memKind (a + k) with
  | ram => rfl
  | rom => rfl
  | device => simp
  | none => exact absurd hk h

/-- A read of mapped bytes some of which are a device's. -/
theorem memRead_mixed {w : Width} {a : Word} {s : State} (hm : s.MemMapped a.toNat w.bytes)
    (hd : s.MemSome .device a.toNat w.bytes) :
    memRead w a s = .next (gatherBytes (mixedByte s a.toNat (deviceRead .memory w a s).1) w.bytes,
      (deviceRead .memory w a s).2) := by
  obtain ⟨-, hdev, -, hio, hiod⟩ := memTouches s a.toNat w.bytes
  unfold memRead readAccess
  simp only [hio, memMapped_touches hm, hdev.mpr hd, hiod, deviceReadIf, Bool.false_eq_true, if_false,
    if_true]
  congr 2
  exact gatherBytes_congr fun k hk => placeByte_mixed (hm k hk) _ _

/-- A write of mapped bytes, none rom, some of which are a device's. -/
theorem memWrite_mixed {w : Width} {a v : Word} {s : State} (hm : s.MemMapped a.toNat w.bytes)
    (hd : s.MemSome .device a.toNat w.bytes)
    (hr : ∀ k, k < w.bytes → s.memKind (a.toNat + k) ≠ .rom) :
    memWrite w a v s = .next (deviceWrite .memory w a v
      { s with mem := writeBytesWhere (fun x => s.memPlace x == .ram) s.mem a.toNat w.bytes v }) := by
  obtain ⟨-, hdev, -, hio, hiod⟩ := memTouches s a.toNat w.bytes
  have hrom : touches s.memPlace a.toNat w.bytes .rom = false :=
    touches_eq_false.mpr fun k hk c => hr k hk (memPlace_rom.mp c)
  have hst := writeBytesWhere_none (p := fun x => s.memPlace x == .storage) (a := a.toNat)
    (n := w.bytes) (fun k _ => by simp [memPlace_not_storage]) s.io v
  unfold memWrite writeAccess
  simp only [hio, memMapped_touches hm, hrom, hdev.mpr hd, hiod, hst, deviceWriteIf,
    Bool.false_eq_true, if_false, if_true]

/-- A load partly from a device: one read of it, and the bytes from what answers (R39, R43). -/
theorem loadMem_mixed (w : Width) (d : BitVec 16) (r1 r2 : RegIdx) (s : State)
    (hm : s.MemMapped (accessAddr w d r1 s).toNat w.bytes)
    (hd : s.MemSome .device (accessAddr w d r1 s).toNat w.bytes) :
    ∃ t v, loadMem w d r1 r2 s = .next t ∧
      DeviceWasRead s t .memory (accessAddr w d r1 s) w.bytes v ∧
      CoreEffect s t [(r2, (BitVec.ofNat (8 * w.bytes)
        (bytesValue (mixedByte s (accessAddr w d r1 s).toNat v) w.bytes)).signExtend 32)] []
        (s.pc + 4) ∧
      SameMemory s t ∧ SamePorts s t := by
  unfold loadMem
  rw [memRead_mixed hm hd, bindOutcome_next, gatherBytes_eq_bytesValue, extendLoad_ofNat]
  exact ⟨_, _, rfl, ⟨truncTo_eq _ _, by simp [deviceRead], by simp [deviceRead]⟩,
    coreEffect_writeReg r2 _ 4 rfl, fun a => by simp [deviceRead], fun a => by simp [deviceRead]⟩

/-- A store partly to a device: one write of it, and the ram bytes stored (R39, R43). -/
theorem storeMem_mixed (w : Width) (d : BitVec 16) (r1 r2 : RegIdx) (s : State)
    (hm : s.MemMapped (accessAddr w d r1 s).toNat w.bytes)
    (hd : s.MemSome .device (accessAddr w d r1 s).toNat w.bytes)
    (hr : ∀ k, k < w.bytes → s.memKind ((accessAddr w d r1 s).toNat + k) ≠ .rom) :
    ∃ t, storeMem w r2 d r1 s = .next t ∧ CoreEffect s t [] [] (s.pc + 4) ∧
      DeviceWasWritten s t .memory (accessAddr w d r1 s) w.bytes (s.readReg r2) ∧ SamePorts s t ∧
      ∀ c, readByte t.mem c =
        if (accessAddr w d r1 s).toNat ≤ c ∧ c < (accessAddr w d r1 s).toNat + w.bytes ∧
            s.memKind c = .ram then
          (s.readReg r2).extractLsb' (8 * (c - (accessAddr w d r1 s).toNat)) 8
        else readByte s.mem c := by
  unfold storeMem
  rw [memWrite_mixed hm hd hr, bindOutcome_next]
  refine ⟨_, rfl, coreEffect_advance rfl 4 rfl, ⟨by rw [← truncTo_eq]; rfl, rfl⟩, fun _ => rfl,
    fun c => ?_⟩
  refine (readByte_writeBytesWhere _ _ _ _ _ c).trans ?_
  simp only [beq_iff_eq, memPlace_ram]

/-! ## The obligation -/

/-- The first part of O46: a word store, then a load of any width inside the word. -/
theorem loads_after_word_store {d d' : BitVec 16} {r1 r2 r1' r2' : RegIdx} {s t : State}
    (hram : s.MemAll .ram (accessAddr .word d r1 s).toNat 4) (hx : exec (.stW r2 d r1) s = .next t)
    (hr : r2' ≠ 0) (ha : effAddr (t.readReg r1') d' &&& 0xFFFFFFFC = accessAddr .word d r1 s)
    (w : Width) :
    ∃ u, loadMem w d' r1' r2' t = .next u ∧ u.readReg r2' =
      ((s.readReg r2).extractLsb' (8 * ((accessAddr w d' r1' t).toNat % 4))
        (8 * w.bytes)).signExtend 32 := by
  obtain ⟨t', ht, hcore, hst, -, -⟩ := storeMem_ram .word d r1 r2 s hram
  obtain rfl : t' = t := Host.Outcome.next.inj (ht.symm.trans hx)
  obtain ⟨-, -, -, -, hconfig⟩ := hcore.control
  exact loadMem_of_storedAt w hst ((memAll_congr hconfig).mpr hram) hr ha

/-- Settles O46: the loads by `loads_after_word_store` at each width, the mixed accesses by
`loadMem_mixed` and `storeMem_mixed`. -/
theorem storeThenLoadAnyWidth : Obligations.StoreThenLoadAnyWidth := by
  refine ⟨fun d d' r1 r2 r1' r2' s t hram hx hr ha => ?_, fun d r1 r2 s p hp => ?_⟩
  · have hload := loads_after_word_store hram hx hr ha
    refine ⟨hload .byte, ?_, ?_⟩
    · obtain ⟨u, hu, hv⟩ := hload .half
      have hoff : 8 * ((accessAddr .half d' r1' t).toNat % 4) =
          16 * ((t.readReg r1' + d'.signExtend 32).toNat % 4 / 2) := by
        rw [accessAddr, alignTo, toNat_and_even, effAddr, imm16Signed]
        omega
      rw [hoff] at hv
      exact ⟨u, hu, hv⟩
    · obtain ⟨u, hu, hv⟩ := hload .word
      have hoff : (accessAddr .word d' r1' t).toNat % 4 = 0 := by
        rw [accessAddr, alignTo, toNat_and_word]
        omega
      rw [hoff] at hv
      exact ⟨u, hu, hv.trans (extendLoad_extract .word (s.readReg r2)).symm⟩
  · simp only [List.mem_cons, List.not_mem_nil, or_false] at hp
    rcases hp with rfl | rfl | rfl
    · exact fun hm hd => ⟨loadMem_mixed .byte d r1 r2 s hm hd, storeMem_mixed .byte d r1 r2 s hm hd⟩
    · exact fun hm hd => ⟨loadMem_mixed .half d r1 r2 s hm hd, storeMem_mixed .half d r1 r2 s hm hd⟩
    · exact fun hm hd => ⟨loadMem_mixed .word d r1 r2 s hm hd, storeMem_mixed .word d r1 r2 s hm hd⟩

end Sys2Proof.Machine
end

-- Proofs of the family 00_scope: the floating-point exceptions.
section
/-! PROOFS. The conditions under which a floating-point instruction raises an exception, what an infinity
does while it is no reserved operand, and what becomes of the answer of a platform's own `FP`
(spec/46_float.md R189-R199, spec/60_exceptions.md R219, spec/00_scope.md R3). -/

namespace Sys2Proof.Machine

/-! ## The suggested arithmetic -/

/-- Under `binary32` the suggested outcome is completed. -/
theorem completeFloat_binary32 {s : State} (h : s.config.fp = .binary32) (reg2 : RegIdx)
    (o : FloatOutcome) (p : FpAnswer) (f : Word → Flags) :
    completeFloat reg2 o p f s = finishFloat reg2 o f s := by
  unfold completeFloat
  rw [h]

section
variable {r1 r2 : RegIdx} {s : State}

theorem exec_addfS_binary32 (h : s.config.fp = .binary32) : exec (.addfS r1 r2) s =
    finishFloat r2 (floatAdd s.config (s.readReg r2) (s.readReg r1)) floatFlags s :=
  completeFloat_binary32 h _ _ _ _

theorem exec_subfS_binary32 (h : s.config.fp = .binary32) : exec (.subfS r1 r2) s =
    finishFloat r2 (floatSub s.config (s.readReg r2) (s.readReg r1)) floatFlags s :=
  completeFloat_binary32 h _ _ _ _

theorem exec_mulfS_binary32 (h : s.config.fp = .binary32) : exec (.mulfS r1 r2) s =
    finishFloat r2 (floatMul s.config (s.readReg r2) (s.readReg r1)) floatFlags s :=
  completeFloat_binary32 h _ _ _ _

theorem exec_divfS_binary32 (h : s.config.fp = .binary32) : exec (.divfS r1 r2) s =
    finishFloat r2 (floatDiv s.config (s.readReg r2) (s.readReg r1)) floatFlags s :=
  completeFloat_binary32 h _ _ _ _

end

/-! ## Outcomes by the classes of the operands (R190) -/

theorem isFloatInf_iff {v : Word} : isFloatInf v = true ↔ floatClass v = .infinity := by
  simp [isFloatInf]

theorem isFloatZero_iff {v : Word} : isFloatZero v = true ↔ floatClass v = .zero := by
  simp [isFloatZero]

/-- An infinity is not reserved while `FP_RESERVED_INF` is false. -/
theorem isReserved_infinity {v : Word} (h : floatClass v = .infinity) : isReserved false v = false := by
  unfold isReserved
  rw [h]

/-- The four operations look at reserved operands before everything else (R196-R199). -/
theorem floatArith_reserved {c : Config} {a b : Word}
    (h : isReserved c.fpReservedInf a = true ∨ isReserved c.fpReservedInf b = true) :
    floatAdd c a b = .reserved ∧ floatSub c a b = .reserved ∧ floatMul c a b = .reserved ∧
    floatDiv c a b = .reserved := by
  have hr : (isReserved c.fpReservedInf a || isReserved c.fpReservedInf b) = true := by simpa using h
  simp only [floatAdd, floatSub, floatMul, floatDiv, hr, if_true, and_self]

section
variable {c : Config} {a b : Word} (ha : isReserved c.fpReservedInf a = false)
  (hb : isReserved c.fpReservedInf b = false)
include ha hb

/-- A sum with an infinity (log entry 15). -/
theorem floatAdd_infinity (h : isFloatInf a = true ∨ isFloatInf b = true) : floatAdd c a b =
    if isFloatInf a && isFloatInf b && (a.msb != b.msb) then .invalid else .overflow := by
  have hi : (isFloatInf a || isFloatInf b) = true := by simpa using h
  simp only [floatAdd, floatSum, ha, hb, hi, Bool.or_self, Bool.false_eq_true, if_false, if_true]

/-- A difference with an infinity (log entry 15). -/
theorem floatSub_infinity (h : isFloatInf a = true ∨ isFloatInf b = true) : floatSub c a b =
    if isFloatInf a && isFloatInf b && (a.msb != !b.msb) then .invalid else .overflow := by
  have hi : (isFloatInf a || isFloatInf b) = true := by simpa using h
  have hn : isFloatInf (b ^^^ 0x80000000) = isFloatInf b := by rw [isFloatInf, negate_class]; rfl
  have hm : (b ^^^ 0x80000000).msb = !b.msb := (negate_fields b).2.2
  simp only [floatSub, floatSum, ha, hb, hn, hm, hi, Bool.or_self, Bool.false_eq_true, if_false,
    if_true]

/-- A product with an infinity (log entry 15). -/
theorem floatMul_infinity (h : isFloatInf a = true ∨ isFloatInf b = true) : floatMul c a b =
    if isFloatZero a || isFloatZero b then .invalid else .overflow := by
  have hi : (isFloatInf a || isFloatInf b) = true := by simpa using h
  simp only [floatMul, ha, hb, hi, Bool.or_self, Bool.false_eq_true, if_false, if_true]

/-- A quotient by a zero (R199). -/
theorem floatDiv_by_zero (h : floatClass b = .zero) : floatDiv c a b =
    if isFloatZero a then .invalid else .zeroDivision := by
  simp only [floatDiv, ha, hb, isFloatZero_iff.mpr h, Bool.or_self, Bool.false_eq_true, if_false,
    if_true]

/-- A quotient of an infinity by what is no zero (log entry 15). -/
theorem floatDiv_of_infinity (h : floatClass a = .infinity) (hz : isFloatZero b = false) :
    floatDiv c a b = if isFloatInf b then .invalid else .overflow := by
  simp only [floatDiv, ha, hb, hz, isFloatInf_iff.mpr h, Bool.or_self, Bool.false_eq_true, if_false,
    if_true]

/-- A finite quotient by an infinity is a zero (log entry 15). -/
theorem floatDiv_by_infinity (hf : isFloatInf a = false) (h : floatClass b = .infinity) :
    floatDiv c a b = .value (floatZero (a.msb ^^ b.msb)) false false := by
  have hz : isFloatZero b = false := by simp [isFloatZero, h]
  simp only [floatDiv, ha, hb, hz, hf, isFloatInf_iff.mpr h, Bool.or_self, Bool.false_eq_true,
    if_false, if_true]

end

/-! ## The exact result of an operation on finite operands -/

/-- The value of a quotient, as the fraction that `floatDiv` rounds (R199). -/
theorem floatVal_div {a b : Word} (ha : FiniteFloat a) (hb : floatClass b = .normal) :
    floatVal a / floatVal b =
      ((if b.msb then -floatScaled a else floatScaled a : ℤ) : ℚ) / (floatScaled b).natAbs := by
  have hu : (floatUnit : ℚ) ≠ 0 := by norm_num [floatUnit]
  have hb0 : floatScaled b ≠ 0 := fun c => by rw [(floatScaled_zero b).mp c] at hb; cases hb
  rw [floatVal_eq ha, floatVal_eq (.inr hb), div_div_div_cancel_right₀ hu, Nat.cast_natAbs]
  obtain ⟨hneg, hpos⟩ := floatScaled_sign b
  rcases lt_or_gt_of_ne hb0 with h | h
  · rw [hneg h, abs_of_neg h]
    simp
  · rw [hpos h, abs_of_pos h]
    simp

/-- The four operations deliver one rounding of their exact result (R196-R199). -/
theorem floatArith_rounds {r1 r2 : RegIdx} {s : State} {i : Instr} {q : ℚ}
    (hfp : s.config.fp = .binary32) (ha : FiniteFloat (s.readReg r2))
    (hb : FiniteFloat (s.readReg r1)) (h : FloatArith r1 r2 s i q) :
    ∃ (num : ℤ) (den : ℕ) (z : Bool), den ≠ 0 ∧ q = num / den ∧ exec i s =
      finishFloat r2 (roundFraction s.config.fpUnderflowZero num den z) floatFlags s := by
  have hu : floatUnit ≠ 0 := by norm_num [floatUnit]
  have hu' : (floatUnit : ℚ) ≠ 0 := by exact_mod_cast hu
  rcases h with ⟨rfl, rfl⟩ | ⟨rfl, rfl⟩ | ⟨rfl, rfl⟩ | ⟨rfl, hb0, rfl⟩
  · refine ⟨_, _, _, hu, ?_, by rw [exec_addfS_binary32 hfp, floatAdd_finite _ ha hb]⟩
    rw [floatVal_eq ha, floatVal_eq hb]
    push_cast
    ring
  · refine ⟨_, _, _, hu, ?_, by rw [exec_subfS_binary32 hfp, floatSub_finite _ ha hb]⟩
    rw [floatVal_eq ha, floatVal_eq hb]
    push_cast
    ring
  · refine ⟨_, _, _, mul_ne_zero hu hu, ?_, by rw [exec_mulfS_binary32 hfp, floatMul_finite _ ha hb]⟩
    rw [floatVal_eq ha, floatVal_eq hb]
    push_cast
    field_simp
  · have hsb : floatScaled (s.readReg r1) ≠ 0 := fun c => hb0 (by rw [floatVal_eq hb, c]; simp)
    have hbn : floatClass (s.readReg r1) = .normal :=
      hb.resolve_left fun c => hsb ((floatScaled_zero _).mpr c)
    exact ⟨_, _, _, Int.natAbs_ne_zero.mpr hsb, floatVal_div ha hbn, by
      rw [exec_divfS_binary32 hfp, floatDiv_finite _ ha hbn]⟩

theorem floatHigh_pos : 0 < floatHigh := by norm_num [floatHigh]

/-- A fraction that rounds to 2^128 or more overflows (R191). -/
theorem roundFraction_overflow {u : UnderflowZero} {num : ℤ} {den : ℕ} {z : Bool} (hd : den ≠ 0)
    (h : floatHigh ≤ |(num : ℚ) / den|) : roundFraction u num den z = .overflow := by
  have hn : num ≠ 0 := by
    rintro rfl
    simp only [Int.cast_zero, zero_div, abs_zero] at h
    exact absurd h (not_le.mpr floatHigh_pos)
  have hlow : floatLow < floatHigh := by norm_num [floatLow, floatHigh]
  rcases roundFraction_spec u num den z hn hd with ⟨-, ho⟩ | ⟨hl, -⟩ | ⟨-, hl, -⟩
  · exact ho
  · exact absurd (hl.trans hlow) (not_lt.mpr h)
  · exact absurd hl (not_lt.mpr h)

/-! ## Which exception each outcome raises (R191), for the four operations -/

section
variable {r1 r2 : RegIdx} {s : State} {i : Instr} {o : FloatOutcome} {f : Word → Flags}

theorem floatTraps_reserved (hx : exec i s = finishFloat r2 o f s) (ho : o = .reserved) :
    FloatTraps i s bitFRO 0xFF60 := (finishFloat_traps hx).1 ho

theorem floatTraps_invalid (hx : exec i s = finishFloat r2 o f s) (ho : o = .invalid) :
    FloatTraps i s bitFIV 0xFF70 := (finishFloat_traps hx).2.1 ho

theorem floatTraps_zeroDivision (hx : exec i s = finishFloat r2 o f s) (ho : o = .zeroDivision) :
    FloatTraps i s bitFZD 0xFF68 := (finishFloat_traps hx).2.2.1 ho

theorem floatTraps_overflow (hx : exec i s = finishFloat r2 o f s) (ho : o = .overflow) :
    FloatTraps i s bitFOV 0xFF64 := (finishFloat_traps hx).2.2.2 ho

end

/-! ## The four operations under the suggested arithmetic -/

/-- An operand that is finite, or an infinity while those are not reserved, is not reserved. -/
theorem isReserved_false_of {b : Bool} {v : Word} (hb : b = false)
    (h : FiniteFloat v ∨ floatClass v = .infinity) : isReserved b v = false := by
  rcases h with h | h
  · exact h.notReserved b
  · rw [hb, isReserved_infinity h]

section
variable {r1 r2 : RegIdx} {s : State} (hfp : s.config.fp = .binary32)
include hfp

/-- A reserved operand traps in all four (R196-R199). -/
theorem arith_reserved_traps (h : isReserved s.config.fpReservedInf (s.readReg r2) = true ∨
      isReserved s.config.fpReservedInf (s.readReg r1) = true) :
    FloatTraps (.addfS r1 r2) s bitFRO 0xFF60 ∧ FloatTraps (.subfS r1 r2) s bitFRO 0xFF60 ∧
    FloatTraps (.mulfS r1 r2) s bitFRO 0xFF60 ∧ FloatTraps (.divfS r1 r2) s bitFRO 0xFF60 := by
  obtain ⟨hadd, hsub, hmul, hdiv⟩ := floatArith_reserved h
  exact ⟨floatTraps_reserved (exec_addfS_binary32 hfp) hadd,
    floatTraps_reserved (exec_subfS_binary32 hfp) hsub,
    floatTraps_reserved (exec_mulfS_binary32 hfp) hmul,
    floatTraps_reserved (exec_divfS_binary32 hfp) hdiv⟩

/-- Zero divided by zero (R199). -/
theorem zero_div_zero_traps (ha : floatClass (s.readReg r2) = .zero)
    (hb : floatClass (s.readReg r1) = .zero) : FloatTraps (.divfS r1 r2) s bitFIV 0xFF70 := by
  refine floatTraps_invalid (exec_divfS_binary32 hfp) ?_
  rw [floatDiv_by_zero (FiniteFloat.notReserved (.inl ha) _) (FiniteFloat.notReserved (.inl hb) _) hb,
    if_pos (isFloatZero_iff.mpr ha)]

/-- What is no zero, divided by zero (R199). -/
theorem div_by_zero_traps
    (hra : isReserved s.config.fpReservedInf (s.readReg r2) = false)
    (ha : floatClass (s.readReg r2) ≠ .zero) (hb : floatClass (s.readReg r1) = .zero) :
    FloatTraps (.divfS r1 r2) s bitFZD 0xFF68 := by
  refine floatTraps_zeroDivision (exec_divfS_binary32 hfp) ?_
  rw [floatDiv_by_zero hra (FiniteFloat.notReserved (.inl hb) _) hb, if_neg (mt isFloatZero_iff.mp ha)]

/-- A rounded magnitude of 2^128 or more (R191). -/
theorem arith_overflow_traps {i : Instr} {q : ℚ} (ha : FiniteFloat (s.readReg r2))
    (hb : FiniteFloat (s.readReg r1)) (h : FloatArith r1 r2 s i q) (hq : floatHigh ≤ |q|) :
    FloatTraps i s bitFOV 0xFF64 := by
  obtain ⟨num, den, z, hd, rfl, hx⟩ := floatArith_rounds hfp ha hb h
  exact floatTraps_overflow hx (roundFraction_overflow hd hq)

end

/-! ## Infinities while they are not reserved (log entry 15) -/

section
variable {r1 r2 : RegIdx} {s : State} (hfp : s.config.fp = .binary32)
  (hra : isReserved s.config.fpReservedInf (s.readReg r2) = false)
  (hrb : isReserved s.config.fpReservedInf (s.readReg r1) = false)
include hfp hra hrb

/-- A sum and a difference with one infinity are that infinity. -/
theorem one_infinity_sum_traps
    (h : isFloatInf (s.readReg r2) = true ∨ isFloatInf (s.readReg r1) = true)
    (hone : (isFloatInf (s.readReg r2) && isFloatInf (s.readReg r1)) = false) :
    FloatTraps (.addfS r1 r2) s bitFOV 0xFF64 ∧ FloatTraps (.subfS r1 r2) s bitFOV 0xFF64 := by
  refine ⟨floatTraps_overflow (exec_addfS_binary32 hfp) ?_,
    floatTraps_overflow (exec_subfS_binary32 hfp) ?_⟩
  · rw [floatAdd_infinity hra hrb h, hone, Bool.false_and, if_neg Bool.false_ne_true]
  · rw [floatSub_infinity hra hrb h, hone, Bool.false_and, if_neg Bool.false_ne_true]

/-- A product with an infinity: a NaN with a zero, an infinity otherwise. -/
theorem infinity_product_traps
    (h : isFloatInf (s.readReg r2) = true ∨ isFloatInf (s.readReg r1) = true) :
    ((isFloatZero (s.readReg r2) || isFloatZero (s.readReg r1)) = true →
      FloatTraps (.mulfS r1 r2) s bitFIV 0xFF70) ∧
    ((isFloatZero (s.readReg r2) || isFloatZero (s.readReg r1)) = false →
      FloatTraps (.mulfS r1 r2) s bitFOV 0xFF64) := by
  refine ⟨fun hz => floatTraps_invalid (exec_mulfS_binary32 hfp) ?_,
    fun hz => floatTraps_overflow (exec_mulfS_binary32 hfp) ?_⟩
  · rw [floatMul_infinity hra hrb h, if_pos hz]
  · rw [floatMul_infinity hra hrb h, hz, if_neg Bool.false_ne_true]

/-- Two infinities: a NaN where the signs cancel, and as a quotient. -/
theorem two_infinities_trap (ha : floatClass (s.readReg r2) = .infinity)
    (hb : floatClass (s.readReg r1) = .infinity) :
    ((s.readReg r2).msb = (s.readReg r1).msb → FloatTraps (.addfS r1 r2) s bitFOV 0xFF64 ∧
      FloatTraps (.subfS r1 r2) s bitFIV 0xFF70) ∧
    ((s.readReg r2).msb ≠ (s.readReg r1).msb → FloatTraps (.addfS r1 r2) s bitFIV 0xFF70 ∧
      FloatTraps (.subfS r1 r2) s bitFOV 0xFF64) ∧
    FloatTraps (.mulfS r1 r2) s bitFOV 0xFF64 ∧ FloatTraps (.divfS r1 r2) s bitFIV 0xFF70 := by
  have hia := isFloatInf_iff.mpr ha
  have hib := isFloatInf_iff.mpr hb
  have hza : isFloatZero (s.readReg r2) = false := by simp [isFloatZero, ha]
  have hzb : isFloatZero (s.readReg r1) = false := by simp [isFloatZero, hb]
  have hadd := floatAdd_infinity hra hrb (.inl hia)
  have hsub := floatSub_infinity hra hrb (.inl hia)
  rw [hia, hib] at hadd hsub
  refine ⟨fun hm => ⟨floatTraps_overflow (exec_addfS_binary32 hfp) ?_,
      floatTraps_invalid (exec_subfS_binary32 hfp) ?_⟩,
    fun hm => ⟨floatTraps_invalid (exec_addfS_binary32 hfp) ?_,
      floatTraps_overflow (exec_subfS_binary32 hfp) ?_⟩,
    (infinity_product_traps hfp hra hrb (.inl hia)).2 (by rw [hza, hzb]; rfl),
    floatTraps_invalid (exec_divfS_binary32 hfp) ?_⟩
  · rw [hadd, hm]
    simp
  · rw [hsub, hm]
    simp
  · rw [hadd]
    simp [hm]
  · rw [hsub, Bool.eq_not_of_ne hm]
    simp
  · rw [floatDiv_of_infinity hra hrb ha hzb, if_pos hib]

/-- An infinity divided by a normal number is an infinity. -/
theorem infinity_div_normal_traps (ha : floatClass (s.readReg r2) = .infinity)
    (hb : floatClass (s.readReg r1) = .normal) : FloatTraps (.divfS r1 r2) s bitFOV 0xFF64 := by
  refine floatTraps_overflow (exec_divfS_binary32 hfp) ?_
  rw [floatDiv_of_infinity hra hrb ha (by simp [isFloatZero, hb]), if_neg (by simp [isFloatInf, hb])]

/-- A finite operand divided by an infinity is a zero, with the sign of the quotient. -/
theorem finite_div_infinity (ha : FiniteFloat (s.readReg r2))
    (hb : floatClass (s.readReg r1) = .infinity) :
    ∃ t, exec (.divfS r1 r2) s = .next t ∧
      Effect s t [(r2, if (s.readReg r2).msb = (s.readReg r1).msb then 0 else 0x80000000)]
        [bitZ, bitS, bitOV, bitCY] (s.pc + 4) ∧
      FlagsAre t True False False False := by
  have hz : floatZero ((s.readReg r2).msb ^^ (s.readReg r1).msb) =
      if (s.readReg r2).msb = (s.readReg r1).msb then 0 else 0x80000000 := by
    cases (s.readReg r2).msb <;> cases (s.readReg r1).msb <;> rfl
  rw [exec_divfS_binary32 hfp, floatDiv_by_infinity hra hrb ha.notInf hb]
  obtain ⟨t, ht, he, hf, -, -⟩ := finishFloat_effect (r2 := r2)
    (r := floatZero ((s.readReg r2).msb ^^ (s.readReg r1).msb)) (fud := false) (fpr := false)
    (f := floatFlags) (s := s) [bitZ, bitS, bitOV, bitCY] (by
      intro n hn
      simp only [List.mem_cons, List.not_mem_nil, or_false, not_or] at hn
      obtain ⟨hnz, hns, hnov, hncy⟩ := hn
      exact ⟨hnz, hns, hnov, .inr hncy, by simp, by simp⟩)
  rw [zero_flags] at hf
  refine ⟨t, ht, hz ▸ he, flagsAre_congr hf ?_ ?_ ?_ ?_⟩ <;> simp

end

/-! ## An `FP` of the platform's own (R3, log entry 35) -/

/-- The flags an instruction gives a platform's result: those of a float, or those of an integer, which
keep CY (R192). -/
def answerFlags (isFloat : Bool) (s : State) (r : Word) : Flags :=
  if isFloat then floatFlags r else floatIntFlags r s.flags.cy

/-- Under `platform` the platform's own answer is completed. -/
theorem completeFloat_platform {s : State} (h : s.config.fp = .platform) (reg2 : RegIdx)
    (o : FloatOutcome) (p : FpAnswer) (f : Word → Flags) :
    completeFloat reg2 o p f s = finishPlatform reg2 p f s := by
  unfold completeFloat
  rw [h]

theorem exec_cmpfS_platform {r1 r2 : RegIdx} {s : State} (h : s.config.fp = .platform) :
    exec (.cmpfS r1 r2) s =
      finishPlatform 0 (Config.fpCmp (s.readReg r2) (s.readReg r1)) floatFlags s := by
  change execCmpfS r1 r2 s = _
  unfold execCmpfS
  rw [h]

/-- The bits of the PSW after a platform's result: the flags, and the sticky bits that its answer
names (R191, R192). -/
def PlatformPsw (s t : State) (p : FpAnswer) (f : Flags) (fud fpr : Bool) : Prop :=
  ∀ n, t.psw.getLsbD n =
    if n < 4 then (withFlags s.psw f).getLsbD n
    else if n = bitFUD then fud || (s.stickAll p.sticky).psw.getLsbD n
    else if n = bitFPR then fpr || (s.stickAll p.sticky).psw.getLsbD n
    else (s.stickAll p.sticky).psw.getLsbD n

/-- The sticky bits are those that were set or that the answer names (R191). -/
theorem PlatformPsw.sticky {s t : State} {p : FpAnswer} {f : Flags} {fud fpr : Bool}
    (h : PlatformPsw s t p f fud fpr) {n : Nat} (hlow : bitFPR ≤ n) (hhigh : n ≤ bitFRO) :
    t.psw.getLsbD n = true ↔ s.psw.getLsbD n = true ∨ p.sticky.getLsbD (n - bitFPR) = true ∨
      (n = bitFUD ∧ fud = true) ∨ (n = bitFPR ∧ fpr = true) := by
  simp only [bitFPR, bitFRO] at hlow hhigh
  have hall : (s.stickAll p.sticky).psw.getLsbD n = true ↔
      s.psw.getLsbD n = true ∨ p.sticky.getLsbD (n - bitFPR) = true := by
    rw [getLsbD_stickAll, decide_eq_true (by omega), Bool.true_and, Bool.or_eq_true]
  rw [h n, if_neg (by omega)]
  by_cases hud : n = bitFUD
  · have hpr : n ≠ bitFPR := by rw [hud]; decide
    rw [if_pos hud, Bool.or_eq_true, hall]
    tauto
  · rw [if_neg hud]
    by_cases hpr : n = bitFPR
    · rw [if_pos hpr, Bool.or_eq_true, hall]
      tauto
    · rw [if_neg hpr, hall]
      tauto

/-- The bits above the sticky ones stay. -/
theorem PlatformPsw.high {s t : State} {p : FpAnswer} {f : Flags} {fud fpr : Bool}
    (h : PlatformPsw s t p f fud fpr) {n : Nat} (hn : bitFRO < n) :
    t.psw.getLsbD n = s.psw.getLsbD n := by
  simp only [bitFRO] at hn
  rw [h n, if_neg (by omega), if_neg (by simp only [bitFUD]; omega),
    if_neg (by simp only [bitFPR]; omega), getLsbD_stickAll, decide_eq_false (by omega),
    Bool.false_and, Bool.or_false]

theorem PlatformPsw.flagsAre {s t : State} {p : FpAnswer} {f : Flags} {fud fpr : Bool}
    (h : PlatformPsw s t p f fud fpr) :
    FlagsAre t (f.z = true) (f.s = true) (f.ov = true) (f.cy = true) := by
  have flag : ∀ n, n < 4 → t.psw.getLsbD n = (withFlags s.psw f).getLsbD n := fun n hn =>
    (h n).trans (if_pos hn)
  unfold FlagsAre
  rw [flag bitZ (by decide), flag bitS (by decide), flag bitOV (by decide), flag bitCY (by decide)]
  simp only [getLsbD_withFlags, bitZ, bitS, bitOV, bitCY]
  simp

/-- A result that a platform answers is written, with its flags and sticky bits (R191, R192). -/
theorem finishPlatform_value {dest : RegIdx} {p : FpAnswer} {r : Word} {fud fpr : Bool}
    (hp : p.outcome = .value r fud fpr) (f : Word → Flags) (s : State) :
    ∃ t, finishPlatform dest p f s = .next t ∧
      Effect s t [(dest, r)]
        [bitZ, bitS, bitOV, bitCY, bitFPR, bitFUD, bitFOV, bitFZD, bitFIV, bitFRO] (s.pc + 4) ∧
      PlatformPsw s t p (f r) fud fpr := by
  obtain ⟨t, ht, hrest, hregs, hpc, hpsw⟩ := finishFloat_value dest r fud fpr f (s.stickAll p.sticky)
  have hbits : PlatformPsw s t p (f r) fud fpr := by
    intro n
    rw [hpsw n]
    by_cases hn : n < 4
    · rw [if_pos hn, if_pos hn, getLsbD_withFlags, getLsbD_withFlags, getLsbD_stickAll,
        decide_eq_false (by omega), Bool.false_and, Bool.or_false]
    · rw [if_neg hn, if_neg hn]
  refine ⟨t, by rw [finishPlatform, hp, ht], effect_intro hregs (fun n hn => ?_) hpc hrest, hbits⟩
  simp only [bitZ, bitS, bitOV, bitCY, bitFPR, bitFUD, bitFOV, bitFZD, bitFIV, bitFRO, List.mem_cons,
    List.not_mem_nil, or_false, not_or] at hn
  exact hbits.high (show 9 < n by omega)

/-- The flags of a float (R192). -/
theorem flagsAre_answerFlags_float {s t : State} {r : Word}
    (h : FlagsAre t ((answerFlags true s r).z = true) ((answerFlags true s r).s = true)
      ((answerFlags true s r).ov = true) ((answerFlags true s r).cy = true)) :
    FlagsAre t (r.extractLsb' 0 31 = 0) (r.extractLsb' 0 31 ≠ 0 ∧ r.msb = true) False
      (r.extractLsb' 0 31 ≠ 0 ∧ r.msb = true) :=
  flagsAre_congr h (by simp [answerFlags, floatFlags]) (by simp [answerFlags, floatFlags])
    (by simp [answerFlags, floatFlags]) (by simp [answerFlags, floatFlags])

/-- The flags of an integer, CY as it was (R192). -/
theorem resultFlagsAre_answerFlags_int {s t : State} {r : Word}
    (h : FlagsAre t ((answerFlags false s r).z = true) ((answerFlags false s r).s = true)
      ((answerFlags false s r).ov = true) ((answerFlags false s r).cy = true)) :
    ResultFlagsAre t r False ∧ t.psw.getLsbD bitCY = s.psw.getLsbD bitCY := by
  obtain ⟨hz, hs, hov, hcy⟩ := h
  exact ⟨⟨hz.trans (by simp [answerFlags, floatIntFlags]), hs.trans (by simp [answerFlags, floatIntFlags]),
    hov.trans (by simp [answerFlags, floatIntFlags])⟩, Bool.eq_iff_iff.mpr hcy⟩

section
variable {i : Instr} {s : State} {dest : RegIdx} {p : FpAnswer}

/-- What an instruction completed with a platform's result does. -/
theorem platform_value {isFloat : Bool} {r : Word} {fud fpr : Bool}
    (hx : exec i s = finishPlatform dest p (answerFlags isFloat s) s)
    (ho : p.outcome = .value r fud fpr) :
    ∃ t, exec i s = .next t ∧
      Effect s t [(dest, r)]
        [bitZ, bitS, bitOV, bitCY, bitFPR, bitFUD, bitFOV, bitFZD, bitFIV, bitFRO] (s.pc + 4) ∧
      (∀ n, bitFPR ≤ n → n ≤ bitFRO → (t.psw.getLsbD n = true ↔
        s.psw.getLsbD n = true ∨ p.sticky.getLsbD (n - bitFPR) = true ∨
        (n = bitFUD ∧ fud = true) ∨ (n = bitFPR ∧ fpr = true))) ∧
      (isFloat = true → FlagsAre t (r.extractLsb' 0 31 = 0)
        (r.extractLsb' 0 31 ≠ 0 ∧ r.msb = true) False (r.extractLsb' 0 31 ≠ 0 ∧ r.msb = true)) ∧
      (isFloat = false → ResultFlagsAre t r False ∧
        t.psw.getLsbD bitCY = s.psw.getLsbD bitCY) := by
  obtain ⟨t, ht, he, hpsw⟩ := finishPlatform_value (dest := dest) ho (answerFlags isFloat s) s
  refine ⟨t, hx.trans ht, he, fun n hlow hhigh => hpsw.sticky hlow hhigh, ?_, ?_⟩
  · rintro rfl
    exact flagsAre_answerFlags_float hpsw.flagsAre
  · rintro rfl
    exact resultFlagsAre_answerFlags_int hpsw.flagsAre

/-- An exception that a platform answers: its further sticky bits, then its own (R3, R191). -/
theorem platform_traps {f : Word → Flags} {bit : Nat} {e : Exc}
    (hx : exec i s = finishPlatform dest p f s)
    (ho : finishFloat dest p.outcome f (s.stickAll p.sticky) = floatTrap bit e (s.stickAll p.sticky))
    (hbit : 4 ≤ bit ∧ bit < 10) (hh : e.handler = 0xFFFFFF60) :
    FloatTrapsIn i s ((s.stickAll p.sticky).setPswBit bit true) e.code :=
  raise_floatTraps ((stickyOnly_stickAll s _).trans (stickyOnly_setPswBit _ _ true hbit))
    (hx.trans ho) hh

end

/-! ## The obligation -/

/-- Settles O54: the clauses by the lemmas above; the eight instructions under a platform's own `FP` by
`platform_value` and `platform_traps`. -/
theorem floatExceptionsTaken : Obligations.FloatExceptionsTaken := by
  refine ⟨fun r1 r2 s hfp => ⟨arith_reserved_traps hfp, zero_div_zero_traps hfp, fun ha hb => ?_,
      fun i q ha hb => arith_overflow_traps hfp ha hb⟩,
    fun r1 r2 s hfp hinf => ?_, fun r1 r2 s hfp p hp => ?_⟩
  · exact div_by_zero_traps hfp (FiniteFloat.notReserved (.inr ha) _) (by rw [ha]; decide) hb
  · have fin : ∀ v, FiniteFloat v → isReserved s.config.fpReservedInf v = false := fun v h =>
      isReserved_false_of hinf (.inl h)
    have inf : ∀ v, floatClass v = .infinity → isReserved s.config.fpReservedInf v = false :=
      fun v h => isReserved_false_of hinf (.inr h)
    have noZero : ∀ v, floatClass v ≠ .zero → isFloatZero v = false := fun v h => by
      simpa [isFloatZero] using h
    refine ⟨?_, fun ha hb => two_infinities_trap hfp (inf _ ha) (inf _ hb) ha hb, ?_, ?_,
      fun ha hb => div_by_zero_traps hfp (inf _ ha) (by rw [ha]; decide) hb,
      fun ha hb => infinity_div_normal_traps hfp (inf _ ha) (fin _ (.inr hb)) ha hb,
      fun ha hb => finite_div_infinity hfp (fin _ ha) (inf _ hb) ha hb⟩
    · rintro (⟨ha, hb⟩ | ⟨ha, hb⟩)
      · exact one_infinity_sum_traps hfp (inf _ ha) (fin _ hb) (.inl (isFloatInf_iff.mpr ha))
          (by rw [hb.notInf, Bool.and_false])
      · exact one_infinity_sum_traps hfp (fin _ ha) (inf _ hb) (.inr (isFloatInf_iff.mpr hb))
          (by rw [ha.notInf, Bool.false_and])
    · rintro (⟨ha, hb⟩ | ⟨ha, hb⟩)
      · exact (infinity_product_traps hfp (inf _ ha) (fin _ (.inl hb))
          (.inl (isFloatInf_iff.mpr ha))).1 (by rw [isFloatZero_iff.mpr hb, Bool.or_true])
      · exact (infinity_product_traps hfp (fin _ (.inl ha)) (inf _ hb)
          (.inr (isFloatInf_iff.mpr hb))).1 (by rw [isFloatZero_iff.mpr ha, Bool.true_or])
    · rintro (⟨ha, hb⟩ | ⟨ha, hb⟩)
      · exact (infinity_product_traps hfp (inf _ ha) (fin _ (.inr hb)) (.inl (isFloatInf_iff.mpr ha))).2
          (by rw [noZero _ (by rw [ha]; decide), noZero _ (by rw [hb]; decide), Bool.or_self])
      · exact (infinity_product_traps hfp (fin _ (.inr ha)) (inf _ hb) (.inr (isFloatInf_iff.mpr hb))).2
          (by rw [noZero _ (by rw [ha]; decide), noZero _ (by rw [hb]; decide), Bool.or_self])
  · have hx : exec p.1 s = finishPlatform p.2.2.1 p.2.1 (answerFlags p.2.2.2 s) s := by
      simp only [List.mem_cons, List.not_mem_nil, or_false] at hp
      rcases hp with rfl | rfl | rfl | rfl | rfl | rfl | rfl | rfl
      · exact exec_cmpfS_platform hfp
      all_goals exact completeFloat_platform hfp _ _ _ _
    dsimp only
    cases ho : p.2.1.outcome with
    | value r fud fpr => exact platform_value hx ho
    | reserved => exact platform_traps (e := .floatReserved) hx (by rw [ho]; rfl) (by decide) rfl
    | invalid => exact platform_traps (e := .floatInvalid) hx (by rw [ho]; rfl) (by decide) rfl
    | zeroDivision =>
      exact platform_traps (e := .floatZeroDivision) hx (by rw [ho]; rfl) (by decide) rfl
    | overflow => exact platform_traps (e := .floatOverflow) hx (by rw [ho]; rfl) (by decide) rfl

end Sys2Proof.Machine
end

-- Proofs of the family 10_state: reset and the invariant.
section
/-! PROOFS. The invariant holds after reset (spec/10_state.md R29) and every step keeps it (R14, R17, R20,
R25): whatever a step does is made of a few shared operations, and each of them keeps it. -/

namespace Sys2Proof.Machine

/-! ## Reset (R29) -/

/-- Settles O6: the values stand in `State.reset`, and `x[0]` reads 0 in every state. -/
theorem resetValues : Obligations.ResetValues :=
  ⟨rfl, rfl, rfl, rfl, rfl, rfl, readReg_zero _⟩

/-- Settles O7: the spaces are empty, and every register the invariant speaks of is a constant. -/
theorem resetMeetsInvariant : Obligations.ResetMeetsInvariant where
  memory := wf_nil
  ports := wf_nil
  pcEven := rfl
  eipcEven := rfl
  fepcEven := rfl
  adtreEven := rfl
  pswReserved := rfl
  eipswReserved := rfl
  fepswReserved := rfl
  chcwReserved := rfl

/-! ## The reserved bits of the PSW (R20) -/

/-- The reserved bits lie above the flags and the sticky bits. -/
theorem pswMask_of_high {v w : Word} (hv : v &&& pswMask = v)
    (h : ∀ n, 10 ≤ n → w.getLsbD n = v.getLsbD n) : w &&& pswMask = w :=
  (pswMask_iff w).mpr fun n hn => by
    rw [h n (by omega)]
    exact (pswMask_iff v).mp hv n hn

/-- Both entries set a pending bit and ID, and clear AE. -/
theorem pswMask_entry {v : Word} {n : Nat} (hv : v &&& pswMask = v) (hn : n ≠ 10 ∧ n ≠ 11 ∧ n < 20) :
    setBit (setBit (setBit v n true) bitID true) bitAE false &&& pswMask =
      setBit (setBit (setBit v n true) bitID true) bitAE false :=
  pswMask_setBit (pswMask_setBit (pswMask_setBit hv hn) (by decide)) (by decide)

/-- The level is no reserved bit. -/
theorem pswMask_withLevel {v : Word} (n : BitVec 4) (hv : v &&& pswMask = v) :
    withLevel v n &&& pswMask = withLevel v n :=
  (pswMask_iff _).mpr fun m hm => by
    rw [getLsbD_withLevel_other _ _ _ (by omega)]
    exact (pswMask_iff v).mp hv m hm

/-- Of CHCW only ICE is stored (R25). -/
theorem chcw_stored (v : Word) : v &&& 0x00000002 &&& 0x00000002 = v &&& 0x00000002 := by
  rw [BitVec.and_assoc]
  rfl

/-! ## The shared operations keep the invariant -/

theorem Ordinary.inv {s t : State} (h : Ordinary s t) (hi : s.Inv) : t.Inv := by
  obtain ⟨eipc, eipsw, fepc, fepsw, -, -, -, chcw, adtre⟩ := h.system
  exact
    { memory := h.mem hi.memory
      ports := h.io hi.ports
      pcEven := h.pc hi.pcEven
      eipcEven := eipc ▸ hi.eipcEven
      fepcEven := fepc ▸ hi.fepcEven
      adtreEven := adtre ▸ hi.adtreEven
      pswReserved := pswMask_of_high hi.pswReserved h.psw
      eipswReserved := eipsw ▸ hi.eipswReserved
      fepswReserved := fepsw ▸ hi.fepswReserved
      chcwReserved := chcw ▸ hi.chcwReserved }

/-- The invariant does not speak of `stopped`. -/
theorem withStopped_inv {s : State} (hi : s.Inv) (b : Bool) : State.Inv { s with stopped := b } :=
  { hi with }

/-- Nor of `halted`. -/
theorem withHalted_inv {s : State} (hi : s.Inv) (b : Bool) : State.Inv { s with halted := b } :=
  { hi with }

theorem dropSample_inv {s : State} (hi : s.Inv) : s.dropSample.Inv := { hi with }

theorem setPc_inv {s : State} (hi : s.Inv) (target : Word) : (s.setPc target).Inv :=
  (ordinary_setPc s target).inv hi

theorem setPsw_inv {s : State} (hi : s.Inv) (v : Word) : (s.setPsw v).Inv :=
  { hi with pswReserved := pswMask_pswMask v }

theorem setPswBit_inv {s : State} (hi : s.Inv) (n : Nat) (b : Bool)
    (hn : n ≠ 10 ∧ n ≠ 11 ∧ n < 20) : (s.setPswBit n b).Inv :=
  { hi with pswReserved := pswMask_setBit hi.pswReserved hn }

/-- Regular entry (R214). -/
theorem enterRegular_inv {s : State} (hi : s.Inv) (code : BitVec 16) (handler restore : Word) :
    (enterRegular code handler restore s).Inv :=
  { hi with
    pcEven := getLsbD_even handler
    eipcEven := getLsbD_even restore
    eipswReserved := hi.pswReserved
    pswReserved := pswMask_entry hi.pswReserved (by decide) }

/-- Entry through the FE pair (R216, R217). -/
theorem enterFatalPair_inv {s : State} (hi : s.Inv) (code : BitVec 16) (restore : Word) :
    (enterFatalPair code restore s).Inv :=
  { hi with
    pcEven := (by decide : nmiHandler.getLsbD 0 = false)
    fepcEven := getLsbD_even restore
    fepswReserved := hi.pswReserved
    pswReserved := pswMask_entry hi.pswReserved (by decide) }

/-- Taking an exception, a fatal one too (R214, R217, R219). -/
theorem raise_inv {e : Exc} {restore : Word} {s t : State} (hi : s.Inv)
    (h : raise e restore s = .next t) : t.Inv := by
  rcases raise_next h with ⟨-, -, rfl⟩ | ⟨-, -, hd⟩ | ⟨-, -, rfl⟩ | ⟨-, -, rfl⟩
  · exact withStopped_inv hi true
  · obtain ⟨u, hu, -, rfl, -⟩ := ordinary_fatalDump hd
    exact withStopped_inv (hu.inv hi) true
  · exact enterFatalPair_inv hi _ _
  · exact enterRegular_inv hi _ _ _

theorem enterEvent_inv {s : State} (hi : s.Inv) (e : Event) : (enterEvent e s).Inv := by
  cases e with
  | nmi => exact withHalted_inv (enterFatalPair_inv hi _ _) false
  | irq n =>
    have hr := enterRegular_inv hi (irqCode n) (0xFFFF#16 ++ irqCode n) s.pc
    exact { hr with pswReserved := pswMask_withLevel _ hr.pswReserved }

/-- The saved pc goes in without its bit 0, the saved PSW through the mask (R14, R20, R109). -/
theorem returnFromException_inv {s : State} (hi : s.Inv) : (returnFromException s).Inv := by
  unfold returnFromException
  split
  · exact setPc_inv (setPsw_inv hi _) _
  · exact setPc_inv (setPsw_inv hi _) _

/-- A write of CHCW stores ICE alone (R25). -/
theorem writeChcw_inv {v : Word} {s t : State} (hi : s.Inv) (h : writeChcw v s = .next t) :
    t.Inv := by
  unfold writeChcw at h
  split at h
  · cases h
  · cases h
    exact { hi with chcwReserved := chcw_stored v }

/-- Each system register is written through its own mask (R17, R111). -/
theorem writeSystem_inv {n : BitVec 5} {v : Word} {s t : State} (hi : s.Inv)
    (h : writeSystem n v s = .next t) : t.Inv := by
  unfold writeSystem at h
  split at h
  case h_1 => cases h; exact { hi with eipcEven := getLsbD_even v }
  case h_2 => cases h; exact { hi with eipswReserved := pswMask_pswMask v }
  case h_3 => cases h; exact { hi with fepcEven := getLsbD_even v }
  case h_4 => cases h; exact { hi with fepswReserved := pswMask_pswMask v }
  case h_5 => cases h; exact hi
  case h_6 => cases h; exact setPsw_inv hi v
  case h_7 => cases h; exact hi
  case h_8 => cases h; exact hi
  case h_9 => exact writeChcw_inv hi h
  case h_10 => cases h; exact { hi with adtreEven := getLsbD_even v }
  case h_11 => cases h

/-- The reset event gives constants, or free values under the masks (R240). -/
theorem performReset_inv {s : State} (hi : s.Inv) : (performReset s).Inv where
  memory := by rw [performReset_mem]; exact hi.memory
  ports := by rw [performReset_io]; exact hi.ports
  pcEven := by rw [performReset_pc]; rfl
  eipcEven := by rw [performReset_eipc]; exact getLsbD_even _
  fepcEven := by rw [performReset_fepc]; exact getLsbD_even _
  adtreEven := by rw [performReset_adtre]; exact getLsbD_even _
  pswReserved := by rw [performReset_psw]; rfl
  eipswReserved := by rw [performReset_eipsw]; exact pswMask_pswMask _
  fepswReserved := by rw [performReset_fepsw]; exact pswMask_pswMask _
  chcwReserved := by rw [performReset_chcw]; rfl

/-! ## Every instruction and every step -/

theorem exec_inv {i : Instr} {s t : State} (hi : s.Inv) (h : exec i s = .next t) : t.Inv := by
  cases exec_next i s t h with
  | ordinary ho => exact ho.inv hi
  | exception e restore u hu hr => exact raise_inv (hu.quiet.1.inv hi) hr
  | ldsr r n u _ hw ht =>
    subst ht
    exact setPc_inv (writeSystem_inv hi hw) _
  | reti _ ht =>
    subst ht
    exact returnFromException_inv hi
  | ei _ ht | di _ ht =>
    subst ht
    exact setPc_inv (setPswBit_inv hi bitID _ (by decide)) _
  | halt _ ht =>
    subst ht
    exact withHalted_inv (setPc_inv hi _) true

/-- A fetch can only remember halfwords and draw a free value (R46). -/
theorem fetchWords_inv {s t : State} {w : Half × Half} (hi : s.Inv)
    (h : fetchWords s = .next (w, t)) : t.Inv := by
  rw [fetchWords_state h]
  exact { hi with }

theorem runInstruction_inv {s t : State} (hi : s.Inv)
    (h : runInstruction exec s = .next t) : t.Inv := by
  rcases runInstruction_next h with ⟨-, hr⟩ | ⟨-, w, u, hf, hr⟩
  · exact raise_inv hi hr
  · rcases runWords_next hr with ⟨name, hn⟩ | ⟨i, -, hx⟩
    · exact raise_inv (fetchWords_inv hi hf) (undefinedInstruction_next hn).2
    · exact exec_inv (fetchWords_inv hi hf) hx

/-- Settles O8: each of the four things a step can be (R15) keeps the invariant. -/
theorem stepKeepsInvariant : Obligations.StepKeepsInvariant := by
  intro s t hi h
  rcases stepWith_next h with ⟨-, rfl⟩ | ⟨-, e, -, rfl⟩ | ⟨-, -, rfl⟩ | ⟨-, -, u, hu, rfl⟩
  · exact dropSample_inv (performReset_inv hi)
  · exact dropSample_inv (enterEvent_inv hi e)
  · exact dropSample_inv hi
  · exact dropSample_inv (runInstruction_inv hi hu)

end Sys2Proof.Machine
end

-- Proofs of the family 10_state: what writes the system registers.
section
/-! PROOFS. What `ldsr` writes, register by register (spec/10_state.md R17, R25, spec/41_imm_reg.md R111),
and which instructions can change which system register (R17-R22, spec/60_exceptions.md R214, R217). -/

namespace Sys2Proof.Machine

/-! ## `ldsr` (R111) -/

/-- `ldsr` writes the system register, then advances. -/
theorem exec_ldsr {r : RegIdx} {n : BitVec 5} {s u : State}
    (h : writeSystem n (s.readReg r) s = .next u) : exec (.ldsr r n) s = .next (u.advance 2) := by
  show bindOutcome (writeSystem n (s.readReg r) s) _ = _
  rw [h, bindOutcome_next]

/-- `ldsr` is refused where the write is. -/
theorem exec_ldsr_refused {r : RegIdx} {n : BitVec 5} {s : State} {e : Refusal}
    (h : writeSystem n (s.readReg r) s = .refused e) : exec (.ldsr r n) s = .refused e := by
  show bindOutcome (writeSystem n (s.readReg r) s) _ = _
  rw [h, bindOutcome_refused]

/-- A write of CHCW without ICD and ICR (R25). -/
theorem writeChcw_stores {v : Word} (s : State) (h4 : v.getLsbD 4 = false) (h5 : v.getLsbD 5 = false) :
    writeChcw v s = .next { s with
      chcw := v &&& 0x00000002
      icache := if v.getLsbD 0 && s.config.icache == .explicitClear then
          clearEntries (v.extractLsb' 20 12).toNat (v.extractLsb' 8 12).toNat s.icache
        else s.icache } := by
  unfold writeChcw
  rw [if_neg (by rw [h4, h5]; decide)]

/-- A write of CHCW with ICD or ICR (R25). -/
theorem writeChcw_dumpRestore {v : Word} (s : State) (h : v.getLsbD 4 = true ∨ v.getLsbD 5 = true) :
    writeChcw v s = .refused .cacheDumpRestore := by
  unfold writeChcw
  rw [if_pos (by rwa [Bool.or_eq_true])]

/-- What a clear leaves: the pairs whose entry is not among those cleared (R47, log entry 11). -/
theorem mem_clearEntries (cen cec : Nat) (cache : List (Nat × Half)) (c : Nat × Half) :
    c ∈ clearEntries cen cec cache ↔ c ∈ cache ∧
      ¬(cen ≤ (Config.cacheEntry c.1).toNat ∧ (Config.cacheEntry c.1).toNat < cen + cec) := by
  rw [clearEntries, List.mem_filter, Bool.not_eq_true', decide_eq_false_iff_not]

/-- A number outside the table of R17 is refused. -/
theorem writeSystem_reserved {n : BitVec 5} (v : Word) (s : State)
    (hn : (8 ≤ n.toNat ∧ n.toNat ≤ 23) ∨ 26 ≤ n.toNat) :
    writeSystem n v s = .refused (.reservedSystemRegister n) := by
  unfold writeSystem
  split
  case h_11 => rfl
  all_goals exact absurd hn (by decide)

/-- Settles O27: with the one register that is written put back, what is left is the advance; CHCW by what
a write of it stores, clears or refuses. -/
theorem ldsrWrites : Obligations.LdsrWrites := by
  intro r s a
  have moved : Effect s (s.advance 2) [] [] (s.pc + 2) := advance_effect 2 s
  refine ⟨⟨_, rfl, rfl, moved⟩, ⟨_, rfl, rfl, moved⟩, ⟨_, rfl, rfl, moved⟩, ⟨_, rfl, rfl, moved⟩, ?_,
    ⟨_, rfl, rfl, moved⟩, ⟨_, rfl, rfl, moved⟩, fun h4 h5 => ?_, fun h => ?_, fun n hn => ?_⟩
  · rintro n (rfl | rfl | rfl) <;> exact ⟨_, rfl, moved⟩
  · refine ⟨_, exec_ldsr (writeChcw_stores s h4 h5), rfl, moved, fun h => ?_, fun h0 hc c => ?_⟩
    · refine if_neg ?_
      rw [Bool.and_eq_true, beq_iff_eq]
      rintro ⟨h0, hc⟩
      rcases h with h0' | hc'
      · exact absurd (h0.symm.trans h0') (by decide)
      · exact hc' hc
    · rw [← mem_clearEntries, advance_icache]
      exact (congrArg (c ∈ ·) (if_pos (by rw [h0, hc]; rfl))).to_iff
  · exact exec_ldsr_refused (writeChcw_dumpRestore s h)
  · exact exec_ldsr_refused (writeSystem_reserved _ s hn)

/-! ## What any instruction does to the system registers -/

/-- The bits of the PSW that R17 protects, NP, EP, AE, ID and the level, are as they were. -/
def SystemBitsKept (s t : State) : Prop := ∀ n, 12 ≤ n → n ≤ 19 → t.psw.getLsbD n = s.psw.getLsbD n

/-- The level as four bits of the PSW (R20). -/
theorem levelOf_congr {v w : Word} (h : ∀ n, 16 ≤ n → n ≤ 19 → w.getLsbD n = v.getLsbD n) :
    levelOf w = levelOf v := by
  apply BitVec.eq_of_getLsbD_eq
  intro i hi
  rw [levelOf, levelOf, BitVec.getLsbD_extractLsb', BitVec.getLsbD_extractLsb',
    h (16 + i) (by omega) (by omega)]

/-- What an instruction that answers a next state has done to the system registers: left all but the PSW
alone, written one by `ldsr`, or entered an exception, its sticky bits set first. -/
inductive SystemCase (i : Instr) (s t : State) : Prop where
  | kept (hs : SameSystem s t) (hp : i = .reti ∨ i = .ei ∨ i = .di ∨ SystemBitsKept s t)
  | ldsr (r : RegIdx) (n : BitVec 5) (hi : i = .ldsr r n) (pir : t.pir = s.pir) (tkcw : t.tkcw = s.tkcw)
      (ecr : t.ecr = s.ecr) (hp : n = 5 ∨ t.psw = s.psw)
  | entry (u : State) (code : BitVec 16) (handler restore : Word) (hu : StickyOnly s u)
      (np : u.psw.getLsbD bitNP = false) (h : Enters u t code handler restore)

theorem SystemCase.of_same {i : Instr} {s t : State} (hs : SameSystem s t) (hp : SystemBitsKept s t) :
    SystemCase i s t :=
  .kept hs (.inr (.inr (.inr hp)))

theorem SystemCase.of_ordinary {i : Instr} {s t : State} (h : Ordinary s t) : SystemCase i s t :=
  .of_same h.system fun n hn _ => h.psw n (by omega)

/-- A fatal exception touches no system register, any other enters (R214, R217, R219). -/
theorem SystemCase.of_raise {i : Instr} {e : Exc} {restore : Word} {s u t : State} (hu : StickyOnly s u)
    (h : raise e restore u = .next t) : SystemCase i s t := by
  cases np : u.psw.getLsbD bitNP with
  | false =>
    obtain ⟨t', ht', hent⟩ := raise_enters e restore u np
    cases ht'.symm.trans h
    exact .entry u _ _ _ hu np hent
  | true =>
    have stopped : ∃ v, Ordinary u v ∧ t = { v with stopped := true } := by
      rcases raise_next h with ⟨-, -, ht⟩ | ⟨-, -, hd⟩ | ⟨c, -⟩ | ⟨c, -⟩
      · exact ⟨u, .refl u, ht⟩
      · obtain ⟨v, hv, -, ht, -⟩ := ordinary_fatalDump hd
        exact ⟨v, hv, ht⟩
      · exact absurd (np.symm.trans c) (by decide)
      · exact absurd (np.symm.trans c) (by decide)
    obtain ⟨v, hv, rfl⟩ := stopped
    have ho : Ordinary s v := hu.quiet.1.trans hv
    exact .of_same ho.system fun n hn _ => ho.psw n (by omega)

/-- `ldsr` leaves ECR, PIR and TKCW alone, and writes the PSW as number 5 only (R17). -/
theorem SystemCase.of_ldsr {r : RegIdx} {n : BitVec 5} {s u : State}
    (h : writeSystem n (s.readReg r) s = .next u) : SystemCase (.ldsr r n) s (u.advance 2) := by
  have hk := writeSystem_keepsConstants h
  have rest : u.ecr = s.ecr ∧ (n = 5 ∨ u.psw = s.psw) := by
    unfold writeSystem at h
    split at h
    case h_6 => cases h; exact ⟨rfl, .inl rfl⟩
    case h_9 =>
      unfold writeChcw at h
      split at h
      · cases h
      · cases h; exact ⟨rfl, .inr rfl⟩
    case h_11 => cases h
    all_goals
      cases h
      exact ⟨rfl, .inr rfl⟩
  exact .ldsr r n rfl hk.pir hk.tkcw rest.1 rest.2

theorem exec_system {i : Instr} {s t : State} (h : exec i s = .next t) : SystemCase i s t := by
  cases exec_next i s t h with
  | ordinary ho => exact .of_ordinary ho
  | exception e restore u hu hr => exact .of_raise hu hr
  | ldsr r n u hi hw ht =>
    subst hi ht
    exact .of_ldsr hw
  | reti hi ht =>
    subst ht
    refine .kept ?_ (.inl hi)
    unfold returnFromException
    split <;> exact sameSystem_refl s
  | ei hi ht =>
    subst ht
    exact .kept (sameSystem_refl s) (.inr (.inl hi))
  | di hi ht =>
    subst ht
    exact .kept (sameSystem_refl s) (.inr (.inr (.inl hi)))
  | halt hi ht =>
    subst ht
    exact .of_same (sameSystem_refl s) fun _ _ _ => rfl

/-- What both entries leave alone (R214, R217). -/
theorem Enters.keeps {s t : State} {code : BitVec 16} {handler restore : Word}
    (h : Enters s t code handler restore) : EntryKeeps s t := by
  cases ep : s.psw.getLsbD bitEP with
  | false => exact (h.1 ep).keeps
  | true => exact (h.2 ep).keeps

/-- What both entries do to the masks: ID set, AE cleared, the level kept (R214, R217). -/
theorem Enters.masks {s t : State} {code : BitVec 16} {handler restore : Word}
    (h : Enters s t code handler restore) :
    t.psw.getLsbD bitID = true ∧ t.psw.getLsbD bitAE = false ∧ levelOf t.psw = levelOf s.psw := by
  have level : ∀ b, b < 16 → PswKeeps s t [b, bitID, bitAE] → levelOf t.psw = levelOf s.psw :=
    fun b hb hk => levelOf_congr fun n h1 _ => hk n (by simp [bitID, bitAE]; omega)
  cases ep : s.psw.getLsbD bitEP with
  | false => exact ⟨(h.1 ep).id, (h.1 ep).ae, level bitEP (by decide) (h.1 ep).psw⟩
  | true => exact ⟨(h.2 ep).id, (h.2 ep).ae, level bitNP (by decide) (h.2 ep).psw⟩

/-- Settles O29: by what the instruction did to the system registers, and an entry by whether it was
regular or duplexed. -/
theorem systemRegistersProtected : Obligations.SystemRegistersProtected := by
  intro i s t h
  cases exec_system h with
  | kept hs hp =>
    obtain ⟨eipc, eipsw, fepc, fepsw, ecr, pir, tkcw, chcw, adtre⟩ := hs
    refine ⟨pir, tkcw, .inr ⟨chcw, adtre⟩, .inr (.inl ⟨eipc, eipsw⟩), .inr (.inl ⟨fepc, fepsw⟩),
      .inl (by rw [ecr]), .inl (by rw [ecr]), .inr ?_⟩
    rcases hp with hi | hi | hi | hk
    · exact .inl hi
    · exact .inr (.inl hi)
    · exact .inr (.inr (.inl hi))
    · exact .inr (.inr (.inr (.inl hk)))
  | ldsr r n hi pir tkcw ecr hp =>
    refine ⟨pir, tkcw, .inl ⟨r, n, hi⟩, .inl ⟨r, n, hi⟩, .inl ⟨r, n, hi⟩, .inl (by rw [ecr]),
      .inl (by rw [ecr]), ?_⟩
    rcases hp with rfl | hp
    · exact .inl ⟨r, hi⟩
    · exact .inr (.inr (.inr (.inr (.inl fun m _ _ => by rw [hp]))))
  | entry u code handler restore hu np hent =>
    have high : ∀ n, 10 ≤ n → u.psw.getLsbD n = s.psw.getLsbD n := fun n hn => hu.psw n (.inr hn)
    have np' : s.psw.getLsbD bitNP = false := (high bitNP (by decide)).symm.trans np
    have keeps := hent.keeps
    obtain ⟨id, ae, level⟩ := hent.masks
    have level' : levelOf t.psw = levelOf s.psw :=
      level.trans (levelOf_congr fun n h1 _ => high n (by omega))
    obtain ⟨eipc, eipsw, fepc, fepsw, ecr, pir, tkcw, chcw, adtre⟩ := hu.quiet.1.system
    refine ⟨keeps.pir.trans pir, keeps.tkcw.trans tkcw,
      .inr ⟨keeps.chcw.trans chcw, keeps.adtre.trans adtre⟩, ?_⟩
    cases ep : s.psw.getLsbD bitEP with
    | false =>
      have hr := hent.1 ((high bitEP (by decide)).trans ep)
      have npt : t.psw.getLsbD bitNP = false := (hr.psw bitNP (by decide)).trans np
      exact ⟨.inr (.inr ⟨np', rfl, hr.ep⟩), .inr (.inl ⟨hr.fepc.trans fepc, hr.fepsw.trans fepsw⟩),
        .inr ⟨np', rfl, hr.ep⟩, .inl (by rw [hr.fecc, ecr]),
        .inr (.inr (.inr (.inr (.inr ⟨np', fun _ => ⟨hr.ep, npt⟩, nofun, id, ae, level'⟩))))⟩
    | true =>
      have hd := hent.2 ((high bitEP (by decide)).trans ep)
      have ept : t.psw.getLsbD bitEP = true :=
        (hd.psw bitEP (by decide)).trans ((high bitEP (by decide)).trans ep)
      exact ⟨.inr (.inl ⟨hd.eipc.trans eipc, hd.eipsw.trans eipsw⟩), .inr (.inr ⟨np', rfl, hd.np⟩),
        .inl (by rw [hd.eicc, ecr]), .inr ⟨np', rfl, hd.np⟩,
        .inr (.inr (.inr (.inr (.inr ⟨np', nofun, fun _ => ⟨ept, hd.np⟩, id, ae, level'⟩))))⟩

end Sys2Proof.Machine
end

-- Proofs of the family 10_state: one step.
section
/-! PROOFS. A step runs the instruction at the pc (spec/10_state.md R15, spec/20_memory.md R31), and a
halted machine waits (spec/41_imm_reg.md R110). -/

namespace Sys2Proof.Machine

/-- The instruction decoded from the bytes at the pc comes from the two halfwords there, the second
counting only for a long one (R31, R50). -/
theorem decodeWords_atPc {s : State} {i : Instr} {rest : List Byte}
    (h : decode s.bytesAtPc = .ok (i, rest)) :
    decodeWords s.halvesAtPc.1 (if isLong s.halvesAtPc.1 then s.halvesAtPc.2 else 0) = .ok i := by
  rw [decode_atPc] at h
  split at h
  · rename_i j hj
    cases h
    exact hj
  · cases h

/-- The unused fields of a decoded instruction do not depend on a halfword that is not its own (R76). -/
theorem unusedField_decoded {hw0 hw1 hw1' : Half} {i : Instr} (h : decodeWords hw0 hw1' = .ok i) :
    unusedField i hw0 (if isLong hw0 then hw1 else 0) = unusedField i hw0 hw1 := by
  cases hl : isLong hw0 with
  | true => rw [if_pos rfl]
  | false =>
    have short : i.length = 2 := by
      rw [(decodeWords_length h).2, lengthOf, hl]
      rfl
    exact unusedField_short i _ _ _ short

/-- When no unused field is refused (R74, R76). -/
theorem strictField_none {c : Config} {i : Instr} {w : Half × Half}
    (h : c.strictUnusedFields = false ∨ unusedField i w.1 w.2 = none ∨
      (c.hasEiDi = false ∧ (i = .ei ∨ i = .di))) : strictField c i w = none := by
  unfold strictField
  rcases h with hs | hf | ⟨he, hi⟩
  · rw [hs]
    rfl
  · rw [hf, ite_self]
  · refine if_pos ?_
    rw [he]
    rcases hi with rfl | rfl <;> simp

/-- Words that decode to an instruction with no unused field refused are run. -/
theorem runWords_ok {run : Instr → State → Result} {w : Half × Half} {s : State} {i : Instr}
    (h : decodeWords w.1 w.2 = .ok i) (hs : strictField s.config i w = none) :
    runWords run w s = run i s := by
  unfold runWords
  rw [h]
  dsimp only
  rw [hs]

/-- With no address trap due, the instruction at the pc is fetched (R213). -/
theorem runInstruction_of_executes {run : Instr → State → Result} {s : State} (h : s.Executes) :
    runInstruction run s = bindOutcome (fetchWords s) fun r => runWords run r.1 r.2 := by
  refine if_neg fun c => h.noTrap ?_
  simpa only [State.addressTrapDue, Bool.and_eq_true, beq_iff_eq] using c

/-- Settles O11: no event and no trap, so the halfwords at the pc are fetched, decoded and run. -/
theorem stepRunsDecodedInstruction : Obligations.StepRunsDecodedInstruction := by
  intro s i rest he hu hp hx hx2 hd hf
  have hw := decodeWords_atPc hd
  have long : isLong s.halvesAtPc.1 = true → s.Executable (s.pc + 2) := fun hl =>
    hx2 (by rw [(decodeWords_length hw).2, lengthOf, hl]; rfl)
  have config : s.fetched.config = s.config := by rw [fetched_eq]
  have strict : strictField s.fetched.config i
      (s.halvesAtPc.1, if isLong s.halvesAtPc.1 then s.halvesAtPc.2 else 0) = none := by
    refine strictField_none ?_
    rw [config, unusedField_decoded hw]
    exact hf
  rw [step, stepWith_of_running he.noEvent he.running he.notStopped, runInstruction_of_executes he,
    fetchWords_at hu hp hx long, bindOutcome_next, runWords_ok hw strict]

/-- A halted machine at a boundary without an event only uses up the sample (R110, log entry 20). -/
theorem stepWith_of_halted {run : Instr → State → Result} {s : State} (h : s.NoEvent)
    (hh : s.halted = true) (hs : s.stopped = false) : stepWith run s = .next s.dropSample := by
  unfold stepWith
  rw [if_neg (by simp [h.1]), if_neg (by simp [hs]), acceptedEvent_none_of_noEvent h]
  exact if_pos hh

/-- Settles O26: with `halted` put back `halt` is the advance; a halted machine waits. -/
theorem haltWaits : Obligations.HaltWaits := by
  intro s
  exact ⟨⟨_, rfl, rfl, advance_effect 2 s⟩, fun hh hs hn => stepWith_of_halted hn hh hs⟩

end Sys2Proof.Machine
end

-- Proofs of the family 20_memory: fetches.
section
/-! PROOFS. What a fetch answers and what it remembers, with the cache on and off (spec/20_memory.md R46). -/

namespace Sys2Proof.Machine

/-- What is remembered after a fetch: under `explicit_clear` also the halfword fetched (R46). -/
theorem mem_remember {s : State} {a : Word} {now : Half} {c : Nat × Half} :
    c ∈ (s.remember a now).icache ↔
      c ∈ s.icache ∨ (s.config.icache = .explicitClear ∧ c = (a.toNat, now)) := by
  unfold State.remember
  split
  · rename_i h
    simp only [List.mem_cons, h.1, true_and, or_comm]
  · rename_i h
    exact ⟨.inl, fun hc => hc.elim id fun ⟨hk, e⟩ => by_contra fun hn => h ⟨hk, e ▸ hn⟩⟩

/-- Without `explicit_clear` nothing is remembered. -/
theorem remember_of_not_explicitClear {s : State} (h : s.config.icache ≠ .explicitClear) (a : Word)
    (now : Half) : s.remember a now = s :=
  if_neg fun c => h c.1

/-- The cache is off exactly where fetches answer what memory holds (R46). -/
theorem uncached_iff {s : State} : s.Uncached ↔ s.cacheOn = false := by
  simp only [State.Uncached, State.cacheOn, Bool.and_eq_false_iff, beq_eq_false_iff_ne, ne_eq]

/-- With the cache off a fetch answers what memory holds, and draws nothing. -/
theorem cachedFetch_off {s : State} (h : s.cacheOn = false) (a : Word) (now : Half) :
    cachedFetch a now s = (now, s.remember a now) := by
  unfold cachedFetch
  rw [h]
  rfl

/-- With the cache on it answers that, or, by a free choice, a halfword remembered for the address (R46,
log entry 11). -/
theorem cachedFetch_answer (a : Word) (now : Half) (s : State) :
    (cachedFetch a now s).1 = now ∨ (a.toNat, (cachedFetch a now s).1) ∈ s.icache := by
  cases hc : s.cacheOn with
  | false => exact .inl (by rw [cachedFetch_off hc])
  | true =>
    unfold cachedFetch
    rw [hc, if_pos rfl]
    split
    · exact .inl rfl
    · dsimp only
      rw [List.getD_eq_getElem _ _ (Nat.mod_lt _ (List.length_pos_of_ne_nil (List.cons_ne_nil _ _)))]
      exact (List.mem_cons.mp (List.getElem_mem _)).imp id staleHalves_mem

/-- Settles O17: by what a fetch answers, and by what is remembered after it. -/
theorem fetchCoherence : Obligations.FetchCoherence := by
  intro a s t h hf now
  have cached : (h, t) = cachedFetch a now s := by
    rw [(fetch16_next hf).2, half_readBytes]
  have answer : h = (cachedFetch a now s).1 := congrArg Prod.fst cached
  have cache : t.icache = (s.remember a now).icache := by
    rw [show t = _ from congrArg Prod.snd cached, cachedFetch_state]
  have off : s.Uncached → h = now ∧ t = s.remember a now := fun hu =>
    Prod.mk.inj (cached.trans (cachedFetch_off (uncached_iff.mp hu) a now))
  rw [cache]
  refine ⟨fun hu => ?_, answer ▸ cachedFetch_answer a now s,
    fun c hc => (mem_remember.mp hc).imp id And.right, fun c hc => mem_remember.mpr (.inl hc),
    fun hk => mem_remember.mpr (.inr ⟨hk, rfl⟩), fun hk => ?_, cache ▸ fetch16_state hf⟩
  · obtain ⟨hnow, rfl⟩ := off hu
    exact ⟨hnow, by rw [remember_eq]⟩
  · rw [(off (.inl hk)).2, remember_of_not_explicitClear hk]

end Sys2Proof.Machine
end

-- Proofs of the family 20_memory: what writes the spaces.
section
/-! PROOFS. Which instructions write memory and ports (spec/20_memory.md R30, R33), and the dump of a fatal
exception (spec/60_exceptions.md R214, R219). -/

namespace Sys2Proof.Machine

/-- The table of the instructions that write ports, in words. -/
theorem writesPorts_cases {i : Instr} (h : writesPorts i = true) :
    ∃ r d b, i = .outB r d b ∨ i = .outH r d b ∨ i = .outW r d b := by
  cases i with
  | outB r d b => exact ⟨r, d, b, .inl rfl⟩
  | outH r d b => exact ⟨r, d, b, .inr (.inl rfl)⟩
  | outW r d b => exact ⟨r, d, b, .inr (.inr rfl)⟩
  | _ => cases h

/-- The table of the instructions that write memory, in words. -/
theorem writesMemory_cases {i : Instr} (h : writesMemory i = true) :
    (∃ r d b, i = .stB r d b ∨ i = .stH r d b ∨ i = .stW r d b ∨ i = .caxi d b r ∨
      i = .outB r d b ∨ i = .outH r d b ∨ i = .outW r d b) ∨ (stringFunction i).isSome := by
  cases i with
  | stB r d b => exact .inl ⟨r, d, b, by simp⟩
  | stH r d b => exact .inl ⟨r, d, b, by simp⟩
  | stW r d b => exact .inl ⟨r, d, b, by simp⟩
  | caxi d b r => exact .inl ⟨r, d, b, by simp⟩
  | outB r d b => exact .inl ⟨r, d, b, by simp⟩
  | outH r d b => exact .inl ⟨r, d, b, by simp⟩
  | outW r d b => exact .inl ⟨r, d, b, by simp⟩
  | orbsu | andbsu | xorbsu | movbsu | ornbsu | andnbsu | xornbsu | notbsu => exact .inr rfl
  | _ => cases h

/-- `ldsr` writes neither space (R111). -/
theorem writeSystem_spaces {n : BitVec 5} {v : Word} {s t : State} (h : writeSystem n v s = .next t) :
    t.mem = s.mem ∧ t.io = s.io := by
  unfold writeSystem at h
  split at h
  case h_9 =>
    unfold writeChcw at h
    split at h
    · cases h
    · cases h; exact ⟨rfl, rfl⟩
  case h_11 => cases h
  all_goals
    cases h
    exact ⟨rfl, rfl⟩

/-- `reti` writes neither space (R109). -/
theorem returnFromException_spaces (s : State) :
    (returnFromException s).mem = s.mem ∧ (returnFromException s).io = s.io := by
  unfold returnFromException
  split <;> exact ⟨rfl, rfl⟩

/-- Taking an exception writes neither space, but for a fatal dump to memory (R214, R217, R219). -/
theorem raise_spaces {e : Exc} {restore : Word} {s t : State} (h : raise e restore s = .next t) :
    t.io = s.io ∧ (t.mem = s.mem ∨
      (s.psw.getLsbD bitNP = true ∧ s.config.fatalAction = .stopWithDump ∧ t.stopped = true ∧
        ∀ c, 12 ≤ c → readByte t.mem c = readByte s.mem c)) := by
  rcases raise_next h with ⟨-, -, rfl⟩ | ⟨np, dump, hd⟩ | ⟨-, -, rfl⟩ | ⟨-, -, rfl⟩
  · exact ⟨rfl, .inl rfl⟩
  · obtain ⟨u, -, io, rfl, mem⟩ := ordinary_fatalDump hd
    exact ⟨io, .inr ⟨np, dump, rfl, mem⟩⟩
  · exact ⟨rfl, .inl rfl⟩
  · exact ⟨rfl, .inl rfl⟩

theorem sameMemory_of_eq {s t : State} (h : t.mem = s.mem) : SameMemory s t := fun _ => by rw [h]

theorem samePorts_of_eq {s t : State} (h : t.io = s.io) : SamePorts s t := fun _ => by rw [h]

/-- Settles O30: by what an instruction can do; an exception, after its sticky bits, writes memory only in
a fatal dump. -/
theorem onlyStoresWrite : Obligations.OnlyStoresWrite := by
  intro i s t h
  cases exec_next i s t h with
  | ordinary _ hm hp =>
    refine ⟨hp.imp samePorts_of_eq writesPorts_cases, ?_⟩
    rcases hm with hm | hw
    · exact .inl (sameMemory_of_eq hm)
    · exact .inr (.inr (writesMemory_cases hw))
  | exception e restore u hu hr =>
    obtain ⟨io, mem⟩ := raise_spaces hr
    obtain ⟨-, umem, uio⟩ := hu.quiet
    refine ⟨.inl (samePorts_of_eq (io.trans uio)), ?_⟩
    rcases mem with mem | ⟨np, dump, stopped, above⟩
    · exact .inl (sameMemory_of_eq (mem.trans umem))
    · have np' := (hu.psw bitNP (.inr (by decide))).symm.trans np
      have dump' : s.config.fatalAction = .stopWithDump := by
        rw [hu.rest] at dump
        exact dump
      rw [umem] at above
      exact .inr (.inl ⟨np', dump', stopped, above⟩)
  | ldsr r n u _ hw ht =>
    subst ht
    obtain ⟨mem, io⟩ := writeSystem_spaces hw
    exact ⟨.inl (samePorts_of_eq io), .inl (sameMemory_of_eq mem)⟩
  | reti _ ht =>
    subst ht
    obtain ⟨mem, io⟩ := returnFromException_spaces s
    exact ⟨.inl (samePorts_of_eq io), .inl (sameMemory_of_eq mem)⟩
  | ei _ ht | di _ ht | halt _ ht =>
    subst ht
    exact ⟨.inl fun _ => rfl, .inl fun _ => rfl⟩

end Sys2Proof.Machine
end

-- Proofs of the family 20_memory: inputs and outputs.
section
/-! PROOFS. What answers at a port, and the port inputs and outputs from and to it
(spec/20_memory.md R33, R39, spec/44_load_store.md R157-R163). -/

namespace Sys2Proof.Machine

/-! ## What answers at a port -/

theorem portPlace_storage {s : State} {a : Nat} : s.portPlace a = .storage ↔ s.ioKind a = .storage := by
  unfold State.portPlace
  cases s.ioKind a with
  | aliasMemory => simp [memPlace_not_storage]
  | _ => simp

theorem portPlace_ram {s : State} {a : Nat} :
    s.portPlace a = .ram ↔ s.ioKind a = .aliasMemory ∧ s.memKind a = .ram := by
  unfold State.portPlace
  cases s.ioKind a with
  | aliasMemory => simp [memPlace_ram]
  | _ => simp

theorem portPlace_rom {s : State} {a : Nat} :
    s.portPlace a = .rom ↔ s.ioKind a = .aliasMemory ∧ s.memKind a = .rom := by
  unfold State.portPlace
  cases s.ioKind a with
  | aliasMemory => simp [memPlace_rom]
  | _ => simp

/-- A device is reached as a port, or as memory where the ports are memory (R33). -/
theorem portPlace_device {s : State} {a n : Nat} {space : Space}
    (h : (s.PortAll .device a n ∧ space = .io) ∨
      (s.PortAll .aliasMemory a n ∧ s.MemAll .device a n ∧ space = .memory)) :
    ∀ k, k < n → s.portPlace (a + k) = .device space := by
  intro k hk
  rcases h with ⟨hp, rfl⟩ | ⟨hp, hm, rfl⟩
  · simp only [State.portPlace, hp k hk]
  · rw [portPlace_alias (hp k hk), memPlace_device.mpr (hm k hk)]

/-! ## Inputs and outputs whose ports differ (R33, log entry 12) -/

/-- The bytes of an input that touches no device: from plain storage, or from memory. -/
def portByte (s : State) (a k : Nat) : Byte :=
  if s.ioKind (a + k) = .storage then readByte s.io (a + k) else readByte s.mem (a + k)

/-- A read of ports each of which is plain storage, or memory that is ram or rom. -/
theorem ioRead_bytes {w : Width} {a : Word} {s : State}
    (h : ∀ k, k < w.bytes → s.ioKind (a.toNat + k) = .storage ∨
      (s.ioKind (a.toNat + k) = .aliasMemory ∧
        (s.memKind (a.toNat + k) = .ram ∨ s.memKind (a.toNat + k) = .rom))) :
    ioRead w a s = .next (gatherBytes (portByte s a.toNat) w.bytes, s) := by
  have places : ∀ k, k < w.bytes → s.portPlace (a.toNat + k) = .storage ∨
      s.portPlace (a.toNat + k) = .ram ∨ s.portPlace (a.toNat + k) = .rom := fun k hk =>
    (h k hk).imp portPlace_storage.mpr fun ⟨hp, hm⟩ =>
      hm.imp (portPlace_ram.mpr ⟨hp, ·⟩) (portPlace_rom.mpr ⟨hp, ·⟩)
  have byte : ∀ k, k < w.bytes →
      placeByte s.portPlace s a.toNat 0 0 (a.toNat + k) = portByte s a.toNat k := fun k hk => by
    unfold placeByte portByte
    rcases places k hk with hp | hp | hp
    · rw [hp, if_pos (portPlace_storage.mp hp)]
    · rw [hp, (portPlace_ram.mp hp).1]
      rfl
    · rw [hp, (portPlace_rom.mp hp).1]
      rfl
  have quiet : ∀ k, k < w.bytes → ∀ sp, s.portPlace (a.toNat + k) ≠ .unmapped sp ∧
      s.portPlace (a.toNat + k) ≠ .device sp := fun k hk sp => by
    rcases places k hk with hp | hp | hp <;> simp [hp]
  rw [ioRead, readAccess_quiet (fun k hk sp => (quiet k hk sp).1) (fun k hk sp => (quiet k hk sp).2),
    gatherBytes_congr byte]

/-- An input whose ports differ: each byte from what answers at its own port. -/
theorem inputPort_bytes (w : Width) (d : BitVec 16) (r1 r2 : RegIdx) (s : State)
    (h : ∀ k, k < w.bytes → s.ioKind ((accessAddr w d r1 s).toNat + k) = .storage ∨
      (s.ioKind ((accessAddr w d r1 s).toNat + k) = .aliasMemory ∧
        (s.memKind ((accessAddr w d r1 s).toNat + k) = .ram ∨
          s.memKind ((accessAddr w d r1 s).toNat + k) = .rom))) :
    ∃ t, inputPort w d r1 r2 s = .next t ∧
      Effect s t
        [(r2, BitVec.ofNat 32 (bytesValue (portByte s (accessAddr w d r1 s).toNat) w.bytes))] []
        (s.pc + 4) := by
  unfold inputPort
  rw [ioRead_bytes h, bindOutcome_next, gatherBytes_eq_bytesValue]
  exact finishPlain_effect _ _ _ _

/-- An output whose ports differ: each byte to what answers at its own port. -/
theorem outputPort_bytes (w : Width) (d : BitVec 16) (r1 r2 : RegIdx) (s : State)
    (h : ∀ k, k < w.bytes → s.ioKind ((accessAddr w d r1 s).toNat + k) = .storage ∨
      (s.ioKind ((accessAddr w d r1 s).toNat + k) = .aliasMemory ∧
        s.memKind ((accessAddr w d r1 s).toNat + k) = .ram)) :
    ∃ t, outputPort w r2 d r1 s = .next t ∧ CoreEffect s t [] [] (s.pc + 4) ∧ NoDevice s t ∧
      (∀ c, readByte t.io c =
        if (accessAddr w d r1 s).toNat ≤ c ∧ c < (accessAddr w d r1 s).toNat + w.bytes ∧
            s.ioKind c = .storage then
          (s.readReg r2).extractLsb' (8 * (c - (accessAddr w d r1 s).toNat)) 8
        else readByte s.io c) ∧
      (∀ c, readByte t.mem c =
        if (accessAddr w d r1 s).toNat ≤ c ∧ c < (accessAddr w d r1 s).toNat + w.bytes ∧
            s.ioKind c = .aliasMemory then
          (s.readReg r2).extractLsb' (8 * (c - (accessAddr w d r1 s).toNat)) 8
        else readByte s.mem c) := by
  generalize ha : accessAddr w d r1 s = a at h ⊢
  have places : ∀ k, k < w.bytes → s.portPlace (a.toNat + k) = .ram ∨
      s.portPlace (a.toNat + k) = .storage := fun k hk =>
    (h k hk).symm.imp portPlace_ram.mpr portPlace_storage.mpr
  have ram_iff_alias : ∀ c, a.toNat ≤ c → c < a.toNat + w.bytes →
      (s.memKind c = .ram ∧ s.ioKind c = .aliasMemory ↔ s.ioKind c = .aliasMemory) := fun c h1 h2 => by
    obtain ⟨k, rfl⟩ := Nat.exists_eq_add_of_le h1
    refine and_iff_right_of_imp fun hp => ?_
    rcases h k (by omega) with hs | ⟨-, hm⟩
    · exact absurd (hs.symm.trans hp) (by decide)
    · exact hm
  unfold outputPort ioWrite
  rw [ha, writeAccess_quiet places, bindOutcome_next]
  refine ⟨_, rfl, coreEffect_advance rfl 4 rfl, ⟨rfl, rfl⟩, fun c => ?_, fun c => ?_⟩
  · refine (readByte_writeBytesWhere _ _ _ _ _ c).trans ?_
    simp only [beq_iff_eq, portPlace_storage]
  · refine (readByte_writeBytesWhere _ _ _ _ _ c).trans (if_congr ?_ rfl rfl)
    rw [beq_iff_eq, portPlace_ram, and_comm (a := s.ioKind c = _)]
    exact and_congr_right fun h1 => and_congr_right fun h2 => ram_iff_alias c h1 h2

/-! ## The obligations -/

/-- An input from a device, as a port or as memory. -/
theorem inputPort_of_device (w : Width) (d : BitVec 16) (r1 r2 : RegIdx) (s : State) (space : Space)
    (h : (s.PortAll .device (accessAddr w d r1 s).toNat w.bytes ∧ space = .io) ∨
      (s.PortAll .aliasMemory (accessAddr w d r1 s).toNat w.bytes ∧
        s.MemAll .device (accessAddr w d r1 s).toNat w.bytes ∧ space = .memory)) :
    ∃ t v, inputPort w d r1 r2 s = .next t ∧
      DeviceWasRead s t space (accessAddr w d r1 s) w.bytes v ∧
      CoreEffect s t [(r2, v)] [] (s.pc + 4) ∧ SameMemory s t ∧ SamePorts s t :=
  inputPort_device w d r1 r2 s space (readAccess_device (portPlace_device h))

/-- An output to a device, as a port or as memory. -/
theorem outputPort_of_device (w : Width) (d : BitVec 16) (r1 r2 : RegIdx) (s : State) (space : Space)
    (h : (s.PortAll .device (accessAddr w d r1 s).toNat w.bytes ∧ space = .io) ∨
      (s.PortAll .aliasMemory (accessAddr w d r1 s).toNat w.bytes ∧
        s.MemAll .device (accessAddr w d r1 s).toNat w.bytes ∧ space = .memory)) :
    ∃ t, outputPort w r2 d r1 s = .next t ∧
      DeviceWasWritten s t space (accessAddr w d r1 s) w.bytes (s.readReg r2) ∧
      CoreEffect s t [] [] (s.pc + 4) ∧ SameMemory s t ∧ SamePorts s t :=
  outputPort_device w d r1 r2 s space (writeAccess_device (portPlace_device h))

/-- Settles O48: a clause for each place a byte can come from, at each width. -/
theorem portInputs : Obligations.PortInputs := by
  intro d r1 r2 s ea p hp
  simp only [List.mem_cons, List.not_mem_nil, or_false] at hp
  rcases hp with rfl | rfl | rfl
  · exact ⟨inputPort_of_device .byte d r1 r2 s, inputPort_storage .byte d r1 r2 s,
      inputPort_alias_plain .byte d r1 r2 s, inputPort_bytes .byte d r1 r2 s⟩
  · exact ⟨inputPort_of_device .half d r1 r2 s, inputPort_storage .half d r1 r2 s,
      inputPort_alias_plain .half d r1 r2 s, inputPort_bytes .half d r1 r2 s⟩
  · exact ⟨inputPort_of_device .word d r1 r2 s, inputPort_storage .word d r1 r2 s,
      inputPort_alias_plain .word d r1 r2 s, inputPort_bytes .word d r1 r2 s⟩

/-- Settles O49: a clause for each place a byte can go to, at each width. -/
theorem portOutputs : Obligations.PortOutputs := by
  intro d r1 r2 s ea p hp
  simp only [List.mem_cons, List.not_mem_nil, or_false] at hp
  rcases hp with rfl | rfl | rfl
  · exact ⟨outputPort_of_device .byte d r1 r2 s, outputPort_storage .byte d r1 r2 s,
      outputPort_alias_ram .byte d r1 r2 s, outputPort_bytes .byte d r1 r2 s⟩
  · exact ⟨outputPort_of_device .half d r1 r2 s, outputPort_storage .half d r1 r2 s,
      outputPort_alias_ram .half d r1 r2 s, outputPort_bytes .half d r1 r2 s⟩
  · exact ⟨outputPort_of_device .word d r1 r2 s, outputPort_storage .word d r1 r2 s,
      outputPort_alias_ram .word d r1 r2 s, outputPort_bytes .word d r1 r2 s⟩

end Sys2Proof.Machine
end

-- Proofs of the family 20_memory: accesses that stop.
section
/-! PROOFS. Loads, stores, inputs, outputs and `caxi` with no architected result
(spec/20_memory.md R39, R48). -/

namespace Sys2Proof.Machine

/-! ## An access depends on its own bytes alone -/

theorem memSome_congr {s t : State} {kind : MemKind} {a n : Nat} (h : t.config = s.config) :
    t.MemSome kind a n ↔ s.MemSome kind a n := by
  simp only [State.MemSome, memKind_congr h]

theorem memMapped_congr {s t : State} {a n : Nat} (h : t.config = s.config) :
    t.MemMapped a n ↔ s.MemMapped a n := by
  simp only [State.MemMapped, memKind_congr h]

theorem touches_congr {place place' : Nat → Place} {a n : Nat}
    (h : ∀ k, k < n → place' (a + k) = place (a + k)) (p : Place) :
    touches place' a n p = touches place a n p := by
  rw [Bool.eq_iff_iff, touches_eq_true, touches_eq_true]
  exact exists_congr fun k => and_congr_right fun hk => by rw [h k hk]

theorem writeBytesWhere_congr {p q : Nat → Bool} {a n : Nat} (h : ∀ k, k < n → q (a + k) = p (a + k))
    (m : Memory) (v : Word) : writeBytesWhere q m a n v = writeBytesWhere p m a n v := by
  induction n generalizing m a v with
  | zero => rfl
  | succ n ih =>
    have h0 : q a = p a := h 0 (by omega)
    rw [writeBytesWhere, writeBytesWhere, h0, ih fun k hk => by
      rw [Nat.add_assoc, Nat.add_comm 1 k]
      exact h (k + 1) (by omega)]

/-- An access only depends on what answers at its own bytes. -/
theorem readAccess_congr {place place' : Nat → Place} {w : Width} {a : Word} {s : State}
    (h : ∀ k, k < w.bytes → place' (a.toNat + k) = place (a.toNat + k)) :
    readAccess place' w a s = readAccess place w a s := by
  have byte : ∀ m p, gatherBytes (fun k => placeByte place' s a.toNat m p (a.toNat + k)) w.bytes =
      gatherBytes (fun k => placeByte place s a.toNat m p (a.toNat + k)) w.bytes := fun m p =>
    gatherBytes_congr fun k hk => by simp only [placeByte, h k hk]
  simp only [readAccess, touches_congr h, byte]

theorem writeAccess_congr {place place' : Nat → Place} {w : Width} {a v : Word} {s : State}
    (h : ∀ k, k < w.bytes → place' (a.toNat + k) = place (a.toNat + k)) :
    writeAccess place' w a v s = writeAccess place w a v s := by
  have bytes : ∀ p m, writeBytesWhere (fun c => place' c == p) m a.toNat w.bytes v =
      writeBytesWhere (fun c => place c == p) m a.toNat w.bytes v := fun p =>
    fun m => writeBytesWhere_congr (fun k hk => congrArg (· == p) (h k hk)) m v
  simp only [writeAccess, touches_congr h, bytes]

/-- Where the ports are memory, an input is a memory read (R33). -/
theorem ioRead_alias {w : Width} {a : Word} {s : State} (h : s.PortAll .aliasMemory a.toNat w.bytes) :
    ioRead w a s = memRead w a s :=
  readAccess_congr fun k hk => portPlace_alias (h k hk)

/-- And an output a memory write. -/
theorem ioWrite_alias {w : Width} {a v : Word} {s : State}
    (h : s.PortAll .aliasMemory a.toNat w.bytes) : ioWrite w a v s = memWrite w a v s :=
  writeAccess_congr fun k hk => portPlace_alias (h k hk)

/-! ## Accesses that stop -/

theorem touches_unmappedPort {s : State} {a n : Nat} (h : ∃ k, k < n ∧ s.ioKind (a + k) = .none) :
    touches s.portPlace a n (.unmapped .io) = true := by
  obtain ⟨k, hk, hn⟩ := h
  exact touches_eq_true.mpr ⟨k, hk, by simp only [State.portPlace, hn]⟩

/-- An unmapped port has no step (R48). -/
theorem ioRead_none {w : Width} {a : Word} {s : State}
    (h : ∃ k, k < w.bytes ∧ s.ioKind (a.toNat + k) = .none) :
    ioRead w a s = .fault (.unmappedPort a.toNat) :=
  if_pos (touches_unmappedPort h)

theorem ioWrite_none {w : Width} {a v : Word} {s : State}
    (h : ∃ k, k < w.bytes ∧ s.ioKind (a.toNat + k) = .none) :
    ioWrite w a v s = .fault (.unmappedPort a.toNat) :=
  if_pos (touches_unmappedPort h)

section
variable {w : Width} {d : BitVec 16} {r1 r2 : RegIdx} {s : State} {r : Fault}

/-- A load stops where its read does. -/
theorem loadMem_fault (h : memRead w (accessAddr w d r1 s) s = .fault r) :
    loadMem w d r1 r2 s = .fault r := by
  rw [loadMem, h, bindOutcome_fault]

theorem storeMem_fault (h : memWrite w (accessAddr w d r1 s) (s.readReg r2) s = .fault r) :
    storeMem w r2 d r1 s = .fault r := by
  rw [storeMem, h, bindOutcome_fault]

theorem inputPort_fault (h : ioRead w (accessAddr w d r1 s) s = .fault r) :
    inputPort w d r1 r2 s = .fault r := by
  rw [inputPort, h, bindOutcome_fault]

theorem outputPort_fault (h : ioWrite w (accessAddr w d r1 s) (s.readReg r2) s = .fault r) :
    outputPort w r2 d r1 s = .fault r := by
  rw [outputPort, h, bindOutcome_fault]

end

/-- The loads, stores, inputs and outputs of one width that have no step (R48). -/
theorem access_stops (w : Width) (d : BitVec 16) (r1 r2 : RegIdx) (s : State) :
    let a := (accessAddr w d r1 s).toNat
    let n := w.bytes
    (s.MemSome .none a n → loadMem w d r1 r2 s = .fault (.unmappedAddress a) ∧
      storeMem w r2 d r1 s = .fault (.unmappedAddress a)) ∧
    (s.MemMapped a n → s.MemSome .rom a n → storeMem w r2 d r1 s = .fault (.romWrite a)) ∧
    ((∃ k, k < n ∧ s.ioKind (a + k) = .none) → inputPort w d r1 r2 s = .fault (.unmappedPort a) ∧
      outputPort w r2 d r1 s = .fault (.unmappedPort a)) ∧
    (s.PortAll .aliasMemory a n → s.MemSome .none a n →
      inputPort w d r1 r2 s = .fault (.unmappedAddress a) ∧
      outputPort w r2 d r1 s = .fault (.unmappedAddress a)) ∧
    (s.PortAll .aliasMemory a n → s.MemMapped a n → s.MemSome .rom a n →
      outputPort w r2 d r1 s = .fault (.romWrite a)) :=
  ⟨fun hn => ⟨loadMem_fault (memRead_none hn), storeMem_fault (memWrite_none hn)⟩,
    fun hm hr => storeMem_fault (memWrite_rom hm hr),
    fun hp => ⟨inputPort_fault (ioRead_none hp), outputPort_fault (ioWrite_none hp)⟩,
    fun hp hn => ⟨inputPort_fault ((ioRead_alias hp).trans (memRead_none hn)),
      outputPort_fault ((ioWrite_alias hp).trans (memWrite_none hn))⟩,
    fun hp hm hr => outputPort_fault ((ioWrite_alias hp).trans (memWrite_rom hm hr))⟩

/-- `caxi` where nothing answers has no step (R48). -/
theorem execCaxi_none (d : BitVec 16) (r1 r2 : RegIdx) (s : State)
    (h : s.MemSome .none (accessAddr .word d r1 s).toNat 4) :
    execCaxi d r1 r2 s = .fault (.unmappedAddress (accessAddr .word d r1 s).toNat) := by
  have hr := memRead_none (w := .word) h
  simp only [execCaxi, hr, bindOutcome_fault]

/-- `caxi` on rom: the read is made, the write has no step (R48). -/
theorem execCaxi_rom (d : BitVec 16) (r1 r2 : RegIdx) (s : State)
    (hm : s.MemMapped (accessAddr .word d r1 s).toNat 4)
    (h : s.MemSome .rom (accessAddr .word d r1 s).toNat 4) :
    execCaxi d r1 r2 s = .fault (.romWrite (accessAddr .word d r1 s).toNat) := by
  obtain ⟨v, t, hread, hc⟩ := memRead_mapped (w := .word) hm
  have hwrite : ∀ x, memWrite .word (accessAddr .word d r1 s) x t = _ := fun x =>
    memWrite_rom (w := .word) ((memMapped_congr hc).mpr hm) ((memSome_congr hc).mpr h)
  simp only [execCaxi, hread, bindOutcome_next, hwrite, bindOutcome_fault]

end Sys2Proof.Machine
end

-- Proofs of the family 20_memory: bit strings and fetches that stop.
section
/-! PROOFS. Where a bit string or a fetch meets nothing, a device or rom (spec/20_memory.md R39, R48,
spec/45_bitstring.md R173). -/

namespace Sys2Proof.Machine

/-! ## Bit strings that stop (R173) -/

theorem bindOutcome_assoc {α β γ : Type} (o : Host.Outcome α Fault Refusal)
    (f : α → Host.Outcome β Fault Refusal) (g : β → Host.Outcome γ Fault Refusal) :
    bindOutcome (bindOutcome o f) g = bindOutcome o fun x => bindOutcome (f x) g := by
  cases o <;> rfl

/-- A bit string written to rom has no step (R48). -/
theorem bsWrite_rom {s : State} {a : Word} (hm : s.MemPlain a.toNat 4) (h : s.MemSome .rom a.toNat 4)
    (v : Word) : bsWrite a v s = .fault (.romWrite a.toNat) := by
  obtain ⟨hu, hd⟩ := memPlain_touches hm
  simp only [bsWrite, hu, hd, (memTouches s a.toNat 4).2.2.1.mpr h, Bool.false_eq_true, if_false,
    if_true]

/-- A string-to-string operation with elements to run begins with its first one (R173). -/
theorem stringOp_begins {f : Bool → Bool → Bool} {s : State} (hb : s.breakPoint ≠ some 0)
    (hn : s.readReg 28 ≠ 0) (ho : ¬s.OverlapsAbove) :
    ∃ k, stringOp f s = bindOutcome (stringElement f (maskStringRegs s)) k := by
  obtain ⟨breaks, count, -⟩ := maskStringRegs_spec s
  obtain ⟨n, hrun⟩ := elementsToRun_pos (s := maskStringRegs s) (breaks ▸ hb) (count ▸ hn)
  rw [stringOp_runs ho, hrun, stringLoop, bindOutcome_assoc]
  exact ⟨_, rfl⟩

/-- The words of the first element, and the parameters they are accessed under. -/
theorem maskStringRegs_words (s : State) :
    (maskStringRegs s).sourcePtr.1 = alignTo .word (s.readReg 30) ∧
    (maskStringRegs s).destPtr.1 = alignTo .word (s.readReg 29) ∧
    (maskStringRegs s).config = s.config := by
  obtain ⟨-, -, src, dst, rest⟩ := maskStringRegs_spec s
  rw [src, dst, ← maskPtr_eq, ← maskPtr_eq, rest]
  exact ⟨rfl, rfl, rfl⟩

/-- A search with bits to test begins with the read of its first word (R174). -/
theorem searchOp_begins {b : Bool} {d : Direction} {s : State} (hb : s.breakPoint ≠ some 0)
    (hn : s.readReg 28 ≠ 0) :
    ∃ u k, u.config = s.config ∧
      searchOp b d s = bindOutcome (bsRead (alignTo .word (s.readReg 30)) u) k := by
  have breaks : (s.setSourcePtr (maskPtr s.sourcePtr)).breakPoint = s.breakPoint := by
    simp [State.breakPoint, State.setSourcePtr]
  have count : (s.setSourcePtr (maskPtr s.sourcePtr)).readReg 28 = s.readReg 28 := by
    simp [State.setSourcePtr, readReg_writeReg]
  have source : (s.setSourcePtr (maskPtr s.sourcePtr)).sourcePtr.1 = alignTo .word (s.readReg 30) := by
    simp [State.sourcePtr, State.setSourcePtr, readReg_writeReg, maskPtr, alignTo]
  obtain ⟨n, hrun⟩ := elementsToRun_pos (s := s.setSourcePtr (maskPtr s.sourcePtr)) (breaks ▸ hb)
    (count ▸ hn)
  unfold searchOp
  dsimp only
  rw [hrun, searchLoop, source, bindOutcome_assoc]
  exact ⟨_, _, by simp [State.setSourcePtr], rfl⟩

/-- The first access of a bit-string instruction is the read of its source (R173, R174). -/
theorem bitString_readsSource {i : Instr} {s : State}
    (hi : (stringFunction i).isSome ∨ (searchFunction i).isSome) (hb : s.breakPoint ≠ some 0)
    (hn : s.readReg 28 ≠ 0) (ho : (stringFunction i).isSome → ¬s.OverlapsAbove) :
    ∃ u k, u.config = s.config ∧
      exec i s = bindOutcome (bsRead (alignTo .word (s.readReg 30)) u) k := by
  rcases hi with hi | hi
  · obtain ⟨f, hf⟩ := Option.isSome_iff_exists.mp hi
    obtain ⟨k, hk⟩ := stringOp_begins (f := f) hb hn (ho hi)
    obtain ⟨src, -, config⟩ := maskStringRegs_words s
    rw [exec_stringFunction hf, hk, stringElement, src, bindOutcome_assoc]
    exact ⟨_, _, config, rfl⟩
  · obtain ⟨⟨b, d⟩, hf⟩ := Option.isSome_iff_exists.mp hi
    rw [exec_searchFunction hf]
    exact searchOp_begins hb hn

/-- Where the source answers, the next access is the read of the destination, then its write (R173). -/
theorem string_readsDest {i : Instr} {s : State} (hi : (stringFunction i).isSome)
    (hb : s.breakPoint ≠ some 0) (hn : s.readReg 28 ≠ 0) (ho : ¬s.OverlapsAbove)
    (hs : s.MemPlain (alignTo .word (s.readReg 30)).toNat 4) :
    ∃ (u : State) (v : Word → Word) (k : State → Result), u.config = s.config ∧
      exec i s = bindOutcome (bsRead (alignTo .word (s.readReg 29)) u) fun x =>
        bindOutcome (bsWrite (alignTo .word (s.readReg 29)) (v x) u) k := by
  obtain ⟨f, hf⟩ := Option.isSome_iff_exists.mp hi
  obtain ⟨k, hk⟩ := stringOp_begins (f := f) hb hn ho
  obtain ⟨src, dst, config⟩ := maskStringRegs_words s
  rw [exec_stringFunction hf, hk, stringElement, src, dst, bsRead_plain ((memPlain_congr config).mpr hs),
    bindOutcome_next, bindOutcome_assoc]
  simp only [bindOutcome_assoc]
  exact ⟨_, _, _, config, rfl⟩

/-- A bit string whose source is not there has no step, one whose source is on a device is refused
(R48, R173). -/
theorem bitString_source_stops {i : Instr} {s : State}
    (hi : (stringFunction i).isSome ∨ (searchFunction i).isSome) (hb : s.breakPoint ≠ some 0)
    (hn : s.readReg 28 ≠ 0) (ho : (stringFunction i).isSome → ¬s.OverlapsAbove) :
    let src := (alignTo .word (s.readReg 30)).toNat
    (s.MemSome .none src 4 → exec i s = .fault (.unmappedAddress src)) ∧
    (s.MemMapped src 4 → s.MemSome .device src 4 →
      exec i s = .refused (.bitStringDevice src)) := by
  intro src
  obtain ⟨u, k, config, hx⟩ := bitString_readsSource hi hb hn ho
  rw [hx, ← memSome_congr config, ← memSome_congr config, ← memMapped_congr config]
  exact ⟨fun hnone => congrArg (bindOutcome · k) (bsRead_none hnone),
    fun hm hd => congrArg (bindOutcome · k) (bsRead_device hm hd)⟩

/-- The same of the destination, and on rom its write has no step (R48, R173). -/
theorem string_dest_stops {i : Instr} {s : State} (hi : (stringFunction i).isSome)
    (hb : s.breakPoint ≠ some 0) (hn : s.readReg 28 ≠ 0) (ho : ¬s.OverlapsAbove)
    (hs : s.MemPlain (alignTo .word (s.readReg 30)).toNat 4) :
    let dst := (alignTo .word (s.readReg 29)).toNat
    (s.MemSome .none dst 4 → exec i s = .fault (.unmappedAddress dst)) ∧
    (s.MemMapped dst 4 → s.MemSome .device dst 4 → exec i s = .refused (.bitStringDevice dst)) ∧
    (s.MemPlain dst 4 → s.MemSome .rom dst 4 → exec i s = .fault (.romWrite dst)) := by
  intro dst
  obtain ⟨u, v, k, config, hx⟩ := string_readsDest hi hb hn ho hs
  rw [hx, ← memSome_congr config, ← memSome_congr config, ← memSome_congr config,
    ← memMapped_congr config, ← memPlain_congr config]
  refine ⟨fun hnone => congrArg (bindOutcome · _) (bsRead_none hnone),
    fun hm hd => congrArg (bindOutcome · _) (bsRead_device hm hd), fun hplain hrom => ?_⟩
  rw [bsRead_plain hplain, bindOutcome_next]
  exact congrArg (bindOutcome · k) (bsWrite_rom hplain hrom _)

/-- Every element of a run that completes had its source in ram or rom and its destination in ram
(R173). -/
theorem stringLoop_next_places {f : Bool → Bool → Bool} {n : Nat} {s t : State} {S D : Nat}
    (h : stringLoop f n s = .next t) (hS : s.sourcePtr = bitPtr S) (hD : s.destPtr = bitPtr D)
    (lS : S < 2 ^ 35) (lD : D < 2 ^ 35) (j : Nat) (hj : j < n) :
    s.MemPlain (bitAddress (bitFrom .up S j)).toNat 4 ∧
    s.MemAll .ram (bitAddress (bitFrom .up D j)).toNat 4 := by
  induction n generalizing s S D j with
  | zero => omega
  | succ n ih =>
    obtain ⟨u, hu, h⟩ := (bindOutcome_eq_next _ _ _).mp h
    obtain ⟨plain, ram, src, dst, -, rest⟩ := stringElement_next hu
    have config : u.config = s.config := by rw [rest]
    cases j with
    | zero =>
      rw [bitFrom_zero _ lS, bitFrom_zero _ lD]
      rw [hS] at plain
      rw [hD] at ram
      exact ⟨plain, ram⟩
    | succ j =>
      rw [hS, stepUp_bitPtr lS] at src
      rw [hD, stepUp_bitPtr lD] at dst
      have places := ih h src dst (Nat.mod_lt _ (by decide)) (Nat.mod_lt _ (by decide)) j (by omega)
      rw [memPlain_congr config, memAll_congr config] at places
      have next : ∀ p, bitFrom .up ((p + 1) % 2 ^ 35) j = bitFrom .up p (j + 1) := fun p => by
        rw [Nat.add_comm j 1]
        exact bitFrom_add .up p 1 j
      rwa [next, next] at places

/-- An element before the break point is among those that are run (R176). -/
theorem lt_elementsToRun {s : State} {j : Nat} (hj : j < (s.readReg 28).toNat)
    (hb : ∀ b, s.breakPoint = some b → j < b) : j < elementsToRun s := by
  unfold elementsToRun
  split
  · rename_i k hk
    have := hb k hk
    omega
  · exact hj

/-- Every element that a string-to-string operation has run had its source in ram or rom and its
destination in ram (R173). -/
theorem string_next_places {i : Instr} {s t : State} (hi : (stringFunction i).isSome)
    (h : exec i s = .next t) (j : Nat) (hj : j < (s.readReg 28).toNat)
    (hb : ∀ b, s.breakPoint = some b → j < b) :
    s.MemPlain (bitAddress (bitFrom .up (startBit (s.readReg 30) (s.readReg 27)) j)).toNat 4 ∧
    s.MemAll .ram (bitAddress (bitFrom .up (startBit (s.readReg 29) (s.readReg 26)) j)).toNat 4 := by
  obtain ⟨f, hf⟩ := Option.isSome_iff_exists.mp hi
  obtain ⟨-, u, hloop, -⟩ := stringOp_next ((exec_stringFunction hf s).symm.trans h)
  obtain ⟨breaks, count, src, dst, rest⟩ := maskStringRegs_spec s
  have config : (maskStringRegs s).config = s.config := by rw [rest]
  have places := stringLoop_next_places hloop src dst (startBit_lt _ _) (startBit_lt _ _) j
    (lt_elementsToRun (count ▸ hj) (breaks ▸ hb))
  rwa [memPlain_congr config, memAll_congr config] at places

/-! ## Fetches that stop (R39, R48) -/

/-- The first halfword at an even pc. -/
theorem half_atPc {s : State} (hp : s.pc.getLsbD 0 = false) :
    (readBytes s.mem s.pc.toNat 2).extractLsb' 0 16 = s.halvesAtPc.1 := by
  have lt := s.pc.isLt
  obtain ⟨even, -⟩ := pc_even hp
  have e : (s.pc + 1#32).toNat = s.pc.toNat + 1 := by
    rw [BitVec.toNat_add, show (1#32).toNat = 1 from rfl]
    omega
  rw [half_readBytes, ← e]
  rfl

/-- A step about to execute begins with the fetch at the pc (R15). -/
theorem step_begins {s : State} (h : s.Executes) (hp : s.pc.getLsbD 0 = false) :
    ∃ k, step s = bindOutcome (fetch16 s.pc s) k := by
  rw [step, stepWith_of_running h.noEvent h.running h.notStopped, runInstruction_of_executes h,
    fetchWords, (pc_even hp).2, bindOutcome_assoc, bindOutcome_assoc]
  exact ⟨_, rfl⟩

/-- After the first halfword of a long instruction comes the fetch of the second (R50). -/
theorem step_fetchesSecond {s : State} (h : s.Executes) (hp : s.pc.getLsbD 0 = false) (hu : s.Uncached)
    (hx : s.Executable s.pc) (hl : isLong s.halvesAtPc.1 = true) :
    ∃ u k, u.config = s.config ∧ step s = bindOutcome (fetch16 (s.pc + 2) u) k := by
  rw [step, stepWith_of_running h.noEvent h.running h.notStopped, runInstruction_of_executes h,
    fetchWords, (pc_even hp).2, fetch_at hu hx, half_atPc hp, bindOutcome_next]
  dsimp only
  rw [if_pos hl, bindOutcome_assoc, bindOutcome_assoc]
  exact ⟨_, _, remember_config _ _ _, rfl⟩

/-- A fetch at the pc where nothing answers has no step, one from a device is refused. -/
theorem step_fetch_stops {s : State} (h : s.Executes) (hp : s.pc.getLsbD 0 = false) :
    (s.MemSome .none s.pc.toNat 2 → step s = .fault (.unmappedAddress s.pc.toNat)) ∧
    (s.MemMapped s.pc.toNat 2 → s.MemSome .device s.pc.toNat 2 →
      step s = .refused (.deviceFetch s.pc.toNat)) := by
  obtain ⟨k, hk⟩ := step_begins h hp
  rw [hk]
  exact ⟨fun hnone => congrArg (bindOutcome · k) (fetch16_none hnone),
    fun hm hd => congrArg (bindOutcome · k) (fetch16_device hm hd)⟩

/-- The same of the second halfword of a long instruction. -/
theorem step_secondFetch_stops {s : State} (h : s.Executes) (hp : s.pc.getLsbD 0 = false)
    (hu : s.Uncached) (hx : s.Executable s.pc) (hl : isLong s.halvesAtPc.1 = true) :
    (s.MemSome .none (s.pc + 2).toNat 2 → step s = .fault (.unmappedAddress (s.pc + 2).toNat)) ∧
    (s.MemMapped (s.pc + 2).toNat 2 → s.MemSome .device (s.pc + 2).toNat 2 →
      step s = .refused (.deviceFetch (s.pc + 2).toNat)) := by
  obtain ⟨u, k, config, hk⟩ := step_fetchesSecond h hp hu hx hl
  rw [hk, ← memSome_congr config, ← memSome_congr config, ← memMapped_congr config]
  exact ⟨fun hnone => congrArg (bindOutcome · k) (fetch16_none hnone),
    fun hm hd => congrArg (bindOutcome · k) (fetch16_device hm hd)⟩

/-! ## The obligation -/

/-- Settles O47: the accesses and `caxi` by what their first failing access answers; the bit strings and
fetches by the access they begin with; a completed string by what each of its elements needed. -/
theorem accessesThatStop : Obligations.AccessesThatStop := by
  refine ⟨?_, fun d r1 r2 s => ⟨execCaxi_none d r1 r2 s, execCaxi_rom d r1 r2 s⟩,
    fun i s hb hn ho => ⟨fun hi => bitString_source_stops hi hb hn ho,
      fun hi hs => string_dest_stops hi hb hn (ho hi) hs⟩,
    fun i s t => string_next_places, fun s he hp => ?_⟩
  · intro d r1 r2 s ea p hp
    simp only [List.mem_cons, List.not_mem_nil, or_false] at hp
    rcases hp with rfl | rfl | rfl
    · exact access_stops .byte d r1 r2 s
    · exact access_stops .half d r1 r2 s
    · exact access_stops .word d r1 r2 s
  · obtain ⟨hnone, hdevice⟩ := step_fetch_stops he hp
    exact ⟨hnone, hdevice, step_secondFetch_stops he hp⟩

end Sys2Proof.Machine
end

-- Proofs of the family 30_encoding: the decoder and the encoder.
section
/-! PROOFS. Decoding and encoding undo each other, what is decoded is well-formed, and the words that no
row takes (spec/30_encoding.md R50-R73, R76). -/

namespace Sys2Proof

/-! ## Decoding what was encoded (R50-R64) -/

/-- The condition of `setf` is the low four bits of its field (R53). -/
theorem setf_cond (cond : BitVec 4) : (0#1 ++ cond).extractLsb' 0 4 = cond := by
  rw [BitVec.extractLsb'_append_eq_of_add_le (by decide), BitVec.extractLsb'_eq_self]

/-- Settles O1: by the format of the instruction, each word is read back from its fields. -/
theorem decodeEncodeRoundTrip : Obligations.DecodeEncodeRoundTrip := by
  intro i rest h
  cases i with
  | mov | add | sub | cmp | shl | shr | jmp | sar | mul | div | mulu | divu | or | and | xor | not
  | movImm | addImm | cmpImm | shlImm | shrImm | ei | sarImm | trap | reti | halt | udef1B | ldsr
  | stsr | di
  | sch0bsu | sch0bsd | sch1bsu | sch1bsd | orbsu | andbsu | xorbsu | movbsu
  | ornbsu | andnbsu | xornbsu | notbsu => exact decode_fmtI_short _ _ _ _ rfl rfl _ fun _ => rfl
  | setf cond reg2 =>
    exact decode_fmtI_short _ _ _ _ rfl rfl _ fun _ =>
      congrArg (fun c => Except.ok (Instr.setf c reg2)) (setf_cond cond)
  | bv | bl | be | bnh | bn | br | blt | ble | bnv | bnl | bne | bh | bp | bge | bgt =>
    exact decode_fmtIII _ _ _ _ h rfl
  | nop => exact decode_fmtIII _ _ _ _ rfl rfl
  | jr | jal => exact decode_fmtIV _ _ _ _ h rfl rfl (fun _ _ _ _ => rfl) rfl
  | movea | addi | ori | andi | xori | movhi | ldB | ldH | udef32 | ldW | stB | stH | udef36 | stW
  | inB | inH | caxi | inW | outB | outH | outW =>
    exact decode_fmtI_long _ _ _ _ _ rfl rfl _ fun _ => rfl
  | cmpfS | cvtWS | cvtSW | addfS | subfS | mulfS | divfS | trncSW =>
    refine decode_fmtI_long _ _ _ _ _ rfl rfl _ fun _ => ?_
    rw [decodeRow_float, sub_fmtSub]
    rfl

/-- Settles O5: seven closed words, each evaluated. -/
theorem knownWordsDecode : Obligations.KnownWordsDecode :=
  ⟨rfl, rfl, rfl, rfl, rfl, rfl, rfl⟩

/-! ## Encoding what was decoded (R65, R76) -/

/-- The halfwords that decode to `i`, with every field cleared that `i` does not use (the table of R76);
the three undefined primary opcodes use none. -/
def clearUnused (i : Instr) (hw0 hw1 : Half) : List Half :=
  match i with
  | .jmp _ | .trap _ | .sch0bsu | .sch0bsd | .sch1bsu | .sch1bsd | .orbsu | .andbsu | .xorbsu
  | .movbsu | .ornbsu | .andnbsu | .xornbsu | .notbsu => [fmtI (opcodeOf hw0) 0 (reg1Of hw0)]
  | .reti | .halt | .ei | .di | .udef1B => [fmtI (opcodeOf hw0) 0 0]
  | .udef32 | .udef36 => [fmtI (opcodeOf hw0) 0 0, 0]
  | .setf _ _ => [fmtI (opcodeOf hw0) (reg2Of hw0) (0#1 ++ (reg1Of hw0).extractLsb' 0 4)]
  | .nop => [hw0.extractLsb' 13 3 ++ condOf hw0 ++ 0#9]
  | .bv _ | .bl _ | .be _ | .bnh _ | .bn _ | .br _ | .blt _ | .ble _ | .bnv _ | .bnl _ | .bne _
  | .bh _ | .bp _ | .bge _ | .bgt _ => [hw0.extractLsb' 13 3 ++ condOf hw0 ++ disp9Of hw0]
  | .jr _ | .jal _ => fmtIV (opcodeOf hw0) (disp26Of hw0 hw1)
  | .cmpfS _ _ | .cvtWS _ _ | .cvtSW _ _ | .addfS _ _ | .subfS _ _ | .mulfS _ _ | .divfS _ _
  | .trncSW _ _ =>
    [fmtI (opcodeOf hw0) (reg2Of hw0) (reg1Of hw0), fmtSub (hw1.extractLsb' 10 6)]
  | .mov _ _ | .add _ _ | .sub _ _ | .cmp _ _ | .shl _ _ | .shr _ _ | .sar _ _ | .mul _ _
  | .div _ _ | .mulu _ _ | .divu _ _ | .or _ _ | .and _ _ | .xor _ _ | .not _ _ | .movImm _ _
  | .addImm _ _ | .cmpImm _ _ | .shlImm _ _ | .shrImm _ _ | .sarImm _ _ | .ldsr _ _ | .stsr _ _ =>
    [fmtI (opcodeOf hw0) (reg2Of hw0) (reg1Of hw0)]
  | .movea _ _ _ | .addi _ _ _ | .ori _ _ _ | .andi _ _ _ | .xori _ _ _ | .movhi _ _ _ | .ldB _ _ _
  | .ldH _ _ _ | .ldW _ _ _ | .stB _ _ _ | .stH _ _ _ | .stW _ _ _ | .inB _ _ _ | .inH _ _ _
  | .caxi _ _ _ | .inW _ _ _ | .outB _ _ _ | .outH _ _ _ | .outW _ _ _ =>
    [fmtI (opcodeOf hw0) (reg2Of hw0) (reg1Of hw0), hw1]

/-- Encoding a decoded bit-string instruction (R63). -/
theorem encode_decodeBitString {hw0 : Half} (hw1 : Half) {i : Instr} (ho : opcodeOf hw0 = 0x1F#6)
    (h : decodeBitString (reg1Of hw0) = .ok i) : encode i = clearUnused i hw0 hw1 := by
  generalize hs : reg1Of hw0 = sub at h
  unfold decodeBitString at h
  split at h <;> cases h <;> simp only [encode, clearUnused, ho, hs]

/-- Encoding a decoded floating-point instruction (R64). -/
theorem encode_decodeFloat {hw0 hw1 : Half} {i : Instr} (ho : opcodeOf hw0 = 0x3E#6)
    (h : decodeFloat (hw1.extractLsb' 10 6) (reg1Of hw0) (reg2Of hw0) = .ok i) :
    encode i = clearUnused i hw0 hw1 := by
  generalize hs : hw1.extractLsb' 10 6 = sub at h
  unfold decodeFloat at h
  split at h <;> cases h <;> simp only [encode, clearUnused, ho, hs]

/-- Encoding a decoded format III instruction; the last row of `decodeBranch` is condition 15 (R54). -/
theorem encode_decodeBranch {hw0 : Half} (hw1 : Half) (hb : isBranch hw0 = true) :
    encode (decodeBranch (condOf hw0) (disp9Of hw0)) =
      clearUnused (decodeBranch (condOf hw0) (disp9Of hw0)) hw0 hw1 := by
  have top : hw0.extractLsb' 13 3 = 0b100#3 := beq_iff_eq.mp hb
  generalize hc : condOf hw0 = cond
  unfold decodeBranch
  split
  case h_16 =>
    have last : cond = 0xF#4 := by
      simp only [imp_false] at *
      bv_omega
    simp only [encode, fmtIII, clearUnused, top, hc, last]
  all_goals simp only [encode, fmtIII, clearUnused, top, hc] <;> rfl

/-- Encoding what a row of `decodeRow` answers; its 32nd row is opcode 0x1F, its 55th 0x3E. -/
theorem encode_decodeRow {hw0 hw1 : Half} {i : Instr}
    (h : decodeRow (opcodeOf hw0) (reg1Of hw0) (reg2Of hw0) hw0 hw1 = .ok i) :
    encode i = clearUnused i hw0 hw1 := by
  generalize ho : opcodeOf hw0 = op at h
  unfold decodeRow at h
  split at h
  case h_32 => exact encode_decodeBitString hw1 ho h
  case h_55 => exact encode_decodeFloat ho h
  case h_57 => cases h
  all_goals
    cases h
    simp only [encode, clearUnused, ho]

/-- Encoding what was decoded clears the unused fields and keeps the others. -/
theorem encode_of_decodeWords {hw0 hw1 : Half} {i : Instr} (h : decodeWords hw0 hw1 = .ok i) :
    encode i = clearUnused i hw0 hw1 := by
  unfold decodeWords at h
  split at h
  · cases h
    exact encode_decodeBranch hw1 ‹_›
  · exact encode_decodeRow h

/-- A bit that is 0, as a field of its own. -/
theorem extract_clear_bit {hw : Half} {n : Nat} (h : hw.getLsbD n = false) :
    hw.extractLsb' n 1 = 0#1 := by
  apply BitVec.eq_of_getLsbD_eq
  intro k hk
  rw [BitVec.getLsbD_extractLsb', show k = 0 by omega, Nat.add_zero, h, Bool.and_false]
  rfl

/-- The fields of a format III word make up the word (R54). -/
theorem formatIII_fields {hw0 : Half} {d : BitVec 9} (hd : hw0.extractLsb' 0 9 = d) :
    hw0.extractLsb' 13 3 ++ condOf hw0 ++ d = hw0 := by
  subst hd
  unfold condOf
  rw [BitVec.extractLsb'_append_extractLsb'_eq_extractLsb' (show 13 = 9 + 4 from rfl),
    BitVec.extractLsb'_append_extractLsb'_eq_extractLsb' (show 9 = 0 + 9 from rfl)]
  exact BitVec.extractLsb'_eq_self

/-- With its bit 0 clear the low field is the displacement (R54). -/
theorem disp9_of_even {hw0 : Half} (h : hw0.getLsbD 0 = false) :
    hw0.extractLsb' 0 9 = disp9Of hw0 := by
  unfold disp9Of
  rw [← extract_clear_bit h,
    BitVec.extractLsb'_append_extractLsb'_eq_extractLsb' (show 1 = 0 + 1 from rfl)]

/-- With its top bit clear the field of `setf` is its condition (R53). -/
theorem setf_field {hw0 : Half} (h : hw0.getLsbD 4 = false) :
    0#1 ++ (reg1Of hw0).extractLsb' 0 4 = reg1Of hw0 := by
  unfold reg1Of
  rw [BitVec.extractLsb'_extractLsb'_of_le (by decide), ← extract_clear_bit h,
    BitVec.extractLsb'_append_extractLsb'_eq_extractLsb' (show 4 = 0 + 4 from rfl)]

/-- With no unused field set nothing is cleared (R76). -/
theorem clearUnused_of_none {i : Instr} {hw0 hw1 : Half} (h : unusedField i hw0 hw1 = none)
    (h1B : i ≠ .udef1B) (h32 : i ≠ .udef32) (h36 : i ≠ .udef36) :
    clearUnused i hw0 hw1 = if i.length = 4 then [hw0, hw1] else [hw0] := by
  have fields := fmtI_fields hw0
  cases i with
  | mov | add | sub | cmp | shl | shr | sar | mul | div | mulu | divu | or | and | xor | not
  | movImm | addImm | cmpImm | shlImm | shrImm | sarImm | ldsr | stsr =>
    exact congrArg (fun w => [w]) fields
  | movea | addi | ori | andi | xori | movhi | ldB | ldH | ldW | stB | stH | stW
  | inB | inH | caxi | inW | outB | outH | outW => exact congrArg (fun w => [w, hw1]) fields
  | jmp | trap | sch0bsu | sch0bsd | sch1bsu | sch1bsd | orbsu | andbsu | xorbsu | movbsu
  | ornbsu | andnbsu | xornbsu | notbsu =>
    have reg2 : reg2Of hw0 = 0 := by simpa [unusedField] using h
    rw [reg2] at fields
    exact congrArg (fun w => [w]) fields
  | reti | halt | ei | di =>
    obtain ⟨reg2, reg1⟩ : reg2Of hw0 = 0 ∧ reg1Of hw0 = 0 := by
      simpa [unusedField, ite_eq_iff] using h
    rw [reg2, reg1] at fields
    exact congrArg (fun w => [w]) fields
  | setf =>
    have top : hw0.getLsbD 4 = false := by simpa [unusedField] using h
    rw [← setf_field top] at fields
    exact congrArg (fun w => [w]) fields
  | nop =>
    have zero : hw0.extractLsb' 0 9 = 0 := by simpa [unusedField] using h
    exact congrArg (fun w => [w]) (formatIII_fields zero)
  | bv | bl | be | bnh | bn | br | blt | ble | bnv | bnl | bne | bh | bp | bge | bgt =>
    have even : hw0.getLsbD 0 = false := by simpa [unusedField] using h
    exact congrArg (fun w => [w]) (formatIII_fields (disp9_of_even even))
  | jr | jal =>
    have even : hw1.getLsbD 0 = false := by simpa [unusedField] using h
    exact fmtIV_fields hw0 hw1 even
  | cmpfS | cvtWS | cvtSW | addfS | subfS | mulfS | divfS | trncSW =>
    have rfu : hw1.extractLsb' 0 10 = 0 := by simpa [unusedField] using h
    exact congrArg₂ (fun w v => [w, v]) fields (fmtSub_fields hw1 rfu)
  | udef1B => exact absurd rfl h1B
  | udef32 => exact absurd rfl h32
  | udef36 => exact absurd rfl h36

/-- Settles O2: encoding gives the word with its unused fields cleared, and there is nothing to clear. -/
theorem encodeDecodeCanonical : Obligations.EncodeDecodeCanonical := by
  intro hw0 hw1 i h hu h1B h32 h36
  rw [encode_of_decodeWords h, clearUnused_of_none hu h1B h32 h36, (decodeWords_length h).2, lengthOf]
  split <;> rfl

/-! ## What the decoder takes (R50, R65) -/

/-- What `decode` answers comes from the first halfword alone, or from two. -/
theorem decode_ok {b0 b1 : Byte} {bytes rest : List Byte} {i : Instr}
    (h : decode (b0 :: b1 :: bytes) = .ok (i, rest)) :
    (∃ b2 b3, isLong (halfOfBytes b0 b1) = true ∧ bytes = b2 :: b3 :: rest ∧
      decodeWords (halfOfBytes b0 b1) (halfOfBytes b2 b3) = .ok i) ∨
    (isLong (halfOfBytes b0 b1) = false ∧ bytes = rest ∧
      decodeWords (halfOfBytes b0 b1) 0 = .ok i) := by
  unfold decode at h
  dsimp only at h
  split at h
  · rename_i long
    split at h
    · split at h
      · rename_i hd
        cases h
        exact .inl ⟨_, _, long, rfl, hd⟩
      · cases h
    · cases h
  · rename_i short
    split at h
    · rename_i hd
      cases h
      exact .inr ⟨eq_false_of_ne_true short, rfl, hd⟩
    · cases h

/-- Settles O3: the length of what the two halfwords decode to is what the decoder took. -/
theorem decodedIsWellFormed : Obligations.DecodedIsWellFormed := by
  intro b0 b1 bytes rest i h
  have bound : (0x28 ≤ (opcodeOf (halfOfBytes b0 b1)).toNat) ↔ isLong (halfOfBytes b0 b1) = true :=
    decide_eq_true_iff.symm
  rw [if_congr bound rfl rfl]
  rcases decode_ok h with ⟨b2, b3, long, rfl, hd⟩ | ⟨short, rfl, hd⟩
  · obtain ⟨wf, len⟩ := decodeWords_length hd
    rw [lengthOf, if_pos long] at len
    rw [len, if_pos long]
    exact ⟨wf, rfl, rfl⟩
  · obtain ⟨wf, len⟩ := decodeWords_length hd
    rw [lengthOf, if_neg (by rw [short]; decide)] at len
    rw [len, if_neg (by rw [short]; decide)]
    exact ⟨wf, rfl, rfl⟩

/-! ## The words of no row (R70-R73) -/

/-- Format III has the primary opcodes 0x20 to 0x27 (R51). -/
theorem isBranch_iff (hw0 : Half) :
    isBranch hw0 = true ↔ 0x20 ≤ (opcodeOf hw0).toNat ∧ (opcodeOf hw0).toNat < 0x28 := by
  rw [isBranch_eq]
  generalize opcodeOf hw0 = op
  revert op
  decide

/-- The word of any other opcode decodes to its row. -/
theorem decodeWords_row {hw0 : Half} (hw1 : Half) {op : BitVec 6} (ho : opcodeOf hw0 = op)
    (hb : ¬(0x20 ≤ op.toNat ∧ op.toNat < 0x28)) :
    decodeWords hw0 hw1 = decodeRow op (reg1Of hw0) (reg2Of hw0) hw0 hw1 := by
  subst ho
  exact if_neg fun c => hb ((isBranch_iff hw0).mp c)

/-- Every primary opcode outside the two groups, rows 32 and 55 of `decodeRow`, has a row of its own
(R62, R73). -/
theorem decodeRow_total {op : BitVec 6} (reg1 reg2 : RegIdx) (hw0 hw1 : Half)
    (hb : ¬(0x20 ≤ op.toNat ∧ op.toNat < 0x28)) (h1F : op ≠ 0x1F#6) (h3E : op ≠ 0x3E#6) :
    ∃ i, decodeRow op reg1 reg2 hw0 hw1 = .ok i := by
  unfold decodeRow
  split
  case h_32 => exact absurd rfl h1F
  case h_55 => exact absurd rfl h3E
  case h_57 =>
    simp only [imp_false] at *
    bv_omega
  all_goals exact ⟨_, rfl⟩

/-- The undefined bit-string sub-opcodes (R71). -/
theorem decodeBitString_error (sub : BitVec 5) : (∃ e, decodeBitString sub = .error e) ↔
    (4 ≤ sub.toNat ∧ sub.toNat ≤ 7) ∨ 0x10 ≤ sub.toNat := by
  unfold decodeBitString
  split
  case h_13 =>
    simp only [imp_false] at *
    refine iff_of_true ⟨_, rfl⟩ ?_
    bv_omega
  all_goals exact iff_of_false (fun ⟨_, h⟩ => nomatch h) (by decide)

/-- The undefined floating-point sub-opcodes (R72). -/
theorem decodeFloat_error (sub : BitVec 6) (reg1 reg2 : RegIdx) :
    (∃ e, decodeFloat sub reg1 reg2 = .error e) ↔
      sub.toNat = 1 ∨ (8 ≤ sub.toNat ∧ sub.toNat ≤ 0xA) ∨ 0xC ≤ sub.toNat := by
  unfold decodeFloat
  split
  case h_9 =>
    simp only [imp_false] at *
    refine iff_of_true ⟨_, rfl⟩ ?_
    bv_omega
  all_goals exact iff_of_false (fun ⟨_, h⟩ => nomatch h) (by decide)

/-- The decoder answers an error exactly in the two groups. -/
theorem decodeWords_error (hw0 hw1 : Half) : (∃ e, decodeWords hw0 hw1 = .error e) ↔
    (opcodeOf hw0 = 0x1F#6 ∧ ∃ e, decodeBitString (reg1Of hw0) = .error e) ∨
    (opcodeOf hw0 = 0x3E#6 ∧
      ∃ e, decodeFloat (hw1.extractLsb' 10 6) (reg1Of hw0) (reg2Of hw0) = .error e) := by
  by_cases h1F : opcodeOf hw0 = 0x1F#6
  · rw [decodeWords_row hw1 h1F (by decide), h1F]
    simp [decodeRow]
  by_cases h3E : opcodeOf hw0 = 0x3E#6
  · rw [decodeWords_row hw1 h3E (by decide), h3E]
    simp [decodeRow_float]
  have answers : ∃ i, decodeWords hw0 hw1 = .ok i := by
    by_cases hb : isBranch hw0 = true
    · exact ⟨_, if_pos hb⟩
    · rw [isBranch_iff] at hb
      rw [decodeWords_row hw1 rfl hb]
      exact decodeRow_total _ _ hw0 hw1 hb h1F h3E
  obtain ⟨i, hi⟩ := answers
  simp [hi, h1F, h3E]

/-- A row that uses no field takes exactly the words of its opcode. -/
theorem decodeWords_eq_ok_iff {op : BitVec 6} {i : Instr} {ws : List Half}
    (hb : ¬(0x20 ≤ op.toNat ∧ op.toNat < 0x28)) (he : encode i = fmtI op 0 0 :: ws)
    (hc : ∀ hw0 hw1, clearUnused i hw0 hw1 = fmtI (opcodeOf hw0) 0 0 :: ws)
    (hr : ∀ reg1 reg2 hw0 hw1, decodeRow op reg1 reg2 hw0 hw1 = .ok i) (hw0 hw1 : Half) :
    decodeWords hw0 hw1 = .ok i ↔ opcodeOf hw0 = op := by
  refine ⟨fun h => ?_, fun h => (decodeWords_row hw1 h hb).trans (hr _ _ _ _)⟩
  have words : fmtI op 0 0 :: ws = fmtI (opcodeOf hw0) 0 0 :: ws := by
    rw [← he, ← hc hw0 hw1, encode_of_decodeWords h]
  have opcodes := congrArg opcodeOf (List.cons.inj words).1
  rw [opcodeOf_fmtI, opcodeOf_fmtI] at opcodes
  exact opcodes.symm

/-- Settles O4: the errors by the two groups, the three undefined primary opcodes as rows that use no
field. -/
theorem undefinedEncodingsExact : Obligations.UndefinedEncodingsExact := by
  intro hw0 hw1
  rw [decodeWords_error, decodeBitString_error, decodeFloat_error]
  exact ⟨Iff.rfl,
    decodeWords_eq_ok_iff (by decide) rfl (fun _ _ => rfl) (fun _ _ _ _ => rfl) hw0 hw1,
    decodeWords_eq_ok_iff (by decide) rfl (fun _ _ => rfl) (fun _ _ _ _ => rfl) hw0 hw1,
    decodeWords_eq_ok_iff (by decide) rfl (fun _ _ => rfl) (fun _ _ _ _ => rfl) hw0 hw1⟩

end Sys2Proof
end

-- Proofs of the family 30_encoding: what a step does with words that are no instruction.
section
/-! PROOFS. Undefined opcodes and sub-opcodes, `ei` and `di`, and non-zero unused fields at the pc
(spec/30_encoding.md R65, R70-R76, spec/41_imm_reg.md R107, R113). -/

namespace Sys2Proof.Machine

/-! ## Undefined instructions (R70) -/

theorem undefinedInstruction_exception {s : State} (h : s.config.undefinedOpcode = .exception)
    (name : String) : undefinedInstruction name s = raise .invalidOpcode s.pc s := by
  unfold undefinedInstruction
  rw [h]

theorem undefinedInstruction_refuse {s : State} (h : s.config.undefinedOpcode = .refuse)
    (name : String) : undefinedInstruction name s = .refused (.undefinedOpcode name) := by
  unfold undefinedInstruction
  rw [h]

/-- An undefined instruction enters with the code and the handler of invalid opcode. -/
theorem undefinedInstruction_enters {s : State} (h : s.config.undefinedOpcode = .exception)
    (hn : s.psw.getLsbD bitNP = false) (name : String) :
    ∃ t, undefinedInstruction name s = .next t ∧ Enters s t 0xFF90 0xFFFFFF90 s.pc := by
  rw [undefinedInstruction_exception h]
  exact raise_enters .invalidOpcode s.pc s hn

/-- The undefined primary opcodes are undefined instructions (R70). -/
theorem exec_undefinedPrimary {i : Instr} (h : i = .udef1B ∨ i = .udef32 ∨ i = .udef36) (s : State) :
    exec i s = undefinedInstruction i.mnemonic s := by
  rcases h with rfl | rfl | rfl <;> rfl

/-- Settles O24: each of the three is an undefined instruction under its own name. -/
theorem undefinedPrimaryOpcodes : Obligations.UndefinedPrimaryOpcodes := by
  intro i s hi
  rw [exec_undefinedPrimary hi]
  exact ⟨fun h hn => undefinedInstruction_enters h hn _,
    fun h => undefinedInstruction_exception h _, fun h => undefinedInstruction_refuse h _⟩

/-! ## `ei` and `di` (R74, R107, R113) -/

/-- Writing one PSW bit and moving on has no other effect. -/
theorem setPswBit_advance_effect (n : Nat) (b : Bool) (len : Word) (s : State) :
    Effect s ((s.setPswBit n b).advance len) [] [n] (s.pc + len) :=
  effect_intro (regsAfter_nil rfl) (pswKeeps_setBit (b := b) rfl) (by simp) rfl

theorem exec_ei {s : State} (h : s.config.hasEiDi = true) :
    exec .ei s = .next ((s.setPswBit bitID false).advance 2) := if_pos h

theorem exec_di {s : State} (h : s.config.hasEiDi = true) :
    exec .di s = .next ((s.setPswBit bitID true).advance 2) := if_pos h

/-- Without `HAS_EI_DI` both are undefined instructions. -/
theorem exec_eiDi_undefined {i : Instr} (hi : i = .ei ∨ i = .di) {s : State}
    (h : s.config.hasEiDi = false) : exec i s = undefinedInstruction i.mnemonic s := by
  rcases hi with rfl | rfl <;> exact if_neg (by rw [h]; decide)

/-- Settles O25: one PSW bit and the pc, or an undefined instruction. -/
theorem eiDiWriteId : Obligations.EiDiWriteId := by
  intro s
  refine ⟨fun h => ⟨⟨_, exec_ei h, setPswBit_advance_effect _ _ _ s, ?_⟩,
    ⟨_, exec_di h, setPswBit_advance_effect _ _ _ s, ?_⟩⟩, fun h hx => ?_, fun h hr => ?_⟩
  · simp [bitID]
  · simp [bitID]
  · rw [exec_eiDi_undefined (.inl rfl) h, exec_eiDi_undefined (.inr rfl) h]
    exact ⟨undefinedInstruction_exception hx _, undefinedInstruction_exception hx _⟩
  · rw [exec_eiDi_undefined (.inl rfl) h, exec_eiDi_undefined (.inr rfl) h]
    exact ⟨undefinedInstruction_refuse hr _, undefinedInstruction_refuse hr _⟩

/-! ## Words that are not run (R65, R71, R72, R76) -/

/-- The halfwords of the instruction at the pc, the second 0 for a short one (R31, R50). -/
def wordsAtPc (s : State) : Half × Half :=
  (s.halvesAtPc.1, if isLong s.halvesAtPc.1 then s.halvesAtPc.2 else 0)

/-- A step that executes runs the halfwords at the pc (R15). -/
theorem step_runsWords {s : State} (he : s.Executes) (hu : s.Uncached) (hp : s.pc.getLsbD 0 = false)
    (hx : s.Executable s.pc) (hx2 : isLong s.halvesAtPc.1 = true → s.Executable (s.pc + 2)) :
    step s = bindOutcome (runWords exec (wordsAtPc s) s.fetched) fun t => .next t.dropSample := by
  rw [step, stepWith_of_running he.noEvent he.running he.notStopped, runInstruction_of_executes he,
    fetchWords_at hu hp hx hx2, bindOutcome_next, wordsAtPc]

/-- The words at the pc are undefined where the decoder answers an error for the bytes there. -/
theorem decodeWords_atPc_error {s : State} {e : DecodeError} (h : decode s.bytesAtPc = .error e) :
    decodeWords (wordsAtPc s).1 (wordsAtPc s).2 = .error e := by
  rw [decode_atPc] at h
  unfold wordsAtPc
  split at h
  · cases h
  · rename_i hd
    cases h
    exact hd

/-- Words that decode to nothing are an undefined instruction (R71, R72). -/
theorem runWords_error {run : Instr → State → Result} {w : Half × Half} {e : DecodeError} (s : State)
    (h : decodeWords w.1 w.2 = .error e) :
    ∃ name, runWords run w s = undefinedInstruction name s := by
  unfold runWords
  rw [h]
  cases e <;> exact ⟨_, rfl⟩

/-- A non-zero unused field that is looked at is refused (R76). -/
theorem runWords_unusedField {run : Instr → State → Result} {w : Half × Half} {s : State} {i : Instr}
    {field : UnusedField} (h : decodeWords w.1 w.2 = .ok i)
    (hf : strictField s.config i w = some field) :
    runWords run w s = .refused (.unusedField i.mnemonic field) := by
  unfold runWords
  rw [h]
  dsimp only
  rw [hf]

/-- When the unused fields are looked at (R74, R76). -/
theorem strictField_strict {c : Config} {i : Instr} {w : Half × Half}
    (hs : c.strictUnusedFields = true) (h : c.hasEiDi = true ∨ (i ≠ .ei ∧ i ≠ .di)) :
    strictField c i w = unusedField i w.1 w.2 := by
  refine if_neg ?_
  rw [hs]
  rcases h with h | ⟨he, hd⟩
  · simp [h]
  · simp [he, hd]

/-- The undefined words at the pc: an undefined sub-opcode, or `ei` or `di` without `HAS_EI_DI`, whatever
its unused fields hold (R65, R74). -/
theorem runWords_atPc_undefined {s : State}
    (h : (∃ e, decode s.bytesAtPc = .error e) ∨
      (s.config.hasEiDi = false ∧
        ∃ i rest, decode s.bytesAtPc = .ok (i, rest) ∧ (i = .ei ∨ i = .di))) :
    ∃ name, runWords exec (wordsAtPc s) s.fetched = undefinedInstruction name s.fetched := by
  rcases h with ⟨e, hd⟩ | ⟨off, i, rest, hd, hi⟩
  · exact runWords_error _ (decodeWords_atPc_error hd)
  · have off' : s.fetched.config.hasEiDi = false := by rw [fetched_eq]; exact off
    exact ⟨_, (runWords_ok (decodeWords_atPc hd) (strictField_none (.inr (.inr ⟨off', hi⟩)))).trans
      (exec_eiDi_undefined hi off')⟩

/-- Settles O12: the step runs the words at the pc, which are an undefined instruction, or have an unused
field that is refused. -/
theorem stepUndefinedOrStrict : Obligations.StepUndefinedOrStrict := by
  intro s he hu hp hx hx2
  have runs := step_runsWords he hu hp hx hx2
  have config : s.fetched.config = s.config := by rw [fetched_eq]
  have psw : s.fetched.psw = s.psw := by rw [fetched_eq]
  have pc : s.fetched.pc = s.pc := by rw [fetched_eq]
  refine ⟨fun h => ?_, fun i rest field hd hs hf hi => ?_⟩
  · obtain ⟨name, hname⟩ := runWords_atPc_undefined h
    rw [hname] at runs
    refine ⟨fun hex hn => ?_, fun href => ⟨name, ?_⟩⟩
    · obtain ⟨t, ht, enters⟩ := undefinedInstruction_enters (config ▸ hex) (psw ▸ hn) name
      rw [pc] at enters
      rw [ht, bindOutcome_next] at runs
      exact ⟨_, runs, enters_dropSample enters⟩
    · rw [runs, undefinedInstruction_refuse (config ▸ href), bindOutcome_refused]
  · have hw := decodeWords_atPc hd
    have strict : strictField s.fetched.config i (wordsAtPc s) = some field := by
      rw [config, strictField_strict hs hi, wordsAtPc, unusedField_decoded hw]
      exact hf
    rw [runs, runWords_unusedField hw strict, bindOutcome_refused]

end Sys2Proof.Machine
end

-- Proofs of the family 40_reg_reg: moves, sums, differences, logic and jumps.
section
/-! PROOFS. What the moves, additions, subtractions, comparisons, logic operations and jumps write and
where they go (spec/40_reg_reg.md R80-R83, R86, R92-R96, spec/41_imm_reg.md R100, R101, R103,
spec/43_imm16_jump.md R140, R142, R143, R147). Each instruction is one of the shared shapes of
Laws/Ops.lean on the operands the rule names. -/

namespace Sys2Proof.Machine

/-! ## Immediates -/

/-- `movhi`'s immediate is the field times 2^16 (R60). -/
theorem imm16High_eq (imm : BitVec 16) : imm16High imm = BitVec.ofNat 32 (imm.toNat * 2 ^ 16) := by
  apply BitVec.eq_of_toNat_eq
  rw [imm16High, BitVec.toNat_append, BitVec.toNat_ofNat, Nat.shiftLeft_eq]
  have := imm.isLt
  simp only [BitVec.toNat_ofNat, Nat.zero_mod, Nat.or_zero]
  omega

/-! ## Shapes with flags -/

/-- A sum and its flags, as the two forms of `add` and `addi` end. -/
theorem finishFlagged_sum (reg2 : RegIdx) (a b len : Word) (s : State) :
    ∃ t, finishFlagged reg2 (a + b) (addFlags a b) len s = .next t ∧
      Effect s t [(reg2, a + b)] [bitZ, bitS, bitOV, bitCY] (s.pc + len) ∧ AddFlagsAre t a b := by
  obtain ⟨t, ht, effect, psw⟩ := finishFlagged_effect reg2 (a + b) (addFlags a b) len s
  exact ⟨t, ht, effect, addFlagsAre_of_psw psw⟩

/-- A difference and its flags. -/
theorem finishFlagged_difference (reg2 : RegIdx) (a b len : Word) (s : State) :
    ∃ t, finishFlagged reg2 (a - b) (subFlags a b) len s = .next t ∧
      Effect s t [(reg2, a - b)] [bitZ, bitS, bitOV, bitCY] (s.pc + len) ∧ SubFlagsAre t a b := by
  obtain ⟨t, ht, effect, psw⟩ := finishFlagged_effect reg2 (a - b) (subFlags a b) len s
  exact ⟨t, ht, effect, subFlagsAre_of_psw psw⟩

/-- The flags of a difference that is discarded, as the two forms of `cmp` end (R83). -/
theorem setFlags_difference (a b len : Word) (s : State) :
    Effect s ((s.setFlags (subFlags a b)).advance len) [] [bitZ, bitS, bitOV, bitCY] (s.pc + len) ∧
      SubFlagsAre ((s.setFlags (subFlags a b)).advance len) a b :=
  ⟨setFlags_advance_effect _ len s, subFlagsAre_of_psw (psw := s.psw) (by simp)⟩

/-! ## A link (R143) -/

/-- A register written, then a jump, as `jal` ends. -/
theorem writeReg_setPc_effect (i : RegIdx) (v target : Word) (s : State) :
    Effect s ((s.writeReg i v).setPc target) [(i, v)] [] target := by
  refine effect_intro (regsAfter_one i v rfl) (pswKeeps_refl (by simp) _) (by simp) ?_
  unfold State.writeReg
  split <;> rfl

/-! ## The obligations -/

/-- Settles O31: all four end in `finishPlain`. -/
theorem movesWriteNoFlags : Obligations.MovesWriteNoFlags := by
  intro r1 r2 imm5 imm16 s
  refine ⟨finishPlain_effect r2 (s.readReg r1) 2 s, finishPlain_effect r2 (imm5Signed imm5) 2 s,
    finishPlain_effect r2 (s.readReg r1 + imm16Signed imm16) 4 s, ?_⟩
  rw [← imm16High_eq]
  exact finishPlain_effect r2 (s.readReg r1 + imm16High imm16) 4 s

/-- Settles O32: both forms end in a sum with its flags. -/
theorem addSumAndFlags : Obligations.AddSumAndFlags := fun r1 r2 imm5 s =>
  ⟨finishFlagged_sum r2 (s.readReg r2) (s.readReg r1) 2 s,
    finishFlagged_sum r2 (s.readReg r2) (imm5Signed imm5) 2 s⟩

/-- Settles O34: `sub` writes the difference that both forms of `cmp` discard. -/
theorem subtractAndCompare : Obligations.SubtractAndCompare := fun r1 r2 imm5 s =>
  ⟨finishFlagged_difference r2 (s.readReg r2) (s.readReg r1) 2 s,
    ⟨_, rfl, setFlags_difference (s.readReg r2) (s.readReg r1) 2 s⟩,
    ⟨_, rfl, setFlags_difference (s.readReg r2) (imm5Signed imm5) 2 s⟩⟩

/-- Settles O36: all four are `regLogic` of their result. -/
theorem logicResultAndFlags : Obligations.LogicResultAndFlags := fun r1 r2 s =>
  ⟨regLogic_effect r2 (s.readReg r2 ||| s.readReg r1) s,
    regLogic_effect r2 (s.readReg r2 &&& s.readReg r1) s,
    regLogic_effect r2 (s.readReg r2 ^^^ s.readReg r1) s,
    regLogic_effect r2 (~~~s.readReg r1) s⟩

/-- Settles O40: only the pc moves, after the link where there is one. -/
theorem jumpTargets : Obligations.JumpTargets := fun r1 d s =>
  ⟨⟨_, rfl, setPc_effect (s.readReg r1) s⟩,
    ⟨_, rfl, setPc_effect (s.pc + disp26Signed d) s⟩,
    ⟨_, rfl, writeReg_setPc_effect 31 (s.pc + 4) (s.pc + disp26Signed d) s⟩⟩

end Sys2Proof.Machine
end

-- Proofs of the family 40_reg_reg: the branches after a comparison.
section
/-! PROOFS. The conditions of the branches (spec/42_branch.md R120) over the flags of a difference
(spec/40_reg_reg.md R83, R96): the order of the two operands, unsigned and signed. -/

namespace Sys2Proof.Machine

/-! ## Flags of a difference as an order -/

theorem subFlags_z (a b : Word) : (subFlags a b).z = decide (a = b) := by
  rw [Bool.eq_iff_iff]
  simp [subFlags, BitVec.sub_eq_iff_eq_add]

theorem subFlags_cy (a b : Word) : (subFlags a b).cy = decide (a.toNat < b.toNat) := rfl

/-- CY or Z after a difference is the unsigned order or equality. -/
theorem subFlags_notHigher (a b : Word) :
    ((subFlags a b).cy || (subFlags a b).z) = decide (a.toNat ≤ b.toNat) := by
  rw [subFlags_z, subFlags_cy, ← Bool.decide_or, decide_eq_decide, BitVec.toNat_eq]
  omega

/-- S xor OV, or Z, after a difference is the signed order or equality. -/
theorem subFlags_lessOrEqual (a b : Word) :
    (((subFlags a b).s ^^ (subFlags a b).ov) || (subFlags a b).z) = decide (a.toInt ≤ b.toInt) := by
  rw [subFlags_less, subFlags_z, ← Bool.decide_or, decide_eq_decide, ← BitVec.toInt_inj]
  omega

/-! ## A branch by its condition -/

/-- Conditions 0 to 7 are the base conditions (R120). -/
theorem condHolds_base (c : BitVec 3) (f : Flags) : condHolds (0#1 ++ c) f = baseCond c f := by
  have field : (0#1 ++ c).extractLsb' 0 3 = c := by decide +revert
  have bit3 : (0#1 ++ c).getLsbD 3 = false := by decide +revert
  rw [condHolds, field, bit3, Bool.xor_false]

/-- Conditions 8 to 15 are their negations (R120). -/
theorem condHolds_negated (c : BitVec 3) (f : Flags) : condHolds (1#1 ++ c) f = !baseCond c f := by
  have field : (1#1 ++ c).extractLsb' 0 3 = c := by decide +revert
  have bit3 : (1#1 ++ c).getLsbD 3 = true := by decide +revert
  rw [condHolds, field, bit3, Bool.xor_true]

/-- A branch goes where its condition sends it (R121). -/
theorem goes_of_branchOn {i : Instr} {c : BitVec 4} {d : BitVec 9} {t : State}
    (hi : exec i t = branchOn c d t) : Goes i t (branchTarget t d (condHolds c t.flags)) := by
  obtain ⟨u, hu, effect⟩ := branchOn_effect c d t
  exact ⟨u, hi.trans hu, effect.core.pc⟩

section
variable {i : Instr} {c : BitVec 3} {d : BitVec 9} {t : State} {p q : Prop} [Decidable p] [Decidable q]

/-- A branch on a base condition that says `p`. -/
theorem goes_of_base (hc : baseCond c t.flags = decide p)
    (hi : exec i t = branchOn (0#1 ++ c) d t) : Goes i t (branchTarget t d (decide p)) := by
  rw [← hc, ← condHolds_base]
  exact goes_of_branchOn hi

/-- A branch on the negation of a base condition that says `p`. -/
theorem goes_of_negated (hc : baseCond c t.flags = decide p)
    (hi : exec i t = branchOn (1#1 ++ c) d t) (hq : ¬p ↔ q) :
    Goes i t (branchTarget t d (decide q)) := by
  rw [← decide_eq_decide.mpr hq, decide_not, ← hc, ← condHolds_negated]
  exact goes_of_branchOn hi

end

/-- Settles O35: the ten branches test five base conditions of the difference and their negations. -/
theorem compareThenBranch : Obligations.CompareThenBranch := by
  intro r1 r2 d s a b
  refine ⟨(s.setFlags (subFlags a b)).advance 2, rfl, ?_⟩
  have flags : ((s.setFlags (subFlags a b)).advance 2).flags = subFlags a b := by
    simp [State.flags]
  generalize (s.setFlags (subFlags a b)).advance 2 = t at flags
  have equal : baseCond 2 t.flags = decide (a = b) := flags ▸ subFlags_z a b
  have lower : baseCond 1 t.flags = decide (a.toNat < b.toNat) := flags ▸ subFlags_cy a b
  have notHigher : baseCond 3 t.flags = decide (a.toNat ≤ b.toNat) := flags ▸ subFlags_notHigher a b
  have less : baseCond 6 t.flags = decide (a.toInt < b.toInt) := flags ▸ subFlags_less a b
  have lessOrEqual : baseCond 7 t.flags = decide (a.toInt ≤ b.toInt) :=
    flags ▸ subFlags_lessOrEqual a b
  exact ⟨goes_of_base equal rfl, goes_of_negated equal rfl Iff.rfl,
    goes_of_base lower rfl, goes_of_negated lower rfl Nat.not_lt,
    goes_of_base notHigher rfl, goes_of_negated notHigher rfl Nat.not_le,
    goes_of_base less rfl, goes_of_negated less rfl Int.not_lt,
    goes_of_base lessOrEqual rfl, goes_of_negated lessOrEqual rfl Int.not_le⟩

end Sys2Proof.Machine
end

-- Proofs of the family 40_reg_reg: shifts.
section
/-! PROOFS. The shifts as arithmetic on the value (spec/40_reg_reg.md R84, R85, R87, spec/41_imm_reg.md
R104-R106): a product and two quotients by a power of two, and the last bit shifted out. -/

namespace Sys2Proof.Machine

/-! ## Results -/

theorem shiftLeft_result (a : Word) (n : BitVec 5) :
    (shiftLeft a n).1 = BitVec.ofNat 32 (a.toNat * 2 ^ n.toNat) := by
  apply BitVec.eq_of_toNat_eq
  simp [shiftLeft, Nat.shiftLeft_eq]

theorem shiftRight_result (a : Word) (n : BitVec 5) :
    (shiftRight a n).1 = BitVec.ofNat 32 (a.toNat / 2 ^ n.toNat) := by
  rw [← Nat.shiftRight_eq_div_pow, ← BitVec.toNat_ushiftRight, BitVec.ofNat_toNat,
    BitVec.setWidth_eq]
  rfl

theorem shiftArith_result (a : Word) (n : BitVec 5) :
    (shiftArith a n).1 = BitVec.ofInt 32 (a.toInt / 2 ^ n.toNat) := by
  have quotient : a.toInt / 2 ^ n.toNat = (a.sshiftRight n.toNat).toInt := by
    rw [BitVec.toInt_sshiftRight, Int.shiftRight_eq_div_pow, Nat.cast_pow, Nat.cast_ofNat]
  rw [quotient, BitVec.ofInt_toInt]
  rfl

/-! ## The last bit shifted out -/

/-- The carry of a shift by `n` whose last bit out is bit `k`, 0 for a count of 0. -/
theorem lastBitOut_iff (a : Word) (n : BitVec 5) (k : Nat) :
    (if n = 0 then false else a.getLsbD k) = true ↔ n.toNat ≠ 0 ∧ a.toNat / 2 ^ k % 2 = 1 := by
  have bit : a.getLsbD k = decide (a.toNat / 2 ^ k % 2 = 1) := Nat.testBit_eq_decide_div_mod_eq
  have zero : n = 0 ↔ n.toNat = 0 := BitVec.toNat_eq
  rw [bit]
  split
  next h => simp [zero.mp h]
  next h => simp [mt zero.mpr h]

/-! ## The obligation -/

/-- The count of a register form is taken modulo 32. -/
theorem shiftCount_toNat (b : Word) : (shiftCount b).toNat = b.toNat % 32 := by
  simp [shiftCount]

/-- A shift whose result and last bit out are known. -/
theorem regShift_of_result {reg2 : RegIdx} {p : Word × Bool} {v : Word} {carry : Prop} {s : State}
    (hv : p.1 = v) (hc : p.2 = true ↔ carry) :
    ∃ t r, regShift reg2 p s = .next t ∧ r = v ∧
      Effect s t [(reg2, r)] [bitZ, bitS, bitOV, bitCY] (s.pc + 2) ∧
      FlagsAre t (r = 0) (r.msb = true) False carry := by
  obtain ⟨t, ht, effect, flags⟩ := regShift_effect reg2 p s
  exact ⟨t, p.1, ht, hv, effect, flagsAre_congr flags Iff.rfl Iff.rfl Iff.rfl hc⟩

/-- Settles O37: the register forms shift by the low bits of `x[reg1]`, the immediate forms by the
field. -/
theorem shiftResultAndFlags : Obligations.ShiftResultAndFlags := by
  intro r1 r2 imm5 s a p hp n
  have forms : ∃ c : BitVec 5, c.toNat = n ∧ exec p.1 s = regShift r2 (shiftLeft a c) s ∧
      exec p.2.1 s = regShift r2 (shiftRight a c) s ∧
      exec p.2.2.1 s = regShift r2 (shiftArith a c) s := by
    rcases List.mem_pair.mp hp with rfl | rfl
    · exact ⟨shiftCount (s.readReg r1), shiftCount_toNat _, rfl, rfl, rfl⟩
    · exact ⟨imm5, rfl, rfl, rfl, rfl⟩
  obtain ⟨c, count, shl, shr, sar⟩ := forms
  rw [← count, shl, shr, sar]
  exact ⟨regShift_of_result (shiftLeft_result a c) (lastBitOut_iff a c _),
    regShift_of_result (shiftRight_result a c) (lastBitOut_iff a c _),
    regShift_of_result (shiftArith_result a c) (lastBitOut_iff a c _)⟩

end Sys2Proof.Machine
end

-- Proofs of the family 40_reg_reg: products and quotients.
section
/-! PROOFS. Multiplication and division (spec/40_reg_reg.md R88-R91): the two words of a 64-bit product
and when it leaves 32 bits, and the truncated quotient of two signed words, which does so only for
80000000 / FFFFFFFF. -/

namespace Sys2Proof.Machine

/-! ## A result pair -/

/-- A result pair whose flags are Z and S of the low word, CY as it was. -/
theorem finishPair_result {reg2 : RegIdx} {high low : Word} {f : Flags} {ov : Prop} {s : State}
    (hz : f.z = (low == 0)) (hs : f.s = low.msb) (hv : f.ov = true ↔ ov) (hc : f.cy = s.flags.cy) :
    ∃ t r, finishPair reg2 high low f s = .next t ∧ r = low ∧
      Effect s t [(30, high), (reg2, r)] [bitZ, bitS, bitOV] (s.pc + 2) ∧ ResultFlagsAre t r ov := by
  obtain ⟨t, ht, effect, psw⟩ := finishPair_effect reg2 high low f s hc
  exact ⟨t, low, ht, rfl, effect, resultFlagsAre_of_psw psw hz hs hv⟩

/-! ## Products -/

theorem low_ofInt (p : Int) : (BitVec.ofInt 64 p).extractLsb' 0 32 = BitVec.ofInt 32 p := by
  apply BitVec.eq_of_toNat_eq
  simp only [BitVec.extractLsb'_toNat, BitVec.toNat_ofInt, Nat.shiftRight_zero]
  omega

theorem high_ofInt (p : Int) :
    (BitVec.ofInt 64 p).extractLsb' 32 32 = BitVec.ofInt 32 (p / 2 ^ 32) := by
  apply BitVec.eq_of_toNat_eq
  simp only [BitVec.extractLsb'_toNat, BitVec.toNat_ofInt, Nat.shiftRight_eq_div_pow]
  omega

theorem low_ofNat (n : Nat) : (BitVec.ofNat 64 n).extractLsb' 0 32 = BitVec.ofNat 32 n := by
  apply BitVec.eq_of_toNat_eq
  simp only [BitVec.extractLsb'_toNat, BitVec.toNat_ofNat, Nat.shiftRight_zero]
  omega

theorem high_ofNat (n : Nat) :
    (BitVec.ofNat 64 n).extractLsb' 32 32 = BitVec.ofNat 32 (n / 2 ^ 32) := by
  apply BitVec.eq_of_toNat_eq
  simp only [BitVec.extractLsb'_toNat, BitVec.toNat_ofNat, Nat.shiftRight_eq_div_pow]
  omega

/-- An integer differs from its low word exactly when it leaves the signed range. -/
theorem ne_toInt_ofInt (p : Int) :
    p ≠ (BitVec.ofInt 32 p).toInt ↔ p < -2 ^ 31 ∨ 2 ^ 31 ≤ p := by
  rw [BitVec.toInt_ofInt, Int.bmod_def]
  split <;> omega

/-- The product of two words has a high word exactly when it leaves 32 bits. -/
theorem high_mul_ne_zero (a b : Word) :
    BitVec.ofNat 32 (a.toNat * b.toNat / 2 ^ 32) ≠ 0 ↔ 2 ^ 32 ≤ a.toNat * b.toNat := by
  have bound : a.toNat * b.toNat < 2 ^ 32 * 2 ^ 32 := Nat.mul_lt_mul'' a.isLt b.isLt
  rw [Ne, BitVec.toNat_eq, BitVec.toNat_ofNat]
  change ¬_ = 0 ↔ _
  omega

theorem exec_mul (r1 r2 : RegIdx) (s : State) :
    let p := (s.readReg r2).toInt * (s.readReg r1).toInt
    exec (.mul r1 r2) s = finishPair r2 (BitVec.ofInt 32 (p / 2 ^ 32)) (BitVec.ofInt 32 p)
      (mulFlags (BitVec.ofInt 32 p) p s.flags.cy) s := by
  intro p
  rw [← high_ofInt p, ← low_ofInt p]
  rfl

theorem exec_mulu (r1 r2 : RegIdx) (s : State) :
    let n := (s.readReg r2).toNat * (s.readReg r1).toNat
    exec (.mulu r1 r2) s = finishPair r2 (BitVec.ofNat 32 (n / 2 ^ 32)) (BitVec.ofNat 32 n)
      (muluFlags (BitVec.ofNat 32 n) (BitVec.ofNat 32 (n / 2 ^ 32)) s.flags.cy) s := by
  intro n
  rw [← high_ofNat n, ← low_ofNat n]
  rfl

/-- Settles O38: both forms end in the two words of their product. -/
theorem multiplyProducts : Obligations.MultiplyProducts := by
  intro r1 r2 s a b
  rw [exec_mul, exec_mulu]
  exact ⟨finishPair_result rfl rfl (bne_iff_ne.trans (ne_toInt_ofInt _)) rfl,
    finishPair_result rfl rfl (bne_iff_ne.trans (high_mul_ne_zero a b)) rfl⟩

/-! ## Quotients -/

/-- The truncated quotient of two words is a signed word, but for 80000000 / FFFFFFFF. -/
theorem toInt_ofInt_tdiv {a b : Word} (h : ¬(a = 0x80000000 ∧ b = 0xFFFFFFFF)) :
    (BitVec.ofInt 32 (a.toInt.tdiv b.toInt)).toInt = a.toInt.tdiv b.toInt := by
  rw [← BitVec.toInt_sdiv_of_ne_or_ne a b (not_and_or.mp h), BitVec.ofInt_toInt]

theorem abs_tmod_lt (a : Int) {b : Int} (hb : b ≠ 0) : |a.tmod b| < |b| := by
  rw [Int.abs_eq_natAbs, Int.abs_eq_natAbs, Int.natAbs_tmod, Nat.cast_lt]
  exact Nat.mod_lt _ (Int.natAbs_pos.mpr hb)

/-- The remainder has the sign of the dividend. -/
theorem tmod_mul_self_nonneg (a b : Int) : 0 ≤ a.tmod b * a := by
  rcases Int.le_total 0 a with h | h
  · exact Int.mul_nonneg (Int.tmod_nonneg b h) h
  · have h' : 0 ≤ -a := Int.neg_nonneg.mpr h
    have product := Int.mul_nonneg (Int.tmod_nonneg b h') h'
    rwa [Int.neg_tmod, Int.neg_mul_neg] at product

section
variable {r1 r2 : RegIdx} {s : State}

theorem exec_div (hb : s.readReg r1 ≠ 0)
    (h : ¬(s.readReg r2 = 0x80000000 ∧ s.readReg r1 = 0xFFFFFFFF)) :
    let q := BitVec.ofInt 32 ((s.readReg r2).toInt.tdiv (s.readReg r1).toInt)
    exec (.div r1 r2) s =
      finishPair r2 (BitVec.ofInt 32 ((s.readReg r2).toInt.tmod (s.readReg r1).toInt)) q
        (divFlags q false s.flags.cy) s :=
  (if_neg hb).trans (if_neg h)

theorem exec_div_overflow (ha : s.readReg r2 = 0x80000000) (hb : s.readReg r1 = 0xFFFFFFFF) :
    exec (.div r1 r2) s =
      finishPair r2 0 0x80000000 (divFlags 0x80000000 true s.flags.cy) s :=
  (if_neg (by rw [hb]; decide)).trans (if_pos ⟨ha, hb⟩)

theorem exec_divu (hb : s.readReg r1 ≠ 0) :
    exec (.divu r1 r2) s = finishPair r2 (s.readReg r2 % s.readReg r1) (s.readReg r2 / s.readReg r1)
      (divFlags (s.readReg r2 / s.readReg r1) false s.flags.cy) s :=
  if_neg hb

/-- Both forms raise the exception before anything is written (R89, R91). -/
theorem exec_div_zero (hb : s.readReg r1 = 0) :
    exec (.div r1 r2) s = raise .zeroDivision s.pc s ∧
      exec (.divu r1 r2) s = raise .zeroDivision s.pc s :=
  ⟨if_pos hb, if_pos hb⟩

end

/-- Settles O39: the quotient and the remainder are those of truncated division. -/
theorem divideResults : Obligations.DivideResults := by
  intro r1 r2 s a b
  refine ⟨fun hb h => ?_, fun ha hb => ?_, fun hb => ?_, exec_div_zero⟩
  · have divisor : b.toInt ≠ 0 := fun c => hb (BitVec.toInt_inj.mp c)
    have quotient := toInt_ofInt_tdiv h
    rw [exec_div hb h]
    obtain ⟨t, w, ht, rfl, effect, z, n, v⟩ := finishPair_result (reg2 := r2) (s := s)
      (high := BitVec.ofInt 32 (a.toInt.tmod b.toInt))
      (f := divFlags (BitVec.ofInt 32 (a.toInt.tdiv b.toInt)) false s.flags.cy)
      rfl rfl Iff.rfl rfl
    refine ⟨t, _, _, ht, (Int.tdiv_mul_add_tmod _ _).symm, abs_tmod_lt _ divisor,
      tmod_mul_self_nonneg _ _, effect, z.trans ?_, n.trans ?_, Bool.eq_false_iff.mpr ?_⟩
    · rw [← BitVec.toInt_inj, quotient]
      rfl
    · rw [BitVec.msb_eq_toInt, quotient, decide_eq_true_iff]
    · exact fun c => Bool.false_ne_true (v.mp c)
  · rw [exec_div_overflow ha hb]
    obtain ⟨t, w, ht, rfl, effect, flags⟩ := finishPair_result (reg2 := r2) (s := s) (high := 0)
      (f := divFlags 0x80000000 true s.flags.cy) (ov := True) rfl rfl (iff_of_true rfl trivial) rfl
    exact ⟨t, ht, effect, flags⟩
  · rw [exec_divu hb, ← BitVec.udiv_def, ← BitVec.umod_def]
    exact finishPair_result rfl rfl (iff_of_false Bool.false_ne_true id) rfl

end Sys2Proof.Machine
end

-- Proofs of the family 41_imm_reg: a halt that nothing can end.
section
/-! PROOFS. A halted machine whose events are all masked waits for ever (spec/41_imm_reg.md R110,
spec/60_exceptions.md R223, R235). -/

namespace Sys2Proof.Machine

/-- The sample in force requests no reset when none of the list does; an empty list requests nothing. -/
theorem sample_resetReq_of_inputs {s : State} (h : ∀ i ∈ s.inputs, i.resetReq = false) :
    s.sample.resetReq = false := by
  unfold State.sample
  cases hs : s.inputs with
  | nil => rfl
  | cons i rest => exact h i (hs ▸ List.mem_cons_self)

/-- While NP = 1 no request but a reset is accepted (R223). -/
theorem noEvent_of_masked {s : State} (hr : s.sample.resetReq = false)
    (hn : s.psw.getLsbD bitNP = true) : s.NoEvent := by
  have masked : s.psw.getLsbD bitNP ≠ false := by rw [hn]; decide
  exact ⟨hr, fun c => masked c.2, fun _ _ c => masked c.1⟩

/-- A run of one step more begins with the step. -/
theorem run_succ_of_step {M : Host.Core} {s t : M.State} (h : M.step s = .next t) (n : Nat) :
    M.run (n + 1) s = M.run n t := by
  rw [Host.Core.run, h]

/-- Settles O16, by induction on the number of steps: each step only uses up the first sample. -/
theorem haltHangsWhileMasked : Obligations.HaltHangsWhileMasked := by
  intro n
  induction n with
  | zero => intro s _ _ _ _; rfl
  | succ n ih =>
    intro s halted running masked quiet
    have waits : step s = .next s.dropSample :=
      stepWith_of_halted (noEvent_of_masked (sample_resetReq_of_inputs quiet) masked) halted running
    have rest := ih s.dropSample halted running masked fun i hi => quiet i (List.mem_of_mem_tail hi)
    rw [run_succ_of_step (M := Sys2Proof.core) waits, rest, dropSample_inputs, List.drop_tail]
    rfl

end Sys2Proof.Machine
end

-- Proofs of the family 41_imm_reg: `trap` and `reti`.
section
/-! PROOFS. Entering an exception by `trap` and returning from one (spec/41_imm_reg.md R108, R109,
spec/60_exceptions.md R211, R214, R217, R219, R220). -/

namespace Sys2Proof.Machine

/-! ## `trap` (R108) -/

/-- The code of `trap` tells the 32 vectors apart (R211). -/
theorem code_trap (v : BitVec 5) : (Exc.trap v).code = BitVec.ofNat 16 (0xFFA0 + v.toNat) := by
  rw [BitVec.ofNat_add, BitVec.ofNat_toNat]
  rfl

/-- Settles O22: `trap` raises its exception with the address after it. -/
theorem trapTaken : Obligations.TrapTaken := by
  intro v s
  refine ⟨fun hn => ?_, rfl⟩
  rw [← code_trap]
  exact raise_enters (.trap v) (s.pc + 2) s hn

/-! ## `reti` (R109, R220) -/

theorem returnFromException_fe {s : State} (h : s.psw.getLsbD bitNP = true) :
    returnFromException s = (s.setPsw s.fepsw).setPc s.fepc := if_pos h

theorem returnFromException_ei {s : State} (h : s.psw.getLsbD bitNP = false) :
    returnFromException s = (s.setPsw s.eipsw).setPc s.eipc := if_neg (Bool.eq_false_iff.mp h)

/-- With the PSW put back, a return has moved the pc and changed nothing else. -/
theorem setPsw_setPc_effect (psw target : Word) (s : State) :
    Effect s { (s.setPsw psw).setPc target with psw := s.psw } [] [] (target &&& 0xFFFFFFFE) :=
  effect_intro (regsAfter_nil rfl) (pswKeeps_refl rfl _) (even_even target).symm rfl

/-- Settles O23: the pair is chosen by NP; the mask on the PSW loses nothing, for the invariant keeps the
reserved bits of both saved copies 0 (R20). -/
theorem retiRestores : Obligations.RetiRestores := by
  intro s inv
  refine ⟨returnFromException s, rfl, ?_⟩
  cases hn : s.psw.getLsbD bitNP with
  | true =>
    rw [returnFromException_fe hn]
    exact ⟨fun _ => ⟨rfl, inv.fepswReserved⟩, nofun, setPsw_setPc_effect s.fepsw s.fepc s⟩
  | false =>
    rw [returnFromException_ei hn]
    exact ⟨nofun, fun _ => ⟨rfl, inv.eipswReserved⟩, setPsw_setPc_effect s.eipsw s.eipc s⟩

end Sys2Proof.Machine
end

-- Proofs of the family 41_imm_reg: `stsr` and `setf`.
section
/-! PROOFS. What `stsr` reads (spec/41_imm_reg.md R112, spec/10_state.md R17) and the conditions of `setf`
(spec/41_imm_reg.md R102, spec/42_branch.md R120). Both end in `finishPlain`. -/

namespace Sys2Proof.Machine

/-! ## `stsr` (R112) -/

/-- `stsr` writes what the system register reads. -/
theorem exec_stsr {n : BitVec 5} {v : Word} {s : State} (h : readSystem n s = some v) (r : RegIdx) :
    ∃ t, exec (.stsr n r) s = .next t ∧ Effect s t [(r, v)] [] (s.pc + 2) := by
  have writes : exec (.stsr n r) s = finishPlain r v 2 s := by
    show execStsr n r s = _
    rw [execStsr, h]
  rw [writes]
  exact finishPlain_effect r v 2 s

/-- `stsr` of a number that nothing is read from is refused. -/
theorem exec_stsr_refused {n : BitVec 5} {s : State} (h : readSystem n s = none) (r : RegIdx) :
    exec (.stsr n r) s = .refused (.reservedSystemRegister n) := by
  show execStsr n r s = _
  rw [execStsr, h]

/-- Nothing is read from a number outside the table of R17. -/
theorem readSystem_reserved {n : BitVec 5} (s : State)
    (hn : (8 ≤ n.toNat ∧ n.toNat ≤ 23) ∨ 26 ≤ n.toNat) : readSystem n s = none := by
  unfold readSystem
  split
  case h_11 => rfl
  all_goals exact absurd hn (by decide)

/-- Settles O28: each number of the table reads its register, and no other number reads anything. -/
theorem stsrReads : Obligations.StsrReads := by
  intro r s
  refine ⟨?_, fun n hn => exec_stsr_refused (readSystem_reserved s hn) r⟩
  simp only [List.forall_mem_cons]
  exact ⟨exec_stsr rfl r, exec_stsr rfl r, exec_stsr rfl r, exec_stsr rfl r, exec_stsr rfl r,
    exec_stsr rfl r, exec_stsr rfl r, exec_stsr rfl r, exec_stsr rfl r, exec_stsr rfl r, nofun⟩

/-! ## `setf` (R102, R120) -/

/-- The table of R120: each condition with what it says of the flags. -/
def conditionTable (f : Flags) : List (BitVec 4 × Bool) :=
  [(0, f.ov), (1, f.cy), (2, f.z), (3, f.cy || f.z), (4, f.s), (5, true), (6, f.s != f.ov),
    (7, (f.s != f.ov) || f.z), (8, !f.ov), (9, !f.cy), (10, !f.z), (11, !f.cy && !f.z), (12, !f.s),
    (13, false), (14, f.s == f.ov), (15, (f.s == f.ov) && !f.z)]

/-- The model's conditions are those of the table. -/
theorem condHolds_of_mem_conditionTable {f : Flags} :
    ∀ p ∈ conditionTable f, condHolds p.1 f = p.2 := by
  have equal : (!(f.s != f.ov)) = (f.s == f.ov) := Bool.not_not _
  have greater : (!((f.s != f.ov) || f.z)) = ((f.s == f.ov) && !f.z) := by rw [Bool.not_or, equal]
  simp only [conditionTable, List.forall_mem_cons]
  exact ⟨condHolds_base 0 f, condHolds_base 1 f, condHolds_base 2 f, condHolds_base 3 f,
    condHolds_base 4 f, condHolds_base 5 f, condHolds_base 6 f, condHolds_base 7 f,
    condHolds_negated 0 f, condHolds_negated 1 f, condHolds_negated 2 f,
    (condHolds_negated 3 f).trans (Bool.not_or _ _), condHolds_negated 4 f, condHolds_negated 5 f,
    (condHolds_negated 6 f).trans equal, (condHolds_negated 7 f).trans greater, nofun⟩

/-- `setf` writes 1 where its condition holds, else 0. -/
theorem exec_setf {c : BitVec 4} {s : State} {b : Bool} (h : condHolds c s.flags = b) (r : RegIdx) :
    ∃ t, exec (.setf c r) s = .next t ∧ Effect s t [(r, if b then 1 else 0)] [] (s.pc + 2) := by
  subst h
  exact finishPlain_effect r (if condHolds c s.flags then 1 else 0) 2 s

/-- Settles O43: the statement lists the table over the flags in the PSW. -/
theorem setfConditions : Obligations.SetfConditions := by
  intro r s z n v c p hp
  have member : p ∈ conditionTable s.flags := hp
  exact exec_setf (condHolds_of_mem_conditionTable p member) r

end Sys2Proof.Machine
end

-- Proofs of the family 42_branch: the branches and `nop`.
section
/-! PROOFS. The branches and `nop` (spec/42_branch.md R121-R137). Each is `branchOn` of its row of the
condition table (R120), so that one lemma over the rows serves all sixteen. -/

namespace Sys2Proof.Machine

section
variable {i : Instr} {d : BitVec 9} {s : State}

/-- An instruction that branches on row `k` of the table moves the pc by what that row says of the flags,
and changes nothing else (R121). -/
theorem effect_of_conditionRow (k : Fin 16)
    (hi : exec i s = branchOn ((conditionTable s.flags).get k).1 d s) :
    ∃ t, exec i s = .next t ∧
      Effect s t [] [] (branchTarget s d ((conditionTable s.flags).get k).2) := by
  rw [hi, ← condHolds_of_mem_conditionTable _ (List.get_mem (conditionTable s.flags) k)]
  exact branchOn_effect _ d s

/-- What never branches goes to the next instruction, whatever the displacement. -/
theorem branchTarget_false (d : BitVec 9) (s : State) : branchTarget s d false = s.pc + 2 := rfl

/-- `nop` is the branch whose condition never holds (R135), its own displacement unused. -/
theorem exec_nop_effect (d : BitVec 9) (s : State) :
    ∃ t, exec .nop s = .next t ∧ Effect s t [] [] (branchTarget s d false) := by
  rw [branchTarget_false, ← branchTarget_false 0]
  exact effect_of_conditionRow 13 rfl

end

/-- Settles O41: rows 0 to 7 of the table. -/
theorem branchesOnCondition : Obligations.BranchesOnCondition := by
  intro d s z n v c
  simp only [List.forall_mem_cons]
  exact ⟨effect_of_conditionRow 0 rfl, effect_of_conditionRow 1 rfl, effect_of_conditionRow 2 rfl,
    effect_of_conditionRow 3 rfl, effect_of_conditionRow 4 rfl, effect_of_conditionRow 5 rfl,
    effect_of_conditionRow 6 rfl, effect_of_conditionRow 7 rfl, nofun⟩

/-- Settles O42: rows 8 to 15 of the table. -/
theorem branchesOnNegation : Obligations.BranchesOnNegation := by
  intro d s z n v c
  simp only [List.forall_mem_cons]
  exact ⟨effect_of_conditionRow 8 rfl, effect_of_conditionRow 9 rfl, effect_of_conditionRow 10 rfl,
    effect_of_conditionRow 11 rfl, effect_of_conditionRow 12 rfl, exec_nop_effect d s,
    effect_of_conditionRow 14 rfl, effect_of_conditionRow 15 rfl, nofun⟩

end Sys2Proof.Machine
end

-- Proofs of the family 43_imm16_jump: `addi` and the logic operations with `imm16`.
section
/-! PROOFS. The additions and logic operations with a 16-bit immediate (spec/43_imm16_jump.md R141,
R144-R146). The sum ends as that of `add` does; the other three are `immLogic` of their result, over the
immediate that `LOGIC_IMM16_EXT` extends. -/

namespace Sys2Proof.Machine

/-- Settles O33: a sum with its flags, and three results of the immediate as the model extends it, which
is the one the parameter selects (`logicImm_eq`). -/
theorem immediateArithmetic : Obligations.ImmediateArithmetic := by
  intro r1 r2 imm s b k
  have extended : k = logicImm s.config.logicImm16Ext imm := (logicImm_eq _ imm).symm
  rw [extended]
  exact ⟨finishFlagged_sum r2 b (imm16Signed imm) 4 s,
    immLogic_effect r2 (b ||| logicImm s.config.logicImm16Ext imm) s,
    immLogic_effect r2 (b &&& logicImm s.config.logicImm16Ext imm) s,
    immLogic_effect r2 (b ^^^ logicImm s.config.logicImm16Ext imm) s⟩

end Sys2Proof.Machine
end

-- Proofs of the family 44_load_store: loads, stores and `caxi`.
section
/-! PROOFS. The loads from ram, rom and a device, the stores to ram and to a device, and `caxi`
(spec/44_load_store.md R151-R156, R160). Each instruction is a shared shape of Machine/LoadStore.lean at
its width; what a load leaves in its register is the bytes of that width, sign-extended. -/

namespace Sys2Proof.Machine

/-- A load from ram or rom, its value the number its bytes make, sign-extended from the width. -/
theorem loadMem_plain_signExtend (w : Width) (d : BitVec 16) (r1 r2 : RegIdx) (s : State)
    (h : s.MemPlain (accessAddr w d r1 s).toNat w.bytes) :
    ∃ t, loadMem w d r1 r2 s = .next t ∧
      Effect s t [(r2, (BitVec.ofNat (8 * w.bytes)
        (littleEndian s.mem (accessAddr w d r1 s).toNat w.bytes)).signExtend 32)] [] (s.pc + 4) := by
  rw [← extendLoad_ofNat]
  exact loadMem_plain w d r1 r2 s h

/-- A load from a device, its value the low bytes of the answer, sign-extended from the width. -/
theorem loadMem_device_signExtend (w : Width) (d : BitVec 16) (r1 r2 : RegIdx) (s : State)
    (h : s.MemAll .device (accessAddr w d r1 s).toNat w.bytes) :
    ∃ t v, loadMem w d r1 r2 s = .next t ∧
      DeviceWasRead s t .memory (accessAddr w d r1 s) w.bytes v ∧
      CoreEffect s t [(r2, (v.extractLsb' 0 (8 * w.bytes)).signExtend 32)] [] (s.pc + 4) ∧
      SameMemory s t ∧ SamePorts s t := by
  simp only [← extendLoad_extract]
  exact loadMem_device w d r1 r2 s h

/-- Settles O44: a clause for memory and one for a device, at each width. -/
theorem loadsRead : Obligations.LoadsRead := by
  intro d r1 r2 s ea
  simp only [List.forall_mem_cons]
  exact ⟨⟨loadMem_plain_signExtend .byte d r1 r2 s, loadMem_device_signExtend .byte d r1 r2 s⟩,
    ⟨loadMem_plain_signExtend .half d r1 r2 s, loadMem_device_signExtend .half d r1 r2 s⟩,
    ⟨loadMem_plain_signExtend .word d r1 r2 s, loadMem_device_signExtend .word d r1 r2 s⟩, nofun⟩

/-- Settles O45: a clause for ram and one for a device, at each width. -/
theorem storesWrite : Obligations.StoresWrite := by
  intro d r1 r2 s ea
  simp only [List.forall_mem_cons]
  exact ⟨⟨storeMem_ram .byte d r1 r2 s, storeMem_device .byte d r1 r2 s⟩,
    ⟨storeMem_ram .half d r1 r2 s, storeMem_device .half d r1 r2 s⟩,
    ⟨storeMem_ram .word d r1 r2 s, storeMem_device .word d r1 r2 s⟩, nofun⟩

/-- Settles O50: the exchange in ram, and the read and the write of a device in that order. -/
theorem caxiExchanges : Obligations.CaxiExchanges :=
  fun d r1 r2 s => ⟨execCaxi_ram d r1 r2 s, execCaxi_device d r1 r2 s⟩

end Sys2Proof.Machine
end

-- Proofs of the family 45_bitstring: string-to-string operations, searches, and broken-off runs.
section
/-! PROOFS. What a bit-string instruction leaves when it ends and when it is broken off, and that a
broken-off one goes on as if it had not been (spec/45_bitstring.md R173-R188). Each rests on one
description of the state after `k` elements, `StringAt` for the operations and `SearchAt` for the searches,
which holds whether or not the run ends there. -/

namespace Sys2Proof.Machine

/-! ## Register files from what they read (R11) -/

/-- A register for which every write agrees, and which is written or held that value before. -/
theorem valueAfter_of_agree {old v : Word} {j : RegIdx} {writes : List (RegIdx × Word)}
    (agree : ∀ w ∈ writes, w.1 = j → w.2 = v) (h : j ∈ writes.map Prod.fst ∨ old = v) :
    valueAfter old j writes = v := by
  induction writes generalizing old with
  | nil => exact h.resolve_left List.not_mem_nil
  | cons w rest ih =>
    refine ih (fun x hx => agree x (List.mem_cons_of_mem _ hx)) ?_
    by_cases hj : w.1 = j
    · exact .inr ((if_pos hj).trans (agree w List.mem_cons_self hj))
    · rw [if_neg hj]
      exact h.imp_left fun hm => (List.mem_cons.mp hm).resolve_left fun c => hj c.symm

/-- Registers that hold the values written, and no others changed. -/
theorem regsAfter_of_reads {s t : State} {writes : List (RegIdx × Word)}
    (written : ∀ w ∈ writes, t.readReg w.1 = w.2)
    (others : ∀ j, j ∉ writes.map Prod.fst → t.readReg j = s.readReg j) : RegsAfter s t writes := by
  intro j
  by_cases h0 : j = 0
  · rw [if_pos h0, h0]
    rfl
  · rw [if_neg h0]
    refine (valueAfter_of_agree (fun w hw hj => hj ▸ (written w hw).symm) ?_).symm
    exact (Classical.em _).imp_right fun hj => (others j hj).symm

/-- Nothing but the registers, memory and the pc differs. -/
theorem coreEffect_intro {s t : State} {writes : List (RegIdx × Word)} {next : Word}
    (hr : RegsAfter s t writes) (hpc : t.pc = next &&& 0xFFFFFFFE)
    (h : t = { s with regs := t.regs, mem := t.mem, pc := t.pc }) : CoreEffect s t writes [] next := by
  have e : ∀ {α : Type} (f : State → α), f t = f { s with regs := t.regs, mem := t.mem, pc := t.pc } :=
    fun f => congrArg f h
  exact
    { regs := hr
      psw := pswKeeps_refl (e State.psw) []
      pc := hpc
      system := ⟨e State.eipc, e State.eipsw, e State.fepc, e State.fepsw, e State.ecr,
        e State.pir, e State.tkcw, e State.chcw, e State.adtre⟩
      control := ⟨e State.halted, e State.stopped, e State.inputs, e State.icache, e State.config⟩ }

/-- The next instruction of two bytes is not this one, wherever the pc is. -/
theorem nextShort_ne (pc : Word) : (pc + 2) &&& 0xFFFFFFFE ≠ pc := by
  intro c
  have h := congrArg BitVec.toNat c
  rw [toNat_and_even, BitVec.toNat_add, show (2 : Word).toNat = 2 from rfl] at h
  have := pc.isLt
  omega

/-! ## How many elements are left -/

/-- A word less a count that it is not below. -/
theorem word_sub_ofNat {v : Word} {k : Nat} (h : k ≤ v.toNat) :
    v - BitVec.ofNat 32 k = BitVec.ofNat 32 (v.toNat - k) := by
  have := v.isLt
  apply BitVec.eq_of_toNat_eq
  simp only [BitVec.toNat_sub, BitVec.toNat_ofNat]
  omega

/-- What is left of a length is nothing exactly when all of it is done. -/
theorem word_sub_ofNat_eq_zero {v : Word} {k : Nat} (h : k ≤ v.toNat) :
    v - BitVec.ofNat 32 k = 0 ↔ k = v.toNat := by
  have := v.isLt
  rw [word_sub_ofNat h, ← BitVec.toNat_inj, BitVec.toNat_ofNat, show (0 : Word).toNat = 0 from rfl]
  omega

theorem elementsToRun_le (s : State) : elementsToRun s ≤ (s.readReg 28).toNat := by
  unfold elementsToRun
  split
  · exact Nat.min_le_right _ _
  · exact Nat.le_refl _

/-- A run that is not broken off before its end does all its elements. -/
theorem elementsToRun_all {s : State} (h : ∀ b, s.breakPoint = some b → (s.readReg 28).toNat ≤ b) :
    elementsToRun s = (s.readReg 28).toNat := by
  unfold elementsToRun
  split
  · exact Nat.min_eq_right (h _ ‹_›)
  · rfl

/-- One that is broken off does as many as the environment chose (R176). -/
theorem elementsToRun_broken {s : State} {k : Nat} (hb : s.breakPoint = some k)
    (hk : k < (s.readReg 28).toNat) : elementsToRun s = k := by
  rw [elementsToRun, hb]
  exact Nat.min_eq_left (by omega)

theorem elementsToRun_maskStringRegs (s : State) :
    elementsToRun (maskStringRegs s) = elementsToRun s := by
  obtain ⟨breaks, count, -⟩ := maskStringRegs_spec s
  rw [elementsToRun, breaks, count, elementsToRun]

/-- With no input sample left nothing breaks a run off. -/
theorem elementsToRun_noInputs (s : State) :
    elementsToRun { s with inputs := [] } = (s.readReg 28).toNat :=
  elementsToRun_all fun _ h => nomatch h

/-! ## The strings that the registers name (R171) -/

/-- The first bit of the source. -/
abbrev State.sourceStart (s : State) : Nat := startBit (s.readReg 30) (s.readReg 27)

/-- The first bit of the destination. -/
abbrev State.destStart (s : State) : Nat := startBit (s.readReg 29) (s.readReg 26)

/-- The words of the first `k` elements are where a string-to-string operation may access them (R173). -/
abbrev State.StringPlaces (s : State) (k : Nat) : Prop :=
  ∀ j, j < k → s.MemPlain (bitAddress (bitFrom .up s.sourceStart j)).toNat 4 ∧
    s.MemAll .ram (bitAddress (bitFrom .up s.destStart j)).toNat 4

/-! ## Pointers that are masked already (R171) -/

theorem maskPtr_bitPtr {p : Nat} (h : p < 2 ^ 35) : maskPtr (bitPtr p) = bitPtr p := by
  have start : startBit (bitAddress p) (bitOffset p) = p := by
    rw [startBit, bitAddress_toNat h, bitOffset_toNat]
    omega
  exact (maskPtr_eq _ _).trans (congrArg bitPtr start)

theorem setSourcePtr_self {s : State} {p : Word × Word} (h : s.sourcePtr = p) :
    s.setSourcePtr p = s := by
  rw [← h, State.setSourcePtr, State.sourcePtr, writeReg_self, writeReg_self]

theorem setDestPtr_self {s : State} {p : Word × Word} (h : s.destPtr = p) : s.setDestPtr p = s := by
  rw [← h, State.setDestPtr, State.destPtr, writeReg_self, writeReg_self]

theorem maskStringRegs_of_bitPtr {s : State} {p q : Nat} (hS : s.sourcePtr = bitPtr p)
    (hD : s.destPtr = bitPtr q) (lS : p < 2 ^ 35) (lD : q < 2 ^ 35) : maskStringRegs s = s := by
  rw [maskStringRegs, hS, hD, maskPtr_bitPtr lS, maskPtr_bitPtr lD, setSourcePtr_self hS,
    setDestPtr_self hD]

theorem readReg_maskStringRegs_other (s : State) {j : RegIdx} (hj : j ∉ stringRegs) :
    (maskStringRegs s).readReg j = s.readReg j := by
  simp only [stringRegs, List.mem_cons, List.not_mem_nil, or_false, not_or] at hj
  obtain ⟨h30, h27, h29, h26, -⟩ := hj
  unfold maskStringRegs State.setDestPtr State.setSourcePtr
  rw [readReg_writeReg_other _ _ _ _ h26, readReg_writeReg_other _ _ _ _ h29,
    readReg_writeReg_other _ _ _ _ h27, readReg_writeReg_other _ _ _ _ h30]

/-! ## String-to-string operations after `k` elements (R173) -/

/-- The state after `k` elements of a string-to-string operation on the strings from bits `src` and `dst`
up. -/
structure StringAt (f : Bool → Bool → Bool) (s t : State) (src dst k : Nat) : Prop where
  source : t.sourcePtr = bitPtr (bitFrom .up src k)
  dest : t.destPtr = bitPtr (bitFrom .up dst k)
  count : t.readReg 28 = s.readReg 28 - BitVec.ofNat 32 k
  others : ∀ j : RegIdx, j ∉ stringRegs → t.readReg j = s.readReg j
  rest : t = { s with regs := t.regs, mem := t.mem }
  bits : StringBits f s t src dst k

/-- Elements whose words are in ram, or in rom for the source, are all processed. -/
theorem stringLoop_at (f : Bool → Bool → Bool) {s : State} {k : Nat} (hk : k ≤ (s.readReg 28).toNat)
    (places : s.StringPlaces k) :
    ∃ t, stringLoop f k (maskStringRegs s) = .next t ∧
      StringAt f s t s.sourceStart s.destStart k := by
  have small := (s.readReg 28).isLt
  obtain ⟨-, count, src, dst, rest⟩ := maskStringRegs_spec s
  have config : (maskStringRegs s).config = s.config := by rw [rest]
  have mem : (maskStringRegs s).mem = s.mem := by rw [rest]
  obtain ⟨t, run, tsrc, tdst, tcount, others, trest, outside, fresh, rewritten⟩ :=
    stringLoop_spec f k src dst (startBit_lt _ _) (startBit_lt _ _) (by omega) fun j hj => by
      rw [memPlain_congr config, memAll_congr config]
      exact places j hj
  have frame : t = { s with regs := t.regs, mem := t.mem } := by rw [trest, rest]
  rw [mem] at outside fresh rewritten
  exact ⟨t, run,
    { source := tsrc
      dest := tdst
      count := by rw [tcount, count]
      others := fun j hj => (others j hj).trans (readReg_maskStringRegs_other s hj)
      rest := frame
      bits := ⟨fun a => by rw [frame], by rw [frame]; exact ⟨rfl, rfl⟩, outside, fresh, rewritten⟩ }⟩

/-- Elements that were processed leave the state just described. -/
theorem stringLoop_next_at {f : Bool → Bool → Bool} {s t : State} {k : Nat}
    (hk : k ≤ (s.readReg 28).toNat) (h : stringLoop f k (maskStringRegs s) = .next t) :
    StringAt f s t s.sourceStart s.destStart k := by
  obtain ⟨-, -, src, dst, rest⟩ := maskStringRegs_spec s
  have config : (maskStringRegs s).config = s.config := by rw [rest]
  obtain ⟨u, run, at'⟩ := stringLoop_at f hk fun j hj => by
    rw [← memPlain_congr config, ← memAll_congr config]
    exact stringLoop_next_places h src dst (startBit_lt _ _) (startBit_lt _ _) j hj
  rw [h] at run
  cases run
  exact at'

/-- The five registers after `k` elements. -/
theorem StringAt.regs {f : Bool → Bool → Bool} {s t : State} {src dst k : Nat}
    (h : StringAt f s t src dst k) (hk : k ≤ (s.readReg 28).toNat) :
    RegsAfter s t
      [(30, bitAddress (bitFrom .up src k)), (27, bitOffset (bitFrom .up src k)),
        (29, bitAddress (bitFrom .up dst k)), (26, bitOffset (bitFrom .up dst k)),
        (28, BitVec.ofNat 32 ((s.readReg 28).toNat - k))] := by
  refine regsAfter_of_reads ?_ h.others
  simp only [List.forall_mem_cons]
  exact ⟨congrArg Prod.fst h.source, congrArg Prod.snd h.source, congrArg Prod.fst h.dest,
    congrArg Prod.snd h.dest, h.count.trans (word_sub_ofNat hk), nofun⟩

/-- The pc stays while the elements are processed. -/
theorem StringAt.pc {f : Bool → Bool → Bool} {s t : State} {src dst k : Nat}
    (h : StringAt f s t src dst k) : t.pc = s.pc := by rw [h.rest]

/-- A string-to-string operation runs its elements, and goes to the next instruction when none is left. -/
theorem stringOp_at (f : Bool → Bool → Bool) {s : State} {k : Nat} (hk : elementsToRun s = k)
    (ho : ¬s.OverlapsAbove) (places : s.StringPlaces k) :
    ∃ t, stringOp f s = .next (if k = (s.readReg 28).toNat then t.advance 2 else t) ∧
      StringAt f s t s.sourceStart s.destStart k := by
  have le : k ≤ (s.readReg 28).toNat := hk ▸ elementsToRun_le s
  obtain ⟨t, run, at'⟩ := stringLoop_at f le places
  refine ⟨t, ?_, at'⟩
  rw [stringOp_runs ho, elementsToRun_maskStringRegs, hk, run, bindOutcome_next, at'.count]
  simp only [word_sub_ofNat_eq_zero le]

/-- The refusal names the strings by their first linear bit numbers. -/
theorem stringOp_refused (f : Bool → Bool → Bool) {s : State} (h : s.OverlapsAbove) :
    stringOp f s = .refused (.destructiveOverlap s.sourceStart s.destStart) := by
  obtain ⟨-, -, src, dst, -⟩ := maskStringRegs_spec s
  rw [stringOp_overlap h, src, dst, linearBit_bitPtr (startBit_lt _ _),
    linearBit_bitPtr (startBit_lt _ _)]

/-- Settles O58: the refused overlap, and the run of all the elements. -/
theorem stringOperationResult : Obligations.StringOperationResult := by
  intro i f s hf n src dst
  rw [exec_stringFunction hf]
  refine ⟨stringOp_refused f, fun ho hb places => ?_⟩
  obtain ⟨t, run, at'⟩ := stringOp_at f (elementsToRun_all hb) ho places
  rw [if_pos rfl] at run
  have regs := at'.regs (Nat.le_refl _)
  rw [Nat.sub_self] at regs
  refine ⟨t.advance 2, run, coreEffect_intro regs ?_ ?_, at'.bits⟩
  · rw [advance_pc, at'.pc]
  · rw [at'.rest]
    rfl

/-! ## Searches after `k` bits passed over (R174) -/

/-- The source registers masked before a search. -/
def maskSearchRegs (s : State) : State := s.setSourcePtr (maskPtr s.sourcePtr)

/-- Where a search ends: on a hit, at the end of its string, or broken off (R174, R176). -/
def searchEnd (d : Direction) (r : Bool × State) : State :=
  if r.1 then ((searchHit d r.2).setPswBit bitZ false).advance 2
  else if r.2.readReg 28 = 0 then (r.2.setPswBit bitZ true).advance 2
  else r.2

theorem readReg_maskSearchRegs_other (s : State) {j : RegIdx} (h30 : j ≠ 30) (h27 : j ≠ 27) :
    (maskSearchRegs s).readReg j = s.readReg j := by
  unfold maskSearchRegs State.setSourcePtr
  rw [readReg_writeReg_other _ _ _ _ h27, readReg_writeReg_other _ _ _ _ h30]

theorem maskSearchRegs_sourcePtr (s : State) :
    (maskSearchRegs s).sourcePtr = bitPtr s.sourceStart := by
  rw [← maskPtr_eq]
  simp [maskSearchRegs, State.setSourcePtr, readReg_writeReg, State.sourcePtr]

theorem maskSearchRegs_breakPoint (s : State) : (maskSearchRegs s).breakPoint = s.breakPoint := by
  simp [maskSearchRegs, State.breakPoint, State.setSourcePtr]

theorem elementsToRun_maskSearchRegs (s : State) :
    elementsToRun (maskSearchRegs s) = elementsToRun s := by
  rw [elementsToRun, maskSearchRegs_breakPoint,
    readReg_maskSearchRegs_other s (by decide) (by decide), elementsToRun]

/-- A search masks its pointer, runs its loop and ends. -/
theorem searchOp_runs (b : Bool) (d : Direction) (s : State) :
    searchOp b d s = bindOutcome (searchLoop b d (elementsToRun s) (maskSearchRegs s))
      fun r => .next (searchEnd d r) := by
  rw [← elementsToRun_maskSearchRegs]
  rfl

/-- A search whose pointer is masked has passed over no bit. -/
theorem searchAt_maskSearchRegs (s : State) (d : Direction) :
    SearchAt s (maskSearchRegs s) d s.sourceStart 0 where
  source := by rw [maskSearchRegs_sourcePtr, bitFrom_zero _ (startBit_lt _ _)]
  count := by rw [readReg_maskSearchRegs_other s (by decide) (by decide)]; simp
  passed := by rw [readReg_maskSearchRegs_other s (by decide) (by decide)]; simp
  others := fun _ h30 h27 _ _ => readReg_maskSearchRegs_other s h30 h27
  rest := rfl

/-- What is counted from the masked registers is counted from those before. -/
theorem SearchAt.of_masked {s t : State} {d : Direction} {k : Nat}
    (h : SearchAt (maskSearchRegs s) t d s.sourceStart k) : SearchAt s t d s.sourceStart k := by
  have start : bitFrom d s.sourceStart 0 = s.sourceStart := bitFrom_zero d (startBit_lt _ _)
  have whole := (searchAt_maskSearchRegs s d).trans (k := k) (by rwa [start])
  rwa [Nat.zero_add] at whole

/-- The search of `searchLoop_spec`, from the registers before they are masked. -/
theorem searchLoop_at (b : Bool) (d : Direction) {n : Nat} {s : State}
    (places : ∀ j, j < n → (∀ l, l < j → memoryBit s.mem (bitFrom d s.sourceStart l) ≠ b) →
      s.MemPlain (bitAddress (bitFrom d s.sourceStart j)).toNat 4) :
    (∀ k, k < n → memoryBit s.mem (bitFrom d s.sourceStart k) = b →
      (∀ l, l < k → memoryBit s.mem (bitFrom d s.sourceStart l) ≠ b) →
      ∃ t, searchLoop b d n (maskSearchRegs s) = .next (true, t) ∧ SearchAt s t d s.sourceStart k) ∧
    ((∀ l, l < n → memoryBit s.mem (bitFrom d s.sourceStart l) ≠ b) →
      ∃ t, searchLoop b d n (maskSearchRegs s) = .next (false, t) ∧ SearchAt s t d s.sourceStart n) := by
  have config : (maskSearchRegs s).config = s.config := rfl
  obtain ⟨hit, miss⟩ := searchLoop_spec b d n (maskSearchRegs_sourcePtr s) (startBit_lt _ _)
    fun j hj hl => (memPlain_congr config).mpr (places j hj hl)
  refine ⟨fun k hk hb hl => ?_, fun hl => ?_⟩
  · obtain ⟨t, run, at'⟩ := hit k hk hb hl
    exact ⟨t, run, at'.of_masked⟩
  · obtain ⟨t, run, at'⟩ := miss hl
    exact ⟨t, run, at'.of_masked⟩

/-- A search loop that completes has passed over some bits, and over all where it found none. -/
theorem searchLoop_next_at {b r : Bool} {d : Direction} {n : Nat} {s t : State} {p : Nat}
    (h : searchLoop b d n s = .next (r, t)) (hS : s.sourcePtr = bitPtr p) (lS : p < 2 ^ 35) :
    ∃ k, SearchAt s t d p k ∧ (r = false → k = n) := by
  induction n generalizing s p with
  | zero =>
    cases h
    exact ⟨0, searchAt_refl d hS lS, fun _ => rfl⟩
  | succ n ih =>
    obtain ⟨w, -, h⟩ := (bindOutcome_eq_next _ _ _).mp h
    split at h
    · cases h
      exact ⟨0, searchAt_refl d hS lS, nofun⟩
    · have one := searchStep_at s d hS lS
      obtain ⟨k, more, all⟩ := ih h one.source (bitFrom_lt _ _ _)
      exact ⟨1 + k, one.trans more, fun hr => by rw [all hr, Nat.add_comm]⟩

/-- The four registers of a search whose pointer and count are written last. -/
theorem SearchAt.regs {s t u : State} {d : Direction} {p k : Nat} (h : SearchAt s t d p k)
    {q : Word × Word} {c : Word} (hu : u.regs = ((t.setSourcePtr q).writeReg 28 c).regs) :
    RegsAfter s u [(30, q.1), (27, q.2), (28, c), (29, s.readReg 29 + BitVec.ofNat 32 k)] := by
  refine regsAfter_of_reads ?_ fun j hj => ?_
  · simp only [List.forall_mem_cons, readReg_congr hu]
    refine ⟨?_, ?_, ?_, ?_, nofun⟩
    · simp [State.setSourcePtr, readReg_writeReg]
    · simp [State.setSourcePtr, readReg_writeReg]
    · simp [readReg_writeReg]
    · rw [← h.passed]
      simp [State.setSourcePtr, readReg_writeReg]
  · simp only [List.map_cons, List.map_nil, List.mem_cons, List.not_mem_nil, or_false, not_or] at hj
    obtain ⟨h30, h27, h28, h29⟩ := hj
    rw [readReg_congr hu, readReg_writeReg_other _ _ _ _ h28, State.setSourcePtr,
      readReg_writeReg_other _ _ _ _ h27, readReg_writeReg_other _ _ _ _ h30, h.others j h30 h27 h28 h29]

/-- The same where the loop's own pointer and count stay. -/
theorem SearchAt.regs_passed {s t u : State} {d : Direction} {p k : Nat} (h : SearchAt s t d p k)
    (hk : k ≤ (s.readReg 28).toNat) (hu : u.regs = t.regs) :
    RegsAfter s u [(30, bitAddress (bitFrom d p k)), (27, bitOffset (bitFrom d p k)),
      (28, BitVec.ofNat 32 ((s.readReg 28).toNat - k)), (29, s.readReg 29 + BitVec.ofNat 32 k)] := by
  refine h.regs (q := bitPtr (bitFrom d p k)) ?_
  rw [setSourcePtr_self h.source, ← word_sub_ofNat hk, ← h.count, writeReg_self, hu]

/-- How many bits on from its start a search that hits after `k` of `n` bits leaves its pointer, and what
is left of its length (R174). -/
def foundStand (m : FoundPointer) (n k : Nat) : Nat × Nat :=
  match m with
  | .atFound => (k, n - k)
  | .afterFound => (k + 1, n - k - 1)
  | .beforeFound => (k + (2 ^ 35 - 1), n - k)

theorem foundPtr_bitPtr (m : FoundPointer) (d : Direction) (p n k : Nat) :
    foundPtr m d (bitPtr (bitFrom d p k)) = bitPtr (bitFrom d p (foundStand m n k).1) := by
  cases m with
  | atFound => rfl
  | afterFound => exact (step_bitPtr d (bitFrom_lt _ _ _)).trans (congrArg bitPtr (bitFrom_add d p k 1))
  | beforeFound => exact (back_bitPtr d (bitFrom_lt _ _ _)).trans (congrArg bitPtr (bitFrom_add d p k _))

theorem foundCount_ofNat (m : FoundPointer) {n k : Nat} (hk : k < n) :
    foundCount m (BitVec.ofNat 32 (n - k)) = BitVec.ofNat 32 (foundStand m n k).2 := by
  cases m with
  | atFound => rfl
  | afterFound =>
    apply BitVec.eq_of_toNat_eq
    show (BitVec.ofNat 32 (n - k) - 1#32).toNat = (BitVec.ofNat 32 (n - k - 1)).toNat
    simp only [BitVec.toNat_sub, BitVec.toNat_ofNat]
    omega
  | beforeFound => rfl

/-- A search that ends writes Z and goes to the next instruction. -/
theorem effect_searchEnds {s u : State} {writes : List (RegIdx × Word)} {b : Bool}
    (regs : RegsAfter s u writes) (rest : u = { s with regs := u.regs }) :
    ((u.setPswBit bitZ b).advance 2).psw.getLsbD bitZ = b ∧
    Effect s ((u.setPswBit bitZ b).advance 2) writes [bitZ] (s.pc + 2) := by
  have pc : u.pc = s.pc := by rw [rest]
  have psw : u.psw = s.psw := by rw [rest]
  refine ⟨?_, effect_intro regs (pswKeeps_setBit (b := b) ?_) ?_ ?_⟩
  · rw [advance_psw, setPswBit_psw, getLsbD_setBit]
    rfl
  · rw [advance_psw, setPswBit_psw, psw]
  · rw [advance_pc, setPswBit_pc, pc]
  · rw [rest]
    rfl

/-- What a search that hits after `k` other bits leaves (R174). -/
theorem searchHit_effect {s t : State} {d : Direction} {p k : Nat} (h : SearchAt s t d p k)
    (hk : k < (s.readReg 28).toNat) :
    let stand := foundStand s.config.schFoundPointer (s.readReg 28).toNat k
    (searchEnd d (true, t)).psw.getLsbD bitZ = false ∧
    Effect s (searchEnd d (true, t))
      [(30, bitAddress (bitFrom d p stand.1)), (27, bitOffset (bitFrom d p stand.1)),
        (28, BitVec.ofNat 32 stand.2), (29, s.readReg 29 + BitVec.ofNat 32 k)] [bitZ] (s.pc + 2) := by
  intro stand
  have config : t.config = s.config := by rw [h.rest]
  have regs : (searchHit d t).regs =
      ((t.setSourcePtr (bitPtr (bitFrom d p stand.1))).writeReg 28 (BitVec.ofNat 32 stand.2)).regs := by
    rw [searchHit, config, h.source, foundPtr_bitPtr _ _ _ (s.readReg 28).toNat, h.count,
      word_sub_ofNat (Nat.le_of_lt hk), foundCount_ofNat _ hk]
  refine effect_searchEnds (u := searchHit d t) (h.regs regs) ?_
  rw [h.rest]
  rfl

/-- What a search that finds nothing leaves (R174). -/
theorem searchMiss_effect {s t : State} {d : Direction} {p : Nat}
    (h : SearchAt s t d p (s.readReg 28).toNat) :
    (searchEnd d (false, t)).psw.getLsbD bitZ = true ∧
    Effect s (searchEnd d (false, t))
      [(30, bitAddress (bitFrom d p (s.readReg 28).toNat)),
        (27, bitOffset (bitFrom d p (s.readReg 28).toNat)), (28, 0),
        (29, s.readReg 29 + BitVec.ofNat 32 (s.readReg 28).toNat)] [bitZ] (s.pc + 2) := by
  have none_left : t.readReg 28 = 0 := h.count.trans ((word_sub_ofNat_eq_zero (Nat.le_refl _)).mpr rfl)
  have regs := h.regs_passed (Nat.le_refl _) (u := t) rfl
  rw [Nat.sub_self] at regs
  rw [searchEnd, if_neg Bool.false_ne_true, if_pos none_left]
  exact effect_searchEnds regs h.rest

/-- Settles O59: the hit, and the miss. -/
theorem searchResult : Obligations.SearchResult := by
  intro i b d s hf n src at' places
  rw [exec_searchFunction hf, searchOp_runs]
  obtain ⟨hit, miss⟩ := searchLoop_at b d (n := elementsToRun s) fun j hj =>
    places j (Nat.lt_of_lt_of_le hj (elementsToRun_le s))
  refine ⟨fun k hk hb htarget hbefore => ?_, fun hb hnone => ?_⟩
  · obtain ⟨t, run, passed⟩ := hit k (lt_elementsToRun hk hb) htarget hbefore
    rw [run]
    exact ⟨_, rfl, searchHit_effect passed hk⟩
  · rw [elementsToRun_all hb] at miss ⊢
    obtain ⟨t, run, passed⟩ := miss hnone
    rw [run]
    exact ⟨_, rfl, searchMiss_effect passed⟩

/-- A search with bits left has not ended: it is broken off. -/
theorem searchEnd_of_left {d : Direction} {t : State} (h : t.readReg 28 ≠ 0) :
    searchEnd d (false, t) = t := by
  rw [searchEnd, if_neg Bool.false_ne_true, if_neg h]

/-- Fewer bits passed over than there are leave some. -/
theorem SearchAt.left {s t : State} {d : Direction} {p k : Nat} (h : SearchAt s t d p k)
    (hk : k < (s.readReg 28).toNat) : t.readReg 28 ≠ 0 := by
  rw [h.count]
  exact mt (word_sub_ofNat_eq_zero (Nat.le_of_lt hk)).mp (Nat.ne_of_lt hk)

/-! ## Runs do not look at the input samples -/

/-- The state under other input samples. -/
def State.withInputs (s : State) (l : List Inputs) : State := { s with inputs := l }

/-- A write does the same under any samples. -/
theorem bsWrite_withInputs (a v : Word) (s : State) (l : List Inputs) :
    bsWrite a v (s.withInputs l) = bindOutcome (bsWrite a v s) fun t => .next (t.withInputs l) := by
  have place : (s.withInputs l).memPlace = s.memPlace := rfl
  simp only [bsWrite, place]
  split_ifs <;> rfl

/-- So does an element of a string-to-string operation. -/
theorem stringElement_withInputs (f : Bool → Bool → Bool) (s : State) (l : List Inputs) :
    stringElement f (s.withInputs l) =
      bindOutcome (stringElement f s) fun t => .next (t.withInputs l) := by
  have read : ∀ a, bsRead a (s.withInputs l) = bsRead a s := fun _ => rfl
  simp only [stringElement, bindOutcome_assoc, read, bsWrite_withInputs]
  rfl

theorem stringLoop_withInputs {f : Bool → Bool → Bool} {n : Nat} {s t : State}
    (h : stringLoop f n s = .next t) (l : List Inputs) :
    stringLoop f n (s.withInputs l) = .next (t.withInputs l) := by
  induction n generalizing s with
  | zero =>
    cases h
    rfl
  | succ n ih =>
    obtain ⟨u, hu, h⟩ := (bindOutcome_eq_next _ _ _).mp h
    rw [stringLoop, stringElement_withInputs, hu]
    exact ih h

/-- And a search. -/
theorem searchLoop_withInputs {b r : Bool} {d : Direction} {n : Nat} {s t : State}
    (h : searchLoop b d n s = .next (r, t)) (l : List Inputs) :
    searchLoop b d n (s.withInputs l) = .next (r, t.withInputs l) := by
  induction n generalizing s with
  | zero =>
    cases h
    rfl
  | succ n ih =>
    obtain ⟨w, hw, h⟩ := (bindOutcome_eq_next _ _ _).mp h
    have read : bsRead (s.withInputs l).sourcePtr.1 (s.withInputs l) = .next w := hw
    have ptr : (s.withInputs l).sourcePtr = s.sourcePtr := rfl
    rw [searchLoop, read, bindOutcome_next, ptr]
    split at h
    · cases h
      exact if_pos ‹_›
    · exact (if_neg ‹_›).trans (ih h)

/-! ## Broken-off runs go on (R176) -/

/-- A string-to-string operation whose pc has not moved was broken off, and its masked registers are its
progress. -/
theorem stringOp_next_stays {f : Bool → Bool → Bool} {s t : State} (h : stringOp f s = .next t)
    (stays : t.pc = s.pc) :
    stringLoop f (elementsToRun s) (maskStringRegs s) = .next t ∧
    StringAt f s t s.sourceStart s.destStart (elementsToRun s) := by
  obtain ⟨-, u, run, rfl⟩ := stringOp_next h
  rw [elementsToRun_maskStringRegs] at run
  have at' := stringLoop_next_at (elementsToRun_le s) run
  split at stays
  · rw [advance_pc, at'.pc] at stays
    exact absurd stays (nextShort_ne _)
  · rw [if_neg ‹_›]
    exact ⟨run, at'⟩

/-- A length is what is done of it and what is left. -/
theorem length_split {s t : State}
    (h : t.readReg 28 = s.readReg 28 - BitVec.ofNat 32 (elementsToRun s)) :
    (s.readReg 28).toNat = elementsToRun s + (t.readReg 28).toNat := by
  have le := elementsToRun_le s
  have := (s.readReg 28).isLt
  rw [h, word_sub_ofNat le, BitVec.toNat_ofNat]
  omega

/-- An operation that nothing breaks off, on strings that are no destructive overlap. -/
theorem stringOp_uninterrupted (f : Bool → Bool → Bool) {s : State} (h : ¬s.OverlapsAbove) :
    stringOp f (s.withInputs []) =
      bindOutcome (stringLoop f (s.readReg 28).toNat ((maskStringRegs s).withInputs []))
        fun t => .next (if t.readReg 28 = 0 then t.advance 2 else t) := by
  have noOverlap : ¬(s.withInputs []).OverlapsAbove := h
  have run : elementsToRun (s.withInputs []) = (s.readReg 28).toNat := elementsToRun_noInputs s
  rw [stringOp_runs noOverlap, elementsToRun_maskStringRegs, run]
  rfl

/-- A broken-off string-to-string operation, executed again, ends as one that was not (R176). -/
theorem stringOp_resumes {f : Bool → Bool → Bool} {s t : State} (h : stringOp f s = .next t)
    (stays : t.pc = s.pc) (ho : ¬t.OverlapsAbove) :
    t.inputs = s.inputs ∧ stringOp f (t.withInputs []) = stringOp f (s.withInputs []) := by
  obtain ⟨run, at'⟩ := stringOp_next_stays h stays
  have masked : maskStringRegs t = t :=
    maskStringRegs_of_bitPtr at'.source at'.dest (bitFrom_lt _ _ _) (bitFrom_lt _ _ _)
  refine ⟨by rw [at'.rest], ?_⟩
  rw [stringOp_uninterrupted f ho, stringOp_uninterrupted f (stringOp_next h).1,
    length_split at'.count, stringLoop_add, stringLoop_withInputs run, masked, bindOutcome_next]

/-- A search whose pc has not moved was broken off. -/
theorem searchOp_next_stays {b : Bool} {d : Direction} {s t : State} (h : searchOp b d s = .next t)
    (stays : t.pc = s.pc) :
    searchLoop b d (elementsToRun s) (maskSearchRegs s) = .next (false, t) ∧
    SearchAt s t d s.sourceStart (elementsToRun s) := by
  rw [searchOp_runs] at h
  obtain ⟨⟨r, u⟩, run, h⟩ := (bindOutcome_eq_next _ _ _).mp h
  cases h
  obtain ⟨k, masked, all⟩ := searchLoop_next_at run (maskSearchRegs_sourcePtr s) (startBit_lt _ _)
  have passed := masked.of_masked
  have pc : u.pc = s.pc := by rw [passed.rest]
  have ended : ∀ v : State, v.pc = s.pc → (v.advance 2).pc ≠ s.pc := fun v hv => by
    rw [advance_pc, hv]
    exact nextShort_ne _
  cases r with
  | true => exact absurd stays (ended ((searchHit d u).setPswBit bitZ false) pc)
  | false =>
    by_cases left : u.readReg 28 = 0
    · rw [searchEnd, if_neg Bool.false_ne_true, if_pos left] at stays
      exact absurd stays (ended (u.setPswBit bitZ true) pc)
    · rw [searchEnd_of_left left]
      exact ⟨run, all rfl ▸ passed⟩

/-- A search that nothing breaks off. -/
theorem searchOp_uninterrupted (b : Bool) (d : Direction) (s : State) :
    searchOp b d (s.withInputs []) =
      bindOutcome (searchLoop b d (s.readReg 28).toNat ((maskSearchRegs s).withInputs []))
        fun r => .next (searchEnd d r) := by
  have run : elementsToRun (s.withInputs []) = (s.readReg 28).toNat := elementsToRun_noInputs s
  rw [searchOp_runs, run]
  rfl

/-- A broken-off search, executed again, ends as one that was not (R176). -/
theorem searchOp_resumes {b : Bool} {d : Direction} {s t : State} (h : searchOp b d s = .next t)
    (stays : t.pc = s.pc) :
    t.inputs = s.inputs ∧ searchOp b d (t.withInputs []) = searchOp b d (s.withInputs []) := by
  obtain ⟨run, passed⟩ := searchOp_next_stays h stays
  have masked : maskSearchRegs t = t := by
    rw [maskSearchRegs, passed.source, maskPtr_bitPtr (bitFrom_lt _ _ _),
      setSourcePtr_self passed.source]
  refine ⟨by rw [passed.rest], ?_⟩
  rw [searchOp_uninterrupted, searchOp_uninterrupted, length_split passed.count,
    searchLoop_add _ (searchLoop_withInputs run []), masked]

/-- Settles O60: a string-to-string operation and a search broken off, and both gone on with. -/
theorem brokenOffRunResumes : Obligations.BrokenOffRunResumes := by
  refine ⟨?_, ?_, ?_⟩
  · intro i f s k hf hb even n src dst hk ho places
    obtain ⟨t, run, at'⟩ := stringOp_at f (elementsToRun_broken hb hk) ho places
    rw [if_neg (Nat.ne_of_lt hk)] at run
    rw [exec_stringFunction hf]
    refine ⟨t, run, coreEffect_intro (at'.regs (Nat.le_of_lt hk)) ?_ ?_, at'.bits⟩
    · rw [at'.pc, (pc_even even).2]
    · rw [at'.rest]
  · intro i b d s k hf hb even n src hk others places
    obtain ⟨t, run, passed⟩ := (searchLoop_at b d fun j hj _ => places j hj).2 others
    rw [exec_searchFunction hf, searchOp_runs, elementsToRun_broken hb hk, run, bindOutcome_next,
      searchEnd_of_left (passed.left hk)]
    refine ⟨t, rfl, effect_intro (passed.regs_passed (Nat.le_of_lt hk) rfl) (pswKeeps_refl ?_ []) ?_ ?_⟩
    · rw [passed.rest]
    · rw [(pc_even even).2, passed.rest]
    · rw [passed.rest]
  · intro i s t hi ho h stays
    rcases hi with hi | hi
    · obtain ⟨f, hf⟩ := Option.isSome_iff_exists.mp hi
      rw [exec_stringFunction hf] at h
      rw [exec_stringFunction hf, exec_stringFunction hf]
      exact stringOp_resumes h stays (ho hi)
    · obtain ⟨⟨b, d⟩, hf⟩ := Option.isSome_iff_exists.mp hi
      rw [exec_searchFunction hf] at h
      rw [exec_searchFunction hf, exec_searchFunction hf]
      exact searchOp_resumes h stays

end Sys2Proof.Machine
end

-- Proofs of the family 46_float: the comparison, rounded results, and the conversions.
section
/-! PROOFS. What the floating-point instructions deliver under the suggested `FP`: the exact comparison of
`cmpf.s`, one rounding of an exact fraction for the four operations and `cvt.ws`, and the integers of
`cvt.sw` and `trnc.sw` (spec/46_float.md R189-R200). The rounding itself is `roundFraction_spec`; here its
three cases meet the range of each instruction. -/

namespace Sys2Proof.Machine

/-! ## The common denominator of finite values (R190) -/

theorem floatUnit_pos : 0 < floatUnit := Nat.two_pow_pos 149

theorem floatUnit_cast_pos : (0 : ℚ) < floatUnit := Nat.cast_pos.mpr floatUnit_pos

theorem div_floatUnit_eq_zero {n : ℤ} : (n : ℚ) / floatUnit = 0 ↔ n = 0 := by
  rw [div_eq_zero_iff, or_iff_left floatUnit_cast_pos.ne', Int.cast_eq_zero]

/-! ## A delivered result (R191, R192) -/

/-- A result changes its destination, the flags, and the sticky bits it sets; `bits` may leave out CY where
the flags keep it. -/
theorem finishFloat_delivers {r2 : RegIdx} {r : Word} {fud fpr : Bool} {f : Word → Flags} {s : State}
    (bits : List Nat) (hflags : [bitZ, bitS, bitOV] ⊆ bits)
    (hcy : (f r).cy = s.flags.cy ∨ bitCY ∈ bits) (hpr : fpr = true → bitFPR ∈ bits)
    (hud : fud = true → bitFUD ∈ bits) :
    ∃ t, finishFloat r2 (.value r fud fpr) f s = .next t ∧ Effect s t [(r2, r)] bits (s.pc + 4) ∧
      FlagsAre t ((f r).z = true) ((f r).s = true) ((f r).ov = true) ((f r).cy = true) ∧
      t.psw.getLsbD bitFPR = (fpr || s.psw.getLsbD bitFPR) ∧
      t.psw.getLsbD bitFUD = (fud || s.psw.getLsbD bitFUD) := by
  have apart : ∀ {n b : Nat}, n ∉ bits → b ∈ bits → n ≠ b := fun hn hb c => hn (c ▸ hb)
  exact finishFloat_effect bits fun n hn =>
    ⟨apart hn (hflags (by simp)), apart hn (hflags (by simp)), apart hn (hflags (by simp)),
      hcy.imp_right (apart hn), fun h => apart hn (hpr h), fun h => apart hn (hud h)⟩

/-- A zero of either sign is delivered with Z alone set. -/
theorem finishFloat_zero {r2 : RegIdx} {neg fud fpr : Bool} {s : State} (bits : List Nat)
    (hflags : [bitZ, bitS, bitOV, bitCY] ⊆ bits) (hpr : fpr = true → bitFPR ∈ bits)
    (hud : fud = true → bitFUD ∈ bits) :
    ∃ t, finishFloat r2 (.value (floatZero neg) fud fpr) floatFlags s = .next t ∧
      Effect s t [(r2, floatZero neg)] bits (s.pc + 4) ∧ FlagsAre t True False False False ∧
      t.psw.getLsbD bitFPR = (fpr || s.psw.getLsbD bitFPR) ∧
      t.psw.getLsbD bitFUD = (fud || s.psw.getLsbD bitFUD) := by
  obtain ⟨t, ht, effect, flags, sticky⟩ := finishFloat_delivers (r2 := r2) (r := floatZero neg)
    (f := floatFlags) (s := s) bits (fun _ hn => hflags (List.mem_append_left [bitCY] hn))
    (.inr (hflags (by simp))) hpr hud
  rw [zero_flags] at flags
  exact ⟨t, ht, effect, flagsAre_congr flags (by simp) (by simp) (by simp) (by simp), sticky⟩

/-- A normal result is delivered with the sign of the exact value in S and CY, and with FPR where it is
inexact. -/
theorem finishFloat_normal {r2 : RegIdx} {r : Word} {inexact : Bool} {q : ℚ} {s : State}
    (hr : floatClass r = .normal) (hsign : r.msb = decide (q < 0))
    (hinexact : inexact = true ↔ floatVal r ≠ q) :
    ∃ t, finishFloat r2 (.value r false inexact) floatFlags s = .next t ∧
      Effect s t [(r2, r)] [bitZ, bitS, bitOV, bitCY, bitFPR] (s.pc + 4) ∧
      FlagsAre t False (q < 0) False (q < 0) ∧
      (t.psw.getLsbD bitFPR = true ↔ s.psw.getLsbD bitFPR = true ∨ floatVal r ≠ q) := by
  obtain ⟨t, ht, effect, flags, fpr, -⟩ := finishFloat_delivers (r2 := r2) (r := r) (fud := false)
    (fpr := inexact) (f := floatFlags) (s := s) [bitZ, bitS, bitOV, bitCY, bitFPR] (by simp)
    (.inr (by simp)) (by simp) (by simp)
  rw [normal_flags hr, hsign] at flags
  refine ⟨t, ht, effect, flagsAre_congr flags (by simp) (by simp) (by simp) (by simp), ?_⟩
  rw [fpr, Bool.or_eq_true, hinexact, or_comm]

/-! ## Rounded fractions (R189, R191) -/

theorem roundFraction_zero (u : UnderflowZero) (den : ℕ) (z : Bool) :
    roundFraction u 0 den z = .value (floatZero z) false false := if_pos rfl

/-- A fraction in range is delivered rounded to nearest, ties to even. -/
theorem finishFloat_roundFraction {u : UnderflowZero} {num : ℤ} {den : ℕ} (hd : den ≠ 0)
    (low : floatLow ≤ |(num : ℚ) / den|) (high : |(num : ℚ) / den| < floatHigh) (z : Bool)
    (r2 : RegIdx) (s : State) :
    ∃ t r, finishFloat r2 (roundFraction u num den z) floatFlags s = .next t ∧
      NearestFloat ((num : ℚ) / den) r ∧
      Effect s t [(r2, r)] [bitZ, bitS, bitOV, bitCY, bitFPR] (s.pc + 4) ∧
      FlagsAre t False ((num : ℚ) / den < 0) False ((num : ℚ) / den < 0) ∧
      (t.psw.getLsbD bitFPR = true ↔
        s.psw.getLsbD bitFPR = true ∨ floatVal r ≠ (num : ℚ) / den) := by
  have hn : num ≠ 0 := by
    rintro rfl
    norm_num [floatLow] at low
  rcases roundFraction_spec u num den z hn hd with ⟨big, -⟩ | ⟨under, -⟩ |
    ⟨-, -, r, inexact, ho, near, sign, hinexact⟩
  · exact absurd high (not_lt.mpr big)
  · exact absurd low (not_le.mpr under)
  · rw [ho]
    obtain ⟨t, ht, rest⟩ := finishFloat_normal (r2 := r2) (s := s) near.1 sign hinexact
    exact ⟨t, r, ht, near, rest⟩

/-- A fraction below the range becomes a zero (R191). -/
theorem roundFraction_underflow {u : UnderflowZero} {num : ℤ} {den : ℕ} (hn : num ≠ 0) (hd : den ≠ 0)
    (h : |(num : ℚ) / den| < floatLow) (z : Bool) :
    roundFraction u num den z = .value (underflowZero u (decide ((num : ℚ) / den < 0))) true true := by
  have hlow : floatLow < floatHigh := by norm_num [floatLow, floatHigh]
  rcases roundFraction_spec u num den z hn hd with ⟨big, -⟩ | ⟨-, ho⟩ | ⟨inside, -⟩
  · exact absurd (h.trans hlow) (not_lt.mpr big)
  · exact ho
  · exact absurd h (not_lt.mpr inside)

/-- The zero of an underflow is a zero of one sign (`FP_UNDERFLOW_ZERO`, R191). -/
theorem underflowZero_eq (u : UnderflowZero) (neg : Bool) :
    underflowZero u neg = floatZero (decide (u = .signed) && neg) := by
  cases u <;> rfl

/-- Settles O52: the exact result is a fraction, and `roundFraction` delivers it. -/
theorem floatRoundsToNearestEven : Obligations.FloatRoundsToNearestEven := by
  intro r1 r2 s i q hfp ha hb harith low high
  obtain ⟨num, den, z, hd, rfl, hx⟩ := floatArith_rounds hfp ha hb harith
  rw [hx]
  exact finishFloat_roundFraction hd low high z r2 s

/-! ## Exact zeros (R189) -/

/-- The operations and operand signs for which an exact zero is negative: IEEE 754's rule under rounding to
nearest. -/
abbrev NegativeZero (r1 r2 : RegIdx) (s : State) (i : Instr) : Prop :=
  (i = .addfS r1 r2 ∧ (s.readReg r2).msb = true ∧ (s.readReg r1).msb = true) ∨
  (i = .subfS r1 r2 ∧ (s.readReg r2).msb = true ∧ (s.readReg r1).msb = false) ∨
  ((i = .mulfS r1 r2 ∨ i = .divfS r1 r2) ∧ (s.readReg r2).msb ≠ (s.readReg r1).msb)

/-- A finite operand has the value 0 exactly if its scaled integer is 0. -/
theorem floatVal_eq_zero {v : Word} (h : FiniteFloat v) : floatVal v = 0 ↔ floatScaled v = 0 := by
  rw [floatVal_eq h, div_floatUnit_eq_zero]

/-- An exact zero is delivered with IEEE 754's sign and no sticky bit (R189, R196-R199). -/
theorem floatArith_exactZero {r1 r2 : RegIdx} {s : State} {i : Instr} (hfp : s.config.fp = .binary32)
    (ha : FiniteFloat (s.readReg r2)) (hb : FiniteFloat (s.readReg r1)) (h : FloatArith r1 r2 s i 0) :
    ∃ z : Bool, (z = true ↔ NegativeZero r1 r2 s i) ∧
      exec i s = finishFloat r2 (.value (floatZero z) false false) floatFlags s := by
  rcases h with ⟨rfl, hq⟩ | ⟨rfl, hq⟩ | ⟨rfl, hq⟩ | ⟨rfl, hb0, hq⟩
  · have sum : floatScaled (s.readReg r2) + floatScaled (s.readReg r1) = 0 := by
      rwa [floatVal_eq ha, floatVal_eq hb, ← add_div, ← Int.cast_add, eq_comm,
        div_floatUnit_eq_zero] at hq
    refine ⟨(s.readReg r2).msb && (s.readReg r1).msb, by simp [NegativeZero], ?_⟩
    rw [exec_addfS_binary32 hfp, floatAdd_finite _ ha hb, sum, roundFraction_zero]
  · have difference : floatScaled (s.readReg r2) - floatScaled (s.readReg r1) = 0 := by
      rwa [floatVal_eq ha, floatVal_eq hb, ← sub_div, ← Int.cast_sub, eq_comm,
        div_floatUnit_eq_zero] at hq
    refine ⟨(s.readReg r2).msb && !(s.readReg r1).msb, by simp [NegativeZero], ?_⟩
    rw [exec_subfS_binary32 hfp, floatSub_finite _ ha hb, difference, roundFraction_zero]
  · have product : floatScaled (s.readReg r2) * floatScaled (s.readReg r1) = 0 := by
      rwa [eq_comm, mul_eq_zero, floatVal_eq_zero ha, floatVal_eq_zero hb, ← mul_eq_zero] at hq
    refine ⟨(s.readReg r2).msb ^^ (s.readReg r1).msb, by simp [NegativeZero], ?_⟩
    rw [exec_mulfS_binary32 hfp, floatMul_finite _ ha hb, product, roundFraction_zero]
  · have divisor : floatClass (s.readReg r1) = .normal := hb.resolve_left fun c =>
      hb0 ((floatVal_eq_zero hb).mpr ((floatScaled_zero _).mpr c))
    have dividend : floatScaled (s.readReg r2) = 0 := by
      rwa [eq_comm, div_eq_zero_iff, or_iff_left hb0, floatVal_eq_zero ha] at hq
    refine ⟨(s.readReg r2).msb ^^ (s.readReg r1).msb, by simp [NegativeZero], ?_⟩
    rw [exec_divfS_binary32 hfp, floatDiv_finite _ ha divisor, dividend, neg_zero, ite_self,
      roundFraction_zero]

/-- Settles O53: an exact zero is not rounded, and a result below the range is the zero of
`FP_UNDERFLOW_ZERO`. -/
theorem floatZeroAndUnderflow : Obligations.FloatZeroAndUnderflow := by
  intro r1 r2 s i q hfp ha hb harith
  refine ⟨?_, ?_⟩
  · rintro rfl
    obtain ⟨z, hz, hx⟩ := floatArith_exactZero hfp ha hb harith
    obtain ⟨t, ht, effect, flags, -⟩ := finishFloat_zero (r2 := r2) (neg := z) (fud := false)
      (fpr := false) (s := s) [bitZ, bitS, bitOV, bitCY] (by simp) (by simp) (by simp)
    have sign : floatZero z = if NegativeZero r1 r2 s i then 0x80000000 else 0 := if_congr hz rfl rfl
    exact ⟨t, hx.trans ht, sign ▸ effect, flags⟩
  · intro hq0 low
    obtain ⟨num, den, z, hd, rfl, hx⟩ := floatArith_rounds hfp ha hb harith
    have hn : num ≠ 0 := by
      rintro rfl
      simp at hq0
    rw [hx, roundFraction_underflow hn hd low, underflowZero_eq]
    obtain ⟨t, ht, effect, flags, fpr, fud⟩ := finishFloat_zero (r2 := r2)
      (neg := decide (s.config.fpUnderflowZero = .signed) && decide ((num : ℚ) / den < 0))
      (fud := true) (fpr := true) (s := s) [bitZ, bitS, bitOV, bitCY, bitFPR, bitFUD] (by simp)
      (by simp) (by simp)
    have sign : floatZero (decide (s.config.fpUnderflowZero = .signed) && decide ((num : ℚ) / den < 0)) =
        if s.config.fpUnderflowZero = .signed ∧ (num : ℚ) / den < 0 then 0x80000000 else 0 :=
      if_congr (by simp) rfl rfl
    exact ⟨t, ht, sign ▸ effect, flags, fpr, fud⟩

/-! ## `cvt.ws` (R194) -/

theorem exec_cvtWS_binary32 {r1 r2 : RegIdx} {s : State} (h : s.config.fp = .binary32) :
    exec (.cvtWS r1 r2) s = finishFloat r2
      (roundFraction s.config.fpUnderflowZero (s.readReg r1).toInt 1 false) floatFlags s :=
  completeFloat_binary32 h _ _ _ _

/-- A signed integer other than 0 is in the range of the normal numbers. -/
theorem toInt_in_range {v : Word} (h : v.toInt ≠ 0) :
    floatLow ≤ |(v.toInt : ℚ)| ∧ |(v.toInt : ℚ)| < floatHigh := by
  have low : (1 : ℚ) ≤ |(v.toInt : ℚ)| := by exact_mod_cast Int.one_le_abs h
  have high : |(v.toInt : ℚ)| ≤ 2 ^ 31 := by
    have hv : |v.toInt| ≤ 2 ^ 31 :=
      abs_le.mpr ⟨BitVec.le_toInt v, (BitVec.toInt_lt (x := v)).le⟩
    exact_mod_cast hv
  exact ⟨le_trans (by norm_num [floatLow]) low, lt_of_le_of_lt high (by norm_num [floatHigh])⟩

/-- Settles O55: 0 is exact, and every other integer is a fraction in range. -/
theorem cvtWsRounds : Obligations.CvtWsRounds := by
  intro r1 r2 s hfp
  dsimp only
  rw [exec_cvtWS_binary32 hfp]
  by_cases h0 : (s.readReg r1).toInt = 0
  · rw [h0, roundFraction_zero, Int.cast_zero]
    obtain ⟨t, ht, effect, flags, fpr, -⟩ := finishFloat_zero (r2 := r2) (neg := false)
      (fud := false) (fpr := false) (s := s) [bitZ, bitS, bitOV, bitCY, bitFPR] (by simp) (by simp)
      (by simp)
    have hv : floatVal (floatZero false) = 0 := if_pos (by decide)
    refine ⟨t, floatZero false, ht, fun _ => rfl, fun c => absurd rfl c, effect,
      flagsAre_congr flags (by simp) (by simp) (by simp) (by simp), ?_⟩
    rw [fpr, hv]
    simp
  · obtain ⟨low, high⟩ := toInt_in_range h0
    have hq : ((s.readReg r1).toInt : ℚ) = (s.readReg r1).toInt / (1 : ℕ) := by simp
    rw [hq] at low high ⊢
    obtain ⟨t, r, ht, near, effect, flags, fpr⟩ := finishFloat_roundFraction
      (u := s.config.fpUnderflowZero) one_ne_zero low high false r2 s
    have hq0 : ¬((s.readReg r1).toInt : ℚ) / (1 : ℕ) = 0 := by simpa using h0
    exact ⟨t, r, ht, fun c => absurd c hq0, fun _ => near, effect,
      flagsAre_congr flags (by simp [h0]) Iff.rfl Iff.rfl Iff.rfl, fpr⟩

/-! ## `cmpf.s` (R193) -/

/-- Values compare as the scaled integers do, an infinity above every finite value. -/
theorem floatVal_compare {a b : Word} (ha : floatClass a ≠ .denormal) (hb : floatClass b ≠ .denormal) :
    (floatVal a = floatVal b ↔ floatScaled a = floatScaled b) ∧
    (floatVal a < floatVal b ↔ floatScaled a < floatScaled b) := by
  rw [floatVal_eq_of ha, floatVal_eq_of hb, div_left_inj' floatUnit_cast_pos.ne',
    div_lt_div_iff_of_pos_right floatUnit_cast_pos, Int.cast_inj, Int.cast_lt]
  exact ⟨Iff.rfl, Iff.rfl⟩

section
variable {r1 r2 : RegIdx} {s : State} (hfp : s.config.fp = .binary32)
include hfp

theorem exec_cmpfS_compares (ha : isReserved s.config.fpReservedInf (s.readReg r2) = false)
    (hb : isReserved s.config.fpReservedInf (s.readReg r1) = false) : exec (.cmpfS r1 r2) s =
      .next ((s.setFlags (compareFlags (floatEq (s.readReg r2) (s.readReg r1))
        (floatLt (s.readReg r2) (s.readReg r1)))).advance 4) := by
  change execCmpfS r1 r2 s = _
  rw [execCmpfS, hfp]
  simp only [ha, hb, Bool.or_self, Bool.false_eq_true, if_false]

/-- A reserved operand is the same condition as for the arithmetic instructions. -/
theorem exec_cmpfS_reserved (h : isReserved s.config.fpReservedInf (s.readReg r2) = true ∨
      isReserved s.config.fpReservedInf (s.readReg r1) = true) :
    exec (.cmpfS r1 r2) s = finishFloat 0 .reserved floatFlags s := by
  change execCmpfS r1 r2 s = floatTrap bitFRO .floatReserved s
  rw [execCmpfS, hfp]
  exact if_pos (by simpa using h)

end

/-- Settles O51: the two comparisons of the scaled integers are those of the values. -/
theorem cmpfComparesValues : Obligations.CmpfComparesValues := by
  intro r1 r2 s hfp
  refine ⟨fun ha hb => ?_, fun h => floatTraps_reserved (exec_cmpfS_reserved hfp h) rfl⟩
  obtain ⟨heq, hlt⟩ := floatVal_compare (not_denormal_of ha) (not_denormal_of hb)
  refine ⟨_, exec_cmpfS_compares hfp ha hb, setFlags_advance_effect _ 4 s,
    flagsAre_congr (flagsAre_withFlags (psw := s.psw) rfl) ?_ ?_ ?_ ?_⟩
  · simp [compareFlags, floatEq, heq]
  · simp [compareFlags, floatLt, hlt]
  · simp [compareFlags]
  · simp [compareFlags, floatLt, hlt]

/-! ## A magnitude with the sign of an integer

`nearestInt` and `truncatedInt` take an integer magnitude of the magnitude of the operand and give it the
operand's sign. -/

/-- The magnitude `m` with the sign of `x`. -/
def withSignOf (x : ℤ) (m : ℕ) : ℤ := if x < 0 then -m else m

theorem nearestInt_eq (b : Word) : nearestInt b =
    withSignOf (floatScaled b) (roundHalfEven (floatScaled b).natAbs floatUnit) := rfl

theorem truncatedInt_eq (b : Word) : truncatedInt b =
    withSignOf (floatScaled b) ((floatScaled b).natAbs / floatUnit) := by
  rw [truncatedInt, withSignOf, Int.natCast_div]

section
variable (x : ℤ) (d m : ℕ)

theorem abs_withSignOf : |(withSignOf x m : ℚ)| = m := by
  unfold withSignOf
  split <;> simp

theorem withSignOf_emod_two : withSignOf x m % 2 = 0 ↔ m % 2 = 0 := by
  unfold withSignOf
  split <;> omega

theorem abs_int_div : |(x : ℚ) / d| = (x.natAbs : ℚ) / d := by
  rw [abs_div, Nat.abs_cast, Nat.cast_natAbs, Int.cast_abs]

/-- The two differ as their magnitudes do. -/
theorem div_sub_withSignOf : |(x : ℚ) / d - withSignOf x m| = |(x.natAbs : ℚ) / d - m| := by
  rw [Nat.cast_natAbs, Int.cast_abs, withSignOf]
  split
  next h =>
    have hx : (x : ℚ) < 0 := by exact_mod_cast h
    rw [abs_of_neg hx, ← abs_neg]
    congr 1
    push_cast
    ring
  next h =>
    have hx : (0 : ℚ) ≤ x := by exact_mod_cast not_lt.mp h
    rw [abs_of_nonneg hx, Int.cast_natCast]

theorem div_mul_withSignOf_nonneg : 0 ≤ (x : ℚ) / d * withSignOf x m := by
  unfold withSignOf
  split
  next h =>
    have hx : (x : ℚ) / d ≤ 0 := div_nonpos_of_nonpos_of_nonneg (by exact_mod_cast h.le) (by positivity)
    exact mul_nonneg_of_nonpos_of_nonpos hx (by simp)
  next h =>
    have hx : (0 : ℚ) ≤ x := by exact_mod_cast not_lt.mp h
    exact mul_nonneg (by positivity) (by positivity)

/-- The fraction is the signed magnitude exactly if its magnitude is that magnitude. -/
theorem div_eq_withSignOf : (x : ℚ) / d = withSignOf x m ↔ (x.natAbs : ℚ) / d = m := by
  rw [← sub_eq_zero, ← abs_eq_zero, div_sub_withSignOf, abs_eq_zero, sub_eq_zero]

end

/-! ## The integers of `cvt.sw` and `trnc.sw` (R195, R200) -/

/-- A quotient is its integer part and a fraction below 1. -/
theorem nat_div_eq (a : ℕ) {d : ℕ} (hd : d ≠ 0) :
    (a : ℚ) / d = (a / d : ℕ) + ((a % d : ℕ) : ℚ) / d := by
  have hd' : (d : ℚ) ≠ 0 := by exact_mod_cast hd
  rw [div_eq_iff hd', add_mul, div_mul_cancel₀ _ hd']
  exact_mod_cast (Nat.div_add_mod' a d).symm

section
variable {b : Word} (h : floatClass b ≠ .denormal)
include h

theorem nearestInt_nearest : NearestInt (floatVal b) (nearestInt b) := by
  obtain ⟨near, tie, -⟩ := roundHalfEven_spec (floatScaled b).natAbs floatUnit floatUnit_pos.ne'
  rw [NearestInt, floatVal_eq_of h, nearestInt_eq, div_sub_withSignOf, withSignOf_emod_two]
  exact (lt_or_eq_of_le near).imp_right fun c => ⟨c, tie c⟩

theorem hasFraction_nearestInt : hasFraction b = true ↔ floatVal b ≠ nearestInt b := by
  obtain ⟨-, -, inexact⟩ := roundHalfEven_spec (floatScaled b).natAbs floatUnit floatUnit_pos.ne'
  rw [hasFraction, bne_iff_ne, inexact, floatVal_eq_of h, nearestInt_eq, ne_eq, ne_eq,
    div_eq_withSignOf, eq_comm]

theorem truncatedInt_truncated : TruncatedInt (floatVal b) (truncatedInt b) := by
  have part := nat_div_eq (floatScaled b).natAbs floatUnit_pos.ne'
  have frac0 : (0 : ℚ) ≤ (((floatScaled b).natAbs % floatUnit : ℕ) : ℚ) / floatUnit := by positivity
  have frac1 : (((floatScaled b).natAbs % floatUnit : ℕ) : ℚ) / floatUnit < 1 := by
    rw [div_lt_one floatUnit_cast_pos]
    exact_mod_cast Nat.mod_lt _ floatUnit_pos
  rw [TruncatedInt, floatVal_eq_of h, truncatedInt_eq]
  refine ⟨?_, ?_, div_mul_withSignOf_nonneg _ _ _⟩
  · rw [abs_withSignOf, abs_int_div, part]
    exact le_add_of_nonneg_right frac0
  · rw [div_sub_withSignOf, part, add_sub_cancel_left, abs_of_nonneg frac0]
    exact frac1

theorem hasFraction_truncatedInt : hasFraction b = true ↔ floatVal b ≠ truncatedInt b := by
  rw [hasFraction, bne_iff_ne, floatVal_eq_of h, truncatedInt_eq, ne_eq, ne_eq, div_eq_withSignOf,
    nat_div_eq _ floatUnit_pos.ne', add_eq_left, div_eq_zero_iff,
    or_iff_left floatUnit_cast_pos.ne', Nat.cast_eq_zero]

end

/-- An integer is delivered with its flags, CY as it was, and FPR where the operand had a fraction. -/
theorem finishFloat_integer {r2 : RegIdx} {n : ℤ} {q : ℚ} {inexact : Bool} {s : State}
    (hinexact : inexact = true ↔ q ≠ n) :
    ∃ t, finishFloat r2 (.value (BitVec.ofInt 32 n) false inexact)
        (fun n => floatIntFlags n s.flags.cy) s = .next t ∧
      Effect s t [(r2, BitVec.ofInt 32 n)] [bitZ, bitS, bitOV, bitFPR] (s.pc + 4) ∧
      ResultFlagsAre t (BitVec.ofInt 32 n) False ∧
      (t.psw.getLsbD bitFPR = true ↔ s.psw.getLsbD bitFPR = true ∨ q ≠ n) := by
  obtain ⟨t, ht, effect, ⟨hz, hs, hov, -⟩, fpr, -⟩ := finishFloat_delivers (r2 := r2)
    (r := BitVec.ofInt 32 n) (fud := false) (fpr := inexact)
    (f := fun n => floatIntFlags n s.flags.cy) (s := s) [bitZ, bitS, bitOV, bitFPR] (by simp)
    (.inl rfl) (by simp) (by simp)
  refine ⟨t, ht, effect, ⟨hz.trans ?_, hs, hov.trans ?_⟩, ?_⟩
  · simp [floatIntFlags]
  · simp [floatIntFlags]
  · rw [fpr, Bool.or_eq_true, hinexact, or_comm]

section
variable {r1 r2 : RegIdx} {s : State} (hfp : s.config.fp = .binary32)
include hfp

theorem exec_cvtSW_binary32 : exec (.cvtSW r1 r2) s =
    finishFloat r2 (intOfFloat s.config (s.readReg r1)) (fun n => floatIntFlags n s.flags.cy) s :=
  completeFloat_binary32 hfp _ _ _ _

theorem exec_trncSW_binary32 : exec (.trncSW r1 r2) s =
    finishFloat r2 (truncOfFloat s.config (s.readReg r1)) (fun n => floatIntFlags n s.flags.cy) s :=
  completeFloat_binary32 hfp _ _ _ _

end

/-- The outcomes of `cvt.sw` on an operand that is not reserved (R195). -/
theorem intOfFloat_eq {c : Config} {b : Word} (h : isReserved c.fpReservedInf b = false) :
    intOfFloat c b = if nearestInt b < -2 ^ 31 ∨ 2 ^ 31 - 1 < nearestInt b then .invalid
      else .value (BitVec.ofInt 32 (nearestInt b)) false (hasFraction b) := by
  rw [intOfFloat, h, if_neg Bool.false_ne_true]

/-- The outcomes of `trnc.sw` on an operand that is not reserved (R200). -/
theorem truncOfFloat_eq {c : Config} {b : Word} (h : isReserved c.fpReservedInf b = false) :
    truncOfFloat c b = if trncInRange c.trncSwResult (truncatedInt b) then
      .value (BitVec.ofInt 32 (truncatedInt b)) false (hasFraction b) else .invalid := by
  rw [truncOfFloat, h, if_neg Bool.false_ne_true]

/-- Settles O56: the integer is `nearestInt` of the operand. -/
theorem cvtSwRounds : Obligations.CvtSwRounds := by
  intro r1 r2 s hfp
  have hx := exec_cvtSW_binary32 (r1 := r1) (r2 := r2) hfp
  refine ⟨fun h => ⟨nearestInt (s.readReg r1), nearestInt_nearest (not_denormal_of h), ?_, ?_⟩,
    fun h => floatTraps_reserved hx (if_pos h)⟩
  · intro low high
    rw [hx, intOfFloat_eq h, if_neg (by omega)]
    exact finishFloat_integer (hasFraction_nearestInt (not_denormal_of h))
  · intro out
    exact floatTraps_invalid hx ((intOfFloat_eq h).trans (if_pos out))

/-- The range of `trnc.sw` as R200 words it for each value of `TRNC_SW_RESULT`. -/
theorem trncInRange_iff (t : TrncResult) (n : ℤ) : trncInRange t n = true ↔ match t with
    | .signed => -2 ^ 31 ≤ n ∧ n ≤ 2 ^ 31 - 1
    | .unsigned => 0 ≤ n ∧ n ≤ 2 ^ 32 - 1 := by
  unfold trncInRange
  split
  next common => cases t <;> simp only [true_iff] <;> omega
  next => cases t <;> exact decide_eq_true_iff

/-- Settles O57: the integer is `truncatedInt` of the operand. -/
theorem trncSwTruncates : Obligations.TrncSwTruncates := by
  intro r1 r2 s hfp
  have hx := exec_trncSW_binary32 (r1 := r1) (r2 := r2) hfp
  refine ⟨fun h => ⟨truncatedInt (s.readReg r1), truncatedInt_truncated (not_denormal_of h), ?_, ?_⟩,
    fun h => floatTraps_reserved hx (if_pos h)⟩
  · intro ok
    rw [hx, truncOfFloat_eq h, if_pos ((trncInRange_iff _ _).mpr ok)]
    exact finishFloat_integer (hasFraction_truncatedInt (not_denormal_of h))
  · intro out
    exact floatTraps_invalid hx ((truncOfFloat_eq h).trans (if_neg (mt (trncInRange_iff _ _).mp out)))

end Sys2Proof.Machine
end

-- Proofs of the family 60_exceptions: the exceptions an instruction raises.
section
/-! PROOFS. The table of exceptions, their regular, duplexed and fatal entry, and the address trap
(spec/60_exceptions.md R211-R214, R217, R219). -/

namespace Sys2Proof.Machine

/-! ## Codes and handlers (R211) -/

/-- The code of `trap` as a number: the sum of the base and the vector does not wrap. -/
theorem toNat_code_trap (v : BitVec 5) : (Exc.trap v).code.toNat = 0xFFA0 + v.toNat := by
  have hv := v.isLt
  rw [code_trap, BitVec.toNat_ofNat]
  omega

/-- The two handlers of `trap` tell vectors below 16 from the others, as bit 4 of its code does. -/
theorem handler_trap_eq_code (v : BitVec 5) :
    (Exc.trap v).handler = 0xFFFF#16 ++ ((Exc.trap v).code &&& 0xFFF0) := by
  revert v
  decide

/-- The code's bits 15:4 give the handler; only the invalid operation has other bits there than the
floating-point handler it shares. -/
theorem handler_eq_code {e : Exc} (h : e ≠ .floatInvalid) :
    e.handler = 0xFFFF#16 ++ (e.code &&& 0xFFF0) := by
  cases e with
  | trap v => exact handler_trap_eq_code v
  | floatInvalid => exact absurd rfl h
  | _ => rfl

/-- Settles O18: the rows with one cause are read off the table. -/
theorem exceptionTable : Obligations.ExceptionTable :=
  ⟨rfl, rfl, rfl, rfl, rfl, rfl, rfl, toNat_code_trap, rfl, rfl, rfl,
    fun _ h _ _ => handler_eq_code h⟩

/-! ## Entry (R214, R217) -/

/-- Settles O19: with NP = 0 an exception enters, and EP = 0 makes the entry the regular one. -/
theorem regularEntryTaken : Obligations.RegularEntryTaken := by
  intro e restore s hep hnp
  obtain ⟨t, ht, enters⟩ := raise_enters e restore s hnp
  exact ⟨t, ht, enters.1 hep⟩

/-- Settles O20: with NP = 0 an exception enters, and EP = 1 makes the entry the duplexed one. -/
theorem duplexedEntryTaken : Obligations.DuplexedEntryTaken := by
  intro e restore s hep hnp
  obtain ⟨t, ht, enters⟩ := raise_enters e restore s hnp
  exact ⟨t, ht, enters.2 hep⟩

/-! ## A fatal exception (R219) -/

/-- A stopped machine has no step but a reset (R28). -/
theorem step_of_stopped {s : State} (hs : s.stopped = true) (hr : s.sample.resetReq = false) :
    step s = .fault .stopped := by
  rw [step, stepWith, hr, if_neg Bool.false_ne_true, if_pos hs]

/-- Settles O21: the exception stops the machine, and a stopped machine has no step. -/
theorem fatalExceptionStops : Obligations.FatalExceptionStops := by
  intro e restore s hnp
  exact ⟨raise_stopsFatally e restore s hnp, step_of_stopped⟩

/-! ## The address trap (R213) -/

/-- With the address trap due nothing is fetched (log entry 32). -/
theorem runInstruction_of_addressTrap {run : Instr → State → Result} {s : State}
    (hae : s.psw.getLsbD bitAE = true) (hpc : s.pc = s.adtre) :
    runInstruction run s = raise .addressTrap s.pc s := by
  have due : s.addressTrapDue = true := by
    rw [State.addressTrapDue, hae, hpc, beq_self_eq_true, Bool.and_self]
  exact if_pos due

/-- Settles O13: without an event the step runs the instruction, where the trap goes first. -/
theorem addressTrapTaken : Obligations.AddressTrapTaken := by
  intro s quiet running notStopped hae hpc hnp
  obtain ⟨t, ht, enters⟩ := raise_enters .addressTrap s.pc s hnp
  refine ⟨t.dropSample, ?_, enters_dropSample enters⟩
  rw [step, stepWith_of_running quiet running notStopped, runInstruction_of_addressTrap hae hpc, ht,
    bindOutcome_next]

end Sys2Proof.Machine
end

-- Proofs of the families 60_exceptions and 70_reset_and_hazards: what the inputs request.
section
/-! PROOFS. The events accepted at a boundary, maskable interrupts and the NMI (spec/60_exceptions.md
R211, R215, R216, R223, R224), and the reset event (spec/70_reset_and_hazards.md R240). -/

namespace Sys2Proof.Machine

/-! ## What an accepted event leaves alone -/

/-- Beyond its entry an accepted event may replace the PSW, ends a halt and uses up the sample, none of
which is in the frame. -/
theorem EntryKeeps.accepted {s t : State} (h : EntryKeeps s t) (psw : Word) :
    EntryKeeps s { t with psw := psw, halted := false, inputs := t.inputs.tail } :=
  { h with }

/-! ## Codes, handlers and levels of maskable interrupts (R211, R215) -/

/-- The code of an interrupt as a number: nothing is shifted out and the sum does not wrap. -/
theorem toNat_irqCode (n : BitVec 4) : (irqCode n).toNat = 0xFE00 + 0x10 * n.toNat := by
  have hn := n.isLt
  rw [irqCode, BitVec.toNat_add, BitVec.toNat_shiftLeft, BitVec.toNat_setWidth,
    Nat.shiftLeft_eq, BitVec.natCast_eq_ofNat, BitVec.toNat_ofNat]
  omega

/-- The handler of an interrupt as a number: 0xFFFF before its code. -/
theorem toNat_irqHandler (n : BitVec 4) :
    (0xFFFF#16 ++ irqCode n).toNat = 0xFFFFFE00 + 0x10 * n.toNat := by
  rw [BitVec.toNat_append, ← Nat.shiftLeft_add_eq_or_of_lt (irqCode n).isLt, toNat_irqCode,
    ← Nat.add_assoc]
  rfl

/-- The handler of an interrupt is an even address. -/
theorem irqHandler_even (n : BitVec 4) :
    (0xFFFF#16 ++ irqCode n : Word) &&& 0xFFFFFFFE = 0xFFFF#16 ++ irqCode n := by
  apply BitVec.eq_of_toNat_eq
  rw [toNat_and_even, toNat_irqHandler]
  omega

/-- The level set on entry as a number. -/
theorem toNat_raisedLevel (n : BitVec 4) : (raisedLevel n).toNat = min (n.toNat + 1) 15 := by
  unfold raisedLevel
  split
  · rename_i top
    rw [top]
    rfl
  · rename_i below
    have hn := n.isLt
    have lt : n.toNat ≠ 15 := fun c => below (BitVec.eq_of_toNat_eq c)
    rw [BitVec.toNat_add, show (1 : BitVec 4).toNat = 1 from rfl]
    omega

/-- Replacing the level after an entry that keeps every PSW bit but three. -/
theorem pswKeeps_withLevel {s t : State} {i j k : Nat} (h : PswKeeps s t [i, j, k]) (n : BitVec 4) :
    PswKeeps s { t with psw := withLevel t.psw n } [i, j, k, 16, 17, 18, 19] := by
  intro m hm
  simp only [List.mem_cons, List.not_mem_nil, or_false, not_or] at hm
  obtain ⟨hi, hj, hk, level⟩ := hm
  rw [getLsbD_withLevel_other _ _ _ (by omega)]
  exact h m (by simp [hi, hj, hk])

/-! ## The obligations -/

/-- Settles O14: the step is the entry of R214 for the interrupt's code and handler; then the level is
raised, which leaves the PSW bits of the entry as they are. -/
theorem maskableInterruptEntry : Obligations.MaskableInterruptEntry := by
  intro s n noReset notStopped noNmi level hnp hep hid hle
  have entry := enterRegular_entry (irqCode n) (0xFFFF#16 ++ irqCode n) s.pc s (irqHandler_even n)
  have low : ∀ (v : Word) (m : Nat), m < 16 →
      (withLevel v (raisedLevel n)).getLsbD m = v.getLsbD m :=
    fun v m hm => getLsbD_withLevel_other v _ m (.inl hm)
  refine ⟨_, step_event noReset notStopped (acceptedEvent_irq hnp noNmi level hep hid hle),
    entry.keeps.accepted _, entry.eipc, entry.eipsw, ?_, entry.fecc, ?_, ?_, ?_, ?_,
    pswKeeps_withLevel entry.psw (raisedLevel n), ?_, entry.fepc, entry.fepsw, rfl, rfl⟩
  · exact (congrArg BitVec.toNat entry.eicc).trans (toNat_irqCode n)
  · exact (low _ bitEP (by decide)).trans entry.ep
  · exact (low _ bitID (by decide)).trans entry.id
  · exact (low _ bitAE (by decide)).trans entry.ae
  · exact (congrArg BitVec.toNat (levelOf_withLevel _ _)).trans (toNat_raisedLevel n)
  · exact (congrArg BitVec.toNat entry.pc).trans (toNat_irqHandler n)

/-- Settles O15: the step is the entry through the FE pair, which a duplexed exception shares, with the
code of the NMI. -/
theorem nmiEntry : Obligations.NmiEntry := by
  intro s noReset notStopped requested hnp
  have entry := enterFatalPair_entry 0xFFD0 s.pc s
  exact ⟨_, step_event noReset notStopped (acceptedEvent_nmi hnp requested),
    entry.keeps.accepted _, entry.fepc, entry.fepsw, entry.fecc, entry.eicc, entry.np, entry.id,
    entry.ae, entry.psw, entry.pc, entry.eipc, entry.eipsw, rfl, rfl⟩

/-- A requested reset goes before everything (R224). -/
theorem step_reset {s : State} (h : s.sample.resetReq = true) :
    step s = .next (performReset s).dropSample := if_pos h

/-- Settles O10: the step is the reset event, which gives the listed registers their values and touches
no space. -/
theorem resetEventServed : Obligations.ResetEventServed := by
  intro s requested
  refine ⟨_, step_reset requested, performReset_pc s, performReset_psw s, performReset_ecr s, ?_,
    performReset_halted s, performReset_stopped s,
    sameMemory_of_eq ((dropSample_mem _).trans (performReset_mem s)),
    samePorts_of_eq ((dropSample_io _).trans (performReset_io s)),
    (dropSample_deviceLog _).trans (performReset_deviceLog s),
    (dropSample_pir _).trans (performReset_pir s),
    (dropSample_tkcw _).trans (performReset_tkcw s), ?_⟩
  · rw [dropSample_chcw, performReset_chcw]
    rfl
  · rw [dropSample_inputs, performReset_inputs]

end Sys2Proof.Machine
end
